-- ==== Sys2Proof/Word.lean ====
section
/-! DEFINITION. The word types of the part and the numbering of its links and contexts. -/

namespace Sys2Proof

/-- A word of the Control Port window (R172). -/
abbrev Word := BitVec 32

/-- A byte of a frame (11.1). -/
abbrev Byte := BitVec 8

/-- CL0 to CL5, coded 0 to 5 (11.2). -/
abbrev LinkId := Fin 6

/-- Change Context 0 to 15 (Table 5.1). -/
abbrev CtxId := Fin 16

/-- A subset of the rights: bit 0 R, bit 1 W, bit 2 D (Table 11.3). -/
abbrev Rights := BitVec 3

/-- A subset of the links: bit n for CLn (Table 11.9). -/
abbrev LinkSet := BitVec 6

/-- A 32-byte command message, byte i at bits 8i to 8i + 7 (Table 11.4). -/
abbrev Message := BitVec 256

/-- Sparse data by number: pairs in one canonical form, keys strictly rising and no entry equal to what an
unlisted key reads as. -/
abbrev Table (α : Type) := List (Nat × α)

end Sys2Proof
end

