-- ==== Sys2Proof/Syntax.lean ====
section
/-! DEFINITION. The commands: one constructor per row of spec/opcode_table.json. -/

namespace Sys2Proof

/-- The two head slots of the window (R164). -/
inductive HeadSlot where
  | response
  | notice
  deriving DecidableEq, Repr

/-- The width of a host write: a word, or less than a word (R172). -/
inductive AccessSize where
  | word
  | narrow
  deriving DecidableEq, Repr

/-- The kinds of frame that only the part sends (Table 8.4). -/
inductive PartSentKind where
  | verdict
  | recall
  | wipe
  | rejoin
  | credit
  deriving DecidableEq, Repr

/-- What the DRAM devices return for a record read (R53 to R55, R171): the image last written, good or with one wrong
bit; an image whose error the ECC cannot correct; or an image that passes the ECC and that R171 finds invalid (log 10). -/
inductive DramReturn where
  | good
  | singleBit
  | uncorrectable
  | invalid (image : BitVec 64)
  deriving DecidableEq, Repr

/-- The commands of the block. A row that issues a command message carries no operand: the message stands in the
Command Intake (log 2). A row taken at the Record Cache port carries none either: the port arbiter names the
requester (R43). -/
inductive Instr where
  | partReset (capacity : BitVec 64)
  | intakeStagingLastWord (value : Word)
  | windowWrite (offset : BitVec 12) (size : AccessSize) (value : Word)
  | snapshotModeWrite (value : Word)
  | watermarkModeWrite (value : Word)
  | interruptEnableWrite (value : Word)
  | clearIntakeOverrun (value : Word)
  | clearNoticeLost (value : Word)
  | portReset (value : Word)
  | headSlotFirstWordRead (slot : HeadSlot)
  | headSlotLastWordRead (slot : HeadSlot)
  | openDomain
  | setDomain
  | defineGroup
  | dropGroup
  | setHome
  | setPolicy
  | snapshot
  | abort
  | linkControlEnable
  | linkControlDisable
  | linkControlRejoin
  | format
  | query
  | closeDomain
  | assign
  | reclaim
  | transfer
  | share
  | unshare
  | wipe
  | releaseFence
  | check (link : LinkId) (payload : BitVec 48)
  | checkPortEvent
  | recordRead
  | recordUpdate
  | wipeStart
  | commitRunWrite
  | revert
  | sweepWindowTake (ctx : CtxId)
  | postResponse
  | missQueueFill (granule : Nat) (dram : DramReturn)
  | tagStoreWriteComplete (granule : Nat)
  | recallAck (link : LinkId) (payload : BitVec 8)
  | wipeDone (link : LinkId) (payload : BitVec 16)
  | rejoinAck (link : LinkId) (payload : BitVec 8)
  | idle (link : LinkId)
  | badCrcFrame (link : LinkId)
  | unknownKindFrame (link : LinkId) (kind : Byte)
  | partSentKindFrame (link : LinkId) (kind : PartSentKind)
  | frameSent (link : LinkId)
  | silenceExpiry (link : LinkId)
  | recallDeadlineExpiry (ctx : CtxId)
  | wipeDeadlineExpiry (ctx : CtxId)
  | rejoinDeadlineExpiry (link : LinkId)
  | snapshotIntervalExpiry
  deriving DecidableEq, Repr

end Sys2Proof
end

