-- ==== Sys2Proof/Decode.lean ====
section
/-! DEFINITION. Bit fields, and the decoder over the rows of the opcode table that give bits (none does). -/

namespace Sys2Proof

/-- The field of `width` bits that begins at bit `lo` of a number. -/
def bitField (x lo width : Nat) : Nat := x / 2 ^ lo % 2 ^ width

/-- One bit of a number. -/
def bitAt (x lo : Nat) : Bool := bitField x lo 1 == 1

/-- A number built of fields, each a value, the bit it begins at and its width; the fields do not overlap. -/
def packFields : List (Nat × Nat × Nat) → Nat
  | [] => 0
  | (v, lo, width) :: rest => v % 2 ^ width * 2 ^ lo + packFields rest

/-- R171: an image is valid unless its state code is 7, or its state is MOVING or WIPING and its prior code is 4, 5 or 7,
or one of the unused bits 31 and 46 to 63 is 1. -/
def imageValid (image : BitVec 64) : Bool :=
  let x := image.toNat
  let st := bitField x 0 3
  let prior := bitField x 3 3
  st != 7 && !((st == 4 || st == 5) && (prior == 4 || prior == 5 || prior == 7)) &&
    bitField x 31 1 == 0 && bitField x 46 18 == 0

/-- No row of spec/opcode_table.json gives bits, so no word spells a command. -/
def decodeTableWord (_nbits _w : Nat) : Option Instr := none

end Sys2Proof
end

