-- ==== Sys2Proof/Config.lean ====
section
/-! DEFINITION. The sizes the spec fixes for the part, the one value the model names for it, and the ECC code, whose
values are free. -/

namespace Sys2Proof

/-- Granule numbers lie below 2^26 (R1). -/
abbrev Config.granules : Nat := 67108864

/-- Command Intake: 32 messages (R61). -/
abbrev Config.intakeSize : Nat := 32

/-- Response Queue: 32 responses (R70). -/
abbrev Config.responseSize : Nat := 32

/-- Notice Queue: 64 notices (R153). -/
abbrev Config.noticeSize : Nat := 64

/-- Park Queue: 64 entries (R37). -/
abbrev Config.parkSize : Nat := 64

/-- Miss Queue: 48 entries (R48). -/
abbrev Config.missSize : Nat := 48

/-- Waiters of one Miss Queue entry: 8 (R48). -/
abbrev Config.waiterSize : Nat := 8

/-- Credits of a link: 32 (R149). -/
abbrev Config.credits : Nat := 32

/-- Places for RECALL and WIPE orders in a transmit queue: 38 (R147). -/
abbrev Config.orderSize : Nat := 38

/-- Sets of the Record Cache: 4096 (R42). -/
abbrev Config.cacheSets : Nat := 4096

/-- DESIGN CHOICE (log 5): the capacity that State.reset shows, 2^29 bytes, the size of a full Ownership Table. The
spec says only that it is measured (R53). Unsafe: a proof about State.reset could lean on it. -/
def Config.resetCapacity : BitVec 64 := 536870912#64

/-- The ECC byte of an 8-byte record image (11.4). The spec gives the kind of the code and not its bits, so the value is
free: nothing is known of it (log 10). -/
opaque Config.ecc : BitVec 64 → BitVec 8

end Sys2Proof
end

