-- ==== Sys2Proof/Machine/State.lean ====
section
/-! DEFINITION. The state of the part, as plain data, and the state after part reset. -/

namespace Sys2Proof.Machine

/-- Part states (R57). -/
inductive PartState where
  | unformatted
  | formatting
  | serving
  deriving DecidableEq, Repr

/-- The content of a record in a stable state, with the fields Table 1.3 gives it. A MOVING or WIPING record keeps the
content it had as its prior (R3). -/
inductive Stable where
  | vacant
  | wiped
  | held (owner : Nat) (rights : Rights)
  | shared (owner group : Nat) (rights : Rights)
  | fenced
  deriving DecidableEq, Repr

/-- Record states (Table 1.4). -/
inductive RecordState where
  | stable (content : Stable)
  | moving (ctx : CtxId) (prior : Stable)
  | wiping (ctx : CtxId) (prior : Stable)
  deriving DecidableEq, Repr

/-- A granule record (Table 1.2). -/
structure GranuleRecord where
  state : RecordState
  generation : BitVec 8
  holders : LinkSet
  deriving DecidableEq, Repr

/-- Domain states (R8). -/
inductive DomainState where
  | closed
  | active
  | draining
  deriving DecidableEq, Repr

/-- A domain record (Table 1.7). -/
structure DomainRecord where
  state : DomainState
  quota : Nat
  held : Nat
  incoming : Nat
  policySet : Fin 4
  tally : Option Nat
  groupCount : Nat
  deriving DecidableEq, Repr

/-- A CLOSED domain after part reset (R7). -/
def DomainRecord.initial : DomainRecord :=
  { state := .closed, quota := 0, held := 0, incoming := 0, policySet := 0, tally := none, groupCount := 0 }

/-- A share group record (R15). -/
structure GroupRecord where
  defined : Bool
  members : List Nat
  refs : Nat
  deriving DecidableEq, Repr

/-- A FREE group (R15). -/
def GroupRecord.free : GroupRecord := { defined := false, members := [], refs := 0 }

/-- A non-empty Home Map window (R18). -/
structure HomeWindow where
  base : Nat
  count : Nat
  link : LinkId
  deriving DecidableEq, Repr

/-- Policy actions (Table 2.8). -/
inductive PolicyAction where
  | quiet
  | notify
  | poison
  | poisonNotify
  deriving DecidableEq, Repr

/-- Fault classes (Table 2.7). -/
inductive FaultClass where
  | notOwner
  | noRight
  | unassigned
  | fencedGranule
  | domainClosed
  | outOfRange
  | malformed
  | notReady
  deriving DecidableEq, Repr

/-- A CHECK with the link it arrived on (Table 2.2). The access kind is the 3-bit code as carried. -/
structure Check where
  link : LinkId
  tag : BitVec 5
  domain : Nat
  granule : Nat
  kind : BitVec 3
  cacheWanted : Bool
  deriving DecidableEq, Repr

/-- Verdict results (Table 2.6). -/
inductive VerdictResult where
  | grant
  | deny
  | poison
  | retry
  deriving DecidableEq, Repr

/-- A VERDICT (Table 2.3). -/
structure Verdict where
  tag : BitVec 5
  result : VerdictResult
  rights : Option Rights
  cacheable : Bool
  generation : BitVec 8
  credit : Bool
  faultClass : Option FaultClass
  deriving DecidableEq, Repr

/-- The frames the part sends (Table 8.3). -/
inductive TxFrame where
  | verdict (v : Verdict)
  | recall (base order : Nat) (ctx : CtxId) (seq : BitVec 4)
  | wipe (base order : Nat) (ctx : CtxId) (seq : BitVec 4)
  | rejoin (number : BitVec 4)
  | credit (count : Nat)
  | idle
  deriving DecidableEq, Repr

/-- Link states (Table 8.5). -/
inductive LinkState where
  | off
  | rejoining
  | up
  | failed
  deriving DecidableEq, Repr

/-- The receiver's framing position (R136): hunting for a start marker, or in frame with the bytes read since it. -/
inductive Receiver where
  | hunting
  | inFrame (read : List Byte)
  deriving DecidableEq, Repr

/-- A Link Unit (Table 8.2) with its lane of the Check Unit (R20). A running timer holds the duration it was started
with (log 4); `line` is the last frame that went out (log 22). -/
structure Link where
  state : LinkState
  attempt : Nat
  rejoinNumber : BitVec 4
  rejoinDeadline : Option Nat
  silenceTimer : Option Nat
  withheld : Nat
  tx : List TxFrame
  receiver : Receiver
  lane : List Check
  accounting : List (BitVec 5)
  line : Option TxFrame
  deriving DecidableEq, Repr

/-- A link after part reset (R135, R20). -/
def Link.initial : Link :=
  { state := .off, attempt := 0, rejoinNumber := 0, rejoinDeadline := none, silenceTimer := none, withheld := 0,
    tx := [], receiver := .hunting, lane := [], accounting := [], line := none }

/-- One of the two ways of a cache set. -/
inductive WayName where
  | way0
  | way1
  deriving DecidableEq, Repr

/-- A valid way: granule, record copy and dirty mark (R42). -/
structure Way where
  granule : Nat
  record : GranuleRecord
  dirty : Bool
  deriving DecidableEq, Repr

/-- A set of the Record Cache: two ways and the LRU mark, which names the way to be replaced first (R42). -/
structure CacheSet where
  way0 : Option Way
  way1 : Option Way
  lru : WayName
  deriving DecidableEq, Repr

/-- A set with both ways invalid and the mark at way 0 (R42). -/
def CacheSet.initial : CacheSet := { way0 := none, way1 := none, lru := .way0 }

/-- A requester waiting in the Miss Queue: a check, or the one request of a context (Table 3.3). -/
inductive Waiter where
  | check (c : Check)
  | context (ctx : CtxId)
  deriving DecidableEq, Repr

/-- A Miss Queue entry (R48). -/
structure MissEntry where
  granule : Nat
  waiters : List Waiter
  superseding : Option GranuleRecord
  deriving DecidableEq, Repr

/-- An outstanding request of the Tag Store Port. A read that found a write of its record outstanding holds that
write's image; a write carries the 8 bytes and their ECC (R53). -/
inductive PortReq where
  | read (granule : Nat) (forwarded : Option (BitVec 64))
  | write (granule : Nat) (image : BitVec 64) (ecc : BitVec 8)
  deriving DecidableEq, Repr

/-- What the Tag Store holds for a granule: the 8 bytes of the record and the ECC byte stored beside them (11.4). The
ECC byte is absent where nothing has been written since part reset (log 8). -/
structure StoredRecord where
  image : BitVec 64
  ecc : Option (BitVec 8)
  deriving DecidableEq, Repr

/-- The writes of FILL (R59): the root range, and the granules whose write is outstanding, as ranges from a first
granule up to, not including, a last one (log 33). -/
structure FillWrites where
  root : Option (Nat × Nat)
  outstanding : List (Nat × Nat)
  deriving DecidableEq, Repr

/-- What a range command does to its granules (Table 5.6). -/
inductive RangeOp where
  | assign (domain : Nat) (rights : Rights)
  | reclaim (domain : Nat) (wipe : Bool)
  | transfer (giver taker : Nat) (rights : Rights) (wipe : Bool)
  | share (owner group : Nat)
  | unshare (group : Nat)
  | wipe
  | releaseFence
  deriving DecidableEq, Repr

/-- The commands a Change Context carries (Table 4.2). -/
inductive Job where
  | range (base count : Nat) (expected : Option (BitVec 8)) (op : RangeOp)
  | query (granule : Nat)
  | format (size : Nat) (rootBase rootCount : Option Nat)
  | closeDomain (domain : Nat)
  deriving DecidableEq, Repr

/-- Phases of a context that is not FREE (Table 5.1). -/
inductive Phase where
  | validate
  | mark
  | recall
  | wipe
  | commit
  | post
  | scan
  | fill
  | read
  deriving DecidableEq, Repr

/-- Recall marks (Table 5.2). -/
inductive RecallMark where
  | noMark
  | awaitingAck
  | awaitingRejoin
  deriving DecidableEq, Repr

/-- The WIPE order of a run (Table 5.2). -/
inductive WipeState where
  | notSent
  | outstanding (link : LinkId)
  | done
  deriving DecidableEq, Repr

/-- The deadline of a run, with the duration it was started with (log 4): µs for a recall, ms for a wipe. -/
inductive Deadline where
  | recall (duration : Nat)
  | wipe (duration : Nat)
  deriving DecidableEq, Repr

/-- Fence causes (Table 6.2). -/
inductive FenceCause where
  | linkFailed
  | linkOff
  | wipeFail
  | wipeExpiry
  | wipeLinkDown
  deriving DecidableEq, Repr

/-- The run outcome (R109); a fenced one with its cause and the link concerned, none for a run without a home (R130). -/
inductive RunOutcome where
  | clean
  | fenced (cause : FenceCause) (link : Option LinkId)
  deriving DecidableEq, Repr

/-- The run a context works (Table 5.2). `image` is ascending by granule; `needsWipe` is settled at the end of MARK
(log 16). -/
structure Run where
  base : Nat
  order : Nat
  image : List (Nat × GranuleRecord)
  union : LinkSet
  marks : Vector RecallMark 6
  cleared : LinkSet
  outcome : RunOutcome
  needsWipe : Bool
  wipe : WipeState
  deadline : Option Deadline
  deriving DecidableEq, Repr

/-- The request a context has ready or waiting (Table 3.2). A commit is to the command's result, or as WIPED (R80). -/
inductive Request where
  | noRequest
  | read
  | update
  | wipeStart
  | commit (asWiped : Bool)
  | revert
  deriving DecidableEq, Repr

/-- Response statuses (Table 4.6). -/
inductive Status where
  | ok
  | partly
  | aborted
  | late
  | noTarget
  | refused
  deriving DecidableEq, Repr

/-- Refusal reasons (R69). -/
inductive Reason where
  | badField
  | range
  | notReady
  | badState
  | domainState
  | quota
  | groupState
  | inGroup
  | sourceState
  | stale
  | noHome
  | linkFailed
  | dupTag
  | unwipedTransfer
  | notAbortable
  deriving DecidableEq, Repr

/-- Three counts, or the record image of a QUERY (R69). -/
inductive ResponseBody where
  | counts (first second third : Nat)
  | image (image : BitVec 64)
  deriving DecidableEq, Repr

/-- A response; the kind is the kind byte of the message it answers (R69, R170). -/
structure Response where
  tag : BitVec 16
  kind : Byte
  status : Status
  reason : Option Reason
  body : ResponseBody
  deriving DecidableEq, Repr

/-- What an active context holds (Tables 5.2 and 7.2). For a sweep `changed` is the reclaimed figure, and `window` the
first granule of the window held. `next` is the granule of the next record request; `waiting` says that the request
waits in the Miss Queue; `sawVacant` and `sawHeld` are what VALIDATE of an ASSIGN has met (R100). -/
structure Work where
  tag : BitVec 16
  job : Job
  phase : Phase
  cursor : Nat
  request : Request
  next : Nat
  waiting : Bool
  sawVacant : Bool
  sawHeld : Bool
  run : Option Run
  changed : Nat
  unchanged : Nat
  fenced : Nat
  lost : Nat
  window : Option Nat
  reclaim : List Nat
  abortMark : Bool
  result : Option Response
  deriving DecidableEq, Repr

/-- A Change Context; FREE holds only its phase, which is the absence of work, and its run sequence (R81). -/
structure Context where
  runSeq : BitVec 4
  work : Option Work
  deriving DecidableEq, Repr

/-- Per-link counters (Table 9.3). -/
inductive LinkCounter where
  | grants
  | denials
  | poisons
  | retries
  | parks
  | recallsSent
  | rejoins
  | strayAcks
  deriving DecidableEq, Repr

/-- Part-wide counters (Table 9.3). -/
inductive PartCounter where
  | cacheHits
  | cacheMisses
  | writebacks
  | eccCorrected
  | tagErrors
  deriving DecidableEq, Repr

/-- The name of one of the 53 counters. -/
inductive CounterName where
  | ofLink (link : LinkId) (counter : LinkCounter)
  | ofPart (counter : PartCounter)
  deriving DecidableEq, Repr

/-- A counter or its snapshot copy (R158). -/
structure Counter where
  value : BitVec 32
  wrapped : Bool
  deriving DecidableEq, Repr

/-- A counter at 0 with a clear wrap mark. -/
def Counter.zero : Counter := { value := 0, wrapped := false }

/-- A watermark's indicator and its snapshot copy (R162). -/
structure Watermark where
  indicator : Nat
  copy : Nat
  deriving DecidableEq, Repr

/-- LINK_DOWN causes (R145). -/
inductive DownCause where
  | crc
  | protocol
  | silence
  | recallExpiry
  | command
  deriving DecidableEq, Repr

/-- The first waiter a TAG_ERROR notice carries (R55). -/
inductive FirstWaiter where
  | nobody
  | check (link : LinkId) (tag : BitVec 5)
  | context (ctx : CtxId)
  deriving DecidableEq, Repr

/-- Notice kinds with their fields (Table 9.2). -/
inductive NoticeBody where
  | denied (link : LinkId) (tag : BitVec 5) (domain granule : Nat) (kind : BitVec 3) (faultClass : FaultClass)
      (poison : Bool)
  | tallyReached (domain : Nat) (link : LinkId) (tag : BitVec 5) (faultClass : FaultClass)
  | tagError (granule : Nat) (first : FirstWaiter) (underChange : Bool)
  | fenced (tag : BitVec 16) (kind : Byte) (ctx : CtxId) (base order records : Nat) (cause : FenceCause)
      (link : Option LinkId)
  | linkDown (link : LinkId) (cause : DownCause)
  | linkUp (link : LinkId)
  | linkFailed (link : LinkId)
  | counterWrap (counter : CounterName)
  deriving DecidableEq, Repr

/-- A notice in the queue with its lost-before mark (R153). -/
structure Notice where
  body : NoticeBody
  lostBefore : Bool
  deriving DecidableEq, Repr

/-- Snapshot modes (R161). -/
inductive SnapshotMode where
  | manual
  | auto
  deriving DecidableEq, Repr

/-- Watermark modes (R162). -/
inductive WatermarkMode where
  | current
  | peak
  deriving DecidableEq, Repr

/-- The settings (Table 10.3). -/
structure Settings where
  recallDeadline : Nat
  wipeDeadline : Nat
  rejoinDeadline : Nat
  silenceLimit : Nat
  caching : LinkSet
  snapshotMode : SnapshotMode
  snapshotInterval : Nat
  parkMode : WatermarkMode
  missMode : WatermarkMode
  deriving DecidableEq, Repr

/-- The defaults of Table 10.3. -/
def Settings.initial : Settings :=
  { recallDeadline := 500, wipeDeadline := 20, rejoinDeadline := 100, silenceLimit := 16, caching := 63,
    snapshotMode := .manual, snapshotInterval := 100, parkMode := .current, missMode := .current }

/-- The whole state of the part; INVENTORY.md lists each field with its rule. `arrivals` and `pending` are what comes
from outside: the symbols on the Check Links, each with its link, and the commands (logs 6 and 21). -/
structure State where
  part : PartState
  tableSize : Nat
  capacity : BitVec 64
  domains : Table DomainRecord
  groups : Table GroupRecord
  homes : Vector (Option HomeWindow) 16
  policies : Vector (Vector PolicyAction 7) 4
  store : Table StoredRecord
  cache : Table CacheSet
  portPtr : Fin 7
  enginePtr : CtxId
  miss : List MissEntry
  port : List PortReq
  fill : Option FillWrites
  park : List Check
  links : Vector Link 6
  pacing : Bool
  intake : List Message
  overrun : Bool
  staging : Vector Word 8
  ctxs : Vector Context 16
  responses : List Response
  respPtr : Fin 17
  respLatch : Option Response
  notices : List Notice
  noticeLost : Bool
  noticeLatch : Option Notice
  counters : Vector Counter 53
  copies : Vector Counter 53
  snapSeq : BitVec 16
  snapTimer : Option Nat
  parkMark : Watermark
  missMark : Watermark
  settings : Settings
  irqResponse : Bool
  irqNotice : Bool
  msiSent : Nat
  readData : Word
  arrivals : List (LinkId × Byte)
  pending : List Instr
  deriving DecidableEq, Repr

/-- The part after part reset (R1, R7, R15, R18, R20, R31, R42 to R44, R48, R57, R61, R70, R71, R81, R135, R150, R153,
R158 to R168). The capacity is DESIGN CHOICE (log 5); `line`, `msiSent` and `readData` are the model's own (log 22). -/
def State.reset : State :=
  { part := .unformatted
    tableSize := 0
    capacity := Config.resetCapacity
    domains := [(0, { DomainRecord.initial with state := .active, quota := Config.granules })]
    groups := []
    homes := Vector.replicate 16 none
    policies := Vector.replicate 4 (Vector.replicate 7 .notify)
    store := []
    cache := []
    portPtr := 6
    enginePtr := 15
    miss := []
    port := []
    fill := none
    park := []
    links := Vector.replicate 6 Link.initial
    pacing := false
    intake := []
    overrun := false
    staging := Vector.replicate 8 0
    ctxs := Vector.replicate 16 { runSeq := 0, work := none }
    responses := []
    respPtr := 16
    respLatch := none
    notices := []
    noticeLost := false
    noticeLatch := none
    counters := Vector.replicate 53 Counter.zero
    copies := Vector.replicate 53 Counter.zero
    snapSeq := 0
    snapTimer := none
    parkMark := { indicator := 0, copy := 0 }
    missMark := { indicator := 0, copy := 0 }
    settings := Settings.initial
    irqResponse := false
    irqNotice := false
    msiSent := 0
    readData := 0
    arrivals := []
    pending := [] }

/-- No command stops the part with a fault: every event the spec gives has an outcome it states (INVENTORY.md, Faults).
Nothing raises a fault, which is safe. -/
inductive Fault where
  deriving DecidableEq, Repr

/-- Refusals. -/
inductive Refusal where
  /-- Raised by an arm of exec that has no meaning yet; safe, since nothing is claimed of that command. -/
  | notModelled (mnemonic : String)
  deriving DecidableEq, Repr

end Sys2Proof.Machine
end

