-- ==== Sys2Proof/Machine/Formats.lean ====
section
/-! DEFINITION. The layouts a partner sees (chapter 11): codes, record image, response, notice, frames and their CRC. -/

namespace Sys2Proof.Machine

/-! ## Codes -/

/-- Fault class numbers (Table 2.7). -/
def FaultClass.code : FaultClass → Nat
  | .notOwner => 0
  | .noRight => 1
  | .unassigned => 2
  | .fencedGranule => 3
  | .domainClosed => 4
  | .outOfRange => 5
  | .malformed => 6
  | .notReady => 7

/-- Verdict result codes (Table 11.3). -/
def VerdictResult.code : VerdictResult → Nat
  | .grant => 0
  | .deny => 1
  | .poison => 2
  | .retry => 3

/-- Status codes (Table 11.6). -/
def Status.code : Status → Nat
  | .ok => 0
  | .partly => 1
  | .aborted => 2
  | .late => 3
  | .noTarget => 4
  | .refused => 5

/-- Reason codes (11.3). -/
def Reason.code : Reason → Nat
  | .badField => 1
  | .range => 2
  | .notReady => 3
  | .badState => 4
  | .domainState => 5
  | .quota => 6
  | .groupState => 7
  | .inGroup => 8
  | .sourceState => 9
  | .stale => 10
  | .noHome => 11
  | .linkFailed => 12
  | .dupTag => 13
  | .unwipedTransfer => 14
  | .notAbortable => 15

/-- Fence cause codes (11.3). -/
def FenceCause.code : FenceCause → Nat
  | .linkFailed => 0
  | .linkOff => 1
  | .wipeFail => 2
  | .wipeExpiry => 3
  | .wipeLinkDown => 4

/-- LINK_DOWN cause codes (11.3). -/
def DownCause.code : DownCause → Nat
  | .crc => 0
  | .protocol => 1
  | .silence => 2
  | .recallExpiry => 3
  | .command => 4

/-- Numbers of the per-link counters (11.3). -/
def LinkCounter.code : LinkCounter → Nat
  | .grants => 0
  | .denials => 1
  | .poisons => 2
  | .retries => 3
  | .parks => 4
  | .recallsSent => 5
  | .rejoins => 6
  | .strayAcks => 7

/-- Numbers of the part-wide counters (11.3). -/
def PartCounter.code : PartCounter → Nat
  | .cacheHits => 8
  | .cacheMisses => 9
  | .writebacks => 10
  | .eccCorrected => 11
  | .tagErrors => 12

/-- Part state codes (Table 11.10). -/
def PartState.code : PartState → Nat
  | .unformatted => 0
  | .formatting => 1
  | .serving => 2

/-- Kind codes of the context commands (Table 11.5). -/
def Job.kindCode : Job → Byte
  | .range _ _ _ (.assign _ _) => 0x01
  | .range _ _ _ (.reclaim _ _) => 0x02
  | .range _ _ _ (.transfer _ _ _ _) => 0x03
  | .range _ _ _ (.share _ _) => 0x04
  | .range _ _ _ (.unshare _) => 0x05
  | .range _ _ _ .wipe => 0x06
  | .range _ _ _ .releaseFence => 0x07
  | .query _ => 0x08
  | .format _ _ _ => 0x09
  | .closeDomain _ => 0x0A

/-! ## The record image (Table 11.9) -/

/-- The state code of a stable content. -/
def Stable.code : Stable → Nat
  | .vacant => 0
  | .wiped => 1
  | .held _ _ => 2
  | .shared _ _ _ => 3
  | .fenced => 6

/-- The owner of a record's content, 0 where it has none. -/
def Stable.ownerField : Stable → Nat
  | .held o _ | .shared o _ _ => o
  | .vacant | .wiped | .fenced => 0

/-- The group, 0 where it has none. -/
def Stable.groupField : Stable → Nat
  | .shared _ g _ => g
  | .vacant | .wiped | .held _ _ | .fenced => 0

/-- The rights, 0 where it has none. -/
def Stable.rightsField : Stable → Nat
  | .held _ r | .shared _ _ r => r.toNat
  | .vacant | .wiped | .fenced => 0

/-- The stable content of a record: its state's, or its prior's while it is MOVING or WIPING (R3). -/
def GranuleRecord.content (r : GranuleRecord) : Stable :=
  match r.state with
  | .stable c | .moving _ c | .wiping _ c => c

/-- The state code, the prior code and the context of a record, absent fields 0 (R171). -/
def RecordState.codes : RecordState → Nat × Nat × Nat
  | .stable c => (c.code, 0, 0)
  | .moving ctx c => (4, c.code, ctx.val)
  | .wiping ctx c => (5, c.code, ctx.val)

/-- The record image: every field the state does not carry, and every unused bit, is 0 (R171). -/
def encodeImage (r : GranuleRecord) : BitVec 64 :=
  let c := r.content
  let codes := r.state.codes
  BitVec.ofNat 64 (packFields
    [(codes.1, 0, 3), (codes.2.1, 3, 3), (codes.2.2, 6, 4), (c.ownerField, 10, 10), (c.groupField, 20, 8),
     (c.rightsField, 28, 3), (r.generation.toNat, 32, 8), (r.holders.toNat, 40, 6)])

/-- The stable content of a state or prior code with the fields beside it; none for the codes of MOVING, WIPING and 7. -/
def decodeStable (code owner group rights : Nat) : Option Stable :=
  match code with
  | 0 => some .vacant
  | 1 => some .wiped
  | 2 => some (.held owner (BitVec.ofNat 3 rights))
  | 3 => some (.shared owner group (BitVec.ofNat 3 rights))
  | 6 => some .fenced
  | _ => none

/-- The record an image holds; none where R171 finds it invalid. -/
def decodeImage (image : BitVec 64) : Option GranuleRecord :=
  if !imageValid image then none
  else
    let x := image.toNat
    let content := fun code => decodeStable code (bitField x 10 10) (bitField x 20 8) (bitField x 28 3)
    let ctx : CtxId := Fin.ofNat 16 (bitField x 6 4)
    let state : Option RecordState :=
      match bitField x 0 3 with
      | 4 => (content (bitField x 3 3)).map (RecordState.moving ctx)
      | 5 => (content (bitField x 3 3)).map (RecordState.wiping ctx)
      | code => (content code).map RecordState.stable
    state.map (fun st =>
      { state := st, generation := BitVec.ofNat 8 (bitField x 32 8), holders := BitVec.ofNat 6 (bitField x 40 6) })

/-! ## Responses and notices (11.3) -/

/-- The 16 bytes of a response (Table 11.6). -/
def encodeResponse (r : Response) : BitVec 128 :=
  let reason := match r.reason with
    | some x => x.code
    | none => 0
  let body := match r.body with
    | .counts a b c => [(a, 32, 32), (b, 64, 32), (c, 96, 32)]
    | .image i => [(i.toNat, 32, 64)]
  BitVec.ofNat 128 (packFields
    ([(r.tag.toNat, 0, 16), (r.kind.toNat, 16, 8), (r.status.code, 24, 3), (reason, 27, 5)] ++ body))

/-- The link field of a notice that may name none: 7 (Table 11.7). -/
def linkField : Option LinkId → Nat
  | some l => l.val
  | none => 7

/-- The kind code and the fields of a notice, each a value, first bit and width (Table 11.7). -/
def NoticeBody.fields : NoticeBody → List (Nat × Nat × Nat)
  | .denied l tag d g kind cls poison =>
      [(1, 0, 8), (l.val, 16, 8), (tag.toNat, 24, 8), (d, 32, 16), (g, 48, 32), (kind.toNat, 80, 8), (cls.code, 88, 8),
       (if poison then 2 else 1, 96, 8)]
  | .tallyReached d l tag cls => [(2, 0, 8), (l.val, 16, 8), (tag.toNat, 24, 8), (d, 32, 16), (cls.code, 88, 8)]
  | .tagError g first underChange =>
      let change := (if underChange then 1 else 0, 112, 1)
      match first with
      | .nobody => [(3, 0, 8), (g, 48, 32), (0, 96, 8), change]
      | .check l tag => [(3, 0, 8), (l.val, 16, 8), (tag.toNat, 24, 8), (g, 48, 32), (1, 96, 8), change]
      | .context c => [(3, 0, 8), (g, 48, 32), (2, 96, 8), change, (c.val, 116, 4)]
  | .fenced tag kind c base order n cause l =>
      [(4, 0, 8), (linkField l, 16, 8), (cause.code, 24, 8), (tag.toNat, 32, 16), (base, 48, 32), (order, 80, 8),
       (kind.toNat, 88, 8), (n, 96, 16), (c.val, 112, 8)]
  | .linkDown l cause => [(5, 0, 8), (l.val, 16, 8), (cause.code, 24, 8)]
  | .linkUp l => [(6, 0, 8), (l.val, 16, 8)]
  | .linkFailed l => [(7, 0, 8), (l.val, 16, 8)]
  | .counterWrap (.ofLink l c) => [(8, 0, 8), (l.val, 16, 8), (c.code, 24, 8)]
  | .counterWrap (.ofPart c) => [(8, 0, 8), (7, 16, 8), (c.code, 24, 8)]

/-- The 16 bytes of a notice (Table 11.7). -/
def encodeNotice (n : Notice) : BitVec 128 :=
  BitVec.ofNat 128 (packFields ((if n.lostBefore then 1 else 0, 8, 1) :: n.body.fields))

/-- Word `i` of a 16-byte slot; an empty latch reads as kind NONE with every other field 0 (R164). -/
def slotWord {α : Type} (encode : α → BitVec 128) (latch : Option α) (i : Nat) : Word :=
  match latch with
  | some x => BitVec.ofNat 32 (bitField (encode x).toNat (32 * i) 32)
  | none => 0

/-! ## Frames (11.1) -/

/-- One step of the CRC of 11.1 for a bit entering at the top. -/
def crcBit (crc : BitVec 16) (bit : Bool) : BitVec 16 :=
  if crc.msb != bit then (crc <<< 1) ^^^ 0x1021#16 else crc <<< 1

/-- The CRC after one byte, most significant bit first. -/
def crcByte (crc : BitVec 16) (b : Byte) : BitVec 16 :=
  [7, 6, 5, 4, 3, 2, 1, 0].foldl (fun c i => crcBit c (b.getLsbD i)) crc

/-- The CRC-16 over kind and payload: generator x^16 + x^12 + x^5 + 1, initial value 0xFFFF, not reflected, no final
exclusive-or (11.1). -/
def crc16 (bytes : List Byte) : BitVec 16 := bytes.foldl crcByte 0xFFFF#16

/-- The bytes of a field, least significant first. -/
def leBytes (n x : Nat) : List Byte := (List.range n).map (fun i => BitVec.ofNat 8 (x / 256 ^ i))

/-- The kind code and payload of a frame the part sends; unassigned bits and absent fields are 0 (Table 11.1, R169). Of
a CREDIT count above 63 the low 6 bits go out: the model's choice (log 35). -/
def TxFrame.content : TxFrame → Byte × List Byte
  | .verdict v =>
      let rights := match v.rights with
        | some r => r.toNat
        | none => 0
      let cls := match v.faultClass with
        | some c => c.code
        | none => 0
      (0x02, leBytes 3 (packFields
        [(v.tag.toNat, 0, 5), (v.result.code, 5, 2), (v.cacheable.toNat, 7, 1), (v.generation.toNat, 8, 8),
         (rights, 16, 3), (cls, 19, 3), (v.credit.toNat, 22, 1)]))
  | .recall base order c seq =>
      (0x03, leBytes 5 (packFields [(base, 0, 26), (order, 26, 4), (c.val, 32, 4), (seq.toNat, 36, 4)]))
  | .wipe base order c seq =>
      (0x05, leBytes 5 (packFields [(base, 0, 26), (order, 26, 4), (c.val, 32, 4), (seq.toNat, 36, 4)]))
  | .rejoin n => (0x07, leBytes 1 n.toNat)
  | .credit n => (0x09, leBytes 1 (packFields [(n, 0, 6)]))
  | .idle => (0x0A, [])

/-- The bytes of a frame on the line: start marker, kind, payload, CRC-16 least significant byte first (11.1). -/
def TxFrame.bytes (f : TxFrame) : List Byte :=
  let body := f.content.1 :: f.content.2
  0x7E :: body ++ leBytes 2 (crc16 body).toNat

/-- The payload length that a kind byte fixes, none for an unknown kind (Table 11.1). -/
def payloadLength (kind : Byte) : Option Nat :=
  match kind.toNat with
  | 1 => some 6
  | 2 => some 3
  | 3 => some 5
  | 4 => some 1
  | 5 => some 5
  | 6 => some 2
  | 7 => some 1
  | 8 => some 1
  | 9 => some 1
  | 10 => some 0
  | _ => none

/-- The number whose bytes these are, least significant first. -/
def ofLeBytes : List Byte → Nat
  | [] => 0
  | b :: rest => b.toNat + 256 * ofLeBytes rest

/-- The command that a complete frame of a known kind with a good CRC is (Table 8.4). -/
def frameCommand (l : LinkId) (kind : Byte) (payload : List Byte) : Instr :=
  match kind.toNat with
  | 1 => .check l (BitVec.ofNat 48 (ofLeBytes payload))
  | 2 => .partSentKindFrame l .verdict
  | 3 => .partSentKindFrame l .recall
  | 4 => .recallAck l (BitVec.ofNat 8 (ofLeBytes payload))
  | 5 => .partSentKindFrame l .wipe
  | 6 => .wipeDone l (BitVec.ofNat 16 (ofLeBytes payload))
  | 7 => .partSentKindFrame l .rejoin
  | 8 => .rejoinAck l (BitVec.ofNat 8 (ofLeBytes payload))
  | 9 => .partSentKindFrame l .credit
  | 10 => .idle l
  | _ => .unknownKindFrame l kind

/-- The command that a frame of a known kind is at the end of its CRC. -/
def completeFrame (l : LinkId) (kind : Byte) (payload : List Byte) (crc : Nat) : Instr :=
  if (crc16 (kind :: payload)).toNat = crc then frameCommand l kind payload else .badCrcFrame l

/-- One symbol at a receiver (R136). Hunting, it passes over every symbol until a start marker; in frame, it reads the
kind, then the payload and the CRC whatever they contain. With the receiver after the symbol comes the command that the
frame is, once it is taken: at the end of its CRC, or at once for an unknown kind. -/
def readSymbol (l : LinkId) (r : Receiver) (b : Byte) : Receiver × Option Instr :=
  match r with
  | .hunting => (if b = 0x7E then .inFrame [] else .hunting, none)
  | .inFrame [] =>
      match payloadLength b with
      | none => (.hunting, some (.unknownKindFrame l b))
      | some _ => (.inFrame [b], none)
  | .inFrame (kind :: read) =>
      match payloadLength kind with
      | none => (.hunting, some (.unknownKindFrame l kind))
      | some n =>
          let read := read ++ [b]
          if read.length < n + 2 then (.inFrame (kind :: read), none)
          else (.hunting, some (completeFrame l kind (read.take n) (ofLeBytes ((read.drop n).take 2))))

/-- A receiver over symbols: the first frame taken, as a command, with the symbols left. None while none is complete. -/
def readFrame (l : LinkId) : Receiver → List Byte → Option (Instr × List Byte)
  | _, [] => none
  | r, b :: rest =>
      match readSymbol l r b with
      | (_, some c) => some (c, rest)
      | (r', none) => readFrame l r' rest

/-- The first frame taken by a hunting receiver. -/
def takeFrame (l : LinkId) (symbols : List Byte) : Option (Instr × List Byte) := readFrame l .hunting symbols

end Sys2Proof.Machine
end

