-- ==== Sys2Proof/Machine/Table.lean ====
section
/-! DEFINITION. Sparse tables in canonical form: look-up, writing, and the form itself. The Ownership Table in the Tag
Store, the Domain Table, the Share Group Table and the sets of the Record Cache are held so. -/

namespace Sys2Proof.Machine

/-- What a key reads as; `dflt` where it is not listed. -/
def tableGet {α : Type} (dflt : α) : Table α → Nat → α
  | [], _ => dflt
  | (k', v) :: t, k => if k' = k then v else tableGet dflt t k

/-- Put a pair before the first larger key. -/
def tableInsert {α : Type} (k : Nat) (v : α) : Table α → Table α
  | [] => [(k, v)]
  | (k', v') :: t => if k < k' then (k, v) :: (k', v') :: t else (k', v') :: tableInsert k v t

/-- Write a key; writing what an unlisted key reads as removes the entry. -/
def tablePut {α : Type} [DecidableEq α] (dflt : α) (t : Table α) (k : Nat) (v : α) : Table α :=
  let rest := t.filter (fun e => !(e.1 == k))
  if v = dflt then rest else tableInsert k v rest

/-- Keys strictly rising from above `low`, and no entry equal to the default. -/
def tableWfFrom {α : Type} [DecidableEq α] (dflt : α) : Option Nat → Table α → Bool
  | _, [] => true
  | low, (k, v) :: t =>
      (match low with
       | none => true
       | some b => decide (b < k)) && !(decide (v = dflt)) && tableWfFrom dflt (some k) t

/-- The canonical form. -/
def tableWf {α : Type} [DecidableEq α] (dflt : α) (t : Table α) : Bool := tableWfFrom dflt none t

end Sys2Proof.Machine
end

