-- ==== Sys2Proof/Machine/Ops.lean ====
section
/-! DEFINITION. The named operations over the parts of State: links, contexts, domains, groups, homes, responses. -/

namespace Sys2Proof.Machine

/-- The links in ascending order, the order in which the model handles several at once (log 14). -/
def allLinks : List LinkId := [0, 1, 2, 3, 4, 5]

/-- The contexts in ascending order. -/
def allCtxs : List CtxId := [0, 1, 2, 3, 4, 5, 6, 7, 8, 9, 10, 11, 12, 13, 14, 15]

/-! ## Sets of links -/

/-- The set of one link. -/
def linkBit (l : LinkId) : LinkSet := 1#6 <<< l.val

/-- All six links (R55). -/
def allLinkSet : LinkSet := 63

/-- A link is in a set. -/
def linkIn (l : LinkId) (set : LinkSet) : Bool := set.getLsbD l.val

/-- A set with one link more. -/
def addLink (l : LinkId) (set : LinkSet) : LinkSet := set ||| linkBit l

/-- A set less another. -/
def minusLinks (set less : LinkSet) : LinkSet := set &&& ~~~less

/-! ## Links -/

/-- A Link Unit with its lane. -/
def State.link (s : State) (l : LinkId) : Link := s.links[l.val]

/-- Change one link. -/
def modLink (l : LinkId) (f : Link → Link) (s : State) : State :=
  { s with links := s.links.set l.val (f (s.link l)) l.isLt }

/-- Place a frame at the tail of a link's transmit queue (R147). -/
def placeFrame (l : LinkId) (frame : TxFrame) (s : State) : State :=
  modLink l (fun k => { k with tx := k.tx ++ [frame] }) s

/-- A RECALL or WIPE order. -/
def TxFrame.isOrder : TxFrame → Bool
  | .recall _ _ _ _ | .wipe _ _ _ _ => true
  | .verdict _ | .rejoin _ | .credit _ | .idle => false

/-- The orders in a link's transmit queue (R147). -/
def orderCount (k : Link) : Nat := (k.tx.filter TxFrame.isOrder).length

/-! ## Contexts -/

/-- What a context holds, none when it is FREE (R81). -/
def State.work (s : State) (c : CtxId) : Option Work := s.ctxs[c.val].work

/-- The run sequence of a context (R87). -/
def State.runSeq (s : State) (c : CtxId) : BitVec 4 := s.ctxs[c.val].runSeq

/-- Replace one context. -/
def setCtx (c : CtxId) (x : Context) (s : State) : State :=
  { s with ctxs := s.ctxs.set c.val x c.isLt }

/-- Set what a context holds, keeping its run sequence. -/
def setWork (c : CtxId) (w : Option Work) (s : State) : State :=
  setCtx c { s.ctxs[c.val] with work := w } s

/-- Change what an active context holds; a FREE one stays. -/
def modWork (c : CtxId) (f : Work → Work) (s : State) : State :=
  setWork c ((s.work c).map f) s

/-- The run sequence advances at the end of a run (R87). -/
def advanceSeq (c : CtxId) (s : State) : State :=
  setCtx c { s.ctxs[c.val] with runSeq := s.runSeq c + 1 } s

/-- Present an event to every active context (R111 to R113). -/
def presentToContexts (f : Work → Work) (s : State) : State :=
  allCtxs.foldl (fun s c => modWork c f s) s

/-- The first active context that meets a test, in ascending order. -/
def findCtx (s : State) (p : Work → Bool) : Option CtxId :=
  allCtxs.find? (fun c => match s.work c with
    | some w => p w
    | none => false)

/-- Some active context meets a test. -/
def anyCtx (s : State) (p : Work → Bool) : Bool := (findCtx s p).isSome

/-- The lowest-numbered FREE context (R67). -/
def freeCtx (s : State) : Option CtxId := allCtxs.find? (fun c => (s.work c).isNone)

/-- The granules a context holds against other changes: a range command's range until it is FREE (R66), a sweep's
window while it is held (R126). -/
def Work.heldRange (w : Work) : Option (Nat × Nat) :=
  match w.job with
  | .range base count _ _ => some (base, count)
  | .closeDomain _ => w.window.map (fun b => (b, 512))
  | .query _ | .format _ _ _ => none

/-- Two ranges of granules, each a base and a count, share a granule. -/
def overlaps (base count base' count' : Nat) : Bool :=
  decide (base < base' + count') && decide (base' < base + count)

/-- A range overlaps what a context holds. -/
def Work.holdsOver (base count : Nat) (w : Work) : Bool :=
  match w.heldRange with
  | some (b, n) => overlaps base count b n
  | none => false

/-! ## Domains and groups -/

/-- A domain record. -/
def State.domain (s : State) (d : Nat) : DomainRecord := tableGet DomainRecord.initial s.domains d

/-- Change one domain record. -/
def modDomain (d : Nat) (f : DomainRecord → DomainRecord) (s : State) : State :=
  { s with domains := tablePut DomainRecord.initial s.domains d (f (s.domain d)) }

/-- A share group record. -/
def State.group (s : State) (g : Nat) : GroupRecord := tableGet GroupRecord.free s.groups g

/-- Change one share group record. -/
def modGroup (g : Nat) (f : GroupRecord → GroupRecord) (s : State) : State :=
  { s with groups := tablePut GroupRecord.free s.groups g (f (s.group g)) }

/-- A domain is ACTIVE. -/
def State.isActive (s : State) (d : Nat) : Bool := decide ((s.domain d).state = .active)

/-- held(d) + n (R9). -/
def raiseHeld (d n : Nat) (s : State) : State := modDomain d (fun r => { r with held := r.held + n }) s

/-- held(d) - n (R9); it does not go below 0 (log 19). -/
def lowerHeld (d n : Nat) (s : State) : State := modDomain d (fun r => { r with held := r.held - n }) s

/-- incoming(d) + n (R10). -/
def raiseIncoming (d n : Nat) (s : State) : State := modDomain d (fun r => { r with incoming := r.incoming + n }) s

/-- incoming(d) - n (R10); it does not go below 0 (log 19). -/
def lowerIncoming (d n : Nat) (s : State) : State := modDomain d (fun r => { r with incoming := r.incoming - n }) s

/-- The reference count of a group + n (R15). -/
def raiseRefs (g n : Nat) (s : State) : State := modGroup g (fun r => { r with refs := r.refs + n }) s

/-- The reference count of a group - n (R15); it does not go below 0 (log 19). -/
def lowerRefs (g n : Nat) (s : State) : State := modGroup g (fun r => { r with refs := r.refs - n }) s

/-! ## Home Map -/

/-- A window covers a granule (R18). -/
def HomeWindow.covers (h : HomeWindow) (g : Nat) : Bool := decide (h.base ≤ g) && decide (g < h.base + h.count)

/-- The non-empty windows (R18). -/
def State.windows (s : State) : List HomeWindow := s.homes.toList.filterMap id

/-- The home link of a granule (R18). -/
def State.homeLink (s : State) (g : Nat) : Option LinkId :=
  (s.windows.find? (fun h => h.covers g)).map (fun h => h.link)

/-- A window has its base or its end strictly between two granules (R87). -/
def State.boundaryBetween (s : State) (lo hi : Nat) : Bool :=
  s.windows.any (fun h => (decide (lo < h.base) && decide (h.base < hi)) ||
    (decide (lo < h.base + h.count) && decide (h.base + h.count < hi)))

/-! ## Responses -/

/-- Free slots of the Response Queue (R70). -/
def State.freeSlots (s : State) : Nat := Config.responseSize - s.responses.length

/-- Place a response at the tail (R70). -/
def placeResponse (r : Response) (s : State) : State := { s with responses := s.responses ++ [r] }

/-- The Scheduler as the producer last served (R71). -/
def schedulerServed (s : State) : State := { s with respPtr := 16 }

/-- A response with counts 0. -/
def plainResponse (tag : BitVec 16) (kind : Byte) (status : Status) (reason : Option Reason) : Response :=
  { tag := tag, kind := kind, status := status, reason := reason, body := .counts 0 0 0 }

end Sys2Proof.Machine
end

