-- ==== Sys2Proof/Machine/Flags.lean ====
section
/-! DEFINITION. What an event reports or derives: notices and NOTICE_LOST, counters and wrap marks, snapshots, watermarks,
pacing and the interrupt. -/

namespace Sys2Proof.Machine

/-! ## Notices (R153) -/

/-- Offer a notice: placed with its lost-before mark while the queue has room, else dropped with NOTICE_LOST set. -/
def offerNotice (body : NoticeBody) (s : State) : State :=
  if s.notices.length < Config.noticeSize then
    { s with notices := s.notices ++ [{ body := body, lostBefore := s.noticeLost }], noticeLost := false }
  else { s with noticeLost := true }

/-! ## Counters (R158, R159) -/

/-- Where a counter stands in the bank: the per-link counters of CL0 to CL5, then the part-wide ones, in the order of
Table 11.10. -/
def CounterName.index : CounterName → Fin 53
  | .ofLink l c => Fin.ofNat 53 (8 * l.val + c.code)
  | .ofPart c => Fin.ofNat 53 (40 + c.code)

/-- A working counter. -/
def State.counter (s : State) (name : CounterName) : Counter := s.counters[name.index.val]

/-- Replace a working counter. -/
def setCounter (name : CounterName) (x : Counter) (s : State) : State :=
  { s with counters := s.counters.set name.index.val x name.index.isLt }

/-- A working counter takes a step; at 2^32 - 1 it becomes 0, its wrap mark is set and COUNTER_WRAP is offered. -/
def countEvent (name : CounterName) (s : State) : State :=
  let k := s.counter name
  if k.value = BitVec.allOnes 32 then
    offerNotice (.counterWrap name) (setCounter name { value := 0, wrapped := true } s)
  else setCounter name { k with value := k.value + 1 } s

/-! ## Watermarks (R162) -/

/-- A watermark presented with a new occupancy. -/
def followOccupancy (mode : WatermarkMode) (n : Nat) (w : Watermark) : Watermark :=
  match mode with
  | .current => { w with indicator := n }
  | .peak => if w.indicator < n then { w with indicator := n } else w

/-- A watermark at a snapshot: the indicator is copied, and a PEAK indicator set to the occupancy as it stands. -/
def snapshotWatermark (mode : WatermarkMode) (n : Nat) (w : Watermark) : Watermark :=
  match mode with
  | .current => { w with copy := w.indicator }
  | .peak => { indicator := n, copy := w.indicator }

/-! ## Snapshots (R160, R161) -/

/-- The interval timer restarts at a snapshot in mode AUTO. -/
def restartedTimer (s : State) : Option Nat :=
  match s.settings.snapshotMode with
  | .auto => some s.settings.snapshotInterval
  | .manual => s.snapTimer

/-- A snapshot of the Counter Bank. -/
def takeSnapshot (s : State) : State :=
  { s with
    copies := s.counters
    counters := Vector.replicate 53 Counter.zero
    parkMark := snapshotWatermark s.settings.parkMode s.park.length s.parkMark
    missMark := snapshotWatermark s.settings.missMode s.miss.length s.missMark
    snapSeq := s.snapSeq + 1
    snapTimer := restartedTimer s }

/-! ## Pacing and CREDIT frames (R147, R150, R151) -/

/-- The credits of the CREDIT frames in a transmit queue. -/
def queuedCredit : List TxFrame → Nat
  | [] => 0
  | .credit n :: rest => n + queuedCredit rest
  | .verdict _ :: rest | .recall _ _ _ _ :: rest | .wipe _ _ _ _ :: rest | .rejoin _ :: rest | .idle :: rest =>
      queuedCredit rest

/-- A CREDIT frame. -/
def TxFrame.isCredit : TxFrame → Bool
  | .credit _ => true
  | .verdict _ | .recall _ _ _ _ | .wipe _ _ _ _ | .rejoin _ | .idle => false

/-- The end of pacing at one link: an UP link with withheld credits places one CREDIT frame at the tail, merged with one
still queued, and its withheld count becomes 0 (R151). A merged count above 32 is kept as it is: the model's choice
(log 35). -/
def returnCredits (k : Link) : Link :=
  if k.state = .up ∧ 0 < k.withheld then
    { k with
      tx := k.tx.filter (fun f => !f.isCredit) ++ [.credit (queuedCredit k.tx + k.withheld)]
      withheld := 0 }
  else k

/-- Pacing ends (R151). -/
def endPacing (s : State) : State :=
  allLinks.foldl (fun s l => modLink l returnCredits s) { s with pacing := false }

/-- The pacing control tests the occupancies (R150). -/
def testPacing (s : State) : State :=
  if !s.pacing && (decide (44 ≤ s.miss.length) || decide (60 ≤ s.park.length)) then { s with pacing := true }
  else if s.pacing && decide (s.miss.length ≤ 24) && decide (s.park.length ≤ 32) then endPacing s
  else s

/-- Present the occupancies of the Miss Queue and the Park Queue to the watermarks and to pacing, where they differ from
those before the change (R37, R48). -/
def presentOccupancy (before : State) (s : State) : State :=
  if s.miss.length = before.miss.length ∧ s.park.length = before.park.length then s
  else
    testPacing
      { s with
        parkMark := followOccupancy s.settings.parkMode s.park.length s.parkMark
        missMark := followOccupancy s.settings.missMode s.miss.length s.missMark }

/-! ## The interrupt (R167) -/

/-- The interrupt condition. -/
def State.interruptCondition (s : State) : Bool :=
  (s.irqResponse && !s.responses.isEmpty) || (s.irqNotice && !s.notices.isEmpty)

/-- The end of an event: one interrupt is sent where the condition has gone from false to true. -/
def signalInterrupt (before after : State) : State :=
  if !before.interruptCondition && after.interruptCondition then { after with msiSent := after.msiSent + 1 } else after

/-- One event of the part. -/
def event (f : State → State) (s : State) : Host.Outcome State Fault Refusal := .next (signalInterrupt s (f s))

end Sys2Proof.Machine
end

