-- ==== Sys2Proof/Machine/Cache.lean ====
section
/-! DEFINITION. The Record Cache, the Miss Queue and the Tag Store Port (chapter 3). -/

namespace Sys2Proof.Machine

/-! ## The Tag Store as memory: one image and its ECC per granule -/

/-- What an unlisted granule reads as: image 0, which is VACANT, and no ECC. DESIGN CHOICE (log 8): what untrusted DRAM
holds is not given (R53), and no record is read before FORMAT has written it. -/
def storeDefault : StoredRecord := { image := 0, ecc := none }

/-- The image the Tag Store holds for a granule. -/
def State.stored (s : State) (g : Nat) : BitVec 64 := (tableGet storeDefault s.store g).image

/-- The ECC byte the Tag Store holds beside it. -/
def State.storedEcc (s : State) (g : Nat) : Option (BitVec 8) := (tableGet storeDefault s.store g).ecc

/-- A completed write sets the image and the ECC of a granule (R53). -/
def storeImage (g : Nat) (image : BitVec 64) (ecc : BitVec 8) (s : State) : State :=
  { s with store := tablePut storeDefault s.store g { image := image, ecc := some ecc } }

/-- The canonical form of the Tag Store's contents. -/
def Memory.wf (store : Table StoredRecord) : Bool := tableWf storeDefault store

/-! ## Requests of the Tag Store Port (R53) -/

/-- The granule of a request. -/
def PortReq.granule : PortReq → Nat
  | .read g _ | .write g _ _ => g

/-- The oldest outstanding request for a record. -/
def State.oldestReq (s : State) (g : Nat) : Option PortReq := s.port.find? (fun r => r.granule == g)

/-- The request list without the oldest one for a record. -/
def dropOldest (g : Nat) : List PortReq → List PortReq
  | [] => []
  | r :: rest => if r.granule == g then rest else r :: dropOldest g rest

/-- The image of the youngest outstanding write of a record. -/
def State.outstandingWrite (s : State) (g : Nat) : Option (BitVec 64) :=
  s.port.foldl (fun found r => match r with
    | .write g' image _ => if g' = g then some image else found
    | .read _ _ => found) none

/-- The write of a record: its image and the ECC computed over the 8 bytes written (R53, R59, R171). -/
def portWrite (g : Nat) (r : GranuleRecord) : PortReq := .write g (encodeImage r) (Config.ecc (encodeImage r))

/-- Issue a write of a record. -/
def issueWrite (g : Nat) (r : GranuleRecord) (s : State) : State := { s with port := s.port ++ [portWrite g r] }

/-- Issue the read of a record; one that finds a write of it outstanding takes its content from that write. -/
def issueRead (g : Nat) (s : State) : State :=
  { s with port := s.port ++ [.read g (s.outstandingWrite g)] }

/-! ## The Record Cache (R42, R45) -/

/-- The set of a granule. -/
def setOf (g : Nat) : Nat := g % Config.cacheSets

/-- The set of a granule, as it stands. -/
def State.cacheSet (s : State) (g : Nat) : CacheSet := tableGet CacheSet.initial s.cache (setOf g)

/-- Replace the set of a granule. -/
def putCacheSet (g : Nat) (x : CacheSet) (s : State) : State :=
  { s with cache := tablePut CacheSet.initial s.cache (setOf g) x }

/-- A way holds a granule. -/
def holdsGranule (g : Nat) : Option Way → Bool
  | some w => w.granule == g
  | none => false

/-- The way in which a granule is resident. -/
def CacheSet.find (x : CacheSet) (g : Nat) : Option WayName :=
  if holdsGranule g x.way0 then some .way0 else if holdsGranule g x.way1 then some .way1 else none

/-- One way of a set. -/
def CacheSet.way (x : CacheSet) : WayName → Option Way
  | .way0 => x.way0
  | .way1 => x.way1

/-- Replace one way of a set. -/
def CacheSet.put (x : CacheSet) (n : WayName) (w : Option Way) : CacheSet :=
  match n with
  | .way0 => { x with way0 := w }
  | .way1 => { x with way1 := w }

/-- The other way. -/
def WayName.other : WayName → WayName
  | .way0 => .way1
  | .way1 => .way0

/-- The resident copy of a granule's record. -/
def State.resident (s : State) (g : Nat) : Option GranuleRecord :=
  match (s.cacheSet g).find g with
  | some n => ((s.cacheSet g).way n).map (fun w => w.record)
  | none => none

/-- A use of a resident granule: the LRU mark names the way not used (R45). -/
def touchResident (g : Nat) (s : State) : State :=
  match (s.cacheSet g).find g with
  | some n => putCacheSet g { s.cacheSet g with lru := n.other } s
  | none => s

/-- A write of a resident granule: the copy is replaced and the way becomes dirty (R45). -/
def writeResident (g : Nat) (r : GranuleRecord) (s : State) : State :=
  match (s.cacheSet g).find g with
  | some n => putCacheSet g ((s.cacheSet g).put n (some { granule := g, record := r, dirty := true })) s
  | none => s

/-- A way is valid and dirty. -/
def wayDirty : Option Way → Bool
  | some w => w.dirty
  | none => false

/-- The way chosen at a fill (Table 3.5). -/
def CacheSet.victim (x : CacheSet) : WayName :=
  if x.way0.isNone then .way0
  else if x.way1.isNone then .way1
  else if wayDirty (x.way x.lru) && !wayDirty (x.way x.lru.other) then x.lru.other
  else x.lru

/-- A dirty victim is written back and WRITEBACKS advances (R52). -/
def writeBackVictim (victim : Option Way) (s : State) : State :=
  match victim with
  | some w => if w.dirty then countEvent (.ofPart .writebacks) (issueWrite w.granule w.record s) else s
  | none => s

/-- Install a filled record clean in the way chosen; the LRU mark names the other way (R51, R52). -/
def installRecord (g : Nat) (r : GranuleRecord) (s : State) : State :=
  let x := s.cacheSet g
  let n := x.victim
  let s := writeBackVictim (x.way n) s
  putCacheSet g { x.put n (some { granule := g, record := r, dirty := false }) with lru := n.other } s

/-! ## The Miss Queue (R48 to R50) -/

/-- The entry of a granule. -/
def State.missEntry (s : State) (g : Nat) : Option MissEntry := s.miss.find? (fun e => e.granule == g)

/-- Change the entry of a granule. -/
def modEntry (g : Nat) (f : MissEntry → MissEntry) (s : State) : State :=
  { s with miss := s.miss.map (fun e => if e.granule = g then f e else e) }

/-- A lookup that misses is taken by the Miss Queue (Table 3.4); none where it is refused. -/
def takeMiss (g : Nat) (w : Waiter) (s : State) : Option State :=
  match s.missEntry g with
  | some e =>
      if e.waiters.length < Config.waiterSize then
        some (modEntry g (fun e => { e with waiters := e.waiters ++ [w] }) s)
      else none
  | none =>
      if s.miss.length < Config.missSize then
        some (presentOccupancy s
          (issueRead g { s with miss := s.miss ++ [{ granule := g, waiters := [w], superseding := none }] }))
      else none

/-- Waiters leave their entries; the entries stay (R50). -/
def removeWaiters (p : Waiter → Bool) (s : State) : State :=
  { s with miss := s.miss.map (fun e => { e with waiters := e.waiters.filter (fun w => !p w) }) }

/-- The request of a context. -/
def Waiter.ofCtx (c : CtxId) : Waiter → Bool
  | .context c' => c' == c
  | .check _ => false

/-- A check of a link. -/
def Waiter.ofLink (l : LinkId) : Waiter → Bool
  | .check k => k.link == l
  | .context _ => false

/-! ## Run writes (R47) -/

/-- A run write of one record: in its way where it is resident, else written through, with superseding content in a
Miss Queue entry of the granule. -/
def runWriteRecord (s : State) (e : Nat × GranuleRecord) : State :=
  match s.resident e.1 with
  | some _ => touchResident e.1 (writeResident e.1 e.2 s)
  | none => modEntry e.1 (fun x => { x with superseding := some e.2 }) (issueWrite e.1 e.2 s)

/-- A run write of a run's records. -/
def runWrite (records : List (Nat × GranuleRecord)) (s : State) : State := records.foldl runWriteRecord s

/-- The current content of a record outside a lookup (log 24): the resident copy, else the superseding content of its
entry, else its youngest outstanding write, else the image stored. -/
def State.currentRecord (s : State) (g : Nat) : GranuleRecord :=
  let vacant : GranuleRecord := { state := .stable .vacant, generation := 0, holders := 0 }
  match s.resident g with
  | some r => r
  | none =>
      match (s.missEntry g).bind (fun e => e.superseding) with
      | some r => r
      | none => (decodeImage ((s.outstandingWrite g).getD (s.stored g))).getD vacant

end Sys2Proof.Machine
end

