-- ==== Sys2Proof/Machine/Runs.lean ====
section
/-! DEFINITION. What the seven range commands accept, recall, wipe and write (Table 5.6), and how a run takes the events
that reach its marks, its wipe and its outcome (chapters 5 and 6). -/

namespace Sys2Proof.Machine

/-! ## Table 5.6 -/

/-- A right of the first set is lacking in the second. -/
def lacksRight (have' want : Rights) : Bool := (have' &&& ~~~want) != 0

/-- Accepted records (VALIDATE test 1). The mix of VACANT and HELD records in one ASSIGN is tested apart (R100). -/
def RangeOp.accepts : RangeOp → Stable → Bool
  | .assign d _, .held o _ => o == d
  | .assign _ _, .vacant | .assign _ _, .wiped => true
  | .assign _ _, .shared _ _ _ | .assign _ _, .fenced => false
  | .reclaim d _, .held o _ => o == d
  | .reclaim _ _, .wiped => true
  | .reclaim _ wiping, .vacant => !wiping
  | .reclaim _ _, .shared _ _ _ | .reclaim _ _, .fenced => false
  | .transfer giver _ _ _, .held o _ => o == giver
  | .transfer _ _ _ _, .vacant | .transfer _ _ _ _, .wiped | .transfer _ _ _ _, .shared _ _ _
  | .transfer _ _ _ _, .fenced => false
  | .share owner _, .held o _ => o == owner
  | .share owner group, .shared o g _ => o == owner && g == group
  | .share _ _, .vacant | .share _ _, .wiped | .share _ _, .fenced => false
  | .unshare group, .shared _ g _ => g == group
  | .unshare _, .vacant | .unshare _, .wiped | .unshare _, .held _ _ | .unshare _, .fenced => false
  | .wipe, .vacant | .wipe, .wiped => true
  | .wipe, .held _ _ | .wipe, .shared _ _ _ | .wipe, .fenced => false
  | .releaseFence, .fenced | .releaseFence, .vacant => true
  | .releaseFence, .wiped | .releaseFence, .held _ _ | .releaseFence, .shared _ _ _ => false

/-- Counted unchanged. -/
def RangeOp.unchanged : RangeOp → Stable → Bool
  | .assign d rights, c => decide (c = .held d rights)
  | .reclaim _ wiping, c => decide (c = .wiped) || (!wiping && decide (c = .vacant))
  | .transfer _ _ _ _, _ => false
  | .share owner group, .shared o g _ => o == owner && g == group
  | .share _ _, .vacant | .share _ _, .wiped | .share _ _, .held _ _ | .share _ _, .fenced => false
  | .unshare _, _ => false
  | .wipe, c => decide (c = .wiped)
  | .releaseFence, c => decide (c = .vacant)

/-- Needs a recall, of a marked record with this prior. -/
def RangeOp.needsRecall : RangeOp → Stable → Bool
  | .assign d rights, .held o r => o == d && lacksRight r rights
  | .assign _ _, .vacant | .assign _ _, .wiped | .assign _ _, .shared _ _ _ | .assign _ _, .fenced => false
  | .reclaim _ _, _ | .transfer _ _ _ _, _ | .unshare _, _ | .releaseFence, _ => true
  | .share _ _, _ | .wipe, _ => false

/-- Needs a wipe, of a marked record with this prior. -/
def RangeOp.needsWipe : RangeOp → Stable → Bool
  | .assign _ _, c => decide (c = .vacant)
  | .reclaim _ wiping, _ => wiping
  | .transfer _ _ _ wiping, _ => wiping
  | .wipe, _ => true
  | .share _ _, _ | .unshare _, _ | .releaseFence, _ => false

/-- The result written at a clean commit; rights and owner kept where the command gives none. -/
def RangeOp.result : RangeOp → Stable → Stable
  | .assign d rights, _ => .held d rights
  | .reclaim _ wiping, _ => if wiping then .wiped else .vacant
  | .transfer _ taker rights _, _ => .held taker rights
  | .share _ group, .held o r => .shared o group r
  | .share _ _, c => c
  | .unshare _, .shared o _ r => .held o r
  | .unshare _, c => c
  | .wipe, _ => .wiped
  | .releaseFence, _ => .vacant

/-- The rule by which a job works its runs; a sweep reclaims with wipe (R130). -/
def Job.op : Job → Option RangeOp
  | .range _ _ _ op => some op
  | .closeDomain d => some (.reclaim d true)
  | .query _ | .format _ _ _ => none

/-- A job names a domain (R66). -/
def Job.names (d : Nat) : Job → Bool
  | .range _ _ _ (.assign d' _) | .range _ _ _ (.reclaim d' _) | .range _ _ _ (.share d' _) => d' == d
  | .range _ _ _ (.transfer giver taker _ _) => giver == d || taker == d
  | .range _ _ _ (.unshare _) | .range _ _ _ .wipe | .range _ _ _ .releaseFence | .query _ | .format _ _ _
  | .closeDomain _ => false

/-! ## The run -/

/-- A run as it is carved (R87). -/
def freshRun (base order : Nat) : Run :=
  { base := base, order := order, image := [], union := 0, marks := Vector.replicate 6 .noMark, cleared := 0,
    outcome := .clean, needsWipe := false, wipe := .notSent, deadline := none }

/-- The recall mark of a link. -/
def Run.mark (r : Run) (l : LinkId) : RecallMark := r.marks[l.val]

/-- Set the recall mark of a link. -/
def Run.setMark (r : Run) (l : LinkId) (m : RecallMark) : Run := { r with marks := r.marks.set l.val m l.isLt }

/-- Every recall mark is none. -/
def Run.allCleared (r : Run) : Bool := allLinks.all (fun l => decide (r.mark l = .noMark))

/-- A run is fenced: the cause and the link of the first such event stay (R109). -/
def Run.fence (cause : FenceCause) (link : Option LinkId) (r : Run) : Run :=
  match r.outcome with
  | .clean => { r with outcome := .fenced cause link }
  | .fenced _ _ => r

/-- Change the run of a context that has one. -/
def Work.modRun (f : Run → Run) (w : Work) : Work := { w with run := w.run.map f }

/-- A context enters COMMIT and presents the commit run write (R96). -/
def Work.enterCommit (asWiped : Bool) (w : Work) : Work :=
  { w with phase := .commit, request := .commit asWiped, waiting := false }

/-- The end of the recall phase (Table 5.5b). A run that carries the abort mark reverts where its outcome is CLEAN
(R79); its context stays in RECALL until the revert is written (log 30). -/
def Work.endRecall (w : Work) : Work :=
  match w.run with
  | none => w
  | some r =>
      let w := { w with run := some { r with deadline := none } }
      match r.outcome, w.abortMark with
      | .fenced _ _, _ => w.enterCommit false
      | .clean, true => { w with request := .revert }
      | .clean, false =>
          if r.needsWipe then { w with phase := .wipe, request := .wipeStart } else w.enterCommit false

/-- The recall phase ends in the event its last mark becomes none (R92). -/
def Work.endRecallIfCleared (w : Work) : Work :=
  match w.run with
  | some r => if r.allCleared then w.endRecall else w
  | none => w

/-- A recall mark clears by acknowledgement or rejoin: the link joins the cleared links (R91, R112). -/
def Work.clearMark (l : LinkId) (w : Work) : Work :=
  (w.modRun (fun r => { r.setMark l .noMark with cleared := addLink l r.cleared })).endRecallIfCleared

/-- A wipe that fails: the wipe becomes none and its deadline absent, the run is fenced, and the context enters COMMIT
(R115). -/
def Work.failWipe (cause : FenceCause) (link : Option LinkId) (w : Work) : Work :=
  (w.modRun (fun r => { r.fence cause link with wipe := .notSent, deadline := none })).enterCommit false

/-- The context's wipe is outstanding with a link. -/
def Work.wipeOutstanding (l : LinkId) (w : Work) : Bool :=
  match w.run with
  | some r => decide (r.wipe = .outstanding l)
  | none => false

/-- The context's recall mark of a link. -/
def Work.markOf (l : LinkId) (w : Work) : RecallMark :=
  match w.run with
  | some r => r.mark l
  | none => .noMark

/-- A link leaves UP and enters REJOINING, as a context takes it (Table 6.3). -/
def Work.linkRejoining (l : LinkId) (w : Work) : Work :=
  let w := if w.markOf l = .awaitingAck then w.modRun (fun r => r.setMark l .awaitingRejoin) else w
  if w.wipeOutstanding l then w.failWipe .wipeLinkDown (some l) else w

/-- A link completes a rejoin, as a context takes it (R112). -/
def Work.linkRejoined (l : LinkId) (w : Work) : Work :=
  if w.markOf l = .awaitingRejoin then w.clearMark l else w

/-- A link enters FAILED or OFF, as a context takes it (R113). -/
def Work.linkLost (cause : FenceCause) (l : LinkId) (w : Work) : Work :=
  if w.wipeOutstanding l then w.failWipe .wipeLinkDown (some l)
  else if w.markOf l = .noMark then w
  else (w.modRun (fun r => (r.setMark l .noMark).fence cause (some l))).endRecallIfCleared

end Sys2Proof.Machine
end

