-- ==== Sys2Proof/Machine/Links.lean ====
section
/-! DEFINITION. The Link Units: attempts, rejoins, leaving UP (8.5, 8.6). -/

namespace Sys2Proof.Machine

/-- An attempt of a rejoin begins: the rejoin number advances, a REJOIN carrying it is placed and the rejoin deadline
starts (R142). -/
def beginAttempt (attempt : Nat) (l : LinkId) (s : State) : State :=
  modLink l (fun k =>
    { k with
      attempt := attempt
      rejoinNumber := k.rejoinNumber + 1
      tx := k.tx ++ [.rejoin (k.rejoinNumber + 1)]
      rejoinDeadline := some s.settings.rejoinDeadline }) s

/-- A rejoin starts on a link that is in REJOINING from this event on (R141). -/
def startAttempts (l : LinkId) (s : State) : State :=
  countEvent (.ofLink l .rejoins) (beginAttempt 1 l s)

/-- Every check from a link that is held in the part is discarded (R40); its lane and its accounting are emptied with
the link's other fields. -/
def discardChecks (l : LinkId) (s : State) : State :=
  presentOccupancy s
    (removeWaiters (Waiter.ofLink l) { s with park := s.park.filter (fun k => !(k.link == l)) })

/-- A link leaves UP into REJOINING (R145, R141). -/
def leaveUpToRejoin (l : LinkId) (cause : DownCause) (s : State) : State :=
  let s := modLink l (fun k =>
    { k with state := .rejoining, silenceTimer := none, lane := [], accounting := [], withheld := 0, tx := [] }) s
  let s := discardChecks l s
  let s := presentToContexts (Work.linkRejoining l) s
  let s := offerNotice (.linkDown l cause) s
  startAttempts l s

/-- A link leaves UP into OFF (R145, R146); its receiver hunts (R136). -/
def leaveUpToOff (l : LinkId) (s : State) : State :=
  let s := modLink l (fun k =>
    { k with
      state := .off, silenceTimer := none, receiver := .hunting, lane := [], accounting := [], withheld := 0
      tx := [] }) s
  let s := discardChecks l s
  let s := presentToContexts (Work.linkLost .linkOff l) s
  offerNotice (.linkDown l .command) s

/-- A context asks the Link Unit to start a rejoin: an UP link leaves UP, and a REJOINING one takes the cause into the
rejoin under way (R110, R141). -/
def askRejoin (l : LinkId) (cause : DownCause) (s : State) : State :=
  if (s.link l).state = .up then leaveUpToRejoin l cause s else s

/-- The receiver of a link hunts (R136). -/
def huntAgain (l : LinkId) (s : State) : State := modLink l (fun k => { k with receiver := .hunting }) s

/-- A frame is taken on a link: the receiver is hunting again (R136), and on an UP link the silence timer restarts
(R140). -/
def takeFrameEvent (l : LinkId) (s : State) : State :=
  modLink l (fun k =>
    { k with
      receiver := .hunting
      silenceTimer := if k.state = .up then some s.settings.silenceLimit else k.silenceTimer }) s

/-- A protocol fault on an UP link; a faulty frame is dropped in every other state (R137, R138). -/
def protocolFault (l : LinkId) (cause : DownCause) (s : State) : State :=
  if (s.link l).state = .up then leaveUpToRejoin l cause s else s

end Sys2Proof.Machine
end

