-- ==== Sys2Proof/Machine/Operands.lean ====
section
/-! DEFINITION. What the operands of commands carry: the command message (11.2) and the payloads of agent frames (11.1). -/

namespace Sys2Proof.Machine

/-! ## Fields of the command message (Table 11.4) -/

/-- Bytes `lo` to `lo + n - 1` of a message as a number. -/
def msgBytes (m : Message) (lo n : Nat) : Nat := bitField m.toNat (8 * lo) (8 * n)

/-- A flag of byte 3. -/
def msgFlag (m : Message) (i : Nat) : Bool := bitAt m.toNat (24 + i)

/-- The tag (bytes 0 and 1). -/
def msgTag (m : Message) : BitVec 16 := BitVec.ofNat 16 (msgBytes m 0 2)

/-- The kind byte. -/
def msgKind (m : Message) : Byte := BitVec.ofNat 8 (msgBytes m 2 1)

/-- Bytes 4 to 7: base, with the bits that must be 0. -/
def msgBase (m : Message) : Nat := msgBytes m 4 4

/-- Bytes 8 to 11: count, with the bits that must be 0. -/
def msgCount (m : Message) : Nat := msgBytes m 8 4

/-- Bytes 12 to 15: quota or T, with the bits that must be 0. -/
def msgQuota (m : Message) : Nat := msgBytes m 12 4

/-- Bytes 16 and 17: domain, with the bits that must be 0. -/
def msgDomain (m : Message) : Nat := msgBytes m 16 2

/-- Bytes 18 and 19: second domain. -/
def msgDomain2 (m : Message) : Nat := msgBytes m 18 2

/-- Byte 20: group, set, window or link. -/
def msgByte20 (m : Message) : Nat := msgBytes m 20 1

/-- Byte 21, bits 0 to 2: rights, class, link or action; the bits above are passed over (DEDUCED, log 12). -/
def msgByte21 (m : Message) : Nat := bitField m.toNat 168 3

/-- Byte 22: expected generation, policy set or action. -/
def msgByte22 (m : Message) : Nat := msgBytes m 22 1

/-- Byte 23: member count. -/
def msgMemberCount (m : Message) : Nat := msgBytes m 23 1

/-- Bytes 24 and 25: tally threshold. -/
def msgThreshold (m : Message) : Nat := msgBytes m 24 2

/-- The eight 16-bit entries of bytes 4 to 19, in list order. -/
def msgMembers (m : Message) : List Nat := (List.range 8).map (fun i => msgBytes m (4 + 2 * i) 2)

/-- The target tag of an ABORT (bytes 4 and 5). -/
def msgTarget (m : Message) : BitVec 16 := BitVec.ofNat 16 (msgBytes m 4 2)

/-! ## Commands -/

/-- LINK_CONTROL actions (11.2). -/
inductive LinkAction where
  | enable
  | disable
  | rejoin
  deriving DecidableEq, Repr

/-- A command message whose fields lie in their coding. -/
inductive Command where
  | job (j : Job)
  | openDomain (domain quota : Nat) (policySet : Fin 4) (threshold : Option Nat)
  | setDomain (domain : Nat) (quota : Option Nat) (policySet : Option (Fin 4)) (threshold : Option Nat)
  | defineGroup (group : Nat) (members : List Nat)
  | dropGroup (group : Nat)
  | setPolicy (set : Fin 4) (cls : Fin 8) (action : PolicyAction)
  | setHome (window : Fin 16) (base count : Nat) (link : LinkId)
  | snapshot
  | abort (target : BitVec 16)
  | linkControl (link : LinkId) (action : LinkAction)
  deriving DecidableEq, Repr

/-- A value where a flag says that it is present. -/
def present {α : Type} (flag : Bool) (x : α) : Option α := if flag then some x else none

/-- A value where a coding test passes. -/
def coded {α : Type} (test : Bool) (x : α) : Option α := if test then some x else none

/-- A domain field in its coding: bits 10 to 15 are 0. -/
def domainCoded (d : Nat) : Bool := decide (d < 1024)

/-- A base field in its coding: bits 26 to 31 are 0. -/
def baseCoded (b : Nat) : Bool := decide (b < Config.granules)

/-- The tests common to the seven range commands (R170): base, count 1 to 65536, and an expected generation with count 1
only (R86). -/
def rangeCoded (m : Message) : Bool :=
  baseCoded (msgBase m) && decide (1 ≤ msgCount m) && decide (msgCount m ≤ 65536) &&
    (!msgFlag m 1 || msgCount m == 1)

/-- A range command where its common tests and its own test pass. -/
def decodeRange (m : Message) (test : Bool) (op : RangeOp) : Option Command :=
  coded (rangeCoded m && test)
    (.job (.range (msgBase m) (msgCount m) (present (msgFlag m 1) (BitVec.ofNat 8 (msgByte22 m))) op))

/-- The base and the link of a SET_HOME in their coding; with count 0 neither is tested (R19, R170, log 11). -/
def homeCoded (m : Message) : Bool := msgCount m == 0 || (baseCoded (msgBase m) && decide (msgByte21 m < 6))

/-- The rights field (byte 21). -/
def msgRights (m : Message) : Rights := BitVec.ofNat 3 (msgByte21 m)

/-- The policy action of byte 22 (11.2). -/
def decodeAction (code : Nat) : Option PolicyAction :=
  match code with
  | 0 => some .quiet
  | 1 => some .notify
  | 2 => some .poison
  | 3 => some .poisonNotify
  | _ => none

/-- The LINK_CONTROL action of byte 21 (11.2). -/
def decodeLinkAction (code : Nat) : Option LinkAction :=
  match code with
  | 0 => some .enable
  | 1 => some .disable
  | 2 => some .rejoin
  | _ => none

/-- The entries that a DEFINE_GROUP uses. -/
def usedMembers (m : Message) : List Nat := (msgMembers m).take (msgMemberCount m)

/-- R170 for DEFINE_GROUP: 2 to 8 entries, each at most 1023, no two equal. -/
def membersCoded (m : Message) : Bool :=
  decide (2 ≤ msgMemberCount m) && decide (msgMemberCount m ≤ 8) && (usedMembers m).all domainCoded &&
    decide (usedMembers m).Nodup

/-- The command of a message, none where R170 refuses it BAD_FIELD. FORMAT's fields are not tested here (R58); each is
read as its whole 32-bit number, a bit that must be 0 with it, which is the model's choice (log 37). -/
def decodeCommand (m : Message) : Option Command :=
  let dom := msgDomain m
  match (msgKind m).toNat with
  | 0x01 => decodeRange m (domainCoded dom && msgByte21 m != 0) (.assign dom (msgRights m))
  | 0x02 => decodeRange m (domainCoded dom) (.reclaim dom (msgFlag m 0))
  | 0x03 =>
      decodeRange m (domainCoded dom && domainCoded (msgDomain2 m) && msgByte21 m != 0)
        (.transfer dom (msgDomain2 m) (msgRights m) (msgFlag m 0))
  | 0x04 => decodeRange m (domainCoded dom) (.share dom (msgByte20 m))
  | 0x05 => decodeRange m true (.unshare (msgByte20 m))
  | 0x06 => decodeRange m true .wipe
  | 0x07 => decodeRange m true .releaseFence
  | 0x08 => coded (baseCoded (msgBase m)) (.job (.query (msgBase m)))
  | 0x09 =>
      some (.job (.format (msgQuota m) (present (msgFlag m 5) (msgBase m)) (present (msgFlag m 6) (msgCount m))))
  | 0x0A => coded (domainCoded dom) (.job (.closeDomain dom))
  | 0x10 =>
      coded (domainCoded dom && decide (msgQuota m ≤ Config.granules) && decide (msgByte22 m < 4))
        (.openDomain dom (msgQuota m) (Fin.ofNat 4 (msgByte22 m)) (present (msgFlag m 4) (msgThreshold m)))
  | 0x11 =>
      coded (domainCoded dom && (!msgFlag m 2 || decide (msgQuota m ≤ Config.granules)) &&
          (!msgFlag m 3 || decide (msgByte22 m < 4)))
        (.setDomain dom (present (msgFlag m 2) (msgQuota m)) (present (msgFlag m 3) (Fin.ofNat 4 (msgByte22 m)))
          (present (msgFlag m 4) (msgThreshold m)))
  | 0x12 => coded (membersCoded m) (.defineGroup (msgByte20 m) (usedMembers m))
  | 0x13 => some (.dropGroup (msgByte20 m))
  | 0x14 =>
      match decodeAction (msgByte22 m) with
      | some a => coded (decide (msgByte20 m < 4)) (.setPolicy (Fin.ofNat 4 (msgByte20 m)) (Fin.ofNat 8 (msgByte21 m)) a)
      | none => none
  | 0x15 =>
      coded (decide (msgByte20 m < 16) && decide (msgCount m ≤ Config.granules) && homeCoded m)
        (.setHome (Fin.ofNat 16 (msgByte20 m)) (msgBase m) (msgCount m) (Fin.ofNat 6 (msgByte21 m)))
  | 0x16 => some .snapshot
  | 0x17 => some (.abort (msgTarget m))
  | 0x18 =>
      match decodeLinkAction (msgByte21 m) with
      | some a => coded (decide (msgByte20 m < 6)) (.linkControl (Fin.ofNat 6 (msgByte20 m)) a)
      | none => none
  | _ => none

/-- The kind byte is a code of Table 11.5. -/
def knownKind (m : Message) : Bool :=
  let k := (msgKind m).toNat
  (decide (0x01 ≤ k) && decide (k ≤ 0x0A)) || (decide (0x10 ≤ k) && decide (k ≤ 0x18))

/-- The urgent kinds, ABORT and LINK_CONTROL (Table 4.2); a LINK_CONTROL that fails its coding keeps its urgent place
(R170). -/
def isUrgent (m : Message) : Bool := msgKind m == 0x17 || msgKind m == 0x18

/-! ## Payloads of agent frames (Table 11.1, R169) -/

/-- The check a CHECK payload carries, with its link. -/
def decodeCheck (l : LinkId) (payload : BitVec 48) : Check :=
  let x := payload.toNat
  { link := l, tag := BitVec.ofNat 5 (bitField x 0 5), kind := BitVec.ofNat 3 (bitField x 5 3),
    domain := bitField x 8 11, granule := bitField x 19 26, cacheWanted := bitAt x 45 }

/-- The context of a recall or wipe id. -/
def idCtx (x : Nat) : CtxId := Fin.ofNat 16 (bitField x 0 4)

/-- The run sequence of a recall or wipe id. -/
def idSeq (x : Nat) : BitVec 4 := BitVec.ofNat 4 (bitField x 4 4)

end Sys2Proof.Machine
end

