-- ==== Sys2Proof/Machine/Frames.lean ====
section
/-! DEFINITION. The meanings of the frames taken and sent on a link, and of the expiries (chapters 6, 8 and 9). Every
taking of a frame begins with the receiver and the silence timer (takeFrameEvent, R136, R140). -/

namespace Sys2Proof.Machine

/-! ## Answers (R91, R94, R148) -/

/-- An answer that matches nothing (R148). -/
def strayAnswer (l : LinkId) (s : State) : State := countEvent (.ofLink l .strayAcks) s

/-- A RECALL_ACK matches: the context is in RECALL, the sequence is its current run's, and the mark of the link is
awaiting ack (R91). -/
def State.recallMatches (s : State) (c : CtxId) (seq : BitVec 4) (l : LinkId) : Bool :=
  match s.work c with
  | some w => decide (w.phase = .recall) && s.runSeq c == seq && decide (w.markOf l = .awaitingAck)
  | none => false

/-- A context takes a RECALL_ACK (R91). -/
def takeRecallAck (l : LinkId) (c : CtxId) (seq : BitVec 4) (s : State) : State :=
  if s.recallMatches c seq l then modWork c (Work.clearMark l) s else strayAnswer l s

/-- RECALL_ACK. -/
def execRecallAck (l : LinkId) (payload : BitVec 8) (s : State) : Host.Outcome State Fault Refusal :=
  event (fun s =>
    let s := takeFrameEvent l s
    match (s.link l).state with
    | .up | .rejoining => takeRecallAck l (idCtx payload.toNat) (idSeq payload.toNat) s
    | .off | .failed => s) s

/-- A WIPE_DONE matches: the context is in WIPE, the sequence is its current run's, and the wipe is outstanding with the
link (R94). -/
def State.wipeMatches (s : State) (c : CtxId) (seq : BitVec 4) (l : LinkId) : Bool :=
  match s.work c with
  | some w => decide (w.phase = .wipe) && s.runSeq c == seq && w.wipeOutstanding l
  | none => false

/-- A WIPE_DONE with OK: the wipe is done, and the commit is presented, as WIPED under the abort mark (R94, R80). -/
def Work.wipeOk (w : Work) : Work :=
  (w.modRun (fun r => { r with wipe := .done, deadline := none })).enterCommit w.abortMark

/-- A context takes a WIPE_DONE (R94). -/
def takeWipeDone (l : LinkId) (c : CtxId) (seq : BitVec 4) (failed : Bool) (s : State) : State :=
  if s.wipeMatches c seq l then
    modWork c (if failed then Work.failWipe .wipeFail (some l) else Work.wipeOk) s
  else strayAnswer l s

/-- WIPE_DONE: byte 0 carries the id, bit 0 of byte 1 the result (Table 11.1). -/
def execWipeDone (l : LinkId) (payload : BitVec 16) (s : State) : Host.Outcome State Fault Refusal :=
  event (fun s =>
    let s := takeFrameEvent l s
    match (s.link l).state with
    | .up | .rejoining => takeWipeDone l (idCtx payload.toNat) (idSeq payload.toNat) (payload.getLsbD 8) s
    | .off | .failed => s) s

/-! ## REJOIN_ACK (R143) -/

/-- The completion of a rejoin (R143). -/
def completeRejoin (l : LinkId) (s : State) : State :=
  let s := modLink l (fun k =>
    { k with
      state := .up, rejoinDeadline := none, attempt := 0, silenceTimer := some s.settings.silenceLimit
      accounting := [], withheld := 0 }) s
  offerNotice (.linkUp l) (presentToContexts (Work.linkRejoined l) s)

/-- A REJOIN_ACK by the link's state (Table 8.4); bits 4 to 7 are passed over (R169). -/
def takeRejoinAck (l : LinkId) (number : BitVec 4) (s : State) : State :=
  match (s.link l).state with
  | .up => strayAnswer l s
  | .rejoining => if number = (s.link l).rejoinNumber then completeRejoin l s else strayAnswer l s
  | .off | .failed => s

/-- REJOIN_ACK. -/
def execRejoinAck (l : LinkId) (payload : BitVec 8) (s : State) : Host.Outcome State Fault Refusal :=
  event (fun s => takeRejoinAck l (payload.extractLsb' 0 4) (takeFrameEvent l s)) s

/-! ## Other frames (Table 8.4) -/

/-- IDLE. -/
def execIdle (l : LinkId) (s : State) : Host.Outcome State Fault Refusal := event (takeFrameEvent l) s

/-- BAD_CRC_FRAME. -/
def execBadCrcFrame (l : LinkId) (s : State) : Host.Outcome State Fault Refusal :=
  event (fun s => protocolFault l .crc (takeFrameEvent l s)) s

/-- UNKNOWN_KIND_FRAME. -/
def execUnknownKindFrame (l : LinkId) (_kind : Byte) (s : State) : Host.Outcome State Fault Refusal :=
  event (fun s => protocolFault l .protocol (takeFrameEvent l s)) s

/-- PART_SENT_KIND_FRAME. -/
def execPartSentKindFrame (l : LinkId) (_kind : PartSentKind) (s : State) : Host.Outcome State Fault Refusal :=
  event (fun s => protocolFault l .protocol (takeFrameEvent l s)) s

/-! ## Sending (R147) -/

/-- The frame at the head goes out; on an empty queue an IDLE does (log 31). -/
def sendHead (k : Link) : Link :=
  match k.tx with
  | frame :: rest => { k with tx := rest, line := some frame }
  | [] => { k with line := some .idle }

/-- FRAME_SENT: an OFF or FAILED link sends nothing (Table 8.5). -/
def execFrameSent (l : LinkId) (s : State) : Host.Outcome State Fault Refusal :=
  event (fun s =>
    match (s.link l).state with
    | .up | .rejoining => modLink l sendHead s
    | .off | .failed => s) s

/-! ## Expiries -/

/-- SILENCE_EXPIRY (R140). -/
def execSilenceExpiry (l : LinkId) (s : State) : Host.Outcome State Fault Refusal :=
  event (fun s =>
    if (s.link l).state = .up ∧ (s.link l).silenceTimer.isSome then leaveUpToRejoin l .silence s else s) s

/-- A link still awaited at a recall expiry: its mark becomes awaiting rejoin and its Link Unit is asked to start a
rejoin (R110). -/
def expireMark (c : CtxId) (l : LinkId) (s : State) : State :=
  match s.work c with
  | some w =>
      if w.markOf l = .awaitingAck then
        askRejoin l .recallExpiry (modWork c (Work.modRun (fun r => r.setMark l .awaitingRejoin)) s)
      else s
  | none => s

/-- The running deadline of a context's run. -/
def State.deadline (s : State) (c : CtxId) : Option Deadline :=
  ((s.work c).bind (fun w => w.run)).bind (fun r => r.deadline)

/-- The recall deadline of a context expires (R110). -/
def expireRecall (c : CtxId) (s : State) : State :=
  allLinks.foldl (fun s l => expireMark c l s) (modWork c (Work.modRun (fun r => { r with deadline := none })) s)

/-- RECALL_DEADLINE_EXPIRY. -/
def execRecallDeadlineExpiry (c : CtxId) (s : State) : Host.Outcome State Fault Refusal :=
  event (fun s =>
    match s.deadline c with
    | some (.recall _) => expireRecall c s
    | some (.wipe _) | none => s) s

/-- The link of an outstanding wipe. -/
def WipeState.link : WipeState → Option LinkId
  | .outstanding l => some l
  | .notSent | .done => none

/-- The wipe deadline of a context expires (R94, R115). -/
def expireWipe (c : CtxId) (s : State) : State :=
  modWork c (fun w => w.failWipe .wipeExpiry (w.run.bind (fun r => r.wipe.link))) s

/-- WIPE_DEADLINE_EXPIRY. -/
def execWipeDeadlineExpiry (c : CtxId) (s : State) : Host.Outcome State Fault Refusal :=
  event (fun s =>
    match s.deadline c with
    | some (.wipe _) => expireWipe c s
    | some (.recall _) | none => s) s

/-- A rejoin is exhausted (R144). -/
def exhaustRejoin (l : LinkId) (s : State) : State :=
  let s := modLink l (fun k => { k with state := .failed, rejoinDeadline := none, attempt := 0, tx := [] }) s
  offerNotice (.linkFailed l) (presentToContexts (Work.linkLost .linkFailed l) s)

/-- The rejoin deadline of a link expires: the next attempt, or the end after attempt 3 (R142, R144). -/
def expireRejoin (l : LinkId) (s : State) : State :=
  if (s.link l).attempt < 3 then beginAttempt ((s.link l).attempt + 1) l s else exhaustRejoin l s

/-- REJOIN_DEADLINE_EXPIRY. -/
def execRejoinDeadlineExpiry (l : LinkId) (s : State) : Host.Outcome State Fault Refusal :=
  event (fun s =>
    if (s.link l).state = .rejoining ∧ (s.link l).rejoinDeadline.isSome then expireRejoin l s else s) s

/-- SNAPSHOT_INTERVAL_EXPIRY (R161). -/
def execSnapshotIntervalExpiry (s : State) : Host.Outcome State Fault Refusal :=
  event (fun s => if s.snapTimer.isSome then takeSnapshot s else s) s

end Sys2Proof.Machine
end

