-- ==== Sys2Proof/Machine/Checks.lean ====
section
/-! DEFINITION. Deciding a check (chapter 2): the order of cases, fault classes and policy actions, verdicts, holders,
parking and tallies. -/

namespace Sys2Proof.Machine

/-- What a decision finds (Table 2.4). A grant of case 1 may not be cached. -/
inductive Decision where
  | grant (rights : Rights) (generation : BitVec 8) (mayCache : Bool)
  | deny (cls : FaultClass) (generation : BitVec 8)
  | park
  deriving DecidableEq, Repr

/-- CL0 to CL3 are of type MEMORY. -/
def isMemoryLink (l : LinkId) : Bool := decide (l.val < 4)

/-- The access kind is one of the four and suits the link (case 3): CPU kinds on MEMORY links, DMA kinds on IO links. -/
def kindSuits (l : LinkId) (kind : BitVec 3) : Bool :=
  if isMemoryLink l then decide (kind.toNat = 0 ∨ kind.toNat = 1) else decide (kind.toNat = 2 ∨ kind.toNat = 3)

/-- The rights an access kind requires (Table 2.5). -/
def requiredRights (kind : BitVec 3) : Rights :=
  match kind.toNat with
  | 0 => 1
  | 1 => 2
  | 2 => 5
  | 3 => 6
  | _ => 7

/-- Cases 1 to 4, which use no record; none where none of them applies. -/
def decideWithoutRecord (s : State) (k : Check) : Option Decision :=
  if s.part ≠ .serving then
    if k.domain = 0 then some (.grant 7 0 false) else some (.deny .notReady 0)
  else if s.tableSize ≤ k.granule then some (.deny .outOfRange 0)
  else if !kindSuits k.link k.kind || decide (1023 < k.domain) then some (.deny .malformed 0)
  else if !s.isActive k.domain then some (.deny .domainClosed 0)
  else none

/-- Cases 5e and 5f: the rights of a record that reaches the requester. -/
def decideRights (k : Check) (rights : Rights) (generation : BitVec 8) : Decision :=
  if (requiredRights k.kind &&& ~~~rights) = 0 then .grant rights generation true else .deny .noRight generation

/-- Case 5 against the granule's record. -/
def decideByRecord (s : State) (k : Check) (r : GranuleRecord) : Decision :=
  match r.state with
  | .moving _ _ | .wiping _ _ => .park
  | .stable .fenced => .deny .fencedGranule r.generation
  | .stable .vacant | .stable .wiped => .deny .unassigned r.generation
  | .stable (.held owner rights) =>
      if k.domain = owner then decideRights k rights r.generation else .deny .notOwner r.generation
  | .stable (.shared owner group rights) =>
      if k.domain = owner ∨ k.domain ∈ (s.group group).members then decideRights k rights r.generation
      else .deny .notOwner r.generation

/-- The whole order of cases (R21, R22). -/
def decision (s : State) (k : Check) (r : GranuleRecord) : Decision :=
  match decideWithoutRecord s k with
  | some d => d
  | none => decideByRecord s k r

/-- The index of a class in a Policy Set; NOT_READY has no entry (R31). -/
def FaultClass.entry : FaultClass → Option (Fin 7)
  | .notOwner => some 0
  | .noRight => some 1
  | .unassigned => some 2
  | .fencedGranule => some 3
  | .domainClosed => some 4
  | .outOfRange => some 5
  | .malformed => some 6
  | .notReady => none

/-- The Policy Set that answers a requester domain number as carried (R28). -/
def State.policySetOf (s : State) (d : Nat) : Fin 4 := if d ≤ 1023 then (s.domain d).policySet else 0

/-- The action taken on a class (R28). -/
def State.actionFor (s : State) (cls : FaultClass) (d : Nat) : PolicyAction :=
  match cls.entry with
  | some i => (s.policies[(s.policySetOf d).val])[i.val]
  | none => .quiet

/-- The action answers with POISON (Table 2.8). -/
def PolicyAction.poisons : PolicyAction → Bool
  | .poison | .poisonNotify => true
  | .quiet | .notify => false

/-- The action calls for a DENIED notice (Table 2.8). -/
def PolicyAction.notifies : PolicyAction → Bool
  | .notify | .poisonNotify => true
  | .quiet | .poison => false

/-- Queue a verdict (R27, R149): its credit is 1, or is withheld while pacing is in force, and the tag leaves the
intake accounting. -/
def queueVerdict (k : Check) (v : Verdict) (s : State) : State :=
  modLink k.link (fun x =>
    { x with
      tx := x.tx ++ [.verdict { v with credit := !s.pacing }]
      accounting := x.accounting.erase k.tag
      withheld := if s.pacing then x.withheld + 1 else x.withheld }) s

/-- A counted denial advances an armed tally, or takes it from 65535 to absent with TALLY_REACHED (R30, R156). -/
def advanceTally (k : Check) (cls : FaultClass) (s : State) : State :=
  if cls = .notReady ∨ 1023 < k.domain then s
  else
    match (s.domain k.domain).tally with
    | none => s
    | some t =>
        if t = 65535 then
          offerNotice (.tallyReached k.domain k.link k.tag cls) (modDomain k.domain (fun r => { r with tally := none }) s)
        else modDomain k.domain (fun r => { r with tally := some (t + 1) }) s

/-- Answer a check RETRY (R27, Table 2.6). -/
def answerRetry (k : Check) (s : State) : State :=
  countEvent (.ofLink k.link .retries)
    (queueVerdict k
      { tag := k.tag, result := .retry, rights := none, cacheable := false, generation := 0, credit := true,
        faultClass := none } s)

/-- Answer a check with a GRANT (Table 2.6). -/
def answerGrant (k : Check) (rights : Rights) (generation : BitVec 8) (cacheable : Bool) (s : State) : State :=
  countEvent (.ofLink k.link .grants)
    (queueVerdict k
      { tag := k.tag, result := .grant, rights := some rights, cacheable := cacheable, generation := generation,
        credit := true, faultClass := none } s)

/-- Answer a check with a fault class: the verdict, the DENIED notice, the tally, then the counter, whose COUNTER_WRAP
follows the notices of the event (R27 to R30, R154; log 13). -/
def answerDenial (k : Check) (cls : FaultClass) (generation : BitVec 8) (s : State) : State :=
  let action := s.actionFor cls k.domain
  let s := queueVerdict k
    { tag := k.tag, result := if action.poisons then .poison else .deny, rights := none, cacheable := false,
      generation := generation, credit := true, faultClass := some cls } s
  let s :=
    if action.notifies then offerNotice (.denied k.link k.tag k.domain k.granule k.kind cls action.poisons) s else s
  let s := advanceTally k cls s
  countEvent (.ofLink k.link (if action.poisons then .poisons else .denials)) s

/-- Park a check, or answer RETRY where the Park Queue is full (R37). -/
def parkCheck (k : Check) (s : State) : State :=
  if s.park.length < Config.parkSize then
    countEvent (.ofLink k.link .parks) (presentOccupancy s { s with park := s.park ++ [k] })
  else answerRetry k s

/-- A GRANT of case 5f is cacheable when the check asks for it and caching is enabled for its link (R33). -/
def cacheableNow (s : State) (k : Check) (mayCache : Bool) : Bool :=
  mayCache && k.cacheWanted && linkIn k.link s.settings.caching

/-- A decision against a record in hand: the state after it, and the record, with the link among its holders where the
GRANT is cacheable (R34). -/
def decideCheck (k : Check) (r : GranuleRecord) (s : State) : State × GranuleRecord :=
  match decision s k r with
  | .grant rights generation mayCache =>
      let cacheable := cacheableNow s k mayCache
      (answerGrant k rights generation cacheable s,
        if cacheable then { r with holders := addLink k.link r.holders } else r)
  | .deny cls generation => (answerDenial k cls generation s, r)
  | .park => (parkCheck k s, r)

/-- A check decided against the resident copy of its record, which is written where a holder is added (R34, R45). -/
def decideResident (k : Check) (r : GranuleRecord) (s : State) : State :=
  let after := decideCheck k r s
  if after.2 = r then after.1 else writeResident k.granule after.2 after.1

/-- The records of a run as they are written, with one replaced. -/
def replaceRecord (g : Nat) (r : GranuleRecord) (records : List (Nat × GranuleRecord)) : List (Nat × GranuleRecord) :=
  records.map (fun e => if e.1 = g then (g, r) else e)

/-- The record of a granule among those of a run. -/
def recordOf (records : List (Nat × GranuleRecord)) (g : Nat) : Option GranuleRecord :=
  (records.find? (fun e => e.1 == g)).map (fun e => e.2)

/-- Decide parked checks in turn against the records as a run writes them (R38); a holder added is part of the content
written. A check on a granule the run does not write is decided against its current record (log 24). -/
def decideParked : List Check → List (Nat × GranuleRecord) → State → State × List (Nat × GranuleRecord)
  | [], records, s => (s, records)
  | k :: rest, records, s =>
      let r := (recordOf records k.granule).getD (s.currentRecord k.granule)
      let after := decideCheck k r s
      decideParked rest (replaceRecord k.granule after.2 records) after.1

/-- The re-decision at a commit or revert (R38): the entries of the run's granules leave the Park Queue and are decided
oldest first. -/
def redecideRun (base count : Nat) (records : List (Nat × GranuleRecord)) (s : State) :
    State × List (Nat × GranuleRecord) :=
  let covered := fun (k : Check) => decide (base ≤ k.granule) && decide (k.granule < base + count)
  decideParked (s.park.filter covered) records
    (presentOccupancy s { s with park := s.park.filter (fun k => !covered k) })

/-- Decide checks in turn against the resident copy of one granule (R39). -/
def decideAllResident (g : Nat) : List Check → State → State
  | [], s => s
  | k :: rest, s => decideAllResident g rest (decideResident k ((s.resident g).getD (s.currentRecord g)) s)

/-- The re-decision at the replacement of a record (R39). -/
def redecideGranule (g : Nat) (s : State) : State :=
  decideAllResident g (s.park.filter (fun k => k.granule == g))
    (presentOccupancy s { s with park := s.park.filter (fun k => !(k.granule == g)) })

end Sys2Proof.Machine
end

