-- ==== Sys2Proof/Machine/Change.lean ====
section
/-! DEFINITION. The work of the Change Engine between and inside the phases of a context: reservations, carving, the end
of a run, the retire sweep, VALIDATE, MARK, the recall fan-out and the run writes (chapters 5 to 7). -/

namespace Sys2Proof.Machine

/-! ## Ends and reservations -/

/-- Give back `n` granules of what a job reserved at issue (R10, R15). -/
def releaseReservation (job : Job) (n : Nat) (s : State) : State :=
  match job with
  | .range _ _ _ (.assign d _) => lowerIncoming d n s
  | .range _ _ _ (.transfer _ taker _ _) => lowerIncoming taker n s
  | .range _ _ _ (.share _ group) => lowerRefs group n s
  | .range _ _ _ (.reclaim _ _) | .range _ _ _ (.unshare _) | .range _ _ _ .wipe | .range _ _ _ .releaseFence
  | .query _ | .format _ _ _ | .closeDomain _ => s

/-- A context enters POST holding its response (R72). -/
def Work.enterPost (status : Status) (reason : Option Reason) (body : ResponseBody) (w : Work) : Work :=
  { w with
    phase := .post, request := .noRequest, waiting := false, run := none, window := none, reclaim := []
    result := some { tag := w.tag, kind := w.job.kindCode, status := status, reason := reason, body := body } }

/-- The three running counts of a range command (R69). -/
def Work.counts (w : Work) : ResponseBody := .counts w.changed w.unchanged w.fenced

/-- The status of a range command or a sweep that has finished: PARTIAL where the fenced count is above 0 (R69). -/
def Work.finalStatus (w : Work) : Status := if 0 < w.fenced then .partly else .ok

/-- The first granule above a range command's range. -/
def Job.limit : Job → Nat
  | .range base count _ _ => base + count
  | .query _ | .format _ _ _ | .closeDomain _ => 0

/-! ## Carving -/

/-- The orders a run may have, the largest first. -/
def orders : List Nat := [9, 8, 7, 6, 5, 4, 3, 2, 1, 0]

/-- The order of the run carved at the cursor (R87). -/
def carveOrder (s : State) (cursor remaining : Nat) : Nat :=
  (orders.find? (fun k => decide (cursor % 2 ^ k = 0) && decide (2 ^ k ≤ remaining) &&
    !s.boundaryBetween cursor (cursor + 2 ^ k))).getD 0

/-- The order of a sweep's run at the first granule of its reclaim list (R129). -/
def sweepOrder (s : State) (p : Nat) (reclaim : List Nat) : Nat :=
  (orders.find? (fun k => decide (p % 2 ^ k = 0) && decide (reclaim.take (2 ^ k) = List.range' p (2 ^ k)) &&
    !s.boundaryBetween p (p + 2 ^ k))).getD 0

/-- A run is carved and MARK is entered (R87, R88). -/
def Work.startRun (base order : Nat) (w : Work) : Work :=
  { w with
    phase := .mark, request := .update, waiting := false, next := base, run := some (freshRun base order) }

/-- The run at a range command's cursor. -/
def carveRun (c : CtxId) (s : State) : State :=
  modWork c (fun w => w.startRun w.cursor (carveOrder s w.cursor (w.job.limit - w.cursor))) s

/-- The run at the first granule of a sweep's reclaim list; its granules leave the list (R129). -/
def carveSweepRun (c : CtxId) (s : State) : State :=
  modWork c (fun w =>
    match w.reclaim with
    | [] => w
    | p :: _ =>
        let order := sweepOrder s p w.reclaim
        { w.startRun p order with reclaim := w.reclaim.drop (2 ^ order) }) s

/-! ## The retire sweep (chapter 7) -/

/-- The end of a sweep: the domain becomes CLOSED and the context enters POST (R131, R132). -/
def closeSweep (c : CtxId) (d lost : Nat) (s : State) : State :=
  let s := modDomain d (fun r =>
    { r with state := .closed, quota := 0, held := 0, incoming := 0, policySet := 0, tally := none }) s
  modWork c (fun w =>
    { w with lost := lost }.enterPost w.finalStatus none (.counts w.changed lost w.fenced)) s

/-- Some other context holds a range or window over a block of granules (R127). -/
def otherHolds (s : State) (c : CtxId) (base count : Nat) : Bool :=
  allCtxs.any (fun c' => !(c' == c) && match s.work c' with
    | some w => w.holdsOver base count
    | none => false)

/-- A sweep in SCAN with no window held and its cursor below T takes the window at its cursor, or ends where the
domain's held count is 0, or goes on waiting (R127). -/
def tryTakeWindow (c : CtxId) (s : State) : State :=
  match s.work c with
  | none => s
  | some w =>
      match w.job with
      | .closeDomain d =>
          if w.phase = .scan ∧ w.window = none ∧ w.cursor < s.tableSize then
            if (s.domain d).held = 0 then closeSweep c d 0 s
            else if otherHolds s c w.cursor 512 then s
            else setWork c (some { w with window := some w.cursor, request := .read, next := w.cursor }) s
          else s
      | .range _ _ _ _ | .query _ | .format _ _ _ => s

/-- Granules are released: every sweep that holds no window is offered the block at its cursor, in ascending order of
context number, a sweep that has just given up its window among them (R127, R130, log 18). -/
def offerWindows (s : State) : State :=
  allCtxs.foldl (fun s c => tryTakeWindow c s) s

/-- A sweep's window is finished: it is given up and the cursor advances; at T the sweep ends with the held count as its
lost figure, below T the sweep takes its next window in this event where that block is clear (R130, R132). -/
def finishWindow (c : CtxId) (d : Nat) (s : State) : State :=
  let s := modWork c (fun w =>
    { w with window := none, cursor := w.cursor + 512, phase := .scan, request := .noRequest, run := none }) s
  let cursor := match s.work c with
    | some w => w.cursor
    | none => 0
  let s := if s.tableSize ≤ cursor then closeSweep c d (s.domain d).held s else s
  offerWindows s

/-- A run of a sweep has ended (R130): held count 0 ends the sweep, else the next run, else the window is finished. -/
def sweepRunEnded (c : CtxId) (d : Nat) (s : State) : State :=
  if (s.domain d).held = 0 then offerWindows (closeSweep c d 0 s)
  else
    match s.work c with
    | some w => if w.reclaim.isEmpty then finishWindow c d s else carveSweepRun c s
    | none => s

/-! ## The end of a run (R98) -/

/-- A run has ended, its tables and counts adjusted: the run sequence advances, the cursor moves on, and the next run is
carved or POST entered; a context that carries the abort mark gives back the rest (R80, R98). -/
def endRun (c : CtxId) (s : State) : State :=
  match s.work c with
  | none => s
  | some w =>
      match w.run with
      | none => s
      | some r =>
          let s := advanceSeq c s
          match w.job with
          | .closeDomain d => sweepRunEnded c d (modWork c (fun w => { w with run := none }) s)
          | .range _ _ _ _ | .query _ | .format _ _ _ =>
              let cursor := r.base + 2 ^ r.order
              let s := modWork c (fun w => { w with run := none, cursor := cursor }) s
              if w.abortMark then
                releaseReservation w.job (w.job.limit - cursor) (modWork c (fun w => w.enterPost .aborted none w.counts) s)
              else if cursor < w.job.limit then carveRun c s
              else modWork c (fun w => w.enterPost w.finalStatus none w.counts) s

/-! ## VALIDATE, READ and the read pass -/

/-- A link among a holder set is FAILED or OFF (R85 test 4). -/
def State.holderDown (s : State) (holders : LinkSet) : Bool :=
  allLinks.any (fun l => linkIn l holders && (decide ((s.link l).state = .failed) || decide ((s.link l).state = .off)))

/-- R100: this record makes the range hold both a VACANT record and a record HELD by the domain. -/
def Work.mixes (op : RangeOp) (content : Stable) (w : Work) : Bool :=
  match op, content with
  | .assign _ _, .vacant => w.sawHeld
  | .assign _ _, .held _ _ => w.sawVacant
  | .assign _ _, .wiped | .assign _ _, .shared _ _ _ | .assign _ _, .fenced => false
  | .reclaim _ _, _ | .transfer _ _ _ _, _ | .share _ _, _ | .unshare _, _ | .wipe, _ | .releaseFence, _ => false

/-- The tests of Table 5.4 on one record; none where it passes. -/
def validateTest (s : State) (w : Work) (op : RangeOp) (expected : Option (BitVec 8)) (g : Nat) (r : GranuleRecord) :
    Option Reason :=
  match r.state with
  | .moving _ _ | .wiping _ _ => some .sourceState
  | .stable content =>
      if !op.accepts content || w.mixes op content then some .sourceState
      else if expected.any (fun e => e != r.generation) then some .stale
      else if op.needsWipe content && !op.unchanged content && (s.homeLink g).isNone then some .noHome
      else if decide (op = .releaseFence) && decide (content = .fenced) && s.holderDown r.holders then
        some .linkFailed
      else none

/-- The record is HELD, with the owner it gives. -/
def RecordState.heldBy : RecordState → Option Nat
  | .stable (.held o _) => some o
  | .stable .vacant | .stable .wiped | .stable (.shared _ _ _) | .stable .fenced | .moving _ _ | .wiping _ _ => none

/-- What VALIDATE of an ASSIGN has met (R100). -/
def Work.noteMix (r : GranuleRecord) (w : Work) : Work :=
  { w with
    sawVacant := w.sawVacant || decide (r.state = .stable .vacant)
    sawHeld := w.sawHeld || r.state.heldBy.isSome }

/-- VALIDATE goes on after a record that passes (R84): the next granule, or the first run. -/
def validateNext (c : CtxId) (w : Work) (limit : Nat) (s : State) : State :=
  if w.next + 1 < limit then setWork c (some { w with next := w.next + 1 }) s else carveRun c (setWork c (some w) s)

/-- VALIDATE takes the record of one granule (R84). -/
def validateRecord (c : CtxId) (w : Work) (base count : Nat) (expected : Option (BitVec 8)) (op : RangeOp)
    (r : GranuleRecord) (s : State) : State :=
  match validateTest s w op expected w.next r with
  | some reason =>
      releaseReservation w.job count (setWork c (some (w.enterPost .refused (some reason) (.counts 0 0 0))) s)
  | none => validateNext c (w.noteMix r) (base + count) s

/-- A record found HELD by the sweep's domain joins the reclaim list (R128). -/
def Work.noteHeld (d : Nat) (r : GranuleRecord) (w : Work) : Work :=
  if r.state.heldBy = some d then { w with reclaim := w.reclaim ++ [w.next] } else w

/-- The read pass of a sweep goes on after a record (R128): the next granule, or the end of the pass. -/
def sweepReadNext (c : CtxId) (w : Work) (d : Nat) (s : State) : State :=
  if w.next + 1 < w.cursor + 512 then setWork c (some { w with next := w.next + 1 }) s
  else if w.reclaim.isEmpty then finishWindow c d (setWork c (some w) s)
  else carveSweepRun c (setWork c (some w) s)

/-- The read pass of a sweep takes the record of one granule (R128). -/
def sweepRead (c : CtxId) (w : Work) (d : Nat) (r : GranuleRecord) (s : State) : State :=
  sweepReadNext c (w.noteHeld d r) d s

/-- A record read is carried out: the record is handed to the context (R73, R84, R128). -/
def serveRead (c : CtxId) (r : GranuleRecord) (s : State) : State :=
  match s.work c with
  | none => s
  | some w =>
      let w := { w with waiting := false }
      match w.job with
      | .range base count expected op => validateRecord c w base count expected op r s
      | .closeDomain d => sweepRead c w d r s
      | .query _ => setWork c (some (w.enterPost .ok none (.image (encodeImage r)))) s
      | .format _ _ _ => s

/-! ## MARK and the recall fan-out -/

/-- The RECALL order toward one link, taken by the link's state (Table 5.5). An order beyond the 38 places makes the link
leave UP with cause PROTOCOL, and the mark is awaiting rejoin (R147). -/
def recallTo (c : CtxId) (base order : Nat) (l : LinkId) (s : State) : State :=
  let mark := fun (m : RecallMark) (s : State) => modWork c (Work.modRun (fun r => r.setMark l m)) s
  match (s.link l).state with
  | .up =>
      if orderCount (s.link l) < Config.orderSize then
        mark .awaitingAck
          (countEvent (.ofLink l .recallsSent) (placeFrame l (.recall base order c (s.runSeq c)) s))
      else mark .awaitingRejoin (leaveUpToRejoin l .protocol s)
  | .rejoining => mark .awaitingRejoin s
  | .failed => modWork c (Work.modRun (Run.fence .linkFailed (some l))) s
  | .off => modWork c (Work.modRun (Run.fence .linkOff (some l))) s

/-- The recall fan-out (R90). -/
def recallFanOut (c : CtxId) (base order : Nat) (union : LinkSet) (s : State) : State :=
  let s := modWork c (fun w => { w with phase := .recall, request := .noRequest, waiting := false }) s
  let s := (allLinks.filter (fun l => linkIn l union)).foldl (fun s l => recallTo c base order l s) s
  modWork c (fun w =>
    match w.run with
    | none => w
    | some r =>
        if r.allCleared then w.endRecall
        else { w with run := some { r with deadline := some (.recall s.settings.recallDeadline) } }) s

/-- The end of MARK (R89). -/
def endMark (c : CtxId) (s : State) : State :=
  match s.work c with
  | none => s
  | some w =>
      match w.run, w.job.op with
      | some r, some op =>
          let recalls := r.image.any (fun e => op.needsRecall e.2.content)
          let wipes := r.image.any (fun e => op.needsWipe e.2.content)
          if r.image.isEmpty then endRun c (releaseReservation w.job (2 ^ r.order) s)
          else
            let w := w.modRun (fun r => { r with needsWipe := wipes })
            if recalls && decide (r.union ≠ 0) then recallFanOut c r.base r.order r.union (setWork c (some w) s)
            else if wipes then setWork c (some { w with phase := .wipe, request := .wipeStart, waiting := false }) s
            else setWork c (some (w.enterCommit false)) s
      | _, _ => s

/-- What MARK does with a record (R88): counts it unchanged, counts it fenced, or marks it MOVING. -/
inductive MarkAction where
  | countUnchanged
  | countFenced
  | mark
  deriving DecidableEq, Repr

/-- The way MARK takes a record (R88). -/
def markAction (op : RangeOp) (r : GranuleRecord) : MarkAction :=
  match r.state with
  | .stable content =>
      if op.unchanged content then .countUnchanged
      else if decide (content = .fenced) && !decide (op = .releaseFence) then .countFenced
      else .mark
  | .moving _ _ | .wiping _ _ => .mark

/-- A record as its context marks it (R3). -/
def markedRecord (c : CtxId) (r : GranuleRecord) : GranuleRecord := { r with state := .moving c r.content }

/-- A record joins the run image, and its holders the union (R88). -/
def Run.addRecord (g : Nat) (m : GranuleRecord) (r : Run) : Run :=
  { r with image := r.image ++ [(g, m)], union := r.union ||| m.holders }

/-- The update of one record by MARK (R88). -/
def markRecord (c : CtxId) (w : Work) (op : RangeOp) (r : GranuleRecord) (s : State) : State :=
  match markAction op r with
  | .countUnchanged => setWork c (some { w with unchanged := w.unchanged + 1 }) s
  | .countFenced => setWork c (some { w with fenced := w.fenced + 1 }) s
  | .mark =>
      writeResident w.next (markedRecord c r)
        (setWork c (some (w.modRun (Run.addRecord w.next (markedRecord c r)))) s)

/-- A record update is carried out on the resident copy: the record is taken, then the next granule, or the end of MARK
(R88, R89). -/
def serveUpdate (c : CtxId) (r : GranuleRecord) (s : State) : State :=
  match s.work c with
  | none => s
  | some w =>
      match w.run, w.job.op with
      | some run, some op =>
          let s := markRecord c { w with waiting := false } op r s
          if w.next + 1 < run.base + 2 ^ run.order then modWork c (fun w => { w with next := w.next + 1 }) s
          else endMark c s
      | _, _ => s

/-- A context's request is carried out against the resident copy (R44). -/
def serveContext (c : CtxId) (r : GranuleRecord) (s : State) : State :=
  match (s.work c).map Work.request with
  | some .read => serveRead c r s
  | some .update => serveUpdate c r s
  | some .noRequest | some .wipeStart | some (.commit _) | some .revert | none => s

/-! ## Run writes -/

/-- The wipe start (R93), with a home link that is UP and has a place for the order: the records become WIPING, the
order is placed, the wipe is outstanding and its deadline starts. -/
def sendWipe (c : CtxId) (w : Work) (r : Run) (l : LinkId) (s : State) : State :=
  let image := r.image.map (fun e => (e.1, { e.2 with state := .wiping c e.2.content }))
  let r := { r with
    image := image, wipe := .outstanding l, deadline := some (.wipe s.settings.wipeDeadline) }
  let s := setWork c (some { w with request := .noRequest, waiting := false, run := some r }) s
  placeFrame l (.wipe r.base r.order c (s.runSeq c)) (runWrite image s)

/-- The wipe start of a context (R93). A home link without a place for the order leaves UP first (R147); a run with no
home is taken as one whose home link is OFF (R130, log 23). -/
def doWipeStart (c : CtxId) (s : State) : State :=
  match s.work c with
  | none => s
  | some w =>
      match w.run with
      | none => s
      | some r =>
          match s.homeLink r.base with
          | none => modWork c (Work.failWipe .wipeLinkDown none) s
          | some l =>
              if (s.link l).state = .up then
                if orderCount (s.link l) < Config.orderSize then sendWipe c w r l s
                else modWork c (Work.failWipe .wipeLinkDown (some l)) (leaveUpToRejoin l .protocol s)
              else modWork c (Work.failWipe .wipeLinkDown (some l)) s

/-- The owner a content names. -/
def Stable.owner : Stable → Option Nat
  | .held o _ | .shared o _ _ => some o
  | .vacant | .wiped | .fenced => none

/-- The content names a group. -/
def Stable.isShared : Stable → Bool
  | .shared _ _ _ => true
  | .vacant | .wiped | .held _ _ | .fenced => false

/-- The content a commit writes to a record (R80, R96, R116). -/
def committedContent (op : RangeOp) (outcome : RunOutcome) (asWiped : Bool) (prior : Stable) : Stable :=
  match outcome with
  | .fenced _ _ => .fenced
  | .clean => if asWiped then .wiped else op.result prior

/-- A record as a commit writes it: generation + 1, holders less the cleared links (R96, R116). -/
def committedRecord (op : RangeOp) (run : Run) (asWiped : Bool) (r : GranuleRecord) : GranuleRecord :=
  { state := .stable (committedContent op run.outcome asWiped r.content)
    generation := r.generation + 1
    holders := minusLinks r.holders run.cleared }

/-- Held counts at the commit of one record (R9). -/
def adjustHeld (old new : Stable) (s : State) : State :=
  match old.owner, new.owner with
  | some a, some b => if a = b then s else raiseHeld b 1 (lowerHeld a 1 s)
  | some a, none => lowerHeld a 1 s
  | none, some b => raiseHeld b 1 s
  | none, none => s

/-- The reference counts at the commit of a run's records: SHARE gains those written SHARED, UNSHARE loses each record
written (R15). -/
def adjustRefs (op : RangeOp) (written : List Stable) (s : State) : State :=
  match op with
  | .share _ group => raiseRefs group (written.filter Stable.isShared).length s
  | .unshare group => lowerRefs group written.length s
  | .assign _ _ | .reclaim _ _ | .transfer _ _ _ _ | .wipe | .releaseFence => s

/-- The tables at a commit: held counts, reference counts, and the run's reservation (R97, R117). -/
def adjustTables (job : Job) (op : RangeOp) (run : Run) (asWiped : Bool) (s : State) : State :=
  let s := run.image.foldl (fun s e =>
    adjustHeld e.2.content (committedContent op run.outcome asWiped e.2.content) s) s
  let s := adjustRefs op (run.image.map (fun e => committedContent op run.outcome asWiped e.2.content)) s
  releaseReservation job (2 ^ run.order) s

/-- The running counts at a commit (R97, R117). -/
def Work.countCommit (run : Run) (w : Work) : Work :=
  match run.outcome with
  | .clean => { w with changed := w.changed + run.image.length }
  | .fenced _ _ => { w with fenced := w.fenced + run.image.length }

/-- The FENCED notice of a fenced commit that writes at least one record (R118). -/
def offerFenced (c : CtxId) (w : Work) (run : Run) (s : State) : State :=
  match run.outcome with
  | .clean => s
  | .fenced cause link =>
      if run.image.isEmpty then s
      else
        offerNotice (.fenced w.tag w.job.kindCode c run.base run.order run.image.length cause link) s

/-- The commit run write (R96 to R98, R116 to R118). -/
def doCommit (c : CtxId) (asWiped : Bool) (s : State) : State :=
  match s.work c with
  | none => s
  | some w =>
      match w.run, w.job.op with
      | some run, some op =>
          let records := run.image.map (fun e => (e.1, committedRecord op run asWiped e.2))
          let s := adjustTables w.job op run asWiped s
          let s := modWork c (Work.countCommit run) s
          let decided := redecideRun run.base (2 ^ run.order) records s
          let s := offerFenced c w run (runWrite decided.2 decided.1)
          endRun c s
      | _, _ => s

/-- A record as a revert writes it: its prior content and its generation, holders less the cleared links (R121). -/
def revertedRecord (run : Run) (r : GranuleRecord) : GranuleRecord :=
  { state := .stable r.content, generation := r.generation, holders := minusLinks r.holders run.cleared }

/-- A stopped context gives back the reservation of every granule not committed and enters POST with status ABORTED and
its counts (R122); its run, if it has one, ends (log 17). -/
def stopContext (c : CtxId) (w : Work) (s : State) : State :=
  releaseReservation w.job (w.job.limit - w.cursor)
    (modWork c (fun w => w.enterPost .aborted none w.counts) (advanceSeq c s))

/-- The revert run write (R121, R122). -/
def doRevert (c : CtxId) (s : State) : State :=
  match s.work c with
  | none => s
  | some w =>
      match w.run with
      | none => s
      | some run =>
          let records := run.image.map (fun e => (e.1, revertedRecord run e.2))
          let decided := redecideRun run.base (2 ^ run.order) records s
          stopContext c w (runWrite decided.2 decided.1)

/-! ## Records lost under change (R56, R120) -/

/-- A context's run image holds a granule. -/
def Work.holdsImage (g : Nat) (w : Work) : Bool :=
  match w.run with
  | some r => r.image.any (fun e => e.1 == g)
  | none => false

/-- A lost record leaves the run image and is counted fenced. -/
def Work.loseRecord (g : Nat) (w : Work) : Work :=
  if w.holdsImage g then
    { w.modRun (fun r => { r with image := r.image.filter (fun e => !(e.1 == g)) }) with fenced := w.fenced + 1 }
  else w

end Sys2Proof.Machine
end

