-- ==== Sys2Proof/Machine/CheckPath.lean ====
section
/-! DEFINITION. The port arbiter, the lanes, and the meanings CHECK, CHECK_PORT_EVENT, MISS_QUEUE_FILL and
TAG_STORE_WRITE_COMPLETE. -/

namespace Sys2Proof.Machine

/-! ## The port arbiter (R43, R44) -/

/-- A context has a request ready. -/
def Work.ready (w : Work) : Bool := !decide (w.request = .noRequest) && !w.waiting

/-- A context has a request ready, by number. -/
def State.ctxReady (s : State) (c : CtxId) : Bool :=
  match s.work c with
  | some w => w.ready
  | none => false

/-- The first number after a pointer, in the cyclic order of `n`, that meets a test. -/
def firstAfter (n ptr : Nat) (p : Nat → Bool) : Option Nat :=
  (List.range n).findSome? (fun i =>
    let j := (ptr + 1 + i) % n
    if p j then some j else none)

/-- The context the Change Engine serves next (R44). -/
def State.nextCtx (s : State) : Option CtxId :=
  (firstAfter 16 s.enginePtr.val (fun i => s.ctxReady (Fin.ofNat 16 i))).map (Fin.ofNat 16)

/-- What the next port event carries out. -/
inductive Grant where
  | lane (link : LinkId) (check : Check)
  | engine (ctx : CtxId) (request : Request)
  deriving DecidableEq, Repr

/-- A requester of the port has a request to present: a lane its oldest check, requester 6 the Change Engine. -/
def State.presents (s : State) (i : Nat) : Bool :=
  if i = 6 then s.nextCtx.isSome else !(s.link (Fin.ofNat 6 i)).lane.isEmpty

/-- The requester granted at the next port event, none where nothing is presented (R43). -/
def State.nextGrant (s : State) : Option Grant :=
  match firstAfter 7 s.portPtr.val s.presents with
  | none => none
  | some i =>
      if i = 6 then
        s.nextCtx.bind (fun c => (s.work c).map (fun w => .engine c w.request))
      else
        let l : LinkId := Fin.ofNat 6 i
        (s.link l).lane.head?.map (Grant.lane l)

/-- The arbiter's pointers after a grant to the Change Engine. -/
def engineGranted (c : CtxId) (s : State) : State := { s with portPtr := 6, enginePtr := c }

/-- The arbiter's pointer after a grant to a lane, whose oldest check leaves it. -/
def laneGranted (l : LinkId) (s : State) : State :=
  modLink l (fun k => { k with lane := k.lane.drop 1 }) { s with portPtr := Fin.ofNat 7 l.val }

/-! ## CHECK (R20, R137, R139) -/

/-- A CHECK on an UP link, after the silence timer's restart: beyond the credits or with a tag held it is a protocol
fault, else it joins the accounting and the lane. -/
def takeCheck (l : LinkId) (k : Check) (s : State) : State :=
  let x := s.link l
  if Config.credits ≤ x.accounting.length + x.withheld then leaveUpToRejoin l .protocol s
  else if k.tag ∈ x.accounting then leaveUpToRejoin l .protocol s
  else modLink l (fun x => { x with accounting := x.accounting ++ [k.tag], lane := x.lane ++ [k] }) s

/-- CHECK: a CHECK frame is taken on a link. -/
def execCheck (l : LinkId) (payload : BitVec 48) (s : State) : Host.Outcome State Fault Refusal :=
  event (fun s =>
    let s := takeFrameEvent l s
    match (s.link l).state with
    | .up => takeCheck l (decodeCheck l payload) s
    | .off | .rejoining | .failed => s) s

/-! ## CHECK_PORT_EVENT (R21, R22, R41, R45, R46) -/

/-- A check that no case from 1 to 4 decides is looked up. -/
def lookUpCheck (k : Check) (s : State) : State :=
  match s.resident k.granule with
  | some r => countEvent (.ofPart .cacheHits) (touchResident k.granule (decideResident k r s))
  | none =>
      let s := countEvent (.ofPart .cacheMisses) s
      match takeMiss k.granule (.check k) s with
      | some s => s
      | none => answerRetry k s

/-- The port event of a check that has left its lane. -/
def portCheck (k : Check) (s : State) : State :=
  match decideWithoutRecord s k with
  | some (.grant rights generation _) => answerGrant k rights generation false s
  | some (.deny cls generation) => answerDenial k cls generation s
  | some .park | none => lookUpCheck k s

/-- CHECK_PORT_EVENT: takes place when the port arbiter's next grant is a lane (log 1). -/
def execCheckPortEvent (s : State) : Host.Outcome State Fault Refusal :=
  event (fun s =>
    match s.nextGrant with
    | some (.lane l k) => portCheck k (laneGranted l s)
    | some (.engine _ _) | none => s) s

/-! ## MISS_QUEUE_FILL (R51 to R56, R171) -/

/-- The replacement record (R55). -/
def replacementRecord : GranuleRecord := { state := .stable .fenced, generation := 0, holders := allLinkSet }

/-- The content that a fill settles (R51 step 1). -/
inductive Settled where
  | plain (record : GranuleRecord)
  | corrected (record : GranuleRecord)
  | lost
  deriving DecidableEq, Repr

/-- A content read with no error, or an invalid image, which is a lost record (R171). -/
def settleGood (image : BitVec 64) : Settled :=
  match decodeImage image with
  | some r => .plain r
  | none => .lost

/-- A content read with a single-bit error: corrected, unless the corrected image is invalid (R54, R171). -/
def settleCorrected (image : BitVec 64) : Settled :=
  match decodeImage image with
  | some r => .corrected r
  | none => .lost

/-- What a read of the DRAM settles. An operand image that R171 finds valid is ill-formed and stands for a good read. -/
def settleDram (stored : BitVec 64) : DramReturn → Settled
  | .good => settleGood stored
  | .singleBit => settleCorrected stored
  | .uncorrectable => .lost
  | .invalid image => if imageValid image then settleGood stored else .lost

/-- The content settled at the fill of an entry whose read stands in the Port: superseding content first, then the write
the read found outstanding, which has no ECC outcome other than good, then the DRAM (R47, R53). -/
def settle (e : MissEntry) (forwarded : Option (BitVec 64)) (stored : BitVec 64) (dram : DramReturn) : Settled :=
  match e.superseding with
  | some r => .plain r
  | none =>
      match forwarded with
      | some image => settleGood image
      | none => settleDram stored dram

/-- The first waiter a TAG_ERROR notice carries (R55). -/
def firstWaiter : List Waiter → FirstWaiter
  | [] => .nobody
  | .check k :: _ => .check k.link k.tag
  | .context c :: _ => .context c

/-- The replacement of a lost record in the fill event: the replacement write, the notice and the counter; the run that
holds it loses it (R55, R56). -/
def loseRecord (g : Nat) (waiters : List Waiter) (s : State) : State :=
  let s := issueWrite g replacementRecord s
  let s := offerNotice (.tagError g (firstWaiter waiters) (anyCtx s (Work.holdsImage g))) s
  let s := countEvent (.ofPart .tagErrors) s
  presentToContexts (Work.loseRecord g) s

/-- The settled record is installed; a corrected one is written back to the Tag Store and counted. The parked checks of
a lost one are decided before the waiters (log 15), and after TAG_ERROR is offered and a dirty victim is written back: no
rule gives that order, and it is the model's choice (log 36). -/
def installSettled (g : Nat) (waiters : List Waiter) (settled : Settled) (s : State) : State :=
  match settled with
  | .plain r => installRecord g r s
  | .corrected r => installRecord g r (countEvent (.ofPart .eccCorrected) (issueWrite g r s))
  | .lost => redecideGranule g (installRecord g replacementRecord (loseRecord g waiters s))

/-- Serve one waiter against the resident copy as the turns before it have left it (R51 step 4). -/
def serveWaiter (g : Nat) (w : Waiter) (s : State) : State :=
  match s.resident g with
  | none => s
  | some r =>
      match w with
      | .check k => decideResident k r s
      | .context c => serveContext c r s

/-- Serve the waiters in arrival order. A waiter removed by an earlier turn is not served. -/
def serveWaiters : Nat → Nat → State → State
  | 0, _, s => s
  | n + 1, g, s =>
      match (s.missEntry g).map MissEntry.waiters with
      | some (w :: rest) => serveWaiters n g (serveWaiter g w (modEntry g (fun e => { e with waiters := rest }) s))
      | some [] | none => s

/-- The entry leaves the Miss Queue (R51 step 5). -/
def removeEntry (g : Nat) (s : State) : State :=
  presentOccupancy s { s with miss := s.miss.filter (fun e => !(e.granule == g)) }

/-- The fill of an entry. -/
def fillEntry (e : MissEntry) (forwarded : Option (BitVec 64)) (dram : DramReturn) (s : State) : State :=
  let g := e.granule
  let settled := settle e forwarded (s.stored g) dram
  let s := installSettled g e.waiters settled { s with port := dropOldest g s.port }
  removeEntry g (serveWaiters e.waiters.length g s)

/-- MISS_QUEUE_FILL: takes place when the oldest outstanding request for the granule is the read of its entry (R53). -/
def execMissQueueFill (g : Nat) (dram : DramReturn) (s : State) : Host.Outcome State Fault Refusal :=
  event (fun s =>
    match s.missEntry g, s.oldestReq g with
    | some e, some (.read _ forwarded) => fillEntry e forwarded dram s
    | _, _ => s) s

/-! ## TAG_STORE_WRITE_COMPLETE (R53, R59) -/

/-- The record FILL writes for a granule (R59). -/
def fillRecord (root : Option (Nat × Nat)) (g : Nat) : GranuleRecord :=
  let owned := match root with
    | some (base, count) => decide (base ≤ g) && decide (g < base + count)
    | none => false
  { state := .stable (if owned then .held 0 7 else .vacant), generation := 0, holders := 0 }

/-- A granule lies in one of the ranges. -/
def inRanges (g : Nat) (ranges : List (Nat × Nat)) : Bool :=
  ranges.any (fun r => decide (r.1 ≤ g) && decide (g < r.2))

/-- The ranges without one granule. -/
def removeGranule (g : Nat) : List (Nat × Nat) → List (Nat × Nat)
  | [] => []
  | (lo, hi) :: rest =>
      (if lo ≤ g ∧ g < hi then (if lo < g then [(lo, g)] else []) ++ (if g + 1 < hi then [(g + 1, hi)] else [])
       else [(lo, hi)]) ++ removeGranule g rest

/-- FILL ends with its last write: the FORMAT context enters POST (R59). -/
def endFill (s : State) : State :=
  presentToContexts (fun w =>
    match w.job with
    | .format size _ rootCount =>
        if w.phase = .fill then w.enterPost .ok none (.counts size (rootCount.getD 0) 0) else w
    | .range _ _ _ _ | .query _ | .closeDomain _ => w) { s with fill := none }

/-- A write of FILL completes; it carries its ECC as every write does (R59). -/
def completeFillWrite (g : Nat) (f : FillWrites) (s : State) : State :=
  let left := removeGranule g f.outstanding
  let image := encodeImage (fillRecord f.root g)
  let s := storeImage g image (Config.ecc image) s
  if left.isEmpty then endFill s else { s with fill := some { f with outstanding := left } }

/-- The oldest outstanding request for a granule, where it is a write, completes. -/
def completeWrite (g : Nat) (s : State) : State :=
  match s.oldestReq g with
  | some (.write _ image ecc) => storeImage g image ecc { s with port := dropOldest g s.port }
  | some (.read _ _) | none => s

/-- TAG_STORE_WRITE_COMPLETE: the oldest outstanding write of the granule completes; a write of FILL is older than any
other. -/
def execTagStoreWriteComplete (g : Nat) (s : State) : Host.Outcome State Fault Refusal :=
  event (fun s =>
    match s.fill with
    | some f => if inRanges g f.outstanding then completeFillWrite g f s else completeWrite g s
    | none => completeWrite g s) s

end Sys2Proof.Machine
end

