-- ==== Sys2Proof/Machine/ChangePath.lean ====
section
/-! DEFINITION. The meanings of the Change Engine's port events and of the taking of a sweep window. Each port event takes
place when the port arbiter's next grant is a request of its kind (log 1). -/

namespace Sys2Proof.Machine

/-- The granule of a context's record request. -/
def State.requestGranule (s : State) (c : CtxId) : Nat :=
  match s.work c with
  | some w => w.next
  | none => 0

/-- A context's record read or record update at its port event: a hit is carried out, a miss goes to the Miss Queue, and
a refused one stays ready (R44 to R46). CACHE_HITS is counted after the service (log 13). -/
def lookUpContext (c : CtxId) (s : State) : State :=
  let g := s.requestGranule c
  match s.resident g with
  | some r => countEvent (.ofPart .cacheHits) (touchResident g (serveContext c r s))
  | none =>
      let s := countEvent (.ofPart .cacheMisses) s
      match takeMiss g (.context c) s with
      | some s => modWork c (fun w => { w with waiting := true }) s
      | none => s

/-- RECORD_READ: a record read of VALIDATE, QUERY or a sweep's read pass. -/
def execRecordRead (s : State) : Host.Outcome State Fault Refusal :=
  event (fun s =>
    match s.nextGrant with
    | some (.engine c .read) => lookUpContext c (engineGranted c s)
    | some (.engine _ _) | some (.lane _ _) | none => s) s

/-- RECORD_UPDATE: a record update of MARK. -/
def execRecordUpdate (s : State) : Host.Outcome State Fault Refusal :=
  event (fun s =>
    match s.nextGrant with
    | some (.engine c .update) => lookUpContext c (engineGranted c s)
    | some (.engine _ _) | some (.lane _ _) | none => s) s

/-- WIPE_START: the wipe start run write. -/
def execWipeStart (s : State) : Host.Outcome State Fault Refusal :=
  event (fun s =>
    match s.nextGrant with
    | some (.engine c .wipeStart) => doWipeStart c (engineGranted c s)
    | some (.engine _ _) | some (.lane _ _) | none => s) s

/-- COMMIT_RUN_WRITE: the commit run write. -/
def execCommitRunWrite (s : State) : Host.Outcome State Fault Refusal :=
  event (fun s =>
    match s.nextGrant with
    | some (.engine c (.commit asWiped)) => doCommit c asWiped (engineGranted c s)
    | some (.engine _ _) | some (.lane _ _) | none => s) s

/-- REVERT: the revert run write. -/
def execRevert (s : State) : Host.Outcome State Fault Refusal :=
  event (fun s =>
    match s.nextGrant with
    | some (.engine c .revert) => doRevert c (engineGranted c s)
    | some (.engine _ _) | some (.lane _ _) | none => s) s

/-- SWEEP_WINDOW_TAKE: a sweep in SCAN takes its window, or ends, or waits (R127). The events that clear its block take it
already, so a step of its own finds a sweep that waits (log 18). -/
def execSweepWindowTake (c : CtxId) (s : State) : Host.Outcome State Fault Refusal :=
  event (tryTakeWindow c) s

end Sys2Proof.Machine
end

