-- ==== Sys2Proof/Machine/Issue.lean ====
section
/-! DEFINITION. The Command Scheduler and the response arbiter (chapter 4): refusal tests, waiting conditions, the choice
of the next message, the taking of a context, and the meanings of the context commands and of POST_RESPONSE. -/

namespace Sys2Proof.Machine

/-! ## Refusal tests at issue (Table 4.3) -/

/-- The first test that fails gives the reason. -/
def firstFailure (tests : List (Bool × Reason)) : Option Reason :=
  (tests.find? (fun t => t.1)).map (fun t => t.2)

/-- The tag is held by an active context (R65). -/
def State.tagHeld (s : State) (tag : BitVec 16) : Bool := anyCtx s (fun w => w.tag == tag)

/-- Tests 6 to 11 of a range command, each true where it fails. -/
def rangeOpTests (s : State) (count : Nat) : RangeOp → List (Bool × Reason)
  | .assign d _ =>
      [(!s.isActive d, .domainState),
       (decide ((s.domain d).quota < (s.domain d).held + (s.domain d).incoming + count), .quota)]
  | .reclaim d _ => [(!s.isActive d, .domainState)]
  | .transfer giver taker _ wipe =>
      [(!s.isActive giver || !s.isActive taker, .domainState),
       (giver == taker, .badField),
       (!wipe && !(giver == 0) && !(taker == 0), .unwipedTransfer),
       (decide ((s.domain taker).quota < (s.domain taker).held + (s.domain taker).incoming + count), .quota)]
  | .share owner group =>
      [(!s.isActive owner, .domainState),
       (!(s.group group).defined || !decide (owner ∈ (s.group group).members), .groupState)]
  | .unshare group => [(!(s.group group).defined, .groupState)]
  | .wipe | .releaseFence => []

/-- The tests of R58 on FORMAT's fields. -/
def formatTests (s : State) (size : Nat) (rootBase rootCount : Option Nat) : List (Bool × Reason) :=
  [(!(decide (size % 512 = 0) && decide (512 ≤ size) && decide (size ≤ Config.granules)), .badField),
   (rootBase.isSome != rootCount.isSome, .badField),
   (rootCount == some 0, .badField),
   (decide (s.capacity.toNat < size * 8), .range),
   (rootBase.isSome && decide (size < rootBase.getD 0 + rootCount.getD 0), .range)]

/-- Tests 2 to 11 of a context command whose fields lie in their coding; none where all pass. -/
def refusal (s : State) (tag : BitVec 16) (job : Job) : Option Reason :=
  let common := [(decide (s.part ≠ .serving), Reason.notReady), (s.tagHeld tag, .dupTag)]
  match job with
  | .format size rootBase rootCount =>
      firstFailure ((decide (s.part ≠ .unformatted), .badState) :: formatTests s size rootBase rootCount)
  | .query g => firstFailure (common ++ [(decide (s.tableSize ≤ g), .range)])
  | .range base count _ op =>
      firstFailure (common ++ (decide (s.tableSize < base + count), .range) :: rangeOpTests s count op)
  | .closeDomain d =>
      firstFailure (common ++
        [(decide (d = 0) || !s.isActive d, .domainState), (decide (0 < (s.domain d).groupCount), .inGroup)])

/-- The waiting conditions (R66). -/
def canTake (s : State) (job : Job) : Bool :=
  (freeCtx s).isSome &&
    (match job with
     | .range base count _ _ => !anyCtx s (Work.holdsOver base count)
     | .closeDomain d => !anyCtx s (fun w => w.job.names d)
     | .query _ | .format _ _ _ => true)

/-! ## The choice of the next message (R62, R63) -/

/-- How a message stands when it is judged: it can take a context; it can be answered, with so many response slots; or
it waits. -/
inductive Judgement where
  | take
  | answer (slots : Nat)
  | wait
  deriving DecidableEq, Repr

/-- An ABORT's target among queued messages: the oldest message other than an ABORT or a LINK_CONTROL that carries the
tag (R75). -/
def queuedTarget (target : BitVec 16) (intake : List Message) : Option Nat :=
  intake.findIdx? (fun m => !isUrgent m && msgTag m == target)

/-- How a message stands (R62, R64, R68). An ABORT needs two slots when its target is a message in the intake. -/
def judge (s : State) (m : Message) : Judgement :=
  match decodeCommand m with
  | none => .answer 1
  | some (.job job) =>
      match refusal s (msgTag m) job with
      | some _ => .answer 1
      | none => if canTake s job then .take else .wait
  | some (.abort target) => if (queuedTarget target s.intake).isSome then .answer 2 else .answer 1
  | some (.openDomain _ _ _ _) | some (.setDomain _ _ _ _) | some (.defineGroup _ _) | some (.dropGroup _)
  | some (.setPolicy _ _ _) | some (.setHome _ _ _ _) | some .snapshot | some (.linkControl _ _) => .answer 1

/-- A judged message can issue with the slots free. -/
def Judgement.canIssue (free : Nat) : Judgement → Bool
  | .take => true
  | .answer n => decide (n ≤ free)
  | .wait => false

/-- A judged message needs a response slot. -/
def Judgement.needsSlot : Judgement → Bool
  | .answer _ => true
  | .take | .wait => false

/-- A message by its place in the intake. -/
def State.message (s : State) (i : Nat) : Option Message := s.intake[i]?

/-- The place of a message the Scheduler would issue, where it can issue. -/
def State.issuable (s : State) (i : Nat) : Option Nat :=
  match s.message i with
  | some m => if (judge s m).canIssue s.freeSlots then some i else none
  | none => none

/-- The place of the message the Scheduler would issue next: the head, else the oldest urgent message (R62). -/
def State.nextIssue (s : State) : Option Nat :=
  match s.issuable 0 with
  | some i => some i
  | none => (s.intake.findIdx? isUrgent).bind s.issuable

/-! ## The response arbiter (R71) -/

/-- The Scheduler is ready for a response slot. -/
def State.schedulerReady (s : State) : Bool :=
  match s.nextIssue.bind s.message with
  | some m => (judge s m).needsSlot
  | none => false

/-- A context is in POST. -/
def State.inPost (s : State) (c : CtxId) : Bool :=
  match s.work c with
  | some w => decide (w.phase = .post)
  | none => false

/-- A producer is ready: contexts 0 to 15, then the Scheduler. -/
def State.producerReady (s : State) (i : Nat) : Bool :=
  if i = 16 then s.schedulerReady else s.inPost (Fin.ofNat 16 i)

/-- The producer served next, none where no slot is free or none is ready. -/
def State.served (s : State) : Option Nat :=
  if 0 < s.freeSlots then firstAfter 17 s.respPtr.val s.producerReady else none

/-! ## Issue -/

/-- The message the Scheduler issues in the next issue event, with its place; one that needs a slot issues when the
arbiter serves the Scheduler. -/
def State.selected (s : State) : Option (Nat × Message) :=
  match s.nextIssue with
  | none => none
  | some i =>
      match s.message i with
      | none => none
      | some m => if !(judge s m).needsSlot || decide (s.served = some 16) then some (i, m) else none

/-- A row's kind: its kind code, or a kind byte that names no kind, which every row refuses (log 3). -/
def rowKind (code : Nat) (m : Message) : Bool := decide ((msgKind m).toNat = code) || !knownKind m

/-- The issue event of a row: where the message to issue is of the row's kind it leaves the intake and the row's effect
takes place (R62, R68). -/
def issueEvent (row : Message → Bool) (effect : Message → State → State) (s : State) :
    Host.Outcome State Fault Refusal :=
  event (fun s =>
    match s.selected with
    | some (i, m) => if row m then effect m { s with intake := s.intake.eraseIdx i } else s
    | none => s) s

/-- The Scheduler places the response of a message, with counts 0 (R68, R69). -/
def answer (m : Message) (status : Status) (reason : Option Reason) (s : State) : State :=
  placeResponse (plainResponse (msgTag m) (msgKind m) status reason) (schedulerServed s)

/-- A refusal changes nothing else (R64, R68). -/
def refuse (m : Message) (reason : Reason) (s : State) : State := answer m .refused (some reason) s

/-- A context as the Scheduler writes it (R67). -/
def newWork (tag : BitVec 16) (job : Job) (phase : Phase) (request : Request) (first : Nat) : Work :=
  { tag := tag, job := job, phase := phase, cursor := first, request := request, next := first, waiting := false,
    sawVacant := false, sawHeld := false, run := none, changed := 0, unchanged := 0, fenced := 0, lost := 0,
    window := none, reclaim := [], abortMark := false, result := none }

/-- The work a job begins with: VALIDATE, READ, SCAN or FILL (R67). -/
def firstWork (tag : BitVec 16) (job : Job) : Work :=
  match job with
  | .range base _ _ _ => newWork tag job .validate .read base
  | .query g => newWork tag job .read .read g
  | .closeDomain _ => newWork tag job .scan .noRequest 0
  | .format _ _ _ => newWork tag job .fill .noRequest 0

/-- The start of FILL (R59, R42): T, the cache invalidated, domain 0's held count, and the write of every record. -/
def startFill (size : Nat) (rootBase rootCount : Option Nat) (s : State) : State :=
  let root := match rootBase, rootCount with
    | some b, some n => some (b, n)
    | some _, none | none, some _ | none, none => none
  modDomain 0 (fun r => { r with held := rootCount.getD 0 })
    { s with part := .formatting, tableSize := size, cache := [],
             fill := some { root := root, outstanding := [(0, size)] } }

/-- The reservations of Table 4.4. -/
def reserve (job : Job) (s : State) : State :=
  match job with
  | .range _ count _ (.assign d _) => raiseIncoming d count s
  | .range _ count _ (.transfer _ taker _ _) => raiseIncoming taker count s
  | .range _ count _ (.share _ group) => raiseRefs group count s
  | .closeDomain d => modDomain d (fun r => { r with state := .draining }) s
  | .format size rootBase rootCount => startFill size rootBase rootCount s
  | .range _ _ _ (.reclaim _ _) | .range _ _ _ (.unshare _) | .range _ _ _ .wipe | .range _ _ _ .releaseFence
  | .query _ => s

/-- A context command issues: refused, or it takes the lowest-numbered FREE context (R64, R67). -/
def issueJob (m : Message) (job : Job) (s : State) : State :=
  match refusal s (msgTag m) job with
  | some reason => refuse m reason s
  | none =>
      match freeCtx s with
      | none => s
      | some c => reserve job (setWork c (some (firstWork (msgTag m) job)) s)

/-- A sweep begins in its issue event: it ends where its domain holds nothing, else it takes its first window where that
block is clear, else it waits (R127). -/
def startSweep (c : CtxId) (d : Nat) (s : State) : State :=
  if (s.domain d).held = 0 then closeSweep c d 0 s else tryTakeWindow c s

/-- The effect of a context command's row: a message out of its coding is refused BAD_FIELD (R170). -/
def jobEffect (m : Message) (s : State) : State :=
  match decodeCommand m with
  | some (.job job) => issueJob m job s
  | some (.openDomain _ _ _ _) | some (.setDomain _ _ _ _) | some (.defineGroup _ _) | some (.dropGroup _)
  | some (.setPolicy _ _ _) | some (.setHome _ _ _ _) | some .snapshot | some (.abort _) | some (.linkControl _ _)
  | none => refuse m .badField s

/-- The effect of CLOSE_DOMAIN's row (R124, R127). -/
def closeDomainEffect (m : Message) (s : State) : State :=
  match decodeCommand m with
  | some (.job (.closeDomain d)) =>
      match refusal s (msgTag m) (.closeDomain d) with
      | some reason => refuse m reason s
      | none =>
          match freeCtx s with
          | none => s
          | some c => startSweep c d (issueJob m (.closeDomain d) s)
  | some _ | none => jobEffect m s

/-! ## Meanings of the context commands -/

/-- ASSIGN (R100). -/
def execAssign (s : State) : Host.Outcome State Fault Refusal := issueEvent (rowKind 0x01) jobEffect s

/-- RECLAIM (R101). -/
def execReclaim (s : State) : Host.Outcome State Fault Refusal := issueEvent (rowKind 0x02) jobEffect s

/-- TRANSFER (R102). -/
def execTransfer (s : State) : Host.Outcome State Fault Refusal := issueEvent (rowKind 0x03) jobEffect s

/-- SHARE (R103). -/
def execShare (s : State) : Host.Outcome State Fault Refusal := issueEvent (rowKind 0x04) jobEffect s

/-- UNSHARE (R104). -/
def execUnshare (s : State) : Host.Outcome State Fault Refusal := issueEvent (rowKind 0x05) jobEffect s

/-- The WIPE command (R105). -/
def execWipe (s : State) : Host.Outcome State Fault Refusal := issueEvent (rowKind 0x06) jobEffect s

/-- RELEASE_FENCE (R106). -/
def execReleaseFence (s : State) : Host.Outcome State Fault Refusal := issueEvent (rowKind 0x07) jobEffect s

/-- QUERY (R73). -/
def execQuery (s : State) : Host.Outcome State Fault Refusal := issueEvent (rowKind 0x08) jobEffect s

/-- FORMAT (R58). -/
def execFormat (s : State) : Host.Outcome State Fault Refusal := issueEvent (rowKind 0x09) jobEffect s

/-- CLOSE_DOMAIN (R124). -/
def execCloseDomain (s : State) : Host.Outcome State Fault Refusal := issueEvent (rowKind 0x0A) closeDomainEffect s

/-! ## POST_RESPONSE (R72) -/

/-- The placing of FORMAT's response makes the part SERVING (R57, R59). -/
def servingIfFormat (job : Job) (s : State) : State :=
  match job with
  | .format _ _ _ => { s with part := .serving }
  | .range _ _ _ _ | .query _ | .closeDomain _ => s

/-- A context in POST places its response and becomes FREE; its range is released, and waiting sweeps are offered their
blocks (R72, R127). -/
def postResponse (c : CtxId) (s : State) : State :=
  match s.work c with
  | none => s
  | some w =>
      match w.result with
      | none => s
      | some r =>
          offerWindows (servingIfFormat w.job
            (setWork c none (placeResponse r { s with respPtr := Fin.ofNat 17 c.val })))

/-- POST_RESPONSE: takes place when the response arbiter serves a context (R71). -/
def execPostResponse (s : State) : Host.Outcome State Fault Refusal :=
  event (fun s =>
    match s.served with
    | some i => if i < 16 then postResponse (Fin.ofNat 16 i) s else s
    | none => s) s

end Sys2Proof.Machine
end

