-- ==== Sys2Proof/Machine/Immediate.lean ====
section
/-! DEFINITION. The meanings of the immediate commands (chapters 1, 2, 4, 8 and 9), each taken in its issue event. A
message of another coding than its row's is refused BAD_FIELD (R170). -/

namespace Sys2Proof.Machine

/-! ## Domains (R13, R14) -/

/-- The tally that a threshold gives: 65536 - threshold, absent for 0 (R11). -/
def tallyOf (threshold : Nat) : Option Nat := if threshold = 0 then none else some (65536 - threshold)

/-- OPEN_DOMAIN with its fields (R13). -/
def openDomain (m : Message) (d quota : Nat) (policySet : Fin 4) (threshold : Option Nat) (s : State) : State :=
  if (s.domain d).state = .closed then
    answer m .ok none (modDomain d (fun r =>
      { r with state := .active, quota := quota, policySet := policySet, tally := threshold.bind tallyOf }) s)
  else refuse m .domainState s

/-- The effect of OPEN_DOMAIN's row. -/
def openDomainEffect (m : Message) (s : State) : State :=
  match decodeCommand m with
  | some (.openDomain d quota policySet threshold) => openDomain m d quota policySet threshold s
  | some _ | none => refuse m .badField s

/-- OPEN_DOMAIN. -/
def execOpenDomain (s : State) : Host.Outcome State Fault Refusal := issueEvent (rowKind 0x10) openDomainEffect s

/-- The tests of R14 in their order, each true where it fails. -/
def setDomainTests (s : State) (d : Nat) (quota : Option Nat) : List (Bool × Reason) :=
  [(!s.isActive d, .domainState),
   (quota.isSome && decide (d = 0), .badField),
   (quota.any (fun q => decide (q < (s.domain d).held + (s.domain d).incoming)), .quota)]

/-- The fields that SET_DOMAIN replaces; an absent one stays (R14). -/
def DomainRecord.replace (quota : Option Nat) (policySet : Option (Fin 4)) (threshold : Option Nat)
    (r : DomainRecord) : DomainRecord :=
  { r with
    quota := quota.getD r.quota
    policySet := policySet.getD r.policySet
    tally := match threshold with
      | some t => tallyOf t
      | none => r.tally }

/-- SET_DOMAIN with its fields (R14). -/
def setDomain (m : Message) (d : Nat) (quota : Option Nat) (policySet : Option (Fin 4)) (threshold : Option Nat)
    (s : State) : State :=
  match firstFailure (setDomainTests s d quota) with
  | some reason => refuse m reason s
  | none => answer m .ok none (modDomain d (DomainRecord.replace quota policySet threshold) s)

/-- The effect of SET_DOMAIN's row. -/
def setDomainEffect (m : Message) (s : State) : State :=
  match decodeCommand m with
  | some (.setDomain d quota policySet threshold) => setDomain m d quota policySet threshold s
  | some _ | none => refuse m .badField s

/-- SET_DOMAIN. -/
def execSetDomain (s : State) : Host.Outcome State Fault Refusal := issueEvent (rowKind 0x11) setDomainEffect s

/-! ## Share groups (R16, R17) -/

/-- Change the group count of each member in turn (R12). -/
def modGroupCounts (f : Nat → Nat) (members : List Nat) (s : State) : State :=
  members.foldl (fun s d => modDomain d (fun r => { r with groupCount := f r.groupCount }) s) s

/-- DEFINE_GROUP with its fields (R16). -/
def defineGroup (m : Message) (g : Nat) (members : List Nat) (s : State) : State :=
  if (s.group g).defined then refuse m .groupState s
  else if !members.all s.isActive then refuse m .domainState s
  else
    answer m .ok none (modGroupCounts (fun n => n + 1) members
      (modGroup g (fun r => { r with defined := true, members := members }) s))

/-- The effect of DEFINE_GROUP's row. -/
def defineGroupEffect (m : Message) (s : State) : State :=
  match decodeCommand m with
  | some (.defineGroup g members) => defineGroup m g members s
  | some _ | none => refuse m .badField s

/-- DEFINE_GROUP. -/
def execDefineGroup (s : State) : Host.Outcome State Fault Refusal := issueEvent (rowKind 0x12) defineGroupEffect s

/-- DROP_GROUP with its field (R17). -/
def dropGroup (m : Message) (g : Nat) (s : State) : State :=
  let r := s.group g
  if !r.defined || decide (0 < r.refs) then refuse m .groupState s
  else
    answer m .ok none (modGroup g (fun r => { r with defined := false, members := [] })
      (modGroupCounts (fun n => n - 1) r.members s))

/-- The effect of DROP_GROUP's row. -/
def dropGroupEffect (m : Message) (s : State) : State :=
  match decodeCommand m with
  | some (.dropGroup g) => dropGroup m g s
  | some _ | none => refuse m .badField s

/-- DROP_GROUP. -/
def execDropGroup (s : State) : Host.Outcome State Fault Refusal := issueEvent (rowKind 0x13) dropGroupEffect s

/-! ## SET_POLICY (R32) -/

/-- SET_POLICY with its fields; class 7, NOT_READY, has no entry. -/
def setPolicy (m : Message) (set : Fin 4) (cls : Fin 8) (action : PolicyAction) (s : State) : State :=
  if h : cls.val < 7 then
    answer m .ok none
      { s with policies := s.policies.set set.val ((s.policies[set.val]).set cls.val action h) set.isLt }
  else refuse m .badField s

/-- The effect of SET_POLICY's row. -/
def setPolicyEffect (m : Message) (s : State) : State :=
  match decodeCommand m with
  | some (.setPolicy set cls action) => setPolicy m set cls action s
  | some _ | none => refuse m .badField s

/-- SET_POLICY. -/
def execSetPolicy (s : State) : Host.Outcome State Fault Refusal := issueEvent (rowKind 0x14) setPolicyEffect s

/-! ## SET_HOME (R19) -/

/-- A range overlaps the extent of a window that may be empty. -/
def windowOverlaps (base count : Nat) : Option HomeWindow → Bool
  | some h => overlaps base count h.base h.count
  | none => false

/-- An extent overlaps a non-empty window other than the named one. -/
def State.overlapsOther (s : State) (n : Fin 16) (base count : Nat) : Bool :=
  (List.finRange 16).any (fun i => !(i == n) && windowOverlaps base count s.homes[i.val])

/-- An extent overlaps the range of an active context that carries a range command. -/
def State.underChange (s : State) (base count : Nat) : Bool :=
  anyCtx s (fun w => match w.job with
    | .range b n _ _ => overlaps base count b n
    | .query _ | .format _ _ _ | .closeDomain _ => false)

/-- A retire sweep is in progress, until its context enters POST. -/
def State.sweepInProgress (s : State) : Bool :=
  anyCtx s (fun w => match w.job with
    | .closeDomain _ => !decide (w.phase = .post)
    | .range _ _ _ _ | .query _ | .format _ _ _ => false)

/-- Test 4 fails. -/
def State.homeBusy (s : State) (n : Fin 16) (base count : Nat) : Bool :=
  s.sweepInProgress || (decide (0 < count) && s.underChange base count) ||
    (match s.homes[n.val] with
     | some h => s.underChange h.base h.count
     | none => false)

/-- The tests of R19 in their order, each true where it fails; count 0 meets only the last. -/
def setHomeTests (s : State) (n : Fin 16) (base count : Nat) (link : LinkId) : List (Bool × Reason) :=
  [(decide (0 < count) && !isMemoryLink link, .badField),
   (decide (0 < count) && decide (Config.granules < base + count), .range),
   (decide (0 < count) && s.overlapsOther n base count, .range),
   (s.homeBusy n base count, .badState)]

/-- SET_HOME with its fields. -/
def setHome (m : Message) (n : Fin 16) (base count : Nat) (link : LinkId) (s : State) : State :=
  match firstFailure (setHomeTests s n base count link) with
  | some reason => refuse m reason s
  | none =>
      let window := if count = 0 then none else some { base := base, count := count, link := link }
      answer m .ok none { s with homes := s.homes.set n.val window n.isLt }

/-- The effect of SET_HOME's row. -/
def setHomeEffect (m : Message) (s : State) : State :=
  match decodeCommand m with
  | some (.setHome n base count link) => setHome m n base count link s
  | some _ | none => refuse m .badField s

/-- SET_HOME. -/
def execSetHome (s : State) : Host.Outcome State Fault Refusal := issueEvent (rowKind 0x15) setHomeEffect s

/-! ## SNAPSHOT (R161) -/

/-- The effect of SNAPSHOT's row. -/
def snapshotEffect (m : Message) (s : State) : State :=
  match decodeCommand m with
  | some .snapshot => answer m .ok none (takeSnapshot s)
  | some _ | none => refuse m .badField s

/-- SNAPSHOT. -/
def execSnapshot (s : State) : Host.Outcome State Fault Refusal := issueEvent (rowKind 0x16) snapshotEffect s

/-! ## ABORT (R75 to R80) -/

/-- A context's waiting or ready request is withdrawn (R77, R78). -/
def withdrawRequest (c : CtxId) (s : State) : State :=
  modWork c (fun w => { w with request := .noRequest, waiting := false }) (removeWaiters (Waiter.ofCtx c) s)

/-- The reservation a job made at issue, in granules. -/
def Job.count : Job → Nat
  | .range _ count _ _ => count
  | .query _ | .format _ _ _ | .closeDomain _ => 0

/-- ABORT of a context in READ or VALIDATE (R77). -/
def abortEarly (c : CtxId) (w : Work) (s : State) : State :=
  releaseReservation w.job w.job.count
    (modWork c (fun w => w.enterPost .aborted none (.counts 0 0 0)) (withdrawRequest c s))

/-- ABORT of a context in MARK (R78): the revert is presented, or the context stops where nothing is marked. It stays in
MARK until the revert is written (log 30). -/
def abortMarking (c : CtxId) (w : Work) (s : State) : State :=
  let s := modWork c (fun w => { w with abortMark := true }) (withdrawRequest c s)
  if w.run.any (fun r => !r.image.isEmpty) then modWork c (fun w => { w with request := .revert }) s
  else stopContext c w s

/-- ABORT of a context in WIPE (R80): a wipe start not carried out gives way to the revert, and the context stays in WIPE
until the revert is written (log 30). -/
def abortWiping (c : CtxId) (s : State) : State :=
  modWork c (fun w =>
    { w with
      abortMark := true
      request := if w.request = .wipeStart then .revert else w.request }) s

/-- ABORT of a context of an abortable kind (Table 4.7). -/
def abortContext (m : Message) (c : CtxId) (w : Work) (s : State) : State :=
  if w.phase = .post then answer m .late none s
  else if w.abortMark then answer m .ok none s
  else
    answer m .ok none (match w.phase with
      | .read | .validate => abortEarly c w s
      | .mark => abortMarking c w s
      | .recall | .commit => modWork c (fun w => { w with abortMark := true }) s
      | .wipe => abortWiping c s
      | .post | .scan | .fill => s)

/-- FORMAT and CLOSE_DOMAIN are not abortable. -/
def Job.abortable : Job → Bool
  | .range _ _ _ _ | .query _ => true
  | .format _ _ _ | .closeDomain _ => false

/-- ABORT of the active context that carries the tag (Table 4.7). -/
def abortActive (m : Message) (target : BitVec 16) (s : State) : State :=
  match findCtx s (fun w => w.tag == target) with
  | none => answer m .noTarget none s
  | some c =>
      match s.work c with
      | none => answer m .noTarget none s
      | some w => if w.job.abortable then abortContext m c w s else refuse m .notAbortable s

/-- ABORT of a message in the intake (R76): its response is placed before the ABORT's own. -/
def abortQueued (m : Message) (i : Nat) (queued : Message) (s : State) : State :=
  if msgKind queued = 0x09 ∨ msgKind queued = 0x0A then refuse m .notAbortable s
  else
    answer m .ok none (placeResponse (plainResponse (msgTag queued) (msgKind queued) .aborted none)
      { s with intake := s.intake.eraseIdx i })

/-- ABORT with its target tag (R75). -/
def abortTarget (m : Message) (target : BitVec 16) (s : State) : State :=
  match queuedTarget target s.intake with
  | none => abortActive m target s
  | some i =>
      match s.message i with
      | some queued => abortQueued m i queued s
      | none => abortActive m target s

/-- The effect of ABORT's row. -/
def abortEffect (m : Message) (s : State) : State :=
  match decodeCommand m with
  | some (.abort target) => abortTarget m target s
  | some _ | none => refuse m .badField s

/-- ABORT. -/
def execAbort (s : State) : Host.Outcome State Fault Refusal := issueEvent (rowKind 0x17) abortEffect s

/-! ## LINK_CONTROL (R146, Table 8.7) -/

/-- A row of LINK_CONTROL: its action, or a message that is refused for its coding or its kind (log 3). -/
def linkRow (action : LinkAction) (m : Message) : Bool :=
  !knownKind m || (msgKind m == 0x18 &&
    (match decodeLinkAction (msgByte21 m) with
     | some a => decide (a = action)
     | none => true))

/-- A rejoin starts on a link that was OFF or FAILED (R141). -/
def startRejoin (l : LinkId) (s : State) : State :=
  startAttempts l (modLink l (fun k => { k with state := .rejoining }) s)

/-- ENABLE: an OFF link starts a rejoin, its receiver hunting (R136). -/
def enableLink (m : Message) (l : LinkId) (s : State) : State :=
  match (s.link l).state with
  | .off => answer m .ok none (startRejoin l (huntAgain l s))
  | .rejoining | .up | .failed => refuse m .badState s

/-- A REJOINING link enters OFF (R146, R113). -/
def stopRejoin (l : LinkId) (s : State) : State :=
  presentToContexts (Work.linkLost .linkOff l)
    (modLink l (fun k =>
      { k with state := .off, rejoinDeadline := none, attempt := 0, receiver := .hunting, tx := [] }) s)

/-- DISABLE. -/
def disableLink (m : Message) (l : LinkId) (s : State) : State :=
  answer m .ok none (match (s.link l).state with
    | .off => s
    | .rejoining => stopRejoin l s
    | .up => leaveUpToOff l s
    | .failed => modLink l (fun k => { k with state := .off, receiver := .hunting }) s)

/-- REJOIN. -/
def rejoinLink (m : Message) (l : LinkId) (s : State) : State :=
  match (s.link l).state with
  | .off => refuse m .badState s
  | .rejoining => answer m .ok none s
  | .up => answer m .ok none (leaveUpToRejoin l .command s)
  | .failed => answer m .ok none (startRejoin l s)

/-- The effect of a LINK_CONTROL row. -/
def linkEffect (action : LinkAction) (take : Message → LinkId → State → State) (m : Message) (s : State) : State :=
  match decodeCommand m with
  | some (.linkControl l a) => if a = action then take m l s else refuse m .badField s
  | some _ | none => refuse m .badField s

/-- LINK_CONTROL ENABLE. -/
def execLinkControlEnable (s : State) : Host.Outcome State Fault Refusal :=
  issueEvent (linkRow .enable) (linkEffect .enable enableLink) s

/-- LINK_CONTROL DISABLE. -/
def execLinkControlDisable (s : State) : Host.Outcome State Fault Refusal :=
  issueEvent (linkRow .disable) (linkEffect .disable disableLink) s

/-- LINK_CONTROL REJOIN. -/
def execLinkControlRejoin (s : State) : Host.Outcome State Fault Refusal :=
  issueEvent (linkRow .rejoin) (linkEffect .rejoin rejoinLink) s

end Sys2Proof.Machine
end

