-- ==== Sys2Proof/Machine/Window.lean ====
section
/-! DEFINITION. The Control Port window (chapter 10, Table 11.10): part reset, host writes, host reads. -/

namespace Sys2Proof.Machine

/-! ## Part reset (R57, Table 10.4) -/

/-- PART_RESET: every block returns to its reset value, with the capacity measured; the command queue is not the part's
(log 7). -/
def execPartReset (capacity : BitVec 64) (s : State) : Host.Outcome State Fault Refusal :=
  .next { State.reset with capacity := capacity, arrivals := s.arrivals, pending := s.pending }

/-! ## The staging slot (R163, R61) -/

/-- The message the staging slot spells: word i at bits 32i to 32i + 31. -/
def stagedMessage (staging : Vector Word 8) : Message :=
  BitVec.ofNat 256 (packFields ((List.finRange 8).map (fun i => (staging[i.val].toNat, 32 * i.val, 32))))

/-- Store one word of the slot. -/
def storeStaging (i : Fin 8) (value : Word) (s : State) : State :=
  { s with staging := s.staging.set i.val value i.isLt }

/-- Offer the slot's content to the Command Intake: placed at the tail, or dropped with INTAKE_OVERRUN set (R61). -/
def offerMessage (s : State) : State :=
  if s.intake.length < Config.intakeSize then { s with intake := s.intake ++ [stagedMessage s.staging] }
  else { s with overrun := true }

/-- The write of the last word. -/
def writeLastWord (value : Word) (s : State) : State := offerMessage (storeStaging 7 value s)

/-- INTAKE_STAGING_LAST_WORD. -/
def execIntakeStagingLastWord (value : Word) (s : State) : Host.Outcome State Fault Refusal :=
  event (writeLastWord value) s

/-! ## The control word (R165, R168) -/

/-- A Port Reset (R168). -/
def portReset (s : State) : State :=
  { s with
    intake := [], responses := [], notices := [], overrun := false, noticeLost := false
    staging := Vector.replicate 8 0, respLatch := none, noticeLatch := none }

/-- A write of the control word: the enables, then the clears, then a Port Reset, in one event (R165). -/
def writeControl (value : Word) (s : State) : State :=
  let s := { s with
    irqResponse := value.getLsbD 0
    irqNotice := value.getLsbD 1
    overrun := if value.getLsbD 8 then false else s.overrun
    noticeLost := if value.getLsbD 9 then false else s.noticeLost }
  if value.getLsbD 16 then portReset s else s

/-- INTERRUPT_ENABLE_WRITE: a write of the control word, which carries the whole word (log 28). -/
def execInterruptEnableWrite (value : Word) (s : State) : Host.Outcome State Fault Refusal :=
  event (writeControl value) s

/-- CLEAR_INTAKE_OVERRUN: a write of the control word with bit 8 set (log 28). -/
def execClearIntakeOverrun (value : Word) (s : State) : Host.Outcome State Fault Refusal :=
  event (writeControl (value ||| 0x100#32)) s

/-- CLEAR_NOTICE_LOST: a write of the control word with bit 9 set (log 28). -/
def execClearNoticeLost (value : Word) (s : State) : Host.Outcome State Fault Refusal :=
  event (writeControl (value ||| 0x200#32)) s

/-- PORT_RESET: a write of the control word with bit 16 set (log 28). -/
def execPortReset (value : Word) (s : State) : Host.Outcome State Fault Refusal :=
  event (writeControl (value ||| 0x10000#32)) s

/-! ## Settings (R166) -/

/-- A written value where it lies in its range; the old value otherwise. -/
def inRangeOr (lo hi old : Nat) (value : Word) : Nat :=
  if lo ≤ value.toNat ∧ value.toNat ≤ hi then value.toNat else old

/-- A write of the snapshot mode (R161): AUTO starts the timer where the mode was MANUAL, MANUAL makes it absent. -/
def writeSnapshotMode (value : Word) (s : State) : State :=
  if value.getLsbD 0 then
    match s.settings.snapshotMode with
    | .auto => s
    | .manual =>
        { s with settings := { s.settings with snapshotMode := .auto }, snapTimer := some s.settings.snapshotInterval }
  else { s with settings := { s.settings with snapshotMode := .manual }, snapTimer := none }

/-- SNAPSHOT_MODE_WRITE. -/
def execSnapshotModeWrite (value : Word) (s : State) : Host.Outcome State Fault Refusal :=
  event (writeSnapshotMode value) s

/-- The watermark mode a bit codes (Table 11.10). -/
def watermarkModeOf (bit : Bool) : WatermarkMode := if bit then .peak else .current

/-- A write of the watermark modes, both of which stand in the word: each indicator becomes the occupancy (R162). -/
def writeWatermarkModes (value : Word) (s : State) : State :=
  { s with
    settings := { s.settings with
      parkMode := watermarkModeOf (value.getLsbD 0), missMode := watermarkModeOf (value.getLsbD 1) }
    parkMark := { s.parkMark with indicator := s.park.length }
    missMark := { s.missMark with indicator := s.miss.length } }

/-- WATERMARK_MODE_WRITE. -/
def execWatermarkModeWrite (value : Word) (s : State) : Host.Outcome State Fault Refusal :=
  event (writeWatermarkModes value) s

/-- A write of a plain setting; a value outside its range is ignored (R166, Table 10.3). -/
def writeSetting (offset : Nat) (value : Word) (x : Settings) : Settings :=
  match offset with
  | 0x060 => { x with recallDeadline := inRangeOr 10 10000 x.recallDeadline value }
  | 0x064 => { x with wipeDeadline := inRangeOr 1 100 x.wipeDeadline value }
  | 0x068 => { x with rejoinDeadline := inRangeOr 20 1000 x.rejoinDeadline value }
  | 0x06C => { x with silenceLimit := inRangeOr 4 64 x.silenceLimit value }
  | 0x070 => { x with caching := value.extractLsb' 0 6 }
  | 0x078 => { x with snapshotInterval := inRangeOr 1 1000 x.snapshotInterval value }
  | _ => x

/-- A word write of the window (R172): the staging slot, the control word, the modes, the plain settings; a write to any
other offset is passed over. -/
def writeWord (offset : Nat) (value : Word) (s : State) : State :=
  match offset with
  | 0x000 => storeStaging 0 value s
  | 0x004 => storeStaging 1 value s
  | 0x008 => storeStaging 2 value s
  | 0x00C => storeStaging 3 value s
  | 0x010 => storeStaging 4 value s
  | 0x014 => storeStaging 5 value s
  | 0x018 => storeStaging 6 value s
  | 0x01C => writeLastWord value s
  | 0x050 => writeControl value s
  | 0x074 => writeSnapshotMode value s
  | 0x07C => writeWatermarkModes value s
  | offset => { s with settings := writeSetting offset value s.settings }

/-- WINDOW_WRITE: a write narrower than a word is passed over (R172). Every offset is taken as its own row takes it
(log 27). -/
def execWindowWrite (offset : BitVec 12) (size : AccessSize) (value : Word) (s : State) :
    Host.Outcome State Fault Refusal :=
  event (fun s =>
    match size with
    | .word => writeWord offset.toNat value s
    | .narrow => s) s

/-! ## The head slots (R164) -/

/-- A read of the first word: the latch takes the head of the queue, or is emptied, and gives its first word. -/
def readFirstWord (slot : HeadSlot) (s : State) : State :=
  match slot with
  | .response => { s with respLatch := s.responses.head?, readData := slotWord encodeResponse s.responses.head? 0 }
  | .notice => { s with noticeLatch := s.notices.head?, readData := slotWord encodeNotice s.notices.head? 0 }

/-- HEAD_SLOT_FIRST_WORD_READ. -/
def execHeadSlotFirstWordRead (slot : HeadSlot) (s : State) : Host.Outcome State Fault Refusal :=
  event (readFirstWord slot) s

/-- A queue less its head where its latch holds an entry. -/
def removeLatched {α : Type} (latch : Option α) (queue : List α) : List α :=
  match latch with
  | some _ => queue.drop 1
  | none => queue

/-- A read of the last word: the word of the latch, whose entry then leaves the head of its queue. -/
def readLastWord (slot : HeadSlot) (s : State) : State :=
  match slot with
  | .response =>
      { s with
        readData := slotWord encodeResponse s.respLatch 3
        responses := removeLatched s.respLatch s.responses
        respLatch := none }
  | .notice =>
      { s with
        readData := slotWord encodeNotice s.noticeLatch 3
        notices := removeLatched s.noticeLatch s.notices
        noticeLatch := none }

/-- HEAD_SLOT_LAST_WORD_READ. -/
def execHeadSlotLastWordRead (slot : HeadSlot) (s : State) : Host.Outcome State Fault Refusal :=
  event (readLastWord slot) s

/-! ## Reads of the window (R165, R172, Table 11.10; log 26) -/

/-- A word built of fields, each a value, the bit it begins at and its width. -/
def wordOf (fields : List (Nat × Nat × Nat)) : Word := BitVec.ofNat 32 (packFields fields)

/-- The code of a mode bit. -/
def WatermarkMode.code : WatermarkMode → Nat
  | .current => 0
  | .peak => 1

/-- The code of the snapshot mode. -/
def SnapshotMode.code : SnapshotMode → Nat
  | .manual => 0
  | .auto => 1

/-- The snapshot copy at a place of the bank, 0 beyond it. -/
def State.copyAt (s : State) (i : Nat) : Word := ((s.copies[i]?).map (fun c => c.value)).getD 0

/-- The wrap marks of `n` copies from a place of the bank on, the first at bit 0. -/
def State.wrapMarks (s : State) (first n : Nat) : Word :=
  wordOf ((List.range n).map (fun i =>
    (if ((s.copies[first + i]?).map (fun c => c.wrapped)).getD false then 1 else 0, i, 1)))

/-- The words of Table 11.10 that are neither a slot nor a snapshot copy; an unlisted offset reads as 0. -/
def readPlain (s : State) (offset : Nat) : Word :=
  match offset with
  | 0x040 =>
      wordOf [(s.part.code, 0, 2), (Config.intakeSize - s.intake.length, 8, 6), (s.responses.length, 16, 6),
        (s.notices.length, 24, 7)]
  | 0x044 => wordOf [(s.overrun.toNat, 0, 1), (s.noticeLost.toNat, 1, 1), (s.pacing.toNat, 2, 1)]
  | 0x048 => s.capacity.extractLsb' 0 32
  | 0x04C => s.capacity.extractLsb' 32 32
  | 0x050 => wordOf [(s.irqResponse.toNat, 0, 1), (s.irqNotice.toNat, 1, 1)]
  | 0x060 => BitVec.ofNat 32 s.settings.recallDeadline
  | 0x064 => BitVec.ofNat 32 s.settings.wipeDeadline
  | 0x068 => BitVec.ofNat 32 s.settings.rejoinDeadline
  | 0x06C => BitVec.ofNat 32 s.settings.silenceLimit
  | 0x070 => s.settings.caching.setWidth 32
  | 0x074 => BitVec.ofNat 32 s.settings.snapshotMode.code
  | 0x078 => BitVec.ofNat 32 s.settings.snapshotInterval
  | 0x07C => wordOf [(s.settings.parkMode.code, 0, 1), (s.settings.missMode.code, 1, 1)]
  | 0x080 => s.snapSeq.setWidth 32
  | 0x084 => wordOf [(s.parkMark.indicator, 0, 7), (s.missMark.indicator, 8, 6)]
  | 0x088 => wordOf [(s.parkMark.copy, 0, 7), (s.missMark.copy, 8, 6)]
  | 0x1E0 => s.wrapMarks 0 32
  | 0x1E4 => s.wrapMarks 32 16
  | 0x1E8 => s.wrapMarks 48 5
  | _ => 0

/-- What a read of the word at an aligned offset returns. The first word of a head slot is what the read's own event
leaves in the latch. -/
def readWord (s : State) (offset : Nat) : Word :=
  if offset < 0x020 then ((s.staging[offset / 4]?).getD 0)
  else if offset = 0x020 then slotWord encodeResponse s.responses.head? 0
  else if offset < 0x030 then slotWord encodeResponse s.respLatch ((offset - 0x020) / 4)
  else if offset = 0x030 then slotWord encodeNotice s.notices.head? 0
  else if offset < 0x040 then slotWord encodeNotice s.noticeLatch ((offset - 0x030) / 4)
  else if 0x100 ≤ offset ∧ offset < 0x1D4 then s.copyAt ((offset - 0x100) / 4)
  else readPlain s offset

/-- The offset of the word that an offset lies in. -/
def wordOffset (offset : Nat) : Nat := offset / 4 * 4

/-- What a read at any offset returns; one narrower than a word is taken as a read of its whole word (R172). -/
def readWindow (s : State) (offset : Nat) : Word := readWord s (wordOffset offset)

/-- The state after the event of a read at an offset: what a read of the first or the last word of a head slot leaves,
also by a narrow read of it (R164, R172); any other read changes nothing (log 26). -/
def afterRead (offset : Nat) (s : State) : State :=
  match wordOffset offset with
  | 0x020 => signalInterrupt s (readFirstWord .response s)
  | 0x02C => signalInterrupt s (readLastWord .response s)
  | 0x030 => signalInterrupt s (readFirstWord .notice s)
  | 0x03C => signalInterrupt s (readLastWord .notice s)
  | _ => s

/-- A 64-bit read: two word reads, the lower offset first, each an event of its own (R172). The two words, the lower
offset's first, and the state after both. -/
def readDouble (offset : Nat) (s : State) : (Word × Word) × State :=
  let lower := wordOffset offset
  let s' := afterRead lower s
  ((readWindow s lower, readWindow s' (lower + 4)), afterRead (lower + 4) s')

/-- A 64-bit write: two word writes, the lower offset first, each a command of its own (R172). The word at the lower
offset is the low half of the value. -/
def doubleWriteCommands (offset : BitVec 12) (value : BitVec 64) : List Instr :=
  [.windowWrite offset .word (value.extractLsb' 0 32), .windowWrite (offset + 4) .word (value.extractLsb' 32 32)]

end Sys2Proof.Machine
end

