-- ==== Sys2Proof/Machine/Dispatch.lean ====
section
/-! DEFINITION. The dispatch: one arm per command. -/

namespace Sys2Proof.Machine

def exec (i : Instr) (s : State) : Host.Outcome State Fault Refusal :=
  match i with
  | .partReset capacity => Sys2Proof.Machine.execPartReset capacity s
  | .intakeStagingLastWord value => Sys2Proof.Machine.execIntakeStagingLastWord value s
  | .windowWrite offset size value => Sys2Proof.Machine.execWindowWrite offset size value s
  | .snapshotModeWrite value => Sys2Proof.Machine.execSnapshotModeWrite value s
  | .watermarkModeWrite value => Sys2Proof.Machine.execWatermarkModeWrite value s
  | .interruptEnableWrite value => Sys2Proof.Machine.execInterruptEnableWrite value s
  | .clearIntakeOverrun value => Sys2Proof.Machine.execClearIntakeOverrun value s
  | .clearNoticeLost value => Sys2Proof.Machine.execClearNoticeLost value s
  | .portReset value => Sys2Proof.Machine.execPortReset value s
  | .headSlotFirstWordRead slot => Sys2Proof.Machine.execHeadSlotFirstWordRead slot s
  | .headSlotLastWordRead slot => Sys2Proof.Machine.execHeadSlotLastWordRead slot s
  | .openDomain => Sys2Proof.Machine.execOpenDomain s
  | .setDomain => Sys2Proof.Machine.execSetDomain s
  | .defineGroup => Sys2Proof.Machine.execDefineGroup s
  | .dropGroup => Sys2Proof.Machine.execDropGroup s
  | .setHome => Sys2Proof.Machine.execSetHome s
  | .setPolicy => Sys2Proof.Machine.execSetPolicy s
  | .snapshot => Sys2Proof.Machine.execSnapshot s
  | .abort => Sys2Proof.Machine.execAbort s
  | .linkControlEnable => Sys2Proof.Machine.execLinkControlEnable s
  | .linkControlDisable => Sys2Proof.Machine.execLinkControlDisable s
  | .linkControlRejoin => Sys2Proof.Machine.execLinkControlRejoin s
  | .format => Sys2Proof.Machine.execFormat s
  | .query => Sys2Proof.Machine.execQuery s
  | .closeDomain => Sys2Proof.Machine.execCloseDomain s
  | .assign => Sys2Proof.Machine.execAssign s
  | .reclaim => Sys2Proof.Machine.execReclaim s
  | .transfer => Sys2Proof.Machine.execTransfer s
  | .share => Sys2Proof.Machine.execShare s
  | .unshare => Sys2Proof.Machine.execUnshare s
  | .wipe => Sys2Proof.Machine.execWipe s
  | .releaseFence => Sys2Proof.Machine.execReleaseFence s
  | .check link payload => Sys2Proof.Machine.execCheck link payload s
  | .checkPortEvent => Sys2Proof.Machine.execCheckPortEvent s
  | .recordRead => Sys2Proof.Machine.execRecordRead s
  | .recordUpdate => Sys2Proof.Machine.execRecordUpdate s
  | .wipeStart => Sys2Proof.Machine.execWipeStart s
  | .commitRunWrite => Sys2Proof.Machine.execCommitRunWrite s
  | .revert => Sys2Proof.Machine.execRevert s
  | .sweepWindowTake ctx => Sys2Proof.Machine.execSweepWindowTake ctx s
  | .postResponse => Sys2Proof.Machine.execPostResponse s
  | .missQueueFill granule dram => Sys2Proof.Machine.execMissQueueFill granule dram s
  | .tagStoreWriteComplete granule => Sys2Proof.Machine.execTagStoreWriteComplete granule s
  | .recallAck link payload => Sys2Proof.Machine.execRecallAck link payload s
  | .wipeDone link payload => Sys2Proof.Machine.execWipeDone link payload s
  | .rejoinAck link payload => Sys2Proof.Machine.execRejoinAck link payload s
  | .idle link => Sys2Proof.Machine.execIdle link s
  | .badCrcFrame link => Sys2Proof.Machine.execBadCrcFrame link s
  | .unknownKindFrame link kind => Sys2Proof.Machine.execUnknownKindFrame link kind s
  | .partSentKindFrame link kind => Sys2Proof.Machine.execPartSentKindFrame link kind s
  | .frameSent link => Sys2Proof.Machine.execFrameSent link s
  | .silenceExpiry link => Sys2Proof.Machine.execSilenceExpiry link s
  | .recallDeadlineExpiry ctx => Sys2Proof.Machine.execRecallDeadlineExpiry ctx s
  | .wipeDeadlineExpiry ctx => Sys2Proof.Machine.execWipeDeadlineExpiry ctx s
  | .rejoinDeadlineExpiry link => Sys2Proof.Machine.execRejoinDeadlineExpiry link s
  | .snapshotIntervalExpiry => Sys2Proof.Machine.execSnapshotIntervalExpiry s

end Sys2Proof.Machine
end

