-- ==== Sys2Proof/Machine/Receive.lean ====
section
/-! DEFINITION. Symbols that arrive on the Check Links: the receivers of the Link Units (R136, log 21). -/

namespace Sys2Proof.Machine

/-- A symbol arrives on a link: the receiver reads it, and where it completes a frame, the frame is taken in this event.
On an OFF link it is passed over (R136). -/
def receiveSymbol (l : LinkId) (b : Byte) (s : State) : Host.Outcome State Fault Refusal :=
  if (s.link l).state = .off then .next (huntAgain l s)
  else
    let read := readSymbol l (s.link l).receiver b
    let s := modLink l (fun k => { k with receiver := read.1 }) s
    match read.2 with
    | some command => Sys2Proof.Machine.exec command s
    | none => .next s

/-- What happens while no command waits: the next symbol arrives, and where none does, the block idles. -/
def idleStep (s : State) : Host.Outcome State Fault Refusal :=
  match s.arrivals with
  | [] => .next s
  | (l, b) :: rest => receiveSymbol l b { s with arrivals := rest }

end Sys2Proof.Machine
end

