-- ==== Sys2Proof/Safety.lean ====
section
/-! DEFINITION. What the claims mean by a safe state, the parts of State that the work inside the part leaves alone, and
the row of the table that a context command issues by. -/

namespace Sys2Proof.Machine

/-- The capacities of the Command Intake (R61), the Response Queue (R70), the Notice Queue (R153), the Park Queue (R37)
and the Miss Queue (R48). -/
def State.withinCapacity (s : State) : Prop :=
  s.intake.length ≤ Config.intakeSize ∧ s.responses.length ≤ Config.responseSize ∧
  s.notices.length ≤ Config.noticeSize ∧ s.park.length ≤ Config.parkSize ∧ s.miss.length ≤ Config.missSize

/-- Every setting lies in its range (Table 10.3). -/
def Settings.inRange (x : Settings) : Prop :=
  (10 ≤ x.recallDeadline ∧ x.recallDeadline ≤ 10000) ∧ (1 ≤ x.wipeDeadline ∧ x.wipeDeadline ≤ 100) ∧
  (20 ≤ x.rejoinDeadline ∧ x.rejoinDeadline ≤ 1000) ∧ (4 ≤ x.silenceLimit ∧ x.silenceLimit ≤ 64) ∧
  (1 ≤ x.snapshotInterval ∧ x.snapshotInterval ≤ 1000)

/-- What a watermark shows of its queue's occupancy (R162): in CURRENT the occupancy, in PEAK no less. -/
def Watermark.shows (x : Watermark) (mode : WatermarkMode) (occupancy : Nat) : Prop :=
  (mode = .current → x.indicator = occupancy) ∧ occupancy ≤ x.indicator

/-- The watermarks and pacing follow the two occupancies (R150, R162): pacing is off below both of its starting
thresholds, and in force until both queues have come down to its ending ones. -/
def State.occupancyShown (s : State) : Prop :=
  s.parkMark.shows s.settings.parkMode s.park.length ∧ s.missMark.shows s.settings.missMode s.miss.length ∧
  (s.pacing = false → s.miss.length < 44 ∧ s.park.length < 60) ∧
  (s.pacing = true → 24 < s.miss.length ∨ 32 < s.park.length)

/-- The invariant of the part: the capacities, the canonical form of the Tag Store, the ranges of the settings, and the
watermarks and pacing as the occupancies have them. -/
def State.sound (s : State) : Prop :=
  s.withinCapacity ∧ Memory.wf s.store = true ∧ s.settings.inRange ∧ s.occupancyShown

/-- What the checks, the changes, the frames and the link events leave as it is: the part state, T, the capacity, the
Home Map, the Policy Sets, the intake, the staging slot, the Response Queue and its arbiter, the latches, the snapshots
and the settings, the interrupt enables, and the model's own fields. -/
def State.portSide (s : State) :=
  (s.part, s.tableSize, s.capacity, s.homes, s.policies, s.fill, s.intake, s.overrun, s.staging, s.responses, s.respPtr,
    s.respLatch, s.noticeLatch, s.copies, s.snapSeq, s.snapTimer, s.settings, s.irqResponse, s.irqNotice, s.readData,
    s.arrivals, s.pending)

/-- The queues that the work inside the part fills keep within their capacities, and the Tag Store stays canonical. -/
def State.bounded (s : State) : Prop :=
  s.notices.length ≤ Config.noticeSize ∧ s.park.length ≤ Config.parkSize ∧ s.miss.length ≤ Config.missSize ∧
  Memory.wf s.store = true

/-! ## Law L8: the contexts -/

/-- A context of a range command as its phase has it (chapter 5): it validates from the base of its range with no run,
reads records in VALIDATE only, and works each run at its cursor, inside the range. -/
def Work.rangeOrderly (w : Work) (base count : Nat) : Prop :=
  w.phase ≠ .read ∧ w.phase ≠ .scan ∧ base ≤ w.cursor ∧
  (w.phase = .validate → w.cursor = base ∧ 0 < count ∧ w.run = none) ∧ (w.request = .read → w.phase = .validate) ∧
  ∀ r, w.run = some r → r.base = w.cursor ∧ r.base + 2 ^ r.order ≤ base + count

/-- A retire sweep (chapter 7): its window stands at its cursor, and its reads, its reclaim list and its run stay inside
the window. -/
def Work.sweepOrderly (w : Work) : Prop :=
  (∀ b, w.window = some b → b = w.cursor) ∧
  (w.request = .read → w.window = some w.cursor ∧ w.cursor ≤ w.next ∧ w.next < w.cursor + 512) ∧
  (∀ g ∈ w.reclaim, w.window = some w.cursor ∧ w.cursor ≤ g ∧ g < w.cursor + 512) ∧
  ∀ r, w.run = some r → w.window = some w.cursor ∧ w.cursor ≤ r.base ∧ r.base + 2 ^ r.order ≤ w.cursor + 512

/-- The run of a context: its image lists no more records than the run has granules, each of a granule of the run and
MOVING or WIPING in the context's number; while MARK asks for a record, it is one the image has not come to. -/
def Work.runOrderly (c : CtxId) (w : Work) (r : Run) : Prop :=
  r.image.length ≤ 2 ^ r.order ∧
  (w.request = .update → r.base + r.image.length ≤ w.next ∧ w.next < r.base + 2 ^ r.order) ∧
  ∀ e ∈ r.image, r.base ≤ e.1 ∧ e.1 < r.base + 2 ^ r.order ∧
    ∃ prior, e.2.state = .moving c prior ∨ e.2.state = .wiping c prior

/-- What an active context holds is in order. A context in POST holds no run, request or window (R72, R133). -/
def Work.orderly (c : CtxId) (w : Work) : Prop :=
  (w.phase = .post → w.run = none ∧ w.request = .noRequest ∧ w.window = none) ∧
  (∀ base count expected op, w.job = .range base count expected op → w.rangeOrderly base count) ∧
  (∀ d, w.job = .closeDomain d → w.sweepOrderly) ∧
  ∀ r, w.run = some r → w.job.op.isSome = true ∧ w.runOrderly c r

/-- Law L8 as the contexts hold it (R83): the ranges of active contexts, for a sweep its window, are pairwise disjoint,
and each context's run and marked records lie inside its own range. -/
def State.contextsKept (s : State) : Prop :=
  (∀ c w, s.work c = some w → w.orderly c) ∧
  ∀ c c' w w' b n b' n', c ≠ c' → s.work c = some w → s.work c' = some w' → w.heldRange = some (b, n) →
    w'.heldRange = some (b', n') → overlaps b n b' n' = false

/-! ## Law L7: quotas -/

/-- The domain that a command promises granules to at issue (R10). -/
def Job.receiver : Job → Option Nat
  | .range _ _ _ (.assign d _) => some d
  | .range _ _ _ (.transfer _ taker _ _) => some taker
  | .range _ _ _ (.reclaim _ _) | .range _ _ _ (.share _ _) | .range _ _ _ (.unshare _) | .range _ _ _ .wipe
  | .range _ _ _ .releaseFence | .query _ | .format _ _ _ | .closeDomain _ => none

/-- The granules of its range that a context has not come past, none once it is in POST. -/
def Work.promised (w : Work) : Nat := if w.phase = .post then 0 else w.job.limit - w.cursor

/-- A figure summed over the active contexts. -/
def State.sumOver (s : State) (f : Work → Nat) : Nat := (allCtxs.map (fun c => ((s.work c).map f).getD 0)).sum

/-- What the active contexts hold promised to a domain. -/
def State.promisedTo (s : State) (d : Nat) : Nat :=
  s.sumOver (fun w => if w.job.receiver = some d then w.promised else 0)

/-- A context works toward ACTIVE domains; a sweep not in POST is its DRAINING domain's only one (R124, R125). -/
def State.namesKept (s : State) (c : CtxId) (w : Work) : Prop :=
  (∀ d, w.job.receiver = some d → (s.domain d).state = .active) ∧
  ∀ d, w.job = .closeDomain d → d ≠ 0 ∧ (s.domain d).state = .draining ∧
    ∀ c' w', c' ≠ c → s.work c' = some w' → w'.phase ≠ .post → w'.job ≠ .closeDomain d

/-- Law L7 with what it rests on: incoming is what the contexts hold promised (R10), a CLOSED domain holds nothing, and
promises go to ACTIVE domains only. -/
def State.quotaKept (s : State) : Prop :=
  (∀ d, d ≠ 0 → (s.domain d).held + (s.domain d).incoming ≤ (s.domain d).quota) ∧
  (∀ d, (s.domain d).incoming = s.promisedTo d) ∧
  (∀ d, d ≠ 0 → (s.domain d).state = .closed → (s.domain d).held = 0) ∧
  ∀ c w, s.work c = some w → w.phase ≠ .post → s.namesKept c w

/-! ## Law L10: share groups -/

/-- The number of DEFINED groups that list a domain. -/
def State.groupsListing (s : State) (d : Nat) : Nat :=
  ((List.range 256).filter (fun g => (s.group g).defined && decide (d ∈ (s.group g).members))).length

/-- Law L10 with what it rests on: a group with references is DEFINED and its members are ACTIVE; the group count of a
domain is the number of DEFINED groups that list it (R12). -/
def State.sharesKept (s : State) : Prop :=
  (∀ g, 0 < (s.group g).refs → (s.group g).defined = true) ∧
  (∀ g, (s.group g).defined = true →
    g < 256 ∧ (s.group g).members.Nodup ∧ ∀ d ∈ (s.group g).members, (s.domain d).state = .active) ∧
  ∀ d, (s.domain d).groupCount = s.groupsListing d

/-! ## Law L9: credits -/

/-- The check that waits, where a waiter is one. -/
def Waiter.asCheck : Waiter → Option Check
  | .check k => some k
  | .context _ => none

/-- The checks of all links that wait in the Park Queue and in the Miss Queue. -/
def State.waitingChecks (s : State) : List Check :=
  s.park ++ s.miss.flatMap (fun e => e.waiters.filterMap Waiter.asCheck)

/-- The checks held in the part from a link (R20, R139): in its lane, in the Park Queue and in the Miss Queue. -/
def State.checksHeld (s : State) (l : LinkId) : List Check :=
  (s.link l).lane ++ s.waitingChecks.filter (fun k => k.link == l)

/-- Law L9 with what it rests on: the accounting of a link lists the tags of the checks held from it (R139), a lane
holds its own link's checks (R20), and no two Miss Queue entries are of one granule (R48). -/
def State.creditsKept (s : State) : Prop :=
  (∀ l : LinkId,
    (s.checksHeld l).length + (s.link l).withheld ≤ Config.credits ∧
    ((s.link l).state ≠ .up → s.checksHeld l = [] ∧ (s.link l).withheld = 0) ∧
    ((s.checksHeld l).map Check.tag).Perm (s.link l).accounting ∧ ∀ k ∈ (s.link l).lane, k.link = l) ∧
  (s.miss.map MissEntry.granule).Nodup

/-- The state without the message that issues. -/
def State.issued (s : State) (i : Nat) : State := { s with intake := s.intake.eraseIdx i }

/-- A command is refused with the reason of the first test that fails, and not refused where none fails. Each entry is a
test as the condition under which it fails, with its reason, in the order they are taken. -/
def FirstFails (result : Option Reason) : List (Prop × Reason) → Prop
  | [] => result = none
  | (fails, reason) :: rest => (fails → result = some reason) ∧ (¬fails → FirstFails result rest)

/-- Requester `i` is the first ready one after a pointer, in the cyclic order of `n` requesters (R43, R44, R71). -/
def FirstReady (n ptr : Nat) (ready : Nat → Prop) (i : Nat) : Prop :=
  ∃ k, k < n ∧ i = (ptr + 1 + k) % n ∧ ready i ∧ ∀ k', k' < k → ¬ready ((ptr + 1 + k') % n)

/-- The row by which a context command issues. -/
def Job.command : Job → Instr
  | .range _ _ _ (.assign _ _) => .assign
  | .range _ _ _ (.reclaim _ _) => .reclaim
  | .range _ _ _ (.transfer _ _ _ _) => .transfer
  | .range _ _ _ (.share _ _) => .share
  | .range _ _ _ (.unshare _) => .unshare
  | .range _ _ _ .wipe => .wipe
  | .range _ _ _ .releaseFence => .releaseFence
  | .query _ => .query
  | .format _ _ _ => .format
  | .closeDomain _ => .closeDomain

end Sys2Proof.Machine
end

