-- ==== Sys2Proof/Certificates/Slice0/Obligations.lean ====
section
/-! DEFINITION. The statements about the model. A command of the table is an arm of exec; `event` ends each with the test
of the interrupt condition (signalInterrupt), which InterruptIsSentAtRise states on its own. -/

section Obligations
open Sys2Proof Sys2Proof.Machine

/-! ## The machine -/

/-- A step runs the command at the front of the queue on the state with the queue's rest. On an empty queue the first
symbol that has arrived is read by the receiver of its link, and where none has arrived the block idles: both are the
model's choice (logs 6 and 21). -/
def Obligations.StepRunsFrontCommand : Prop :=
  (∀ (c : Instr) (rest : List Instr) (s : State), s.pending = c :: rest →
    step s = exec c { s with pending := rest }) ∧
  (∀ s : State, s.pending = [] →
    (∀ l b rest, s.arrivals = (l, b) :: rest → step s = receiveSymbol l b { s with arrivals := rest }) ∧
    (s.arrivals = [] → step s = .next s))

/-- Every value that the spec gives the part after part reset. PART_RESET returns every field to its reset value and
shows the capacity measured. The queues of commands and of arrived symbols are not the part's; that they stay, and that
the model's output fields are reset too, is the model's choice (log 7). -/
def Obligations.ResetValues : Prop :=
  (let s := State.reset
   (s.part = .unformatted ∧ s.tableSize = 0 ∧ s.miss = [] ∧ s.port = [] ∧ s.fill = none ∧ s.park = [] ∧
     s.pacing = false ∧ s.intake = [] ∧ s.overrun = false ∧ s.responses = [] ∧ s.respLatch = none ∧ s.notices = [] ∧
     s.noticeLost = false ∧ s.noticeLatch = none ∧ s.irqResponse = false ∧ s.irqNotice = false) ∧
   (∀ d : Nat, s.domain d =
     { state := if d = 0 then .active else .closed, quota := if d = 0 then 67108864 else 0, held := 0, incoming := 0,
       policySet := 0, tally := none, groupCount := 0 }) ∧
   (∀ g : Nat, s.group g = { defined := false, members := [], refs := 0 }) ∧
   (∀ i : Fin 16, s.homes[i.val] = none) ∧
   (∀ (n : Fin 4) (cls : Fin 7), (s.policies[n.val])[cls.val] = .notify) ∧
   (∀ g : Nat, s.cacheSet g = { way0 := none, way1 := none, lru := .way0 }) ∧
   (s.portPtr = 6 ∧ s.enginePtr = 15 ∧ s.respPtr = 16) ∧
   (∀ l : LinkId, (s.link l).state = .off ∧ (s.link l).attempt = 0 ∧ (s.link l).rejoinNumber = 0 ∧
     (s.link l).rejoinDeadline = none ∧ (s.link l).silenceTimer = none ∧ (s.link l).withheld = 0 ∧
     (s.link l).tx = [] ∧ (s.link l).receiver = .hunting ∧ (s.link l).lane = [] ∧ (s.link l).accounting = []) ∧
   (∀ i : Fin 8, s.staging[i.val] = 0) ∧
   (∀ c : CtxId, s.work c = none ∧ s.runSeq c = 0) ∧
   (∀ n : CounterName, s.counter n = { value := 0, wrapped := false } ∧
     s.copies[n.index.val] = { value := 0, wrapped := false }) ∧
   (s.snapSeq = 0 ∧ s.snapTimer = none ∧ s.parkMark = { indicator := 0, copy := 0 } ∧
     s.missMark = { indicator := 0, copy := 0 }) ∧
   s.settings =
     { recallDeadline := 500, wipeDeadline := 20, rejoinDeadline := 100, silenceLimit := 16, caching := 63,
       snapshotMode := .manual, snapshotInterval := 100, parkMode := .current, missMode := .current }) ∧
  (∀ (capacity : BitVec 64) (s : State),
     exec (.partReset capacity) s = .next { State.reset with
       capacity := capacity, arrivals := s.arrivals, pending := s.pending })

/-- In every event but a part reset, one interrupt is sent exactly where the interrupt condition goes from false to
true. -/
def Obligations.InterruptIsSentAtRise : Prop :=
  (∀ s : State, s.interruptCondition = true ↔
    (s.responses ≠ [] ∧ s.irqResponse = true) ∨ (s.notices ≠ [] ∧ s.irqNotice = true)) ∧
  (∀ (c : Instr) (s t : State), (∀ capacity, c ≠ .partReset capacity) → exec c s = .next t →
    t.msiSent = s.msiSent + (if s.interruptCondition = false ∧ t.interruptCondition = true then 1 else 0))

/-! ## The window -/

/-- A write of the last staging word stores it and offers the slot's content to the intake: placed at the tail while
fewer than 32 messages stand there, else dropped with INTAKE_OVERRUN set; nothing else changes. Word i of the slot is
bytes 4i to 4i + 3 of the message it spells. -/
def Obligations.LastStagingWordOffersMessage : Prop :=
  (∀ (v : Word) (s : State),
     (s.intake.length < 32 → exec (.intakeStagingLastWord v) s =
       .next { s with staging := s.staging.set 7 v, intake := s.intake ++ [stagedMessage (s.staging.set 7 v)] }) ∧
     (32 ≤ s.intake.length → exec (.intakeStagingLastWord v) s =
       .next { s with staging := s.staging.set 7 v, overrun := true })) ∧
  (∀ (staging : Vector Word 8) (i : Fin 8), (stagedMessage staging).extractLsb' (32 * i.val) 32 = staging[i.val])

/-- A setting word whose value lies in its range is stored, and a value outside it is ignored; nothing else changes. The
other window writes: a narrow write, a write to a read-only offset and a write to an unlisted offset are passed over;
staging words 0 to 6 are stored. An offset that has a row of its own is taken as that row takes it (the model's choice,
log 27). A write of the snapshot mode: AUTO starts the interval timer with the interval held, unless the mode was AUTO
already; MANUAL makes the timer absent. A write of the watermark modes stores both and sets both indicators to the
occupancies as they stand. -/
def Obligations.WindowWrites : Prop :=
  (∀ (v : Word) (s : State),
     exec (.windowWrite 0x060 .word v) s = .next { s with settings := { s.settings with
       recallDeadline := if 10 ≤ v.toNat ∧ v.toNat ≤ 10000 then v.toNat else s.settings.recallDeadline } } ∧
     exec (.windowWrite 0x064 .word v) s = .next { s with settings := { s.settings with
       wipeDeadline := if 1 ≤ v.toNat ∧ v.toNat ≤ 100 then v.toNat else s.settings.wipeDeadline } } ∧
     exec (.windowWrite 0x068 .word v) s = .next { s with settings := { s.settings with
       rejoinDeadline := if 20 ≤ v.toNat ∧ v.toNat ≤ 1000 then v.toNat else s.settings.rejoinDeadline } } ∧
     exec (.windowWrite 0x06C .word v) s = .next { s with settings := { s.settings with
       silenceLimit := if 4 ≤ v.toNat ∧ v.toNat ≤ 64 then v.toNat else s.settings.silenceLimit } } ∧
     exec (.windowWrite 0x078 .word v) s = .next { s with settings := { s.settings with
       snapshotInterval := if 1 ≤ v.toNat ∧ v.toNat ≤ 1000 then v.toNat else s.settings.snapshotInterval } } ∧
     (∃ t, exec (.windowWrite 0x070 .word v) s = .next t ∧
       t = { s with settings := { s.settings with caching := t.settings.caching } } ∧
       ∀ l : LinkId, t.settings.caching.getLsbD l.val = v.getLsbD l.val)) ∧
  (∀ (offset : BitVec 12) (v : Word) (s : State),
     exec (.windowWrite offset .narrow v) s = .next s ∧
     (offset.toNat ∉ [0x000, 0x004, 0x008, 0x00C, 0x010, 0x014, 0x018, 0x01C, 0x050, 0x060, 0x064, 0x068, 0x06C, 0x070,
         0x074, 0x078, 0x07C] → exec (.windowWrite offset .word v) s = .next s) ∧
     (∀ i : Fin 8, i.val < 7 → offset.toNat = 4 * i.val →
       exec (.windowWrite offset .word v) s = .next { s with staging := s.staging.set i.val v }) ∧
     exec (.windowWrite 0x01C .word v) s = exec (.intakeStagingLastWord v) s ∧
     exec (.windowWrite 0x050 .word v) s = exec (.interruptEnableWrite v) s ∧
     exec (.windowWrite 0x074 .word v) s = exec (.snapshotModeWrite v) s ∧
     exec (.windowWrite 0x07C .word v) s = exec (.watermarkModeWrite v) s) ∧
  (∀ (v : Word) (s : State),
     (v.getLsbD 0 = true → s.settings.snapshotMode = .manual → exec (.snapshotModeWrite v) s =
       .next { s with settings := { s.settings with snapshotMode := .auto },
                      snapTimer := some s.settings.snapshotInterval }) ∧
     (v.getLsbD 0 = true → s.settings.snapshotMode = .auto → exec (.snapshotModeWrite v) s = .next s) ∧
     (v.getLsbD 0 = false → exec (.snapshotModeWrite v) s =
       .next { s with settings := { s.settings with snapshotMode := .manual }, snapTimer := none })) ∧
  (∀ (v : Word) (s : State), exec (.watermarkModeWrite v) s =
     .next { s with
       settings := { s.settings with
         parkMode := if v.getLsbD 0 then .peak else .current
         missMode := if v.getLsbD 1 then .peak else .current }
       parkMark := { indicator := s.park.length, copy := s.parkMark.copy }
       missMark := { indicator := s.miss.length, copy := s.missMark.copy } })

/-- What a read of the window returns (Table 11.10): the staging words, the words of the head slots, the status words,
the capacity, the control word, the settings, the snapshot words, the snapshot copies and their wrap marks, and 0 at an
unlisted offset; unused bits read as 0. A read narrower than a word is taken as a read of its whole word. The event of a
read: the head slot rows at the first and the last word of a slot, also by a narrow read; any other read changes nothing
(the model's choice, log 26). A 64-bit access is two word accesses, the lower offset first (R172); that the word at the
lower offset is the low half of a value written is read into the rows by the model (log 32). -/
def Obligations.WindowReads : Prop :=
  (∀ s : State,
     (∀ i : Fin 8, readWindow s (4 * i.val) = s.staging[i.val]) ∧
     readWindow s 0x020 = slotWord encodeResponse s.responses.head? 0 ∧
     readWindow s 0x030 = slotWord encodeNotice s.notices.head? 0 ∧
     (∀ i : Fin 4, 1 ≤ i.val → readWindow s (0x020 + 4 * i.val) = slotWord encodeResponse s.respLatch i.val ∧
       readWindow s (0x030 + 4 * i.val) = slotWord encodeNotice s.noticeLatch i.val) ∧
     (∀ (r : Response) (n : Notice) (i : Fin 4),
       slotWord encodeResponse (some r) i.val = (encodeResponse r).extractLsb' (32 * i.val) 32 ∧
       slotWord encodeNotice (some n) i.val = (encodeNotice n).extractLsb' (32 * i.val) 32 ∧
       slotWord encodeResponse none i.val = 0 ∧ slotWord encodeNotice none i.val = 0)) ∧
  (∀ s : State, let status := readWindow s 0x040
     let flags := readWindow s 0x044
     let control := readWindow s 0x050
     ((status.extractLsb' 0 2).toNat = match s.part with
       | .unformatted => 0
       | .formatting => 1
       | .serving => 2) ∧
     (s.intake.length ≤ 32 → (status.extractLsb' 8 6).toNat = 32 - s.intake.length) ∧
     (s.responses.length ≤ 32 → (status.extractLsb' 16 6).toNat = s.responses.length) ∧
     (s.notices.length ≤ 64 → (status.extractLsb' 24 7).toNat = s.notices.length) ∧
     (∀ i ∈ [2, 3, 4, 5, 6, 7, 14, 15, 22, 23, 31], status.getLsbD i = false) ∧
     flags.getLsbD 0 = s.overrun ∧ flags.getLsbD 1 = s.noticeLost ∧ flags.getLsbD 2 = s.pacing ∧
     (∀ i, 3 ≤ i → flags.getLsbD i = false) ∧
     readWindow s 0x048 = s.capacity.extractLsb' 0 32 ∧ readWindow s 0x04C = s.capacity.extractLsb' 32 32 ∧
     control.getLsbD 0 = s.irqResponse ∧ control.getLsbD 1 = s.irqNotice ∧ (∀ i, 2 ≤ i → control.getLsbD i = false)) ∧
  (∀ s : State, let marks := readWindow s 0x084
     let copies := readWindow s 0x088
     readWindow s 0x060 = BitVec.ofNat 32 s.settings.recallDeadline ∧
     readWindow s 0x064 = BitVec.ofNat 32 s.settings.wipeDeadline ∧
     readWindow s 0x068 = BitVec.ofNat 32 s.settings.rejoinDeadline ∧
     readWindow s 0x06C = BitVec.ofNat 32 s.settings.silenceLimit ∧
     (∀ i, (readWindow s 0x070).getLsbD i = s.settings.caching.getLsbD i) ∧
     readWindow s 0x074 = (if s.settings.snapshotMode = .auto then 1 else 0) ∧
     readWindow s 0x078 = BitVec.ofNat 32 s.settings.snapshotInterval ∧
     (readWindow s 0x07C).getLsbD 0 = decide (s.settings.parkMode = .peak) ∧
     (readWindow s 0x07C).getLsbD 1 = decide (s.settings.missMode = .peak) ∧
     (∀ i, 2 ≤ i → (readWindow s 0x07C).getLsbD i = false) ∧
     readWindow s 0x080 = s.snapSeq.setWidth 32 ∧
     (s.parkMark.indicator ≤ 64 → (marks.extractLsb' 0 7).toNat = s.parkMark.indicator) ∧
     (s.missMark.indicator ≤ 48 → (marks.extractLsb' 8 6).toNat = s.missMark.indicator) ∧
     (s.parkMark.copy ≤ 64 → (copies.extractLsb' 0 7).toNat = s.parkMark.copy) ∧
     (s.missMark.copy ≤ 48 → (copies.extractLsb' 8 6).toNat = s.missMark.copy) ∧
     (∀ i, i = 7 ∨ 14 ≤ i → marks.getLsbD i = false ∧ copies.getLsbD i = false)) ∧
  (∀ (s : State) (l : LinkId) (c : LinkCounter) (p : PartCounter),
     let linkCopy := s.copies[(CounterName.ofLink l c).index.val]
     let partCopy := s.copies[(CounterName.ofPart p).index.val]
     readWindow s (0x100 + 0x20 * l.val + 4 * c.code) = linkCopy.value ∧
     readWindow s (0x1C0 + 4 * (p.code - 8)) = partCopy.value ∧
     (l.val < 4 → (readWindow s 0x1E0).getLsbD (8 * l.val + c.code) = linkCopy.wrapped) ∧
     (4 ≤ l.val → (readWindow s 0x1E4).getLsbD (8 * (l.val - 4) + c.code) = linkCopy.wrapped) ∧
     (readWindow s 0x1E8).getLsbD (p.code - 8) = partCopy.wrapped ∧
     (∀ i, 16 ≤ i → (readWindow s 0x1E4).getLsbD i = false) ∧ (∀ i, 5 ≤ i → (readWindow s 0x1E8).getLsbD i = false)) ∧
  (∀ (s : State) (offset : Nat), (offset % 4 = 0 ∧ 0x1D4 ≤ offset ∧ offset ∉ [0x1E0, 0x1E4, 0x1E8]) ∨
       offset ∈ [0x054, 0x058, 0x05C, 0x08C] ∨ (offset % 4 = 0 ∧ 0x090 ≤ offset ∧ offset < 0x100) →
     readWindow s offset = 0) ∧
  (∀ (s : State) (offset : Nat), readWindow s offset = readWindow s (offset / 4 * 4) ∧
     afterRead offset s = afterRead (offset / 4 * 4) s ∧
     (offset / 4 * 4 ∉ [0x020, 0x02C, 0x030, 0x03C] → afterRead offset s = s) ∧
     readDouble offset s = ((readWindow s offset, readWindow (afterRead offset s) (offset / 4 * 4 + 4)),
       afterRead (offset / 4 * 4 + 4) (afterRead offset s))) ∧
  (∀ s : State, exec (.headSlotFirstWordRead .response) s = .next (afterRead 0x020 s) ∧
     exec (.headSlotLastWordRead .response) s = .next (afterRead 0x02C s) ∧
     exec (.headSlotFirstWordRead .notice) s = .next (afterRead 0x030 s) ∧
     exec (.headSlotLastWordRead .notice) s = .next (afterRead 0x03C s) ∧
     ∀ offset, offset / 4 * 4 ∈ [0x020, 0x02C, 0x030, 0x03C] → (afterRead offset s).readData = readWindow s offset) ∧
  (∀ (offset : BitVec 12) (v : BitVec 64), doubleWriteCommands offset v =
     [.windowWrite offset .word (v.extractLsb' 0 32), .windowWrite (offset + 4) .word (v.extractLsb' 32 32)])

/-- A write of the control word that sets no action but the clears: the enables take bits 0 and 1, bit 8 clears
INTAKE_OVERRUN and bit 9 NOTICE_LOST, then the interrupt condition is evaluated. A row that names an action carries the
whole word written and sets the bit of its action (the model's choice, log 28). A Port Reset, by its own row (log 28) or
by any control word with bit 16 set: the intake and both queues are emptied, both flags cleared, the staging slot set to
0 and both latches emptied; the enables take the values written, and everything else is left as it is. -/
def Obligations.ControlWordWrites : Prop :=
  (∀ (v : Word) (s : State), v.getLsbD 16 = false →
     exec (.interruptEnableWrite v) s = .next (signalInterrupt s { s with
       irqResponse := v.getLsbD 0, irqNotice := v.getLsbD 1
       overrun := s.overrun && !v.getLsbD 8, noticeLost := s.noticeLost && !v.getLsbD 9 }) ∧
     exec (.clearIntakeOverrun v) s = .next (signalInterrupt s { s with
       irqResponse := v.getLsbD 0, irqNotice := v.getLsbD 1
       overrun := false, noticeLost := s.noticeLost && !v.getLsbD 9 }) ∧
     exec (.clearNoticeLost v) s = .next (signalInterrupt s { s with
       irqResponse := v.getLsbD 0, irqNotice := v.getLsbD 1
       overrun := s.overrun && !v.getLsbD 8, noticeLost := false })) ∧
  (∀ (v : Word) (s : State),
     exec (.portReset v) s = .next { s with
       irqResponse := v.getLsbD 0, irqNotice := v.getLsbD 1, intake := [], responses := [], notices := []
       overrun := false, noticeLost := false, staging := Vector.replicate 8 0, respLatch := none, noticeLatch := none } ∧
     (v.getLsbD 16 = true → exec (.interruptEnableWrite v) s = exec (.portReset v) s ∧
       exec (.clearIntakeOverrun v) s = exec (.portReset v) s ∧ exec (.clearNoticeLost v) s = exec (.portReset v) s))

/-- A read of the first word of a head slot latches the head of its queue, or empties the latch, and returns the first
word of what the latch then holds. A read of the last word returns the last word of the latch; the entry it holds leaves
the head of its queue and the latch is emptied. An empty latch reads as 0 and nothing is removed. The 16 bytes of a
response (Table 11.6): tag, kind, status, reason, and the counts or the record image. The 16 bytes of a notice (Table
11.7) for each kind, fields within their widths: the kind code, the lost-before mark, the fields of the kind, and 0 in
every byte it does not use. The numbers that stand for statuses, reasons, command kinds, fault classes, fence causes,
LINK_DOWN causes and counters. -/
def Obligations.HeadSlotReads : Prop :=
  (∀ s : State,
     exec (.headSlotFirstWordRead .response) s = .next { s with
       respLatch := s.responses.head?, readData := slotWord encodeResponse s.responses.head? 0 } ∧
     exec (.headSlotFirstWordRead .notice) s = .next { s with
       noticeLatch := s.notices.head?, readData := slotWord encodeNotice s.notices.head? 0 }) ∧
  (∀ s : State,
     (∀ r : Response, s.respLatch = some r → exec (.headSlotLastWordRead .response) s = .next (signalInterrupt s { s with
       responses := s.responses.tail, respLatch := none, readData := (encodeResponse r).extractLsb' 96 32 })) ∧
     (s.respLatch = none → exec (.headSlotLastWordRead .response) s = .next { s with readData := 0 }) ∧
     (∀ n : Notice, s.noticeLatch = some n → exec (.headSlotLastWordRead .notice) s = .next (signalInterrupt s { s with
       notices := s.notices.tail, noticeLatch := none, readData := (encodeNotice n).extractLsb' 96 32 })) ∧
     (s.noticeLatch = none → exec (.headSlotLastWordRead .notice) s = .next { s with readData := 0 })) ∧
  (∀ r : Response,
     (encodeResponse r).extractLsb' 0 16 = r.tag ∧ (encodeResponse r).extractLsb' 16 8 = r.kind ∧
     ((encodeResponse r).extractLsb' 24 3).toNat = r.status.code ∧
     ((encodeResponse r).extractLsb' 27 5).toNat = (r.reason.map Reason.code).getD 0 ∧
     (∀ a b c : Nat, r.body = .counts a b c →
       (encodeResponse r).extractLsb' 32 32 = BitVec.ofNat 32 a ∧
       (encodeResponse r).extractLsb' 64 32 = BitVec.ofNat 32 b ∧
       (encodeResponse r).extractLsb' 96 32 = BitVec.ofNat 32 c) ∧
     (∀ image : BitVec 64, r.body = .image image →
       (encodeResponse r).extractLsb' 32 64 = image ∧ (encodeResponse r).extractLsb' 96 32 = 0#32)) ∧
  (∀ n : Notice, let x := encodeNotice n
     let link := fun (l : LinkId) => (x.extractLsb' 16 8).toNat = l.val
     x.getLsbD 8 = n.lostBefore ∧ x.extractLsb' 9 7 = 0 ∧
     (∀ l tag d g kind cls poison, n.body = .denied l tag d g kind cls poison → d < 65536 → g < 4294967296 →
       x.extractLsb' 0 8 = 1 ∧ link l ∧ x.extractLsb' 24 8 = tag.setWidth 8 ∧ (x.extractLsb' 32 16).toNat = d ∧
       (x.extractLsb' 48 32).toNat = g ∧ x.extractLsb' 80 8 = kind.setWidth 8 ∧ (x.extractLsb' 88 8).toNat = cls.code ∧
       x.extractLsb' 96 8 = (if poison then 2 else 1) ∧ x.extractLsb' 104 24 = 0) ∧
     (∀ d l tag cls, n.body = .tallyReached d l tag cls → d < 65536 →
       x.extractLsb' 0 8 = 2 ∧ link l ∧ x.extractLsb' 24 8 = tag.setWidth 8 ∧ (x.extractLsb' 32 16).toNat = d ∧
       x.extractLsb' 48 40 = 0 ∧ (x.extractLsb' 88 8).toNat = cls.code ∧ x.extractLsb' 96 32 = 0) ∧
     (∀ g first change, n.body = .tagError g first change → g < 4294967296 →
       x.extractLsb' 0 8 = 3 ∧ x.extractLsb' 32 16 = 0 ∧ (x.extractLsb' 48 32).toNat = g ∧ x.extractLsb' 80 16 = 0 ∧
       x.extractLsb' 104 8 = 0 ∧ x.getLsbD 112 = change ∧ x.extractLsb' 113 3 = 0 ∧ x.extractLsb' 120 8 = 0 ∧
       (first = .nobody → x.extractLsb' 16 16 = 0 ∧ x.extractLsb' 96 8 = 0 ∧ x.extractLsb' 116 4 = 0) ∧
       (∀ l tag, first = .check l tag →
         link l ∧ x.extractLsb' 24 8 = tag.setWidth 8 ∧ x.extractLsb' 96 8 = 1 ∧ x.extractLsb' 116 4 = 0) ∧
       (∀ c, first = .context c →
         x.extractLsb' 16 16 = 0 ∧ x.extractLsb' 96 8 = 2 ∧ (x.extractLsb' 116 4).toNat = c.val)) ∧
     (∀ tag kind c base order records cause l, n.body = .fenced tag kind c base order records cause l →
       base < 4294967296 → order < 256 → records < 65536 →
       x.extractLsb' 0 8 = 4 ∧ (x.extractLsb' 16 8).toNat = (l.map Fin.val).getD 7 ∧
       (x.extractLsb' 24 8).toNat = cause.code ∧ x.extractLsb' 32 16 = tag ∧ (x.extractLsb' 48 32).toNat = base ∧
       (x.extractLsb' 80 8).toNat = order ∧ x.extractLsb' 88 8 = kind ∧ (x.extractLsb' 96 16).toNat = records ∧
       (x.extractLsb' 112 8).toNat = c.val ∧ x.extractLsb' 120 8 = 0) ∧
     (∀ l cause, n.body = .linkDown l cause →
       x.extractLsb' 0 8 = 5 ∧ link l ∧ (x.extractLsb' 24 8).toNat = cause.code ∧ x.extractLsb' 32 96 = 0) ∧
     (∀ l, n.body = .linkUp l → x.extractLsb' 0 8 = 6 ∧ link l ∧ x.extractLsb' 24 104 = 0) ∧
     (∀ l, n.body = .linkFailed l → x.extractLsb' 0 8 = 7 ∧ link l ∧ x.extractLsb' 24 104 = 0) ∧
     (∀ l c, n.body = .counterWrap (.ofLink l c) →
       x.extractLsb' 0 8 = 8 ∧ link l ∧ (x.extractLsb' 24 8).toNat = c.code ∧ x.extractLsb' 32 96 = 0) ∧
     (∀ p, n.body = .counterWrap (.ofPart p) →
       x.extractLsb' 0 8 = 8 ∧ x.extractLsb' 16 8 = 7 ∧ (x.extractLsb' 24 8).toNat = p.code ∧ x.extractLsb' 32 96 = 0)) ∧
  [Status.ok, .partly, .aborted, .late, .noTarget, .refused].map Status.code = [0, 1, 2, 3, 4, 5] ∧
  [Reason.badField, .range, .notReady, .badState, .domainState, .quota, .groupState, .inGroup, .sourceState, .stale,
    .noHome, .linkFailed, .dupTag, .unwipedTransfer, .notAbortable].map Reason.code =
    [1, 2, 3, 4, 5, 6, 7, 8, 9, 10, 11, 12, 13, 14, 15] ∧
  (∀ (base count : Nat) (expected : Option (BitVec 8)) (d d' group : Nat) (rights : Rights) (wipe : Bool),
     [RangeOp.assign d rights, .reclaim d wipe, .transfer d d' rights wipe, .share d group, .unshare group, .wipe,
       .releaseFence].map (fun op => (Job.range base count expected op).kindCode) = [1, 2, 3, 4, 5, 6, 7]) ∧
  (∀ (g size d : Nat) (rootBase rootCount : Option Nat),
     [Job.query g, .format size rootBase rootCount, .closeDomain d].map Job.kindCode = [0x08, 0x09, 0x0A]) ∧
  [FaultClass.notOwner, .noRight, .unassigned, .fencedGranule, .domainClosed, .outOfRange, .malformed, .notReady].map
    FaultClass.code = [0, 1, 2, 3, 4, 5, 6, 7] ∧
  [FenceCause.linkFailed, .linkOff, .wipeFail, .wipeExpiry, .wipeLinkDown].map FenceCause.code = [0, 1, 2, 3, 4] ∧
  [DownCause.crc, .protocol, .silence, .recallExpiry, .command].map DownCause.code = [0, 1, 2, 3, 4] ∧
  [LinkCounter.grants, .denials, .poisons, .retries, .parks, .recallsSent, .rejoins, .strayAcks].map LinkCounter.code =
    [0, 1, 2, 3, 4, 5, 6, 7] ∧
  [PartCounter.cacheHits, .cacheMisses, .writebacks, .eccCorrected, .tagErrors].map PartCounter.code =
    [8, 9, 10, 11, 12]

/-! ## Issue: the message, the choice of it, refusals, contexts -/

/-- The fields of a command message (Table 11.4), the fields each kind uses (Table 11.5) and its coding tests (R170): a
message whose used fields lie in their coding spells its command; one that fails a test, or whose kind byte is no code,
spells none. Bits that a kind does not use are passed over. That bits 3 to 7 of byte 21 are passed over is deduced (log
12), and so is that the base and the link of a SET_HOME of count 0 are not tested for their coding either (log 11).
FORMAT's fields are not tested: that a root base or a root count with a bit set that must be 0 is read as its whole
number is the model's choice (log 37). -/
def Obligations.CommandMessageCoding : Prop :=
  ∀ m : Message,
    let kind := m.extractLsb' 16 8
    let flag := fun i => m.getLsbD (24 + i)
    let base := (m.extractLsb' 32 32).toNat
    let count := (m.extractLsb' 64 32).toNat
    let quota := (m.extractLsb' 96 32).toNat
    let domain := (m.extractLsb' 128 16).toNat
    let second := (m.extractLsb' 144 16).toNat
    let byte20 := (m.extractLsb' 160 8).toNat
    let byte21 := m.extractLsb' 168 3
    let byte22 := m.extractLsb' 176 8
    let memberCount := (m.extractLsb' 184 8).toNat
    let members := (List.range memberCount).map (fun i => (m.extractLsb' (32 + 16 * i) 16).toNat)
    let threshold := if flag 4 then some (m.extractLsb' 192 16).toNat else none
    let range := fun op => Command.job (.range base count (if flag 1 then some byte22 else none) op)
    let inRange := base < 67108864 ∧ 1 ≤ count ∧ count ≤ 65536 ∧ (flag 1 = true → count = 1)
    let spells := fun (code : BitVec 8) (test : Prop) (c : Command) => kind = code →
      (test → decodeCommand m = some c) ∧ (¬test → decodeCommand m = none)
    msgTag m = m.extractLsb' 0 16 ∧ msgKind m = kind ∧
    spells 0x01 (inRange ∧ domain < 1024 ∧ byte21 ≠ 0) (range (.assign domain byte21)) ∧
    spells 0x02 (inRange ∧ domain < 1024) (range (.reclaim domain (flag 0))) ∧
    spells 0x03 (inRange ∧ domain < 1024 ∧ second < 1024 ∧ byte21 ≠ 0)
      (range (.transfer domain second byte21 (flag 0))) ∧
    spells 0x04 (inRange ∧ domain < 1024) (range (.share domain byte20)) ∧
    spells 0x05 inRange (range (.unshare byte20)) ∧ spells 0x06 inRange (range .wipe) ∧
    spells 0x07 inRange (range .releaseFence) ∧
    spells 0x08 (base < 67108864) (.job (.query base)) ∧
    spells 0x09 True (.job (.format quota (if flag 5 then some base else none) (if flag 6 then some count else none))) ∧
    spells 0x0A (domain < 1024) (.job (.closeDomain domain)) ∧
    spells 0x10 (domain < 1024 ∧ quota ≤ 67108864 ∧ byte22.toNat ≤ 3)
      (.openDomain domain quota (Fin.ofNat 4 byte22.toNat) threshold) ∧
    spells 0x11 (domain < 1024 ∧ (flag 2 = true → quota ≤ 67108864) ∧ (flag 3 = true → byte22.toNat ≤ 3))
      (.setDomain domain (if flag 2 then some quota else none)
        (if flag 3 then some (Fin.ofNat 4 byte22.toNat) else none) threshold) ∧
    spells 0x12 (2 ≤ memberCount ∧ memberCount ≤ 8 ∧ (∀ d ∈ members, d < 1024) ∧ members.Nodup)
      (.defineGroup byte20 members) ∧
    spells 0x13 True (.dropGroup byte20) ∧
    spells 0x14 (byte20 ≤ 3 ∧ byte22.toNat ≤ 3) (.setPolicy (Fin.ofNat 4 byte20) (Fin.ofNat 8 byte21.toNat)
      (if byte22 = 0 then .quiet else if byte22 = 1 then .notify else if byte22 = 2 then .poison else .poisonNotify)) ∧
    spells 0x15 (byte20 ≤ 15 ∧ count ≤ 67108864 ∧ (count = 0 ∨ base < 67108864 ∧ byte21.toNat ≤ 5))
      (.setHome (Fin.ofNat 16 byte20) base count (Fin.ofNat 6 byte21.toNat)) ∧
    spells 0x16 True .snapshot ∧ spells 0x17 True (.abort (m.extractLsb' 32 16)) ∧
    spells 0x18 (byte20 ≤ 5 ∧ byte21.toNat ≤ 2) (.linkControl (Fin.ofNat 6 byte20)
      (if byte21 = 0 then .enable else if byte21 = 1 then .disable else .rejoin)) ∧
    (¬(1 ≤ kind.toNat ∧ kind.toNat ≤ 0x0A) → ¬(0x10 ≤ kind.toNat ∧ kind.toNat ≤ 0x18) → decodeCommand m = none)

/-- The Scheduler issues the head where its issue conditions hold; while the head waits, the oldest urgent message where
the slots it needs are free; otherwise nothing. How a message stands: one whose fields are out of their coding, one that
a refusal test turns away (R64), an immediate command and an ABORT with no target in the intake each need one free
response slot of the 32; an ABORT whose target is queued needs two, a FORMAT or CLOSE_DOMAIN as its target too (log 25).
A context command that passes its tests takes a context, with no slot needed, where the waiting conditions of R66 hold:
a context is FREE; no active range command and no window of a sweep overlaps its range; no active command names the
domain that CLOSE_DOMAIN closes. Else it waits. The message selected for an issue event is the one that would issue
next, where it takes a context, or where the response arbiter serves the Scheduler (R71). -/
def Obligations.HeadIssuesFirstThenOldestUrgent : Prop :=
  (∀ s : State,
    (∀ m : Message, s.intake[0]? = some m → (judge s m).canIssue s.freeSlots = true → s.nextIssue = some 0) ∧
    (∀ (m : Message) (j : Nat) (u : Message), s.intake[0]? = some m → (judge s m).canIssue s.freeSlots = false →
      s.intake[j]? = some u → isUrgent u = true → (∀ k, k < j → ∀ x, s.intake[k]? = some x → isUrgent x = false) →
      s.nextIssue = if (judge s u).canIssue s.freeSlots then some j else none) ∧
    (∀ m : Message, s.intake[0]? = some m → (judge s m).canIssue s.freeSlots = false →
      (∀ x ∈ s.intake, isUrgent x = false) → s.nextIssue = none) ∧
    (s.intake = [] → s.nextIssue = none)) ∧
  (∀ (s : State) (m : Message),
    (isUrgent m = true ↔ msgKind m = 0x17 ∨ msgKind m = 0x18) ∧
    (decodeCommand m = none → judge s m = .answer 1) ∧
    (∀ job reason, decodeCommand m = some (.job job) → refusal s (msgTag m) job = some reason →
      judge s m = .answer 1) ∧
    (∀ job, decodeCommand m = some (.job job) → refusal s (msgTag m) job = none →
      let free := ∃ c, s.work c = none
      let clear := match job with
        | .range base count _ _ =>
            ∀ c w, s.work c = some w →
              (∀ b n e op, w.job = .range b n e op → base + count ≤ b ∨ b + n ≤ base) ∧
              (∀ d b, w.job = .closeDomain d → w.window = some b → base + count ≤ b ∨ b + 512 ≤ base)
        | .closeDomain d => ∀ c w b n e, s.work c = some w →
            (∀ r, w.job ≠ .range b n e (.assign d r)) ∧ (∀ wipe, w.job ≠ .range b n e (.reclaim d wipe)) ∧
            (∀ g, w.job ≠ .range b n e (.share d g)) ∧
            ∀ x r wipe, w.job ≠ .range b n e (.transfer d x r wipe) ∧ w.job ≠ .range b n e (.transfer x d r wipe)
        | .query _ | .format _ _ _ => True
      (free ∧ clear → judge s m = .take) ∧ (¬(free ∧ clear) → judge s m = .wait)) ∧
    (∀ target, decodeCommand m = some (.abort target) →
      ((∃ x ∈ s.intake, isUrgent x = false ∧ msgTag x = target) → judge s m = .answer 2) ∧
      ((∀ x ∈ s.intake, isUrgent x = true ∨ msgTag x ≠ target) → judge s m = .answer 1)) ∧
    (∀ command, decodeCommand m = some command → (∀ job, command ≠ .job job) → (∀ tag, command ≠ .abort tag) →
      judge s m = .answer 1) ∧
    (∀ free n, Judgement.take.canIssue free = true ∧ Judgement.wait.canIssue free = false ∧
      ((Judgement.answer n).canIssue free = true ↔ n ≤ free)) ∧
    s.freeSlots = 32 - s.responses.length) ∧
  ∀ (s : State) (i : Nat) (m : Message), s.selected = some (i, m) ↔
    s.nextIssue = some i ∧ s.intake[i]? = some m ∧ (judge s m = .take ∨ s.served = some 16)

/-- A context command (by its own row, Job.command) that fails a refusal test is refused at issue with the first reason;
its response has counts 0 and nothing else changes. A message out of its coding is refused BAD_FIELD by its kind's row,
and changes nothing else: a LINK_CONTROL by the row of its action, where only its link is out of coding. That a
LINK_CONTROL whose action is none of the three is refused by any of its three rows, and a message whose kind byte is no
kind by any row of an issue, is the model's choice (log 3). -/
def Obligations.RefusedAtIssue : Prop :=
  (∀ (s : State) (i : Nat) (m : Message) (job : Job) (reason : Reason),
     s.selected = some (i, m) → decodeCommand m = some (.job job) → refusal s (msgTag m) job = some reason →
     exec job.command s = .next (signalInterrupt s { s with
       intake := s.intake.eraseIdx i, respPtr := 16
       responses := s.responses ++ [{ tag := msgTag m, kind := msgKind m, status := .refused, reason := some reason,
                                      body := .counts 0 0 0 }] })) ∧
  (∀ (s : State) (i : Nat) (m : Message) (c : Instr), s.selected = some (i, m) → decodeCommand m = none →
     let kind := (msgKind m).toNat
     let action := (m.extractLsb' 168 3).toNat
     let jobs := [(Instr.assign, 0x01), (.reclaim, 0x02), (.transfer, 0x03), (.share, 0x04), (.unshare, 0x05),
       (.wipe, 0x06), (.releaseFence, 0x07), (.query, 0x08), (.format, 0x09), (.closeDomain, 0x0A)]
     let immediates := [(Instr.openDomain, 0x10), (.setDomain, 0x11), (.defineGroup, 0x12), (.dropGroup, 0x13),
       (.setPolicy, 0x14), (.setHome, 0x15), (.snapshot, 0x16), (.abort, 0x17)]
     let links := [(Instr.linkControlEnable, 0), (.linkControlDisable, 1), (.linkControlRejoin, 2)]
     ((c, kind) ∈ jobs ++ immediates ∨ (kind = 0x18 ∧ ((c, action) ∈ links ∨ (2 < action ∧ ∃ a, (c, a) ∈ links))) ∨
       (¬(1 ≤ kind ∧ kind ≤ 0x0A) ∧ ¬(0x10 ≤ kind ∧ kind ≤ 0x18) ∧ ∃ x, (c, x) ∈ jobs ++ immediates ++ links)) →
     exec c s = .next (signalInterrupt s { s with
       intake := s.intake.eraseIdx i, respPtr := 16
       responses := s.responses ++ [{ tag := msgTag m, kind := msgKind m, status := .refused, reason := some .badField,
                                      body := .counts 0 0 0 }] }))

/-- ASSIGN, RECLAIM, TRANSFER, SHARE, UNSHARE, WIPE, RELEASE_FENCE, QUERY and FORMAT: one that passes its tests takes
the lowest-numbered FREE context at issue, in VALIDATE, READ or FILL, with its cursor at the base and its counts at 0;
the other contexts, the response queue and the records are left as they are. The lowest-numbered FREE context is FREE
and no context below it is; there is none where no context is FREE (R67). -/
def Obligations.ContextCommandTakesContext : Prop :=
  (∀ (s : State) (i : Nat) (m : Message) (job : Job) (c : CtxId),
    s.selected = some (i, m) → decodeCommand m = some (.job job) → refusal s (msgTag m) job = none →
    freeCtx s = some c → (∀ d, job ≠ .closeDomain d) →
    ∃ t, exec job.command s = .next t ∧
      t = { s with intake := s.intake.eraseIdx i, ctxs := t.ctxs, domains := t.domains, groups := t.groups,
                   part := t.part, tableSize := t.tableSize, cache := t.cache, fill := t.fill } ∧
      (∃ w, t.work c = some w ∧ w.tag = msgTag m ∧ w.job = job ∧ w.run = none ∧ w.abortMark = false ∧
        w.changed = 0 ∧ w.unchanged = 0 ∧ w.fenced = 0 ∧ w.result = none ∧ w.waiting = false ∧
        (∀ base count expected op, job = .range base count expected op →
          w.phase = .validate ∧ w.cursor = base ∧ w.request = .read ∧ w.next = base) ∧
        (∀ g, job = .query g → w.phase = .read ∧ w.request = .read ∧ w.next = g) ∧
        (∀ size b n, job = .format size b n → w.phase = .fill ∧ w.request = .noRequest)) ∧
      (∀ c', c' ≠ c → t.work c' = s.work c') ∧ (∀ c', t.runSeq c' = s.runSeq c') ∧
      ((∀ size b n, job ≠ .format size b n) →
        t.part = s.part ∧ t.tableSize = s.tableSize ∧ t.cache = s.cache ∧ t.fill = s.fill)) ∧
  ∀ s : State,
    (∀ c, freeCtx s = some c ↔ s.work c = none ∧ ∀ c' : CtxId, c'.val < c.val → s.work c' ≠ none) ∧
    (freeCtx s = none ↔ ∀ c, s.work c ≠ none)

/-- The reservations at issue (Table 4.4): incoming of the receiving domain for ASSIGN and TRANSFER, the reference count
of the group for SHARE, nothing for the others; FORMAT makes the part FORMATTING with T, an empty Record Cache and
domain 0's held count, and issues the write of every record, with the root range that the message gives. -/
def Obligations.ReservationsAtIssue : Prop :=
  ∀ (s t : State) (i : Nat) (m : Message) (job : Job),
    s.selected = some (i, m) → decodeCommand m = some (.job job) → refusal s (msgTag m) job = none →
    exec job.command s = .next t →
    (∀ base count expected d rights, job = .range base count expected (.assign d rights) →
      t.domain d = { s.domain d with incoming := (s.domain d).incoming + count } ∧
      (∀ d', d' ≠ d → t.domain d' = s.domain d') ∧ t.groups = s.groups) ∧
    (∀ base count expected giver taker rights wipe,
      job = .range base count expected (.transfer giver taker rights wipe) →
      t.domain taker = { s.domain taker with incoming := (s.domain taker).incoming + count } ∧
      (∀ d', d' ≠ taker → t.domain d' = s.domain d') ∧ t.groups = s.groups) ∧
    (∀ base count expected owner group, job = .range base count expected (.share owner group) →
      t.group group = { s.group group with refs := (s.group group).refs + count } ∧
      (∀ g', g' ≠ group → t.group g' = s.group g') ∧ t.domains = s.domains) ∧
    (∀ base count expected op, job = .range base count expected op →
      (∃ d wipe, op = .reclaim d wipe) ∨ (∃ g, op = .unshare g) ∨ op = .wipe ∨ op = .releaseFence →
      t.domains = s.domains ∧ t.groups = s.groups) ∧
    (∀ g, job = .query g → t.domains = s.domains ∧ t.groups = s.groups) ∧
    (∀ size b n, job = .format size b n →
      t.part = .formatting ∧ t.tableSize = size ∧ t.cache = [] ∧ t.groups = s.groups ∧
      t.domain 0 = { s.domain 0 with held := n.getD 0 } ∧ (∀ d', d' ≠ 0 → t.domain d' = s.domain d') ∧
      ∃ f, t.fill = some f ∧ f.outstanding = [(0, size)] ∧
        (∀ b' n', b = some b' → n = some n' → f.root = some (b', n')) ∧ (b = none → n = none → f.root = none))

/-- CLOSE_DOMAIN that passes its tests takes the lowest-numbered FREE context (ContextCommandTakesContext) and makes the
domain DRAINING, in SCAN with its cursor at 0. In the same event the sweep takes its first window, granules 0 to 511,
where no other active context holds a range or window over that block, and enters its read pass; where one does, it
waits with no window and no request (R127). Where the domain holds nothing, the sweep ends in the issue event: the
domain is CLOSED and the context in POST with the three figures at 0. -/
def Obligations.CloseDomainStartsSweep : Prop :=
  ∀ (s : State) (i : Nat) (m : Message) (d : Nat) (c : CtxId),
    s.selected = some (i, m) → decodeCommand m = some (.job (.closeDomain d)) →
    refusal s (msgTag m) (.closeDomain d) = none → freeCtx s = some c →
    ∃ t w, exec .closeDomain s = .next t ∧ t.work c = some w ∧ w.tag = msgTag m ∧ w.job = .closeDomain d ∧
      t = { s with intake := s.intake.eraseIdx i, ctxs := t.ctxs, domains := t.domains } ∧
      (∀ c', c' ≠ c → t.work c' = s.work c') ∧ (∀ d', d' ≠ d → t.domain d' = s.domain d') ∧
      (0 < (s.domain d).held →
        w.phase = .scan ∧ w.cursor = 0 ∧ w.changed = 0 ∧ w.lost = 0 ∧ w.fenced = 0 ∧
        t.domain d = { s.domain d with state := .draining } ∧
        (0 < s.tableSize → (∀ c' w', s.work c' = some w' → w'.holdsOver 0 512 = false) →
          w.window = some 0 ∧ w.request = .read ∧ w.next = 0) ∧
        ((∃ c' w', s.work c' = some w' ∧ w'.holdsOver 0 512 = true) → w.window = none ∧ w.request = .noRequest)) ∧
      ((s.domain d).held = 0 →
        w.phase = .post ∧
        w.result = some { tag := msgTag m, kind := 0x0A, status := .ok, reason := none, body := .counts 0 0 0 } ∧
        t.domain d = { s.domain d with state := .closed, quota := 0, incoming := 0, policySet := 0, tally := none })

/-- The refusal tests of Table 4.3 and R58, for each kind: when all of them pass, and, in the order they are taken, the
reason of the first that fails. -/
def Obligations.RefusalTestsPass : Prop :=
  (∀ (s : State) (tag : BitVec 16),
     let free := s.part = .serving ∧ ∀ c w, s.work c = some w → w.tag ≠ tag
     let active := fun d => (s.domain d).state = .active
     (∀ base count expected d rights, refusal s tag (.range base count expected (.assign d rights)) = none ↔
       free ∧ base + count ≤ s.tableSize ∧ active d ∧
         (s.domain d).held + (s.domain d).incoming + count ≤ (s.domain d).quota) ∧
     (∀ base count expected d wipe, refusal s tag (.range base count expected (.reclaim d wipe)) = none ↔
       free ∧ base + count ≤ s.tableSize ∧ active d) ∧
     (∀ base count expected giver taker rights wipe,
       refusal s tag (.range base count expected (.transfer giver taker rights wipe)) = none ↔
       free ∧ base + count ≤ s.tableSize ∧ active giver ∧ active taker ∧ giver ≠ taker ∧
         (wipe = true ∨ giver = 0 ∨ taker = 0) ∧
         (s.domain taker).held + (s.domain taker).incoming + count ≤ (s.domain taker).quota) ∧
     (∀ base count expected owner group, refusal s tag (.range base count expected (.share owner group)) = none ↔
       free ∧ base + count ≤ s.tableSize ∧ active owner ∧ (s.group group).defined = true ∧
         owner ∈ (s.group group).members) ∧
     (∀ base count expected group, refusal s tag (.range base count expected (.unshare group)) = none ↔
       free ∧ base + count ≤ s.tableSize ∧ (s.group group).defined = true) ∧
     (∀ base count expected op, op = .wipe ∨ op = .releaseFence →
       (refusal s tag (.range base count expected op) = none ↔ free ∧ base + count ≤ s.tableSize)) ∧
     (∀ g, refusal s tag (.query g) = none ↔ free ∧ g < s.tableSize) ∧
     (∀ d, refusal s tag (.closeDomain d) = none ↔ free ∧ d ≠ 0 ∧ active d ∧ (s.domain d).groupCount = 0) ∧
     (∀ size b n, refusal s tag (.format size b n) = none ↔
       s.part = .unformatted ∧ size % 512 = 0 ∧ 512 ≤ size ∧ size ≤ 67108864 ∧ size * 8 ≤ s.capacity.toNat ∧
         ((b = none ∧ n = none) ∨ ∃ b' n', b = some b' ∧ n = some n' ∧ 1 ≤ n' ∧ b' + n' ≤ size))) ∧
  (∀ (s : State) (tag : BitVec 16),
     let common := [(s.part ≠ .serving, Reason.notReady), (∃ c w, s.work c = some w ∧ w.tag = tag, .dupTag)]
     let active := fun d => (s.domain d).state = .active
     let full := fun d count => (s.domain d).quota < (s.domain d).held + (s.domain d).incoming + count
     (∀ base count expected d rights, FirstFails (refusal s tag (.range base count expected (.assign d rights)))
       (common ++ [(s.tableSize < base + count, .range), (¬active d, .domainState), (full d count, .quota)])) ∧
     (∀ base count expected d wipe, FirstFails (refusal s tag (.range base count expected (.reclaim d wipe)))
       (common ++ [(s.tableSize < base + count, .range), (¬active d, .domainState)])) ∧
     (∀ base count expected giver taker rights wipe,
       FirstFails (refusal s tag (.range base count expected (.transfer giver taker rights wipe)))
         (common ++ [(s.tableSize < base + count, .range), (¬active giver ∨ ¬active taker, .domainState),
           (giver = taker, .badField), (wipe = false ∧ giver ≠ 0 ∧ taker ≠ 0, .unwipedTransfer),
           (full taker count, .quota)])) ∧
     (∀ base count expected owner group, FirstFails (refusal s tag (.range base count expected (.share owner group)))
       (common ++ [(s.tableSize < base + count, .range), (¬active owner, .domainState),
         ((s.group group).defined = false ∨ owner ∉ (s.group group).members, .groupState)])) ∧
     (∀ base count expected group, FirstFails (refusal s tag (.range base count expected (.unshare group)))
       (common ++ [(s.tableSize < base + count, .range), ((s.group group).defined = false, .groupState)])) ∧
     (∀ base count expected op, op = .wipe ∨ op = .releaseFence →
       FirstFails (refusal s tag (.range base count expected op)) (common ++ [(s.tableSize < base + count, .range)])) ∧
     (∀ g, FirstFails (refusal s tag (.query g)) (common ++ [(s.tableSize ≤ g, .range)])) ∧
     (∀ d, FirstFails (refusal s tag (.closeDomain d))
       (common ++ [(d = 0 ∨ ¬active d, .domainState), (0 < (s.domain d).groupCount, .inGroup)])) ∧
     (∀ size b n, FirstFails (refusal s tag (.format size b n))
       [(s.part ≠ .unformatted, .badState), (¬(size % 512 = 0 ∧ 512 ≤ size ∧ size ≤ 67108864), .badField),
         (b.isSome ≠ n.isSome, .badField), (n = some 0, .badField), (s.capacity.toNat < size * 8, .range),
         (∃ b' n', b = some b' ∧ n = some n' ∧ size < b' + n', .range)]))

/-- POST_RESPONSE, where the arbiter serves a context in POST: its response is placed at the tail, the pointer moves to
it, the context becomes FREE, and FORMAT's posting makes the part SERVING; the waiting sweeps are offered their blocks
(SweepTakesWindow), and while no sweep waits for a window, nothing else changes. The response arbiter (R71): while a
slot of the 32 is free it serves the first ready producer after the one it served last, in the cyclic order of contexts
0 to 15 and the Scheduler (16); a context is ready in POST, and the Scheduler where the message it would issue next
needs a slot; it serves none where no slot is free or none is ready. -/
def Obligations.PostingFreesTheContext : Prop :=
  (∀ (s : State) (c : CtxId) (w : Work) (r : Response),
    s.served = some c.val → s.work c = some w → w.result = some r →
    ∃ t, exec .postResponse s = .next t ∧ t.responses = s.responses ++ [r] ∧ t.respPtr.val = c.val ∧
      t.work c = none ∧ (∀ c', t.runSeq c' = s.runSeq c') ∧
      t.part = (match w.job with
        | .format _ _ _ => .serving
        | .range _ _ _ _ | .query _ | .closeDomain _ => s.part) ∧
      t = { s with respPtr := t.respPtr, responses := t.responses, ctxs := t.ctxs, domains := t.domains,
                   part := t.part, msiSent := t.msiSent } ∧
      ((∀ c' w' d, s.work c' = some w' → w'.job = .closeDomain d → w'.phase = .scan → w'.window.isSome = true) →
        (∀ c', c' ≠ c → t.work c' = s.work c') ∧ t.domains = s.domains) ∧
      let freed := setWork c none { s with respPtr := t.respPtr, responses := t.responses, part := t.part }
      t = signalInterrupt s (offerWindows freed)) ∧
  ∀ (s : State) (i : Nat), s.served = some i ↔ s.responses.length < 32 ∧
    FirstReady 17 s.respPtr.val (fun j =>
      (∃ (c : CtxId) (w : Work), c.val = j ∧ s.work c = some w ∧ w.phase = .post) ∨
      (j = 16 ∧ ∃ k m n, s.nextIssue = some k ∧ s.intake[k]? = some m ∧ judge s m = .answer n)) i

/-! ## Immediate commands -/

/-- OPEN_DOMAIN: a domain that is not CLOSED is refused DOMAIN_STATE; otherwise its record is written ACTIVE with the
quota, policy set and tally given, and the response is OK. -/
def Obligations.OpenDomain : Prop :=
  ∀ (s : State) (i : Nat) (m : Message) (d quota : Nat) (policySet : Fin 4) (threshold : Option Nat),
    s.selected = some (i, m) → decodeCommand m = some (.openDomain d quota policySet threshold) →
    ((s.domain d).state ≠ .closed →
      exec .openDomain s = .next (signalInterrupt s (answer m .refused (some .domainState) (s.issued i)))) ∧
    ((s.domain d).state = .closed → ∃ t, exec .openDomain s = .next t ∧
      t = signalInterrupt s { answer m .ok none (s.issued i) with domains := t.domains } ∧
      (∀ d', d' ≠ d → t.domain d' = s.domain d') ∧
      t.domain d = { s.domain d with
        state := .active, quota := quota, policySet := policySet
        tally := match threshold with
          | none | some 0 => none
          | some (n + 1) => some (65536 - (n + 1)) })

/-- SET_DOMAIN: the three tests in their order, then each field present replaces the value the domain had, and the
response is OK. -/
def Obligations.SetDomain : Prop :=
  ∀ (s : State) (i : Nat) (m : Message) (d : Nat) (quota : Option Nat) (policySet : Option (Fin 4))
    (threshold : Option Nat),
    s.selected = some (i, m) → decodeCommand m = some (.setDomain d quota policySet threshold) →
    let refused := fun reason => exec .setDomain s = .next (signalInterrupt s (answer m .refused (some reason) (s.issued i)))
    let active := (s.domain d).state = .active
    let rootQuota := quota.isSome = true ∧ d = 0
    let fits := ∀ q, quota = some q → (s.domain d).held + (s.domain d).incoming ≤ q
    (¬active → refused .domainState) ∧ (active → rootQuota → refused .badField) ∧
    (active → ¬rootQuota → ¬fits → refused .quota) ∧
    (active → ¬rootQuota → fits → ∃ t, exec .setDomain s = .next t ∧
      t = signalInterrupt s { answer m .ok none (s.issued i) with domains := t.domains } ∧
      (∀ d', d' ≠ d → t.domain d' = s.domain d') ∧
      t.domain d = { s.domain d with
        quota := quota.getD (s.domain d).quota, policySet := policySet.getD (s.domain d).policySet
        tally := match threshold with
          | none => (s.domain d).tally
          | some 0 => none
          | some (n + 1) => some (65536 - (n + 1)) })

/-- DEFINE_GROUP: refused GROUP_STATE unless the group is FREE, then DOMAIN_STATE unless every member is ACTIVE;
otherwise the group is DEFINED with its list and the group count of each member rises by 1. DROP_GROUP: refused
GROUP_STATE unless the group is DEFINED with reference count 0; otherwise the group is FREE with an empty list and the
group count of each member falls by 1. A DEFINED group lists distinct domains (R15). -/
def Obligations.ShareGroups : Prop :=
  (∀ (s : State) (i : Nat) (m : Message) (g : Nat) (members : List Nat),
     s.selected = some (i, m) → decodeCommand m = some (.defineGroup g members) →
     let refused := fun reason =>
       exec .defineGroup s = .next (signalInterrupt s (answer m .refused (some reason) (s.issued i)))
     let active := ∀ d ∈ members, (s.domain d).state = .active
     ((s.group g).defined = true → refused .groupState) ∧
     ((s.group g).defined = false → ¬active → refused .domainState) ∧
     ((s.group g).defined = false → active → ∃ t, exec .defineGroup s = .next t ∧
       t = signalInterrupt s { answer m .ok none (s.issued i) with domains := t.domains, groups := t.groups } ∧
       t.group g = { s.group g with defined := true, members := members } ∧
       (∀ g', g' ≠ g → t.group g' = s.group g') ∧
       (∀ d, t.domain d = if d ∈ members then { s.domain d with groupCount := (s.domain d).groupCount + 1 }
         else s.domain d))) ∧
  (∀ (s : State) (i : Nat) (m : Message) (g : Nat),
     s.selected = some (i, m) → decodeCommand m = some (.dropGroup g) →
     ((s.group g).defined = false ∨ 0 < (s.group g).refs →
       exec .dropGroup s = .next (signalInterrupt s (answer m .refused (some .groupState) (s.issued i)))) ∧
     ((s.group g).defined = true → (s.group g).refs = 0 → (s.group g).members.Nodup →
       ∃ t, exec .dropGroup s = .next t ∧
       t = signalInterrupt s { answer m .ok none (s.issued i) with domains := t.domains, groups := t.groups } ∧
       t.group g = { s.group g with defined := false, members := [] } ∧
       (∀ g', g' ≠ g → t.group g' = s.group g') ∧
       (∀ d, t.domain d = if d ∈ (s.group g).members then { s.domain d with groupCount := (s.domain d).groupCount - 1 }
         else s.domain d)))

/-- SET_POLICY: class 7 is refused BAD_FIELD; otherwise the named entry takes the action, every other entry stays, and
the response is OK. -/
def Obligations.SetPolicy : Prop :=
  ∀ (s : State) (i : Nat) (m : Message) (set : Fin 4) (cls : Fin 8) (action : PolicyAction),
    s.selected = some (i, m) → decodeCommand m = some (.setPolicy set cls action) →
    (cls = 7 → exec .setPolicy s = .next (signalInterrupt s (answer m .refused (some .badField) (s.issued i)))) ∧
    (cls ≠ 7 → ∃ t, exec .setPolicy s = .next t ∧
      t = signalInterrupt s { answer m .ok none (s.issued i) with policies := t.policies } ∧
      ∀ (set' : Fin 4) (cls' : Fin 7), (t.policies[set'.val])[cls'.val] =
        if set' = set ∧ cls'.val = cls.val then action else (s.policies[set'.val])[cls'.val])

/-- SET_HOME: the tests in their order, the first three for count 1 or more; then the window takes the new content, or
becomes empty for count 0, the other windows stay, and the response is OK. -/
def Obligations.SetHome : Prop :=
  ∀ (s : State) (i : Nat) (m : Message) (n : Fin 16) (base count : Nat) (link : LinkId),
    s.selected = some (i, m) → decodeCommand m = some (.setHome n base count link) →
    let refused := fun reason => exec .setHome s = .next (signalInterrupt s (answer m .refused (some reason) (s.issued i)))
    let badLink := 0 < count ∧ 4 ≤ link.val
    let badRange := 0 < count ∧ (67108864 < base + count ∨
      ∃ (k : Fin 16) (h : HomeWindow), k ≠ n ∧ s.homes[k.val] = some h ∧ overlaps base count h.base h.count = true)
    let meets := fun b k => ∃ c w b' k' e op, s.work c = some w ∧ w.job = .range b' k' e op ∧ overlaps b k b' k' = true
    let busy := (0 < count ∧ meets base count) ∨ (∃ h, s.homes[n.val] = some h ∧ meets h.base h.count) ∨
      ∃ c w d, s.work c = some w ∧ w.job = .closeDomain d ∧ w.phase ≠ .post
    (badLink → refused .badField) ∧ (¬badLink → badRange → refused .range) ∧
    (¬badLink → ¬badRange → busy → refused .badState) ∧
    (¬badLink → ¬badRange → ¬busy → ∃ t, exec .setHome s = .next t ∧
      t = signalInterrupt s { answer m .ok none (s.issued i) with homes := t.homes } ∧
      ∀ k : Fin 16, t.homes[k.val] =
        if k = n then (if count = 0 then none else some { base := base, count := count, link := link })
        else s.homes[k.val])

/-- SNAPSHOT takes a snapshot and places its OK response; the interval expiry, where the timer runs, takes a snapshot. A
snapshot copies every working counter with its wrap mark and sets it to 0, copies the watermarks' indicators, advances
the sequence, and restarts an AUTO timer; a PEAK indicator becomes the occupancy as it stands. -/
def Obligations.Snapshots : Prop :=
  (∀ s : State,
     (∀ (i : Nat) (m : Message), s.selected = some (i, m) → decodeCommand m = some .snapshot →
       exec .snapshot s = .next (signalInterrupt s (answer m .ok none (takeSnapshot (s.issued i))))) ∧
     (s.snapTimer.isSome = true → exec .snapshotIntervalExpiry s = .next (takeSnapshot s))) ∧
  (∀ (s : State), let t := takeSnapshot s
     t = { s with copies := t.copies, counters := t.counters, parkMark := t.parkMark, missMark := t.missMark,
                  snapSeq := s.snapSeq + 1, snapTimer := t.snapTimer } ∧
     (∀ n : CounterName, t.copies[n.index.val] = s.counter n ∧ t.counter n = { value := 0, wrapped := false }) ∧
     t.parkMark = { copy := s.parkMark.indicator,
                    indicator := if s.settings.parkMode = .peak then s.park.length else s.parkMark.indicator } ∧
     t.missMark = { copy := s.missMark.indicator,
                    indicator := if s.settings.missMode = .peak then s.miss.length else s.missMark.indicator } ∧
     t.snapTimer = (if s.settings.snapshotMode = .auto then some s.settings.snapshotInterval else s.snapTimer))

/-- ABORT of a message in the intake: a FORMAT or CLOSE_DOMAIN is not abortable; any other is removed and answered
ABORTED ahead of the ABORT's own OK. The target is the oldest message of the tag that is not urgent, and there is none
where no message of the tag is other than urgent. ABORT with no queued target: NO_TARGET where no context carries the
tag; NOT_ABORTABLE for a FORMAT or a sweep; LATE for a context in POST; OK with no change for one that carries the abort
mark; and otherwise OK, with the effect its phase gives: READ and VALIDATE stop, with the whole reservation given back;
MARK with no record marked stops; MARK with a record marked, and WIPE before its wipe start, present the revert; RECALL
and COMMIT carry the mark on. A waiting read or update leaves the Miss Queue. That a context which presents its revert
stays in MARK or in WIPE until the revert is written is the model's reading (log 30, deduced). -/
def Obligations.Abort : Prop :=
  (∀ (s : State) (i j : Nat) (m q : Message) (target : BitVec 16),
     s.selected = some (i, m) → decodeCommand m = some (.abort target) →
     queuedTarget target (s.issued i).intake = some j → (s.issued i).intake[j]? = some q →
     msgTag q = target ∧ isUrgent q = false ∧
     (msgKind q = 0x09 ∨ msgKind q = 0x0A →
       exec .abort s = .next (signalInterrupt s (answer m .refused (some .notAbortable) (s.issued i)))) ∧
     (msgKind q ≠ 0x09 → msgKind q ≠ 0x0A → exec .abort s = .next (signalInterrupt s { s with
       intake := (s.intake.eraseIdx i).eraseIdx j, respPtr := 16
       responses := s.responses ++
         [{ tag := msgTag q, kind := msgKind q, status := .aborted, reason := none, body := .counts 0 0 0 },
          { tag := msgTag m, kind := msgKind m, status := .ok, reason := none, body := .counts 0 0 0 }] }))) ∧
  (∀ (s : State) (i : Nat) (m : Message) (target : BitVec 16),
     s.selected = some (i, m) → decodeCommand m = some (.abort target) →
     queuedTarget target (s.issued i).intake = none →
     let only := fun status reason => exec .abort s = .next (signalInterrupt s (answer m status reason (s.issued i)))
     (findCtx s (fun w => w.tag == target) = none → only .noTarget none) ∧
     (∀ c w, findCtx s (fun w => w.tag == target) = some c → s.work c = some w →
       ((∃ size b n, w.job = .format size b n) ∨ (∃ d, w.job = .closeDomain d) → only .refused (some .notAbortable)) ∧
       (w.job.abortable = true → w.phase = .post → only .late none) ∧
       (w.job.abortable = true → w.phase ≠ .post → w.abortMark = true → only .ok none) ∧
       (w.job.abortable = true → w.abortMark = false →
         w.phase ∈ [.read, .validate, .mark, .recall, .wipe, .commit] →
         ∃ t, exec .abort s = .next t ∧
           t = signalInterrupt s { answer m .ok none (s.issued i) with
             ctxs := t.ctxs, miss := t.miss, domains := t.domains, groups := t.groups } ∧
           (∀ c', c' ≠ c → t.work c' = s.work c') ∧
           (w.phase = .read ∨ w.phase = .validate →
             t.work c = some (w.enterPost .aborted none (.counts 0 0 0)) ∧
             t.domains = (releaseReservation w.job w.job.count s).domains ∧
             t.groups = (releaseReservation w.job w.job.count s).groups ∧
             t.miss = (removeWaiters (Waiter.ofCtx c) s).miss) ∧
           (∀ r, w.phase = .mark → w.run = some r → r.image ≠ [] →
             t.work c = some { w with abortMark := true, request := .revert, waiting := false } ∧
             t.miss = (removeWaiters (Waiter.ofCtx c) s).miss ∧ t.domains = s.domains ∧ t.groups = s.groups) ∧
           (∀ r, w.phase = .mark → w.run = some r → r.image = [] →
             (∃ w', t.work c = some w' ∧ w'.phase = .post ∧ w'.run = none ∧ w'.result = some
               { tag := w.tag, kind := w.job.kindCode, status := .aborted, reason := none,
                 body := .counts w.changed w.unchanged w.fenced }) ∧
             t.miss = (removeWaiters (Waiter.ofCtx c) s).miss ∧
             t.domains = (releaseReservation w.job (w.job.limit - w.cursor) s).domains ∧
             t.groups = (releaseReservation w.job (w.job.limit - w.cursor) s).groups) ∧
           (w.phase = .recall ∨ w.phase = .commit →
             t.work c = some { w with abortMark := true } ∧ t.miss = s.miss ∧ t.domains = s.domains ∧
             t.groups = s.groups) ∧
           (w.phase = .wipe →
             t.work c = some { w with
               abortMark := true, request := if w.request = .wipeStart then .revert else w.request } ∧
             t.miss = s.miss ∧ t.domains = s.domains ∧ t.groups = s.groups)))) ∧
  (∀ (target : BitVec 16) (intake : List Message),
     let targets := fun (x : Message) => isUrgent x = false ∧ msgTag x = target
     (∀ j, queuedTarget target intake = some j ↔ (∃ q, intake[j]? = some q ∧ targets q) ∧
       ∀ k, k < j → ∀ x, intake[k]? = some x → ¬targets x) ∧
     (queuedTarget target intake = none ↔ ∀ x ∈ intake, ¬targets x))

/-- LINK_CONTROL by the link's state (Table 8.7). ENABLE starts a rejoin (8.5) on an OFF link and is refused BAD_STATE
in the other states; DISABLE leaves an OFF link and turns a REJOINING or FAILED one OFF; REJOIN is refused on an OFF
link, joins the rejoin of a REJOINING one, starts one on a FAILED link, and on an UP link answers OK and leaves UP into
attempt 1 (the rest of that leaving is said of every cause in LeavingUpStartsRejoin). A rejoin that starts: attempt 1,
the rejoin number advances, a REJOIN with it is placed, the rejoin deadline runs, REJOINS advances by 1 with
COUNTER_WRAP at its wrap, nothing else changes. A link that leaves OFF has its receiver hunting (R136), and so has one
that enters it, the model's choice (log 21). LINK_CONTROL DISABLE on an UP link: everything of leaving UP, into OFF with
cause COMMAND: the link's checks leave the Park Queue and their entries of the Miss Queue, its credits and queue are
emptied, every context takes the loss, LINK_DOWN is offered, and no rejoin starts, so no counter steps. -/
def Obligations.LinkControlByState : Prop :=
  (∀ (s : State) (i : Nat) (m : Message) (l : LinkId), s.selected = some (i, m) →
     let answered := fun status reason => signalInterrupt s (answer m status reason (s.issued i))
     let k := s.link l
     let started := fun (receiver : Receiver) (t : State) =>
       t.responses = (answer m .ok none (s.issued i)).responses ∧
       t.link l = { k with state := .rejoining, attempt := 1, rejoinNumber := k.rejoinNumber + 1, receiver := receiver,
                           tx := k.tx ++ [.rejoin (k.rejoinNumber + 1)],
                           rejoinDeadline := some s.settings.rejoinDeadline } ∧
       (t.counter (.ofLink l .rejoins)).value = (s.counter (.ofLink l .rejoins)).value + 1 ∧
       (∀ n, n.index ≠ (CounterName.ofLink l .rejoins).index → t.counter n = s.counter n) ∧
       ((s.counter (.ofLink l .rejoins)).value ≠ BitVec.allOnes 32 →
         t.notices = s.notices ∧ t.noticeLost = s.noticeLost) ∧
       ((s.counter (.ofLink l .rejoins)).value = BitVec.allOnes 32 → s.notices.length < 64 → t.notices = s.notices ++
         [{ body := .counterWrap (.ofLink l .rejoins), lostBefore := s.noticeLost }]) ∧
       (∀ l', l' ≠ l → t.link l' = s.link l') ∧
       t = signalInterrupt s { answer m .ok none (s.issued i) with
         links := t.links, counters := t.counters, notices := t.notices, noticeLost := t.noticeLost }
     (decodeCommand m = some (.linkControl l .enable) →
       (k.state = .off → ∃ t, exec .linkControlEnable s = .next t ∧ started .hunting t) ∧
       (k.state ≠ .off → exec .linkControlEnable s = .next (answered .refused (some .badState)))) ∧
     (decodeCommand m = some (.linkControl l .disable) →
       (k.state = .off → exec .linkControlDisable s = .next (answered .ok none)) ∧
       (k.state = .rejoining → ∃ t, exec .linkControlDisable s = .next t ∧
         t = signalInterrupt s { answer m .ok none (s.issued i) with links := t.links, ctxs := t.ctxs } ∧
         t.link l = { k with
           state := .off, rejoinDeadline := none, attempt := 0, receiver := .hunting, tx := [] } ∧
         (∀ l', l' ≠ l → t.link l' = s.link l') ∧ ∀ c, t.work c = (s.work c).map (Work.linkLost .linkOff l)) ∧
       (k.state = .failed → ∃ t, exec .linkControlDisable s = .next t ∧
         t = signalInterrupt s { answer m .ok none (s.issued i) with links := t.links } ∧
         t.link l = { k with state := .off, receiver := .hunting } ∧ ∀ l', l' ≠ l → t.link l' = s.link l')) ∧
     (decodeCommand m = some (.linkControl l .rejoin) →
       (k.state = .off → exec .linkControlRejoin s = .next (answered .refused (some .badState))) ∧
       (k.state = .rejoining → exec .linkControlRejoin s = .next (answered .ok none)) ∧
       (k.state = .failed → ∃ t, exec .linkControlRejoin s = .next t ∧ started k.receiver t) ∧
       (k.state = .up → ∃ t, exec .linkControlRejoin s = .next t ∧
         t.responses = (answer m .ok none (s.issued i)).responses ∧ t.intake = s.intake.eraseIdx i ∧
         (t.link l).state = .rejoining ∧ (t.link l).attempt = 1 ∧
         (t.link l).rejoinNumber = k.rejoinNumber + 1))) ∧
  (∀ (s : State) (i : Nat) (m : Message) (l : LinkId),
     s.selected = some (i, m) → decodeCommand m = some (.linkControl l .disable) → (s.link l).state = .up →
     ∃ t, exec .linkControlDisable s = .next t ∧
       t.link l = { s.link l with
         state := .off, silenceTimer := none, receiver := .hunting, withheld := 0, tx := [], lane := []
         accounting := [] } ∧
       (∀ l', l' ≠ l → t.link l' = s.link l' ∨ t.link l' = returnCredits (s.link l')) ∧
       t.park = s.park.filter (fun k => !(k.link == l)) ∧
       t.miss = s.miss.map (fun e => { e with waiters := e.waiters.filter (fun w => !Waiter.ofLink l w) }) ∧
       (∀ c, t.work c = (s.work c).map (Work.linkLost .linkOff l)) ∧ (∀ c, t.runSeq c = s.runSeq c) ∧
       (if s.notices.length < 64 then
         t.notices = s.notices ++ [{ body := .linkDown l .command, lostBefore := s.noticeLost }]
        else t.notices = s.notices ∧ t.noticeLost = true) ∧
       t.responses = s.responses ++
         [{ tag := msgTag m, kind := msgKind m, status := .ok, reason := none, body := .counts 0 0 0 }] ∧
       (t.counters, t.domains, t.groups, t.store, t.cache, t.port, t.homes, t.policies, t.settings) =
         (s.counters, s.domains, s.groups, s.store, s.cache, s.port, s.homes, s.policies, s.settings))

/-! ## Links, frames and expiries -/

/-- A link leaves UP into REJOINING by a frame (a bad CRC, an unknown kind, a kind only the part sends, a CHECK beyond
the credits or with a tag held), by silence, or by LINK_CONTROL REJOIN: its checks are discarded, its credits and queue
emptied, every context takes the leaving, LINK_DOWN is offered with the cause, and attempt 1 begins with a REJOIN. A
frame leaves its receiver hunting, the other causes leave it as it is. The other two ways of Table 8.6 are said where
they arise: a recall expiry in RunDeadlinesExpire, orders beyond the 38 places in RecallFanOutByLinkState and
WipeStartSendsOrFences, by the same operation, leaveUpToRejoin, which a bad CRC runs here. -/
def Obligations.LeavingUpStartsRejoin : Prop :=
  (∀ (s : State) (l : LinkId) (command : Instr) (cause : DownCause),
     (s.link l).state = .up →
     ((command = .badCrcFrame l ∧ cause = .crc) ∨ (∃ k, command = .unknownKindFrame l k ∧ cause = .protocol) ∨
       (∃ k, command = .partSentKindFrame l k ∧ cause = .protocol) ∨
       (∃ p, command = .check l p ∧ cause = .protocol ∧
         (32 ≤ (s.link l).accounting.length + (s.link l).withheld ∨
           (decodeCheck l p).tag ∈ (s.link l).accounting)) ∨
       (command = .silenceExpiry l ∧ cause = .silence ∧ (s.link l).silenceTimer.isSome = true) ∨
       (∃ i m, command = .linkControlRejoin ∧ cause = .command ∧ s.selected = some (i, m) ∧
         decodeCommand m = some (.linkControl l .rejoin))) →
     ∃ t, exec command s = .next t ∧
       t.link l = { s.link l with
         state := .rejoining, attempt := 1, rejoinNumber := (s.link l).rejoinNumber + 1
         rejoinDeadline := some s.settings.rejoinDeadline, silenceTimer := none, withheld := 0
         tx := [.rejoin ((s.link l).rejoinNumber + 1)], receiver := (t.link l).receiver
         lane := [], accounting := [] } ∧
       (t.link l).receiver = (if command = .silenceExpiry l ∨ command = .linkControlRejoin then (s.link l).receiver
         else .hunting) ∧
       (∀ l', l' ≠ l → t.link l' = s.link l' ∨ t.link l' = returnCredits (s.link l')) ∧
       t.park = s.park.filter (fun k => !(k.link == l)) ∧
       t.miss = s.miss.map (fun e => { e with waiters := e.waiters.filter (fun w => !Waiter.ofLink l w) }) ∧
       (∀ c, t.work c = (s.work c).map (Work.linkRejoining l)) ∧ (∀ c, t.runSeq c = s.runSeq c) ∧
       (if s.notices.length < 64 then
         ∃ rest, t.notices = s.notices ++ { body := .linkDown l cause, lostBefore := s.noticeLost } :: rest
        else t.notices = s.notices ∧ t.noticeLost = true) ∧
       (t.counter (.ofLink l .rejoins)).value = (s.counter (.ofLink l .rejoins)).value + 1 ∧
       (t.domains, t.groups, t.store, t.cache, t.port, t.homes, t.policies, t.settings) =
         (s.domains, s.groups, s.store, s.cache, s.port, s.homes, s.policies, s.settings)) ∧
  (∀ (s : State) (l : LinkId), (s.link l).state = .up →
     exec (.badCrcFrame l) s = .next (signalInterrupt s (leaveUpToRejoin l .crc (takeFrameEvent l s))))

/-- How each context takes a link that enters REJOINING (Table 6.3), FAILED or OFF (R113): a mark of the link waits for
a rejoin, or is cleared with the run fenced, the last one ending RECALL; a wipe outstanding with the link fails, with
cause WIPE_LINK_DOWN, in all three. -/
def Obligations.ContextsTakeLinkChanges : Prop :=
  ∀ (l : LinkId) (cause : FenceCause) (w : Work) (r : Run), w.run = some r →
    (r.mark l = .awaitingAck → r.wipe ≠ .outstanding l →
      Work.linkRejoining l w = { w with run := some (r.setMark l .awaitingRejoin) }) ∧
    (r.mark l ≠ .awaitingAck → r.wipe ≠ .outstanding l → Work.linkRejoining l w = w) ∧
    (r.mark l = .noMark → r.wipe = .outstanding l → r.outcome = .clean → Work.linkRejoining l w =
      { w with run := some { r with outcome := .fenced .wipeLinkDown (some l), wipe := .notSent, deadline := none },
               phase := .commit, request := .commit false, waiting := false }) ∧
    (r.mark l = .noMark → r.wipe ≠ .outstanding l → Work.linkLost cause l w = w) ∧
    (r.mark l ≠ .noMark → r.wipe ≠ .outstanding l → (∃ l', l' ≠ l ∧ r.mark l' ≠ .noMark) →
      Work.linkLost cause l w = { w with run := some ((r.setMark l .noMark).fence cause (some l)) }) ∧
    (r.mark l ≠ .noMark → r.wipe ≠ .outstanding l → (∀ l', l' ≠ l → r.mark l' = .noMark) →
      Work.linkLost cause l w =
        { w with run := some { (r.setMark l .noMark).fence cause (some l) with deadline := none },
                 phase := .commit, request := .commit false, waiting := false }) ∧
    (r.wipe = .outstanding l → r.outcome = .clean → Work.linkLost cause l w =
      { w with run := some { r with outcome := .fenced .wipeLinkDown (some l), wipe := .notSent, deadline := none },
               phase := .commit, request := .commit false, waiting := false })

/-- The receiver of a link reads one symbol (R136). On an OFF link the symbol is passed over. Hunting, every symbol is
passed over until the start marker 0x7E. In frame, the kind byte is read: an unknown kind is taken at once, as the row
of its frame takes it, and the receiver hunts; a known kind fixes the length of the payload (Table 11.1). Payload and
CRC are read whatever they contain, and at the end of the CRC the receiver hunts and the frame is taken: as the frame of
its kind where the two CRC bytes are the CRC of kind and payload, least significant byte first, as a bad frame where
they are not. The CRC (11.1): initial value 0xFFFF, each byte most significant bit first, generator x^16 + x^12 + x^5 +
1, not reflected, no final value. A whole frame among symbols is the first one taken, and the symbols after it are left.
That an OFF link's receiver is set hunting by a symbol, and that symbols arrive by a step on an empty queue
(StepRunsFrontCommand), is the model's choice (log 21). -/
def Obligations.ReceiverTakesFrames : Prop :=
  (∀ (s : State) (l : LinkId) (b : Byte),
     let k := s.link l
     let left := fun (r : Receiver) => modLink l (fun k => { k with receiver := r }) s
     (k.state = .off → receiveSymbol l b s = .next (left .hunting)) ∧
     (k.state ≠ .off →
       (k.receiver = .hunting → receiveSymbol l b s = .next (left (if b = 0x7E then .inFrame [] else .hunting))) ∧
       (k.receiver = .inFrame [] →
         (payloadLength b = none → receiveSymbol l b s = exec (.unknownKindFrame l b) (left .hunting)) ∧
         (∀ n, payloadLength b = some n → receiveSymbol l b s = .next (left (.inFrame [b])))) ∧
       (∀ kind read n, k.receiver = .inFrame (kind :: read) → payloadLength kind = some n →
         (read.length ≤ n → receiveSymbol l b s = .next (left (.inFrame (kind :: read ++ [b])))) ∧
         (∀ payload low, read = payload ++ [low] → payload.length = n →
           let crc := crc16 (kind :: payload)
           receiveSymbol l b s = exec
             (if low = crc.extractLsb' 0 8 ∧ b = crc.extractLsb' 8 8 then frameCommand l kind payload
              else .badCrcFrame l) (left .hunting))))) ∧
  (∀ kind : Byte, payloadLength kind =
     if kind = 0x01 then some 6 else if kind = 0x02 then some 3 else if kind = 0x03 ∨ kind = 0x05 then some 5
     else if kind = 0x04 ∨ kind = 0x07 ∨ kind = 0x08 ∨ kind = 0x09 then some 1 else if kind = 0x06 then some 2
     else if kind = 0x0A then some 0 else none) ∧
  (∀ (l : LinkId) (payload : List Byte), let x := ofLeBytes payload
     frameCommand l 0x01 payload = .check l (BitVec.ofNat 48 x) ∧
     frameCommand l 0x02 payload = .partSentKindFrame l .verdict ∧
     frameCommand l 0x03 payload = .partSentKindFrame l .recall ∧
     frameCommand l 0x04 payload = .recallAck l (BitVec.ofNat 8 x) ∧
     frameCommand l 0x05 payload = .partSentKindFrame l .wipe ∧
     frameCommand l 0x06 payload = .wipeDone l (BitVec.ofNat 16 x) ∧
     frameCommand l 0x07 payload = .partSentKindFrame l .rejoin ∧
     frameCommand l 0x08 payload = .rejoinAck l (BitVec.ofNat 8 x) ∧
     frameCommand l 0x09 payload = .partSentKindFrame l .credit ∧ frameCommand l 0x0A payload = .idle l) ∧
  (ofLeBytes [] = 0 ∧ ∀ (b : Byte) rest, ofLeBytes (b :: rest) = b.toNat + 256 * ofLeBytes rest) ∧
  (crc16 [] = 0xFFFF ∧ ∀ (bytes : List Byte) (b : Byte), crc16 (bytes ++ [b]) =
     [7, 6, 5, 4, 3, 2, 1, 0].foldl (fun (crc : BitVec 16) i =>
       if crc.msb = b.getLsbD i then crc <<< 1 else (crc <<< 1) ^^^ 0x1021) (crc16 bytes)) ∧
  (∀ (l : LinkId) (kind : Byte) (payload rest noise : List Byte), payloadLength kind = some payload.length →
     0x7E ∉ noise →
     let crc := crc16 (kind :: payload)
     takeFrame l (noise ++ [0x7E, kind] ++ payload ++ [crc.extractLsb' 0 8, crc.extractLsb' 8 8] ++ rest) =
       some (frameCommand l kind payload, rest))

/-- A faulty frame, or a CHECK, on a link that is not UP is dropped, and so is a RECALL_ACK, a WIPE_DONE or a REJOIN_ACK
on an OFF or FAILED one; an IDLE restarts the silence timer of an UP link and has no further effect. Only the link's
receiver and timer change. A CHECK within the credits of an UP link, with a tag not held, joins the accounting and the
tail of the lane; only that link changes. The fields of a CHECK payload (Table 11.1). FRAME_SENT: the frame at the head
of an UP or REJOINING link's queue goes out, or an IDLE where the queue is empty (how the output is recorded is the
model's own, logs 22 and 31); an OFF or FAILED link sends nothing. A frame on the line is the start marker 0x7E, its
kind byte, its payload and the CRC-16 of kind and payload, least significant byte first; the payload fields of each kind
the part sends (Tables 11.1 and 11.2), with every other bit 0 (R169), and the numbers of the verdict results and fault
classes. -/
def Obligations.ChecksAndIdles : Prop :=
  (∀ (s : State) (l : LinkId),
     ((s.link l).state ≠ .up → ∀ command : Instr,
       (command = .badCrcFrame l ∨ (∃ k, command = .unknownKindFrame l k) ∨
         (∃ k, command = .partSentKindFrame l k) ∨ (∃ p, command = .check l p)) →
       exec command s = .next (modLink l (fun k => { k with receiver := .hunting }) s)) ∧
     ((s.link l).state = .off ∨ (s.link l).state = .failed → ∀ command : Instr,
       ((∃ p, command = .recallAck l p) ∨ (∃ p, command = .wipeDone l p) ∨ (∃ p, command = .rejoinAck l p)) →
       exec command s = .next (modLink l (fun k => { k with receiver := .hunting }) s)) ∧
     exec (.idle l) s = .next (modLink l (fun k => { k with
       receiver := .hunting
       silenceTimer := if k.state = .up then some s.settings.silenceLimit else k.silenceTimer }) s)) ∧
  (∀ (s : State) (l : LinkId) (p : BitVec 48), (s.link l).state = .up →
     (s.link l).accounting.length + (s.link l).withheld < 32 → (decodeCheck l p).tag ∉ (s.link l).accounting →
     exec (.check l p) s = .next (modLink l (fun k => { k with
       receiver := .hunting, silenceTimer := some s.settings.silenceLimit
       accounting := k.accounting ++ [(decodeCheck l p).tag], lane := k.lane ++ [decodeCheck l p] }) s)) ∧
  (∀ (l : LinkId) (p : BitVec 48), let k := decodeCheck l p
     k.link = l ∧ k.tag = p.extractLsb' 0 5 ∧ k.kind = p.extractLsb' 5 3 ∧ k.domain = (p.extractLsb' 8 11).toNat ∧
     k.granule = (p.extractLsb' 19 26).toNat ∧ k.cacheWanted = p.getLsbD 45) ∧
  (∀ (s : State) (l : LinkId),
     ((s.link l).state = .up ∨ (s.link l).state = .rejoining →
       (∀ f rest, (s.link l).tx = f :: rest →
         exec (.frameSent l) s = .next (modLink l (fun k => { k with tx := rest, line := some f }) s)) ∧
       ((s.link l).tx = [] → exec (.frameSent l) s = .next (modLink l (fun k => { k with line := some .idle }) s))) ∧
     ((s.link l).state = .off ∨ (s.link l).state = .failed → exec (.frameSent l) s = .next s)) ∧
  (∀ f : TxFrame, f.bytes = [0x7E, f.content.1] ++ f.content.2 ++
     [(crc16 (f.content.1 :: f.content.2)).extractLsb' 0 8, (crc16 (f.content.1 :: f.content.2)).extractLsb' 8 8]) ∧
  (∀ v : Verdict, let x := BitVec.ofNat 24 (ofLeBytes (TxFrame.verdict v).content.2)
     (TxFrame.verdict v).content.1 = 0x02 ∧ (TxFrame.verdict v).content.2.length = 3 ∧
     x.extractLsb' 0 5 = v.tag ∧ (x.extractLsb' 5 2).toNat = v.result.code ∧ x.getLsbD 7 = v.cacheable ∧
     x.extractLsb' 8 8 = v.generation ∧ x.extractLsb' 16 3 = v.rights.getD 0 ∧
     (x.extractLsb' 19 3).toNat = (v.faultClass.map FaultClass.code).getD 0 ∧ x.getLsbD 22 = v.credit ∧
     x.getLsbD 23 = false) ∧
  (∀ (base order : Nat) (c : CtxId) (seq : BitVec 4) (f : TxFrame), base < 67108864 → order ≤ 9 →
     f = .recall base order c seq ∨ f = .wipe base order c seq →
     let x := BitVec.ofNat 40 (ofLeBytes f.content.2)
     f.content.1 = (if f = .recall base order c seq then 0x03 else 0x05) ∧ f.content.2.length = 5 ∧
     (x.extractLsb' 0 26).toNat = base ∧ (x.extractLsb' 26 4).toNat = order ∧ x.extractLsb' 30 2 = 0 ∧
     (x.extractLsb' 32 4).toNat = c.val ∧ x.extractLsb' 36 4 = seq) ∧
  (∀ n : BitVec 4, (TxFrame.rejoin n).content = (0x07, [n.setWidth 8])) ∧
  (∀ n : Nat, n < 64 → (TxFrame.credit n).content = (0x09, [BitVec.ofNat 8 n])) ∧
  TxFrame.idle.content = (0x0A, []) ∧
  [VerdictResult.grant, .deny, .poison, .retry].map VerdictResult.code = [0, 1, 2, 3] ∧
  [FaultClass.notOwner, .noRight, .unassigned, .fencedGranule, .domainClosed, .outOfRange, .malformed, .notReady].map
    FaultClass.code = [0, 1, 2, 3, 4, 5, 6, 7]

/-- A RECALL_ACK of the context's current run, on a link whose mark is awaiting ack: the mark becomes none and the link
joins the cleared links; with another mark left the context stays in RECALL, and with none left the phase ends: fenced
to COMMIT, aborted to the revert, then WIPE or COMMIT as the run needs (a need settled at the end of MARK: deduced, log
16). Other contexts stay. A WIPE_DONE of the context's current run, on the link its wipe is outstanding with: OK makes
the wipe done and presents the commit, as WIPED under the abort mark; FAIL fences the run. Only the context and the
link's timer change. An answer that matches nothing changes no context, record or link state, and STRAY_ACKS of the link
advances by 1. -/
def Obligations.RecallAckClearsMark : Prop :=
  (∀ (s : State) (l : LinkId) (p : BitVec 8) (c : CtxId) (w : Work) (r : Run),
     (s.link l).state = .up ∨ (s.link l).state = .rejoining → c.val = (p.extractLsb' 0 4).toNat →
     s.runSeq c = p.extractLsb' 4 4 → s.work c = some w → w.phase = .recall → w.run = some r →
     r.mark l = .awaitingAck →
     ∃ t w' r', exec (.recallAck l p) s = .next t ∧ t.work c = some w' ∧ w'.run = some r' ∧
       t = { s with ctxs := t.ctxs, links := (takeFrameEvent l s).links } ∧
       (∀ c', c' ≠ c → t.work c' = s.work c') ∧
       r'.mark l = .noMark ∧ (∀ l', l' ≠ l → r'.mark l' = r.mark l') ∧ r'.cleared = r.cleared ||| (1#6 <<< l.val) ∧
       (r'.image = r.image ∧ r'.base = r.base ∧ r'.order = r.order ∧ r'.outcome = r.outcome) ∧
       (w'.changed = w.changed ∧ w'.unchanged = w.unchanged ∧ w'.fenced = w.fenced) ∧
       ((∃ l', l' ≠ l ∧ r.mark l' ≠ .noMark) → w'.phase = .recall ∧ w'.request = w.request ∧ r'.deadline = r.deadline) ∧
       ((∀ l', l' ≠ l → r.mark l' = .noMark) → r'.deadline = none ∧
         (r.outcome ≠ .clean → w'.phase = .commit ∧ w'.request = .commit false) ∧
         (r.outcome = .clean → w.abortMark = true → w'.request = .revert) ∧
         (r.outcome = .clean → w.abortMark = false → r.needsWipe = true →
           w'.phase = .wipe ∧ w'.request = .wipeStart) ∧
         (r.outcome = .clean → w.abortMark = false → r.needsWipe = false →
           w'.phase = .commit ∧ w'.request = .commit false))) ∧
  (∀ (s : State) (l : LinkId) (p : BitVec 16) (c : CtxId) (w : Work) (r : Run),
     (s.link l).state = .up ∨ (s.link l).state = .rejoining → c.val = (p.extractLsb' 0 4).toNat →
     s.runSeq c = p.extractLsb' 4 4 → s.work c = some w → w.phase = .wipe → w.run = some r →
     r.wipe = .outstanding l → r.outcome = .clean →
     ∃ t, exec (.wipeDone l p) s = .next t ∧
       t = { s with ctxs := t.ctxs, links := (takeFrameEvent l s).links } ∧ (∀ c', c' ≠ c → t.work c' = s.work c') ∧
       (p.getLsbD 8 = false → t.work c = some { w with
         run := some { r with wipe := .done, deadline := none }
         phase := .commit, request := .commit w.abortMark, waiting := false }) ∧
       (p.getLsbD 8 = true → t.work c = some { w with
         run := some { r with outcome := .fenced .wipeFail (some l), wipe := .notSent, deadline := none }
         phase := .commit, request := .commit false, waiting := false })) ∧
  (∀ (s : State) (l : LinkId) (command : Instr),
     ((∃ p : BitVec 8, command = .recallAck l p ∧ ((s.link l).state = .up ∨ (s.link l).state = .rejoining) ∧
         ∀ (c : CtxId) w, c.val = (p.extractLsb' 0 4).toNat → s.work c = some w →
           w.phase ≠ .recall ∨ s.runSeq c ≠ p.extractLsb' 4 4 ∨ w.markOf l ≠ .awaitingAck) ∨
       (∃ p : BitVec 16, command = .wipeDone l p ∧ ((s.link l).state = .up ∨ (s.link l).state = .rejoining) ∧
         ∀ (c : CtxId) w, c.val = (p.extractLsb' 0 4).toNat → s.work c = some w →
           w.phase ≠ .wipe ∨ s.runSeq c ≠ p.extractLsb' 4 4 ∨ w.wipeOutstanding l = false) ∨
       (∃ p : BitVec 8, command = .rejoinAck l p ∧ ((s.link l).state = .up ∨
         ((s.link l).state = .rejoining ∧ (s.link l).rejoinNumber ≠ p.extractLsb' 0 4)))) →
     ∃ t, exec command s = .next t ∧
       t = signalInterrupt s { s with links := (takeFrameEvent l s).links, counters := t.counters,
                                      notices := t.notices, noticeLost := t.noticeLost } ∧
       (t.counter (.ofLink l .strayAcks)).value = (s.counter (.ofLink l .strayAcks)).value + 1 ∧
       (∀ n, n.index ≠ (CounterName.ofLink l .strayAcks).index → t.counter n = s.counter n))

/-- A REJOIN_ACK with the current number completes the rejoin: the deadline stops, the attempt returns to 0, the link
is UP with its silence timer running and no credits withheld, every context takes the completion, and LINK_UP is
offered. Its taking by a context (R112): the mark of the link becomes none, the link joins the cleared links, the other
marks stay, and with none left the recall phase ends in that event (RecallFanOutByLinkState). The rejoin deadline
expires: at attempt 1 or 2 the next attempt begins with a new number and REJOIN; at attempt 3 the link is FAILED with
an empty queue, every context takes the failure, and LINK_FAILED is offered. -/
def Obligations.RejoinAckCompletesRejoin : Prop :=
  (∀ (s : State) (l : LinkId) (p : BitVec 8), (s.link l).state = .rejoining →
     (s.link l).rejoinNumber = p.extractLsb' 0 4 →
     ∃ t, exec (.rejoinAck l p) s = .next t ∧
       t = signalInterrupt s { s with links := t.links, ctxs := t.ctxs, notices := t.notices,
                                      noticeLost := t.noticeLost } ∧
       t.link l = { s.link l with
         state := .up, rejoinDeadline := none, attempt := 0, silenceTimer := some s.settings.silenceLimit
         accounting := [], withheld := 0, receiver := .hunting } ∧
       (∀ l', l' ≠ l → t.link l' = s.link l') ∧
       (∀ c w r, s.work c = some w → w.run = some r → r.mark l = .awaitingRejoin →
         t.work c = some (Work.clearMark l w)) ∧
       (∀ c w, s.work c = some w → w.markOf l ≠ .awaitingRejoin → t.work c = some w) ∧
       (if s.notices.length < 64 then
         t.notices = s.notices ++ [{ body := .linkUp l, lostBefore := s.noticeLost }] ∧ t.noticeLost = false
        else t.notices = s.notices ∧ t.noticeLost = true)) ∧
  (∀ (s : State) (l : LinkId), (s.link l).state = .rejoining → (s.link l).rejoinDeadline.isSome = true →
     ((s.link l).attempt < 3 → exec (.rejoinDeadlineExpiry l) s = .next (modLink l (fun k => { k with
       attempt := k.attempt + 1, rejoinNumber := k.rejoinNumber + 1, tx := k.tx ++ [.rejoin (k.rejoinNumber + 1)]
       rejoinDeadline := some s.settings.rejoinDeadline }) s)) ∧
     (3 ≤ (s.link l).attempt → ∃ t, exec (.rejoinDeadlineExpiry l) s = .next t ∧
       t = signalInterrupt s { s with links := t.links, ctxs := t.ctxs, notices := t.notices,
                                      noticeLost := t.noticeLost } ∧
       t.link l = { s.link l with state := .failed, rejoinDeadline := none, attempt := 0, tx := [] } ∧
       (∀ l', l' ≠ l → t.link l' = s.link l') ∧ (∀ c, t.work c = (s.work c).map (Work.linkLost .linkFailed l)) ∧
       (if s.notices.length < 64 then
         t.notices = s.notices ++ [{ body := .linkFailed l, lostBefore := s.noticeLost }] ∧ t.noticeLost = false
        else t.notices = s.notices ∧ t.noticeLost = true))) ∧
  (∀ (l : LinkId) (w : Work) (r : Run), w.run = some r →
     let r' : Run := { r.setMark l .noMark with cleared := r.cleared ||| (1#6 <<< l.val) }
     r'.mark l = .noMark ∧ (∀ l', l' ≠ l → r'.mark l' = r.mark l') ∧
     ((∃ l', l' ≠ l ∧ r.mark l' ≠ .noMark) → Work.clearMark l w = { w with run := some r' }) ∧
     ((∀ l', l' ≠ l → r.mark l' = .noMark) → Work.clearMark l w = Work.endRecall { w with run := some r' }))

/-- The recall deadline of a run expires: it becomes absent; each mark awaiting ack becomes awaiting rejoin, and its
link, where it is UP, leaves UP with cause RECALL_EXPIRY as by any other cause: its checks are discarded, its credits
and queue emptied, the other contexts take the leaving, LINK_DOWN is offered, and attempt 1 of a rejoin begins; marks
awaiting rejoin and marks that are none stay. The wipe deadline of a run expires with its wipe outstanding: the run is
fenced with cause WIPE_EXPIRY and the home link, the wipe is none, the deadline absent, and the context enters COMMIT;
nothing else changes. -/
def Obligations.RunDeadlinesExpire : Prop :=
  (∀ (s : State) (c : CtxId) (w : Work) (r : Run) (n : Nat),
     s.work c = some w → w.run = some r → r.deadline = some (.recall n) → (∀ l, r.wipe ≠ .outstanding l) →
     let leaves := fun (l : LinkId) => decide (r.mark l = .awaitingAck) && decide ((s.link l).state = .up)
     ∃ t r', exec (.recallDeadlineExpiry c) s = .next t ∧ t.work c = some { w with run := some r' } ∧
       r'.deadline = none ∧ r'.image = r.image ∧ r'.cleared = r.cleared ∧ r'.outcome = r.outcome ∧
       (∀ l, r'.mark l = if r.mark l = .awaitingAck then .awaitingRejoin else r.mark l) ∧
       (∀ l, leaves l = true → t.link l = { s.link l with
         state := .rejoining, attempt := 1, rejoinNumber := (s.link l).rejoinNumber + 1
         rejoinDeadline := some s.settings.rejoinDeadline, silenceTimer := none, withheld := 0
         tx := [.rejoin ((s.link l).rejoinNumber + 1)], lane := [], accounting := [] }) ∧
       (∀ l, leaves l = false → t.link l = s.link l ∨ t.link l = returnCredits (s.link l)) ∧
       t.park = s.park.filter (fun k => !leaves k.link) ∧
       t.miss = s.miss.map (fun e =>
         { e with waiters := e.waiters.filter (fun w => w.asCheck.all (fun k => !leaves k.link)) }) ∧
       (∀ c', c' ≠ c → t.work c' = (s.work c').map (fun w =>
         (allLinks.filter leaves).foldl (fun w l => Work.linkRejoining l w) w)) ∧
       (∀ c', t.runSeq c' = s.runSeq c') ∧
       (∃ rest, t.notices = s.notices ++ rest ∧ ∀ l, leaves l = true →
         (∃ x ∈ rest, x.body = .linkDown l .recallExpiry) ∨ (64 ≤ t.notices.length ∧ t.noticeLost = true)) ∧
       (∀ l, leaves l = true →
         (t.counter (.ofLink l .rejoins)).value = (s.counter (.ofLink l .rejoins)).value + 1) ∧
       (∀ x, (∀ l, leaves l = true → x.index ≠ (CounterName.ofLink l .rejoins).index) → t.counter x = s.counter x) ∧
       (t.domains, t.groups, t.store, t.cache, t.port) = (s.domains, s.groups, s.store, s.cache, s.port) ∧
       t.portSide = s.portSide) ∧
  (∀ (s : State) (c : CtxId) (w : Work) (r : Run) (l : LinkId) (n : Nat),
     s.work c = some w → w.run = some r → r.deadline = some (.wipe n) → r.wipe = .outstanding l →
     r.outcome = .clean →
     exec (.wipeDeadlineExpiry c) s = .next (setWork c (some { w with
       run := some { r with outcome := .fenced .wipeExpiry (some l), wipe := .notSent, deadline := none }
       phase := .commit, request := .commit false, waiting := false }) s))

/-! ## Deciding a check -/

/-- The order of cases (Table 2.4): the first case that applies gives the outcome. Law L1: a GRANT to domain d is
decided only if the part is not SERVING and d is 0, or the part is SERVING, d is ACTIVE and the record is HELD with
owner d, or SHARED with a group listing d, with every right the access kind requires. The owner of a SHARED record is
among its group's members (R25). -/
def Obligations.OrderOfCases : Prop :=
  (∀ (s : State) (k : Check) (r : GranuleRecord),
     let serving := s.part = .serving
     let inTable := k.granule < s.tableSize
     let suits := k.domain ≤ 1023 ∧
       ((k.link.val < 4 ∧ (k.kind = 0 ∨ k.kind = 1)) ∨ (4 ≤ k.link.val ∧ (k.kind = 2 ∨ k.kind = 3)))
     let active := (s.domain k.domain).state = .active
     let lookedUp := serving ∧ inTable ∧ suits ∧ active
     let required : Rights := if k.kind = 0 then 1 else if k.kind = 1 then 2 else if k.kind = 2 then 5 else 6
     let reaches := fun (owner : Nat) (members : List Nat) => k.domain = owner ∨ k.domain ∈ members
     (¬serving → k.domain = 0 → decision s k r = .grant 7 0 false) ∧
     (¬serving → k.domain ≠ 0 → decision s k r = .deny .notReady 0) ∧
     (serving → ¬inTable → decision s k r = .deny .outOfRange 0) ∧
     (serving → inTable → ¬suits → decision s k r = .deny .malformed 0) ∧
     (serving → inTable → suits → ¬active → decision s k r = .deny .domainClosed 0) ∧
     (lookedUp → (∃ c prior, r.state = .moving c prior ∨ r.state = .wiping c prior) → decision s k r = .park) ∧
     (lookedUp → r.state = .stable .fenced → decision s k r = .deny .fencedGranule r.generation) ∧
     (lookedUp → r.state = .stable .vacant ∨ r.state = .stable .wiped →
       decision s k r = .deny .unassigned r.generation) ∧
     (∀ owner rights members, lookedUp →
       (r.state = .stable (.held owner rights) ∧ members = []) ∨
         (∃ g, r.state = .stable (.shared owner g rights) ∧ members = (s.group g).members) →
       (¬reaches owner members → decision s k r = .deny .notOwner r.generation) ∧
       (reaches owner members → required &&& rights ≠ required → decision s k r = .deny .noRight r.generation) ∧
       (reaches owner members → required &&& rights = required → decision s k r = .grant rights r.generation true))) ∧
  (∀ (s : State) (k : Check) (r : GranuleRecord) (rights : Rights) (generation : BitVec 8) (mayCache : Bool),
     (∀ owner g x, r.state = .stable (.shared owner g x) → owner ∈ (s.group g).members) →
     decision s k r = .grant rights generation mayCache →
     (s.part ≠ .serving ∧ k.domain = 0) ∨
     (s.part = .serving ∧ (s.domain k.domain).state = .active ∧ requiredRights k.kind &&& rights = requiredRights k.kind ∧
       (r.state = .stable (.held k.domain rights) ∨
         ∃ owner g, r.state = .stable (.shared owner g rights) ∧ k.domain ∈ (s.group g).members)))

/-- A verdict is queued at the tail of the check's link with the content of Table 2.6, its tag leaves the accounting,
its credit is 1 or is withheld while pacing is in force, and the counter of its result advances by 1, with COUNTER_WRAP
at its wrap. A GRANT and a RETRY touch no domain and offer no other notice. The action of a denial: NOT_READY is always
QUIET; a requester from 0 to 1023 takes its domain's Policy Set, a number above takes set 0. A counted denial advances
its domain's armed tally by 1 in its own event; a tally of 65535 becomes absent and TALLY_REACHED is offered, after
DENIED. The COUNTER_WRAP comes after both (deduced, log 13). NOT_READY, a domain number above 1023 and an absent tally
advance nothing. POISON and POISON_NOTIFY answer POISON, NOTIFY and POISON_NOTIFY call for a DENIED notice (Table 2.8):
it is offered first of the event, with the link, tag, domain, granule and kind of the check as carried, the class and
the result; the other actions offer none. -/
def Obligations.VerdictIsQueued : Prop :=
  (∀ (s : State) (k : Check),
     let queued := fun (t told : State) (result : VerdictResult) (rights : Option Rights) (cacheable : Bool)
         (generation : BitVec 8) (cls : Option FaultClass) (counter : LinkCounter) =>
       t.link k.link = { s.link k.link with
         tx := (s.link k.link).tx ++ [.verdict ⟨k.tag, result, rights, cacheable, generation, !s.pacing, cls⟩]
         accounting := (s.link k.link).accounting.erase k.tag
         withheld := if s.pacing then (s.link k.link).withheld + 1 else (s.link k.link).withheld } ∧
       (∀ l, l ≠ k.link → t.link l = s.link l) ∧
       let before := s.counter (.ofLink k.link counter)
       let offered := if before.value = BitVec.allOnes 32 then offerNotice (.counterWrap (.ofLink k.link counter)) told
         else told
       t.counter (.ofLink k.link counter) =
         { value := before.value + 1, wrapped := before.wrapped || decide (before.value = BitVec.allOnes 32) } ∧
       (∀ n, n.index ≠ (CounterName.ofLink k.link counter).index → t.counter n = s.counter n) ∧
       t.domains = told.domains ∧ t.notices = offered.notices ∧ t.noticeLost = offered.noticeLost ∧
       t = { s with links := t.links, counters := t.counters, notices := t.notices, noticeLost := t.noticeLost,
                    domains := t.domains }
     (∀ rights generation cacheable,
       queued (answerGrant k rights generation cacheable s) s .grant (some rights) cacheable generation none .grants) ∧
     queued (answerRetry k s) s .retry none false 0 none .retries ∧
     (∀ cls generation,
       let action := s.actionFor cls k.domain
       let noted := if action = .notify ∨ action = .poisonNotify then
         offerNotice (.denied k.link k.tag k.domain k.granule k.kind cls (decide (action = .poisonNotify))) s else s
       let told := advanceTally k cls noted
       (answerDenial k cls generation s).domains = (advanceTally k cls s).domains ∧
       (action.poisons = false →
         queued (answerDenial k cls generation s) told .deny none false generation (some cls) .denials) ∧
       (action.poisons = true →
         queued (answerDenial k cls generation s) told .poison none false generation (some cls) .poisons))) ∧
  (∀ (s : State) (d : Nat) (cls : FaultClass),
     (cls = .notReady → s.actionFor cls d = .quiet) ∧
     (∀ i : Fin 7, i.val = cls.code →
       s.actionFor cls d = (s.policies[(if d ≤ 1023 then (s.domain d).policySet else 0 : Fin 4).val])[i.val])) ∧
  (∀ (s : State) (k : Check) (cls : FaultClass),
     (cls = .notReady ∨ 1023 < k.domain ∨ (s.domain k.domain).tally = none → advanceTally k cls s = s) ∧
     (∀ n, cls ≠ .notReady → k.domain ≤ 1023 → (s.domain k.domain).tally = some n → n ≠ 65535 →
       advanceTally k cls s = modDomain k.domain (fun r => { r with tally := some (n + 1) }) s) ∧
     (cls ≠ .notReady → k.domain ≤ 1023 → (s.domain k.domain).tally = some 65535 →
       advanceTally k cls s = offerNotice (.tallyReached k.domain k.link k.tag cls)
         (modDomain k.domain (fun r => { r with tally := none }) s))) ∧
  (∀ (s : State) (d : Nat) (f : DomainRecord → DomainRecord), let t := modDomain d f s
     t.domain d = f (s.domain d) ∧ (∀ d', d' ≠ d → t.domain d' = s.domain d') ∧ t = { s with domains := t.domains }) ∧
  (PolicyAction.quiet.poisons = false ∧ PolicyAction.notify.poisons = false ∧ PolicyAction.poison.poisons = true ∧
     PolicyAction.poisonNotify.poisons = true) ∧
  (∀ (s : State) (k : Check) (cls : FaultClass) (generation : BitVec 8), let t := answerDenial k cls generation s
     let action := s.actionFor cls k.domain
     (action = .notify ∨ action = .poisonNotify →
       if s.notices.length < 64 then ∃ rest, t.notices = s.notices ++
         { body := .denied k.link k.tag k.domain k.granule k.kind cls (decide (action = .poisonNotify))
           lostBefore := s.noticeLost } :: rest
       else t.notices = s.notices ∧ t.noticeLost = true) ∧
     (cls ≠ .notReady → k.domain ≤ 1023 → (s.domain k.domain).tally = some 65535 →
       (t.domain k.domain).tally = none ∧
       (action = .quiet ∨ action = .poison → s.notices.length < 64 → ∃ rest, t.notices = s.notices ++
         { body := .tallyReached k.domain k.link k.tag cls, lostBefore := s.noticeLost } :: rest) ∧
       (action = .notify ∨ action = .poisonNotify → s.notices.length < 63 → ∃ rest, t.notices = s.notices ++
         { body := .denied k.link k.tag k.domain k.granule k.kind cls (decide (action = .poisonNotify))
           lostBefore := s.noticeLost } ::
         { body := .tallyReached k.domain k.link k.tag cls, lostBefore := false } :: rest)) ∧
     (action = .quiet ∨ action = .poison → ∃ rest, t.notices = s.notices ++ rest ∧
       ∀ n ∈ rest, ∀ l tag d g kind c p, n.body ≠ .denied l tag d g kind c p))

/-- An offered notice is placed at the tail with the lost-before mark NOTICE_LOST gives, which it clears, while fewer
than 64 stand in the queue; else it is dropped and NOTICE_LOST is set. Nothing else changes. A working counter takes a
step; one at 2^32 - 1 becomes 0, its wrap mark is set and COUNTER_WRAP is offered. No two counters share a place in the
bank. -/
def Obligations.NoticesAndCounters : Prop :=
  (∀ (s : State) (b : NoticeBody),
     (s.notices.length < 64 → offerNotice b s =
       { s with notices := s.notices ++ [{ body := b, lostBefore := s.noticeLost }], noticeLost := false }) ∧
     (64 ≤ s.notices.length → offerNotice b s = { s with noticeLost := true })) ∧
  (∀ (s : State) (n : CounterName),
     ((s.counter n).value ≠ 0xFFFFFFFF → (countEvent n s).counter n =
         { value := (s.counter n).value + 1, wrapped := (s.counter n).wrapped } ∧
       countEvent n s = { s with counters := (countEvent n s).counters }) ∧
     ((s.counter n).value = 0xFFFFFFFF → (countEvent n s).counter n = { value := 0, wrapped := true } ∧
       countEvent n s = offerNotice (.counterWrap n) { s with counters := (countEvent n s).counters }) ∧
     (∀ n', n'.index ≠ n.index → (countEvent n s).counter n' = s.counter n')) ∧
  (∀ n n' : CounterName, n.index = n'.index → n = n')

/-- CHECK_PORT_EVENT, where the arbiter grants a lane and a case from 1 to 4 applies: the check leaves its lane, no
record is looked up, and the verdict is answered. The port arbiter (R43): it grants the first requester after the one
granted last, in the cyclic order CL0 to CL5 and the Change Engine (6), that has a request to present; a lane presents
its oldest check, and the Change Engine the request of the context it serves next. The Change Engine (R44): it serves
the first context after the one it served last, in the cyclic order of 0 to 15, that has a request ready, and a context
whose request waits in the Miss Queue has none ready. -/
def Obligations.PortEventWithoutRecord : Prop :=
  (∀ (s : State) (l : LinkId) (k : Check), s.nextGrant = some (.lane l k) →
    let taken := modLink l (fun x => { x with lane := x.lane.tail }) { s with portPtr := Fin.ofNat 7 l.val }
    (s.link l).lane.head? = some k ∧
    (s.part ≠ .serving → k.domain = 0 →
      exec .checkPortEvent s = .next (signalInterrupt s (answerGrant k 7 0 false taken))) ∧
    (s.part ≠ .serving → k.domain ≠ 0 →
      exec .checkPortEvent s = .next (signalInterrupt s (answerDenial k .notReady 0 taken))) ∧
    (s.part = .serving → s.tableSize ≤ k.granule →
      exec .checkPortEvent s = .next (signalInterrupt s (answerDenial k .outOfRange 0 taken))) ∧
    (∀ cls, decideWithoutRecord s k = some (.deny cls 0) →
      exec .checkPortEvent s = .next (signalInterrupt s (answerDenial k cls 0 taken)))) ∧
  ∀ s : State,
    let ready := fun (i : Nat) =>
      ∃ (c : CtxId) (w : Work), c.val = i ∧ s.work c = some w ∧ w.request ≠ .noRequest ∧ w.waiting = false
    let presents := fun (i : Nat) =>
      (∃ l : LinkId, l.val = i ∧ (s.link l).lane ≠ []) ∨ (i = 6 ∧ ∃ j, ready j)
    (∀ c, s.nextCtx = some c ↔ FirstReady 16 s.enginePtr.val ready c.val) ∧
    (∀ l k, s.nextGrant = some (.lane l k) ↔
      FirstReady 7 s.portPtr.val presents l.val ∧ (s.link l).lane.head? = some k) ∧
    (∀ c request, s.nextGrant = some (.engine c request) ↔
      FirstReady 7 s.portPtr.val presents 6 ∧ s.nextCtx = some c ∧ (s.work c).map Work.request = some request)

/-- CHECK_PORT_EVENT on a hit, for a check that no case from 1 to 4 decides: the check is decided against the resident
copy. A GRANT is answered, and where it is cacheable its link is among the holders of the resident copy, which is
written, and its way dirty, only where the link was not yet a holder; a denial is answered DENY or POISON with its class
and the record's generation, and may advance its domain's tally; a check on a record under change is parked, with no
verdict, or answered RETRY where 64 are parked. The verdict's credit is withheld while pacing is in force. CACHE_HITS
advances by 1, the LRU mark names the way not used, and the other way stays. On a miss: the check joins the entry of its
granule, or makes a new entry and a read is issued; a full entry or a full queue answers RETRY. CACHE_MISSES advances by
1. -/
def Obligations.PortEventOnLookup : Prop :=
  (∀ (s : State) (l : LinkId) (k : Check) (r : GranuleRecord),
     s.nextGrant = some (.lane l k) → decideWithoutRecord s k = none → s.resident k.granule = some r →
     ∃ t, exec .checkPortEvent s = .next t ∧ (t.link l).lane = (s.link l).lane.tail ∧ t.portPtr.val = l.val ∧
       t.miss = s.miss ∧ t.port = s.port ∧ t.ctxs = s.ctxs ∧ t.groups = s.groups ∧ t.store = s.store ∧
       t.enginePtr = s.enginePtr ∧ t.portSide = s.portSide ∧
       (t.counter (.ofPart .cacheHits)).value = (s.counter (.ofPart .cacheHits)).value + 1 ∧
       let answered := fun (v : Verdict) => (t.link k.link).tx = (s.link k.link).tx ++ [.verdict v]
       let wayIs := fun (after : GranuleRecord) (written : Bool) => t.resident k.granule = some after ∧
         ∃ n w, (s.cacheSet k.granule).find k.granule = some n ∧ (s.cacheSet k.granule).way n = some w ∧
           (t.cacheSet k.granule).way n = some { w with record := after, dirty := w.dirty || written } ∧
           (t.cacheSet k.granule).way n.other = (s.cacheSet k.granule).way n.other ∧
           (t.cacheSet k.granule).lru = n.other
       (∀ rights generation, decision s k r = .grant rights generation true →
         let cacheable := k.cacheWanted && s.settings.caching.getLsbD k.link.val
         wayIs (if cacheable then { r with holders := r.holders ||| (1#6 <<< k.link.val) } else r)
           (cacheable && !r.holders.getLsbD k.link.val) ∧
         answered ⟨k.tag, .grant, some rights, cacheable, generation, !s.pacing, none⟩ ∧ t.park = s.park ∧
         t.domains = s.domains) ∧
       (∀ cls generation, decision s k r = .deny cls generation →
         wayIs r false ∧ t.park = s.park ∧ t.domains = (advanceTally k cls s).domains ∧
         answered ⟨k.tag, if (s.actionFor cls k.domain).poisons then .poison else .deny, none, false, generation,
           !s.pacing, some cls⟩) ∧
       (decision s k r = .park → wayIs r false ∧ t.domains = s.domains ∧
         (s.park.length < 64 → t.park = s.park ++ [k] ∧ (∀ l', (t.link l').tx = (s.link l').tx ∨
             (t.link l').tx = (returnCredits (s.link l')).tx) ∧
           (t.counter (.ofLink k.link .parks)).value = (s.counter (.ofLink k.link .parks)).value + 1) ∧
         (64 ≤ s.park.length → t.park = s.park ∧ answered ⟨k.tag, .retry, none, false, 0, !s.pacing, none⟩)) ∧
       (∀ g, Sys2Proof.Machine.setOf g ≠ Sys2Proof.Machine.setOf k.granule → t.resident g = s.resident g)) ∧
  (∀ (s : State) (l : LinkId) (k : Check),
     s.nextGrant = some (.lane l k) → decideWithoutRecord s k = none → s.resident k.granule = none →
     ∃ t, exec .checkPortEvent s = .next t ∧ (t.link l).lane = (s.link l).lane.tail ∧ t.portPtr.val = l.val ∧
       t.park = s.park ∧ t.cache = s.cache ∧ t.ctxs = s.ctxs ∧ t.domains = s.domains ∧ t.groups = s.groups ∧
       t.store = s.store ∧ t.enginePtr = s.enginePtr ∧ t.portSide = s.portSide ∧
       (t.counter (.ofPart .cacheMisses)).value = (s.counter (.ofPart .cacheMisses)).value + 1 ∧
       (∀ e, s.missEntry k.granule = some e → t.port = s.port ∧
         (e.waiters.length < 8 → t.miss = s.miss.map (fun x =>
           if x.granule = k.granule then { x with waiters := x.waiters ++ [.check k] } else x)) ∧
         (8 ≤ e.waiters.length → t.miss = s.miss ∧ ∃ v, (t.link k.link).tx = (s.link k.link).tx ++ [.verdict v] ∧
           v.tag = k.tag ∧ v.result = .retry)) ∧
       (s.missEntry k.granule = none →
         (s.miss.length < 48 →
           t.miss = s.miss ++ [{ granule := k.granule, waiters := [.check k], superseding := none }] ∧
           t.port = s.port ++ [.read k.granule (s.outstandingWrite k.granule)]) ∧
         (48 ≤ s.miss.length → t.miss = s.miss ∧ t.port = s.port ∧
           ∃ v, (t.link k.link).tx = (s.link k.link).tx ++ [.verdict v] ∧ v.tag = k.tag ∧ v.result = .retry)))

/-- The re-decision of parked checks. At a commit or a revert (R38): the entries of the run's granules leave the Park
Queue and are decided oldest first, each against its record as the run writes it and the decisions before have left it;
a holder that a cacheable GRANT adds is part of the content written. At the replacement of a record (R39): the entries
of the granule leave the queue and are decided oldest first against the resident copy. A decision: a GRANT is answered
and, where it is cacheable, its link joins the holders; a denial is answered; a check on a record under change is
parked, or answered RETRY where 64 are parked. None of them is parked again, since the records are in stable states.
That the queue is shortened and presented to the watermarks and to pacing before the checks are decided, so that their
credits follow the pacing state it leaves, and that a parked check is presented before PARKS counts it, is deduced (log
29). That a check on a granule the run does not write is decided against its current record is the model's choice (log
24). -/
def Obligations.Redecision : Prop :=
  (∀ (s : State) (base count g : Nat) (records : List (Nat × GranuleRecord)),
     let covered := fun (k : Check) => decide (base ≤ k.granule) && decide (k.granule < base + count)
     let left := s.park.filter (fun k => !covered k)
     let rest := s.park.filter (fun k => !(k.granule == g))
     redecideRun base count records s =
       decideParked (s.park.filter covered) records (presentOccupancy s { s with park := left }) ∧
     redecideGranule g s =
       decideAllResident g (s.park.filter (fun k => k.granule == g)) (presentOccupancy s { s with park := rest }) ∧
     ((∀ e ∈ records, ∃ x, e.2.state = .stable x) →
       (∀ k ∈ s.park, covered k = true → ∃ r, (k.granule, r) ∈ records) →
       (redecideRun base count records s).1.park = left) ∧
     (∀ r x, s.resident g = some r → r.state = .stable x → (redecideGranule g s).park = rest)) ∧
  (∀ (s : State) (g : Nat) (k : Check) (rest : List Check) (r : GranuleRecord) (records : List (Nat × GranuleRecord)),
     let record := (recordOf records k.granule).getD (s.currentRecord k.granule)
     let after := decideCheck k record s
     decideParked [] records s = (s, records) ∧
     decideParked (k :: rest) records s =
       decideParked rest (records.map (fun e => if e.1 = k.granule then (k.granule, after.2) else e)) after.1 ∧
     recordOf [] g = none ∧ recordOf ((g, r) :: records) g = some r ∧
     (∀ g', g' ≠ g → recordOf ((g', r) :: records) g = recordOf records g) ∧
     decideAllResident g [] s = s ∧
     (s.resident g = some r → decideAllResident g (k :: rest) s = decideAllResident g rest (decideResident k r s))) ∧
  (∀ (s : State) (k : Check) (r : GranuleRecord),
     let cacheable := fun (mayCache : Bool) => mayCache && k.cacheWanted && s.settings.caching.getLsbD k.link.val
     let held : GranuleRecord := { r with holders := r.holders ||| (1#6 <<< k.link.val) }
     (∀ rights generation mayCache, decision s k r = .grant rights generation mayCache →
       decideCheck k r s = (answerGrant k rights generation (cacheable mayCache) s,
         if cacheable mayCache then held else r) ∧
       decideResident k r s = if cacheable mayCache && !r.holders.getLsbD k.link.val
         then writeResident k.granule held (answerGrant k rights generation true s)
         else answerGrant k rights generation (cacheable mayCache) s) ∧
     (∀ cls generation, decision s k r = .deny cls generation →
       decideCheck k r s = (answerDenial k cls generation s, r) ∧
       decideResident k r s = answerDenial k cls generation s) ∧
     (decision s k r = .park → decideCheck k r s = (parkCheck k s, r) ∧ decideResident k r s = parkCheck k s) ∧
     (s.park.length < 64 → parkCheck k s =
       countEvent (.ofLink k.link .parks) (presentOccupancy s { s with park := s.park ++ [k] })) ∧
     (64 ≤ s.park.length → parkCheck k s = answerRetry k s))

/-- Pacing: it comes into force at 44 Miss Queue entries or 60 parked checks, ends at 24 and 32, and otherwise stays; at
its end each UP link with withheld credits has one CREDIT frame at the tail of its queue carrying them and any credits
of a CREDIT frame still queued, and none withheld. The watermarks (R162) and pacing are presented with the two
occupancies in every event that changes one: an indicator takes the occupancy in CURRENT, and the higher of the two in
PEAK, and the thresholds are tested; where neither has changed nothing is presented. This is done where an entry joins
or leaves the Miss Queue, where a link that leaves UP has its checks discarded, and, by the same operation, where a
check is parked or taken out to be decided again (Redecision). That a sum above 32 is kept as it is, is the model's
choice (log 35). -/
def Obligations.PacingThresholds : Prop :=
  ∀ s : State,
    (s.pacing = false → (testPacing s).pacing = (decide (44 ≤ s.miss.length) || decide (60 ≤ s.park.length))) ∧
    (s.pacing = true → (testPacing s).pacing = !(decide (s.miss.length ≤ 24) && decide (s.park.length ≤ 32))) ∧
    (testPacing s = { s with pacing := (testPacing s).pacing, links := (testPacing s).links }) ∧
    (∀ l, s.pacing = true → (testPacing s).pacing = false → (s.link l).state = .up → 0 < (s.link l).withheld →
      ((testPacing s).link l).withheld = 0 ∧
      ((testPacing s).link l).tx = (s.link l).tx.filter (fun f => !f.isCredit) ++
        [.credit (queuedCredit (s.link l).tx + (s.link l).withheld)]) ∧
    (∀ tx before rest n, (∀ f ∈ before ++ rest, f.isCredit = false) → (tx = before ++ rest → queuedCredit tx = 0) ∧
      (tx = before ++ .credit n :: rest → queuedCredit tx = n)) ∧
    (∀ l, s.pacing = false ∨ (testPacing s).pacing = true ∨ (s.link l).state ≠ .up ∨ (s.link l).withheld = 0 →
      (testPacing s).link l = s.link l) ∧
    (∀ before : State,
      let mark := fun (mode : WatermarkMode) (occupancy : Nat) (x : Watermark) => { x with
        indicator := if mode = .current ∨ x.indicator ≤ occupancy then occupancy else x.indicator }
      (s.miss.length = before.miss.length → s.park.length = before.park.length → presentOccupancy before s = s) ∧
      (s.miss.length ≠ before.miss.length ∨ s.park.length ≠ before.park.length →
        presentOccupancy before s = testPacing { s with
          parkMark := mark s.settings.parkMode s.park.length s.parkMark
          missMark := mark s.settings.missMode s.miss.length s.missMark })) ∧
    (∀ g w, s.missEntry g = none → s.miss.length < 48 →
      takeMiss g w s = some (presentOccupancy s { s with
        miss := s.miss ++ [{ granule := g, waiters := [w], superseding := none }]
        port := s.port ++ [.read g (s.outstandingWrite g)] })) ∧
    (∀ g, removeEntry g s = presentOccupancy s { s with miss := s.miss.filter (fun e => !(e.granule == g)) }) ∧
    (∀ l, discardChecks l s = presentOccupancy s { s with
      park := s.park.filter (fun k => !(k.link == l))
      miss := s.miss.map (fun e => { e with waiters := e.waiters.filter (fun w => !Waiter.ofLink l w) }) })

/-! ## The Tag Store and the Record Cache -/

/-- TAG_STORE_WRITE_COMPLETE, where the oldest outstanding request for the granule is a write and FILL has none for it:
the Tag Store holds the image written, and the ECC that the write carries (R53), for that granule and what it held for
every other; the request leaves the Port. A write of FILL completes, with its ECC (R59): HELD by domain 0 with {R, W, D}
inside the root range and VACANT outside, generation 0 and no holders; the granule's write is outstanding no more, and
every other granule's stays as it was. FILL ends with the last of them (how the outstanding writes are kept is the
model's own, log 33). -/
def Obligations.TagStoreWrites : Prop :=
  (∀ (s : State) (g : Nat) (image : BitVec 64) (ecc : BitVec 8),
     (∀ f, s.fill = some f → inRanges g f.outstanding = false) → s.oldestReq g = some (.write g image ecc) →
     ∃ t, exec (.tagStoreWriteComplete g) s = .next t ∧ t.stored g = image ∧ t.storedEcc g = some ecc ∧
       (∀ g', g' ≠ g → t.stored g' = s.stored g' ∧ t.storedEcc g' = s.storedEcc g') ∧
       t = { s with store := t.store, port := dropOldest g s.port }) ∧
  (∀ (s : State) (g : Nat) (f : FillWrites), s.fill = some f → inRanges g f.outstanding = true →
     ∃ t, exec (.tagStoreWriteComplete g) s = .next t ∧
       t = { s with store := t.store, fill := t.fill, ctxs := t.ctxs } ∧
       (∀ g', g' ≠ g → t.stored g' = s.stored g' ∧ t.storedEcc g' = s.storedEcc g') ∧
       t.storedEcc g = some (Config.ecc (t.stored g)) ∧
       (∀ b n, f.root = some (b, n) → b ≤ g → g < b + n → decodeImage (t.stored g) =
         some { state := .stable (.held 0 7), generation := 0, holders := 0 }) ∧
       ((∀ b n, f.root = some (b, n) → ¬(b ≤ g ∧ g < b + n)) → decodeImage (t.stored g) =
         some { state := .stable .vacant, generation := 0, holders := 0 }) ∧
       (removeGranule g f.outstanding ≠ [] →
         t.ctxs = s.ctxs ∧ t.fill = some { f with outstanding := removeGranule g f.outstanding }) ∧
       (removeGranule g f.outstanding = [] → t.fill = none ∧
         (∀ c w size b n, s.work c = some w → w.job = .format size b n → w.phase = .fill →
           t.work c = some (w.enterPost .ok none (.counts size (n.getD 0) 0))) ∧
         (∀ c, (∀ w size b n, s.work c = some w → w.job = .format size b n → w.phase ≠ .fill) →
           t.work c = s.work c))) ∧
  (∀ (g g' : Nat) (ranges : List (Nat × Nat)),
     inRanges g' (removeGranule g ranges) = true ↔ g' ≠ g ∧ inRanges g' ranges = true) ∧
  (∀ (g : Nat) (ranges : List (Nat × Nat)),
     inRanges g ranges = true ↔ ∃ range ∈ ranges, range.1 ≤ g ∧ g < range.2)

/-- The record image (Table 11.9) loses nothing: a record with an owner below 1024 and a group below 256 is read back as
it was written, and its image is valid. The bits of the image: the state and the prior by their codes, context, owner,
group, rights, generation and holders; a field that the state does not carry is 0, and so is every unused bit. An image
is invalid exactly when its state code is 7, or it is MOVING or WIPING with a prior code of 4, 5 or 7, or an unused bit
is 1. -/
def Obligations.RecordImage : Prop :=
  (∀ r : GranuleRecord, r.content.ownerField < 1024 → r.content.groupField < 256 →
     imageValid (encodeImage r) = true ∧ decodeImage (encodeImage r) = some r) ∧
  (∀ r : GranuleRecord, r.content.ownerField < 1024 → r.content.groupField < 256 → let x := encodeImage r
     let content := fun (first : Nat) (c : Stable) =>
       (c = .vacant → x.extractLsb' first 3 = 0 ∧ x.extractLsb' 10 21 = 0) ∧
       (c = .wiped → x.extractLsb' first 3 = 1 ∧ x.extractLsb' 10 21 = 0) ∧
       (∀ owner rights, c = .held owner rights → x.extractLsb' first 3 = 2 ∧
         (x.extractLsb' 10 10).toNat = owner ∧ x.extractLsb' 20 8 = 0 ∧ x.extractLsb' 28 3 = rights) ∧
       (∀ owner group rights, c = .shared owner group rights → x.extractLsb' first 3 = 3 ∧
         (x.extractLsb' 10 10).toNat = owner ∧ (x.extractLsb' 20 8).toNat = group ∧ x.extractLsb' 28 3 = rights) ∧
       (c = .fenced → x.extractLsb' first 3 = 6 ∧ x.extractLsb' 10 21 = 0)
     (∀ c, r.state = .stable c → content 0 c ∧ x.extractLsb' 3 3 = 0 ∧ x.extractLsb' 6 4 = 0) ∧
     (∀ ctx c, r.state = .moving ctx c → x.extractLsb' 0 3 = 4 ∧ content 3 c ∧ (x.extractLsb' 6 4).toNat = ctx.val) ∧
     (∀ ctx c, r.state = .wiping ctx c → x.extractLsb' 0 3 = 5 ∧ content 3 c ∧ (x.extractLsb' 6 4).toNat = ctx.val) ∧
     x.extractLsb' 31 1 = 0 ∧ x.extractLsb' 32 8 = r.generation ∧ x.extractLsb' 40 6 = r.holders ∧
     x.extractLsb' 46 18 = 0) ∧
  (∀ image : BitVec 64, imageValid image = false ↔
     image.extractLsb' 0 3 = 7 ∨
     ((image.extractLsb' 0 3 = 4 ∨ image.extractLsb' 0 3 = 5) ∧
       (image.extractLsb' 3 3 = 4 ∨ image.extractLsb' 3 3 = 5 ∨ image.extractLsb' 3 3 = 7)) ∨
     image.getLsbD 31 = true ∨ ∃ i, 46 ≤ i ∧ i < 64 ∧ image.getLsbD i = true)

/-- MISS_QUEUE_FILL, where the oldest outstanding request for the granule is its entry's read: the read leaves the Port,
the content is settled and installed, clean, for every entry; the waiters are then served in arrival order, each against
the resident copy as the turns before it left it, and the entry leaves the queue after them (deduced, log 29). A plain
content is installed; a corrected one is written back to the Tag Store, with its ECC, and counted too; a lost one is
replaced (LostRecordIsReplaced), the replacement is installed and the checks parked on the granule are decided again
(R39). That they are decided before the waiters is deduced (log 15), and that TAG_ERROR is offered and a dirty victim
written back before they are is the model's choice (log 36). That ECC_CORRECTED or TAG_ERRORS is counted before
WRITEBACKS is deduced (log 13). With no waiter left nothing else changes. The content a fill settles: superseding
content before the read; a write the read found outstanding with no ECC outcome; else the DRAM's image, as read,
corrected, or lost where it is uncorrectable or invalid. -/
def Obligations.FillInstallsRecord : Prop :=
  (∀ (s : State) (g : Nat) (e : MissEntry) (forwarded : Option (BitVec 64)) (dram : DramReturn),
     s.missEntry g = some e → s.oldestReq g = some (.read g forwarded) →
     let settled := settle e forwarded (s.stored g) dram
     let installed := installSettled g e.waiters settled { s with port := dropOldest g s.port }
     exec (.missQueueFill g dram) s =
       .next (signalInterrupt s (removeEntry g (serveWaiters e.waiters.length g installed))) ∧
     ∃ t, exec (.missQueueFill g dram) s = .next t ∧ t.missEntry g = none ∧ t.portSide = s.portSide ∧
       t.store = s.store ∧
       (e.waiters = [] → s.resident g = none → ∀ r,
         (settled = .plain r →
           t.resident g = some r ∧ t.domains = s.domains ∧ t.ctxs = s.ctxs ∧ t.park = s.park) ∧
         (settled = .corrected r →
           t.resident g = some r ∧ PortReq.write g (encodeImage r) (Config.ecc (encodeImage r)) ∈ t.port ∧
           t.domains = s.domains ∧ t.ctxs = s.ctxs ∧ t.park = s.park ∧
           (t.counter (.ofPart .eccCorrected)).value = (s.counter (.ofPart .eccCorrected)).value + 1))) ∧
  (∀ (s : State) (g : Nat) (waiters : List Waiter) (r : GranuleRecord),
     let replacement : GranuleRecord := { state := .stable .fenced, generation := 0, holders := 63 }
     let clean := fun (t : State) (r : GranuleRecord) => t.resident g = some r ∧
       ∃ n, (t.cacheSet g).way n = some { granule := g, record := r, dirty := false }
     installSettled g waiters (.plain r) s = installRecord g r s ∧
     installSettled g waiters (.corrected r) s =
       installRecord g r (countEvent (.ofPart .eccCorrected) (issueWrite g r s)) ∧
     installSettled g waiters .lost s = redecideGranule g (installRecord g replacement (loseRecord g waiters s)) ∧
     (s.resident g = none → clean (installSettled g waiters (.plain r) s) r ∧
       clean (installSettled g waiters (.corrected r) s) r ∧ clean (installSettled g waiters .lost s) replacement)) ∧
  (∀ (s : State) (g n : Nat), serveWaiters 0 g s = s ∧
     (∀ e w rest, s.missEntry g = some e → e.waiters = w :: rest → serveWaiters (n + 1) g s =
       serveWaiters n g (serveWaiter g w (modEntry g (fun e => { e with waiters := rest }) s))) ∧
     (∀ e, s.missEntry g = some e → e.waiters = [] → serveWaiters (n + 1) g s = s) ∧
     (∀ r, s.resident g = some r → (∀ k, serveWaiter g (.check k) s = decideResident k r s) ∧
       ∀ c, serveWaiter g (.context c) s = serveContext c r s)) ∧
  (∀ (e : MissEntry) (forwarded : Option (BitVec 64)) (stored : BitVec 64) (dram : DramReturn),
     (∀ r, e.superseding = some r → settle e forwarded stored dram = .plain r) ∧
     (∀ image r, e.superseding = none → forwarded = some image → decodeImage image = some r →
       settle e forwarded stored dram = .plain r) ∧
     (∀ r, e.superseding = none → forwarded = none → decodeImage stored = some r →
       (dram = .good → settle e forwarded stored dram = .plain r) ∧
       (dram = .singleBit → settle e forwarded stored dram = .corrected r)) ∧
     (e.superseding = none → forwarded = none →
       (dram = .uncorrectable ∨ (∃ image, dram = .invalid image ∧ imageValid image = false) ∨
         (imageValid stored = false ∧ (dram = .good ∨ dram = .singleBit))) →
       settle e forwarded stored dram = .lost))

/-- The loss of a record at a fill: the replacement, FENCED with generation 0 and all six holders, is written to the Tag
Store Port with a fresh ECC (R171), TAG_ERROR is offered with the granule, its first waiter and whether it was under
change, TAG_ERRORS advances, and a run whose image holds the granule loses it and counts it fenced. -/
def Obligations.LostRecordIsReplaced : Prop :=
  ∀ (s : State) (g : Nat) (waiters : List Waiter), let t := loseRecord g waiters s
    let image := encodeImage { state := .stable .fenced, generation := 0, holders := 63 }
    t.port = s.port ++ [.write g image (Config.ecc image)] ∧
    (if s.notices.length < 64 then ∃ rest, t.notices = s.notices ++
        { body := .tagError g (firstWaiter waiters) (anyCtx s (Work.holdsImage g)), lostBefore := s.noticeLost } :: rest
     else t.notices = s.notices ∧ t.noticeLost = true) ∧
    (t.counter (.ofPart .tagErrors)).value = (s.counter (.ofPart .tagErrors)).value + 1 ∧
    (∀ c w r, s.work c = some w → w.run = some r → (∃ m, (g, m) ∈ r.image) → t.work c = some { w with
      run := some { r with image := r.image.filter (fun e => !(e.1 == g)) }, fenced := w.fenced + 1 }) ∧
    (∀ c w, s.work c = some w → (∀ r m, w.run = some r → (g, m) ∉ r.image) → t.work c = some w) ∧
    (t.domains, t.groups, t.store, t.cache, t.links, t.park) = (s.domains, s.groups, s.store, s.cache, s.links, s.park)

/-- The way a fill takes (Table 3.5): an invalid way, way 0 first; else the LRU way, unless it is dirty and the other
clean. The record is installed there, clean, and the mark names the other way; a dirty victim is written back with its
ECC, WRITEBACKS advances by 1, with COUNTER_WRAP at its wrap, and with no write-back nothing else changes. A run write
of one record (R47): in its way where it is resident, which becomes dirty, the LRU mark naming the other way; else a
write of it is issued to the Port, and an entry of the granule takes it as superseding content. The other sets of the
cache stay as they are. A run write of a run's records writes them one by one, in their order. -/
def Obligations.CacheWrites : Prop :=
  (∀ (s : State) (g : Nat) (r : GranuleRecord),
     let x := s.cacheSet g
     let t := installRecord g r s
     let installed := fun (n : WayName) (victim : Option Way) =>
       (t.cacheSet g).way n = some { granule := g, record := r, dirty := false } ∧
       (t.cacheSet g).way n.other = x.way n.other ∧ (t.cacheSet g).lru = n.other ∧
       (∀ g', Sys2Proof.Machine.setOf g' ≠ Sys2Proof.Machine.setOf g → t.cacheSet g' = s.cacheSet g') ∧
       (∀ w, victim = some w → w.dirty = true →
         let written := countEvent (.ofPart .writebacks)
           { s with port := s.port ++ [.write w.granule (encodeImage w.record) (Config.ecc (encodeImage w.record))] }
         t = { written with cache := t.cache } ∧
         (t.counter (.ofPart .writebacks)).value = (s.counter (.ofPart .writebacks)).value + 1 ∧
         ((s.counter (.ofPart .writebacks)).value ≠ BitVec.allOnes 32 →
           t.notices = s.notices ∧ t.noticeLost = s.noticeLost) ∧
         ((s.counter (.ofPart .writebacks)).value = BitVec.allOnes 32 → s.notices.length < 64 →
           t.notices = s.notices ++
             [{ body := .counterWrap (.ofPart .writebacks), lostBefore := s.noticeLost }])) ∧
       ((∀ w, victim = some w → w.dirty = false) → t = { s with cache := t.cache })
     (x.way0 = none → installed .way0 none) ∧
     (x.way0 ≠ none → x.way1 = none → installed .way1 none) ∧
     (∀ w v, x.way x.lru = some w → x.way x.lru.other = some v →
       (w.dirty = false ∨ v.dirty = true → installed x.lru (some w)) ∧
       (w.dirty = true → v.dirty = false → installed x.lru.other (some v)))) ∧
  (∀ (s : State) (g : Nat) (r : GranuleRecord), let t := runWriteRecord s (g, r)
     (s.resident g ≠ none → t.resident g = some r ∧ t.port = s.port ∧ t.miss = s.miss ∧
       ∃ n, (s.cacheSet g).find g = some n ∧
         (t.cacheSet g).way n = some { granule := g, record := r, dirty := true } ∧
         (t.cacheSet g).way n.other = (s.cacheSet g).way n.other ∧ (t.cacheSet g).lru = n.other) ∧
     (∀ g', Sys2Proof.Machine.setOf g' ≠ Sys2Proof.Machine.setOf g → t.cacheSet g' = s.cacheSet g') ∧
     (s.resident g = none → t.cache = s.cache ∧
       t.port = s.port ++ [.write g (encodeImage r) (Config.ecc (encodeImage r))] ∧
       t.miss = s.miss.map (fun x => if x.granule = g then { x with superseding := some r } else x)) ∧
     t = { s with cache := t.cache, port := t.port, miss := t.miss }) ∧
  (∀ s : State, runWrite [] s = s) ∧
  (∀ (e : Nat × GranuleRecord) (rest : List (Nat × GranuleRecord)) (s : State),
     runWrite (e :: rest) s = runWrite rest (runWriteRecord s e))

/-! ## Changes -/

/-- The order of a run (R87): the largest from 0 to 9 whose block is aligned at the cursor, fits in what remains, and
has no window boundary strictly inside. The order of a sweep's run at the first granule of its reclaim list (R129): the
largest whose block is aligned there, lies whole in the reclaim list, and has no window boundary strictly inside. -/
def Obligations.RunOrderIsLargest : Prop :=
  (∀ (s : State) (cursor remaining : Nat), 0 < remaining →
     let fits := fun k => k ≤ 9 ∧ cursor % 2 ^ k = 0 ∧ 2 ^ k ≤ remaining ∧
       ∀ h ∈ s.windows, ¬(cursor < h.base ∧ h.base < cursor + 2 ^ k) ∧
         ¬(cursor < h.base + h.count ∧ h.base + h.count < cursor + 2 ^ k)
     fits (carveOrder s cursor remaining) ∧ ∀ k, fits k → k ≤ carveOrder s cursor remaining) ∧
  (∀ (s : State) (p : Nat) (rest : List Nat),
     let reclaim := p :: rest
     let fits := fun k => k ≤ 9 ∧ p % 2 ^ k = 0 ∧ reclaim.take (2 ^ k) = List.range' p (2 ^ k) ∧
       ∀ h ∈ s.windows, ¬(p < h.base ∧ h.base < p + 2 ^ k) ∧
         ¬(p < h.base + h.count ∧ h.base + h.count < p + 2 ^ k)
     fits (sweepOrder s p reclaim) ∧ ∀ k, fits k → k ≤ sweepOrder s p reclaim)

/-- RECORD_READ of a QUERY or of VALIDATE on a hit: the QUERY's context enters POST with status OK and the image of the
record; VALIDATE refuses a record that fails its tests, giving back the whole reservation, and goes on to the next
granule after one that passes, keeping whether it has met a VACANT and a HELD record (R100). CACHE_HITS advances by 1,
after the service (deduced, log 13), and the record is left as it is. A record read or a record update that misses (R46,
R49): the request joins the entry of its granule, or makes a new entry and a read is issued, and waits; a full entry or
a full queue refuses it, and it stays ready, to be presented again. CACHE_MISSES advances by 1. A read that waited and
is served at a fill is carried out the same way on the copy installed. -/
def Obligations.RecordReadOnHit : Prop :=
  (∀ (s : State) (c : CtxId) (w : Work) (r : GranuleRecord),
     s.nextGrant = some (.engine c .read) → s.work c = some w → s.resident w.next = some r →
     ∃ t, exec .recordRead s = .next t ∧ t.portPtr = 6 ∧ t.enginePtr = c ∧ t.portSide = s.portSide ∧
       t.resident w.next = some r ∧ t.links = s.links ∧ t.park = s.park ∧ t.miss = s.miss ∧ t.store = s.store ∧
       t.port = s.port ∧
       t = signalInterrupt s (countEvent (.ofPart .cacheHits)
         (touchResident w.next (serveContext c r (engineGranted c s)))) ∧
       (t.counter (.ofPart .cacheHits)).value = (s.counter (.ofPart .cacheHits)).value + 1 ∧
       (∀ g, w.job = .query g → t.domains = s.domains ∧ ∃ w', t.work c = some w' ∧ w'.phase = .post ∧ w'.result = some
         { tag := w.tag, kind := 0x08, status := .ok, reason := none, body := .image (encodeImage r) }) ∧
       (∀ base count expected op reason, w.job = .range base count expected op →
         validateTest s w op expected w.next r = some reason →
         t.domains = (releaseReservation w.job count s).domains ∧
         t.groups = (releaseReservation w.job count s).groups ∧
         ∃ w', t.work c = some w' ∧ w'.phase = .post ∧ w'.result = some
           { tag := w.tag, kind := w.job.kindCode, status := .refused, reason := some reason, body := .counts 0 0 0 }) ∧
       (∀ base count expected op, w.job = .range base count expected op →
         validateTest s w op expected w.next r = none → t.domains = s.domains ∧ t.groups = s.groups ∧
         (w.next + 1 < base + count → ∃ w', t.work c = some w' ∧ w'.phase = w.phase ∧ w'.request = .read ∧
           w'.next = w.next + 1 ∧ w'.waiting = false ∧
           w'.sawVacant = (w.sawVacant || decide (r.state = .stable .vacant)) ∧
           (w'.sawHeld = true ↔ w.sawHeld = true ∨ ∃ d rights, r.state = .stable (.held d rights))) ∧
         (base + count ≤ w.next + 1 → ∃ w' run, t.work c = some w' ∧ w'.phase = .mark ∧ w'.request = .update ∧
           w'.next = w.cursor ∧ w'.run = some run ∧ run.base = w.cursor ∧
           run.order = carveOrder s w.cursor (base + count - w.cursor) ∧ run.image = [] ∧ run.union = 0 ∧
           run.cleared = 0 ∧ run.outcome = .clean ∧ run.wipe = .notSent ∧ run.deadline = none ∧
           ∀ l, run.mark l = .noMark))) ∧
  (∀ (s : State) (c : CtxId) (w : Work) (request : Request) (command : Instr),
     (request = .read ∧ command = .recordRead) ∨ (request = .update ∧ command = .recordUpdate) →
     s.nextGrant = some (.engine c request) → s.work c = some w → s.resident w.next = none →
     ∃ t, exec command s = .next t ∧ t.portPtr = 6 ∧ t.enginePtr = c ∧ t.portSide = s.portSide ∧ t.park = s.park ∧
       t.cache = s.cache ∧ t.domains = s.domains ∧ t.groups = s.groups ∧ t.store = s.store ∧
       (∀ c', c' ≠ c → t.work c' = s.work c') ∧
       (t.counter (.ofPart .cacheMisses)).value = (s.counter (.ofPart .cacheMisses)).value + 1 ∧
       let waits := t.work c = some { w with waiting := true }
       let refused := t.work c = some w ∧ t.miss = s.miss
       (∀ e, s.missEntry w.next = some e → t.port = s.port ∧ t.links = s.links ∧
         (e.waiters.length < 8 → waits ∧ t.miss = s.miss.map (fun x =>
           if x.granule = w.next then { x with waiters := x.waiters ++ [.context c] } else x)) ∧
         (8 ≤ e.waiters.length → refused)) ∧
       (s.missEntry w.next = none →
         (s.miss.length < 48 → waits ∧
           t.miss = s.miss ++ [{ granule := w.next, waiters := [.context c], superseding := none }] ∧
           t.port = s.port ++ [.read w.next (s.outstandingWrite w.next)]) ∧
         (48 ≤ s.miss.length → refused ∧ t.port = s.port ∧ t.links = s.links))) ∧
  (∀ (s : State) (c : CtxId) (w : Work) (r : GranuleRecord), s.work c = some w → w.request = .read →
     let served : Work := { w with waiting := false }
     let posted := fun (status : Status) (reason : Option Reason) (body : ResponseBody) =>
       setWork c (some { served with
         phase := .post, request := .noRequest, run := none, window := none, reclaim := []
         result := some { tag := w.tag, kind := w.job.kindCode, status := status, reason := reason, body := body } }) s
     (∀ g, w.job = .query g → serveContext c r s = posted .ok none (.image (encodeImage r))) ∧
     (∀ base count expected op, w.job = .range base count expected op →
       let noted : Work := { served with
         sawVacant := w.sawVacant || decide (r.state = .stable .vacant)
         sawHeld := w.sawHeld || r.state.heldBy.isSome }
       (∀ reason, validateTest s w op expected w.next r = some reason →
         serveContext c r s = releaseReservation w.job count (posted .refused (some reason) (.counts 0 0 0))) ∧
       (validateTest s w op expected w.next r = none → w.next + 1 < base + count →
         serveContext c r s = setWork c (some { noted with next := w.next + 1 }) s) ∧
       (validateTest s w op expected w.next r = none → base + count ≤ w.next + 1 →
         serveContext c r s =
           setWork c (some (noted.startRun w.cursor (carveOrder s w.cursor (base + count - w.cursor)))) s)))

/-- The tests of VALIDATE on a record (Table 5.4), the first that fails giving the reason: a record that is MOVING or
WIPING, or not accepted, or that makes an ASSIGN's range hold both a VACANT record and a HELD one (R100), SOURCE_STATE;
a generation other than the one expected, STALE; a record that needs a wipe, is not unchanged and has no home, NO_HOME;
a FENCED record under RELEASE_FENCE with a holder link FAILED or OFF, LINK_FAILED. The columns of Table 5.6, command by
command: the contents accepted, those counted unchanged, and those that need a recall and a wipe. -/
def Obligations.ValidateTests : Prop :=
  (∀ (s : State) (w : Work) (op : RangeOp) (expected : Option (BitVec 8)) (g : Nat) (r : GranuleRecord),
     (∀ c x, r.state = .moving c x ∨ r.state = .wiping c x → validateTest s w op expected g r = some .sourceState) ∧
     ∀ x, r.state = .stable x →
       let mixed := ∃ d rights, op = .assign d rights ∧ ((x = .vacant ∧ w.sawHeld = true) ∨
         ((∃ o held, x = .held o held) ∧ w.sawVacant = true))
       let accepted := op.accepts x = true ∧ ¬mixed
       let stale := ∃ e, expected = some e ∧ e ≠ r.generation
       let homeless := op.needsWipe x = true ∧ op.unchanged x = false ∧ s.homeLink g = none
       let down := op = .releaseFence ∧ x = .fenced ∧
         ∃ l : LinkId, r.holders.getLsbD l.val = true ∧ ((s.link l).state = .failed ∨ (s.link l).state = .off)
       (¬accepted → validateTest s w op expected g r = some .sourceState) ∧
       (accepted → stale → validateTest s w op expected g r = some .stale) ∧
       (accepted → ¬stale → homeless → validateTest s w op expected g r = some .noHome) ∧
       (accepted → ¬stale → ¬homeless → down → validateTest s w op expected g r = some .linkFailed) ∧
       (accepted → ¬stale → ¬homeless → ¬down → validateTest s w op expected g r = none)) ∧
  (∀ (d taker group : Nat) (rights : Rights) (wiping : Bool) (x : Stable),
     let columns := fun (op : RangeOp) (accepted unchanged recalls wipes : Prop) =>
       (op.accepts x = true ↔ accepted) ∧ (op.unchanged x = true ↔ unchanged) ∧
       (op.needsRecall x = true ↔ recalls) ∧ (op.needsWipe x = true ↔ wipes)
     columns (.assign d rights) (x = .vacant ∨ x = .wiped ∨ ∃ old, x = .held d old) (x = .held d rights)
       (∃ old, x = .held d old ∧ old &&& ~~~rights ≠ 0) (x = .vacant) ∧
     columns (.reclaim d wiping) ((∃ old, x = .held d old) ∨ x = .wiped ∨ (wiping = false ∧ x = .vacant))
       (x = .wiped ∨ (wiping = false ∧ x = .vacant)) True (wiping = true) ∧
     columns (.transfer d taker rights wiping) (∃ old, x = .held d old) False True (wiping = true) ∧
     columns (.share d group) ((∃ old, x = .held d old) ∨ ∃ old, x = .shared d group old)
      (∃ old, x = .shared d group old)
       False False ∧
     columns (.unshare group) (∃ o old, x = .shared o group old) False True False ∧
     columns .wipe (x = .vacant ∨ x = .wiped) (x = .wiped) False True ∧
     columns .releaseFence (x = .fenced ∨ x = .vacant) (x = .vacant) True False)

/-- What the seven range commands write at a clean commit (Table 5.6). A record as its run's commit writes it: the
command's result where the run is CLEAN, WIPED after an ABORT in WIPE, FENCED where the run is fenced; generation + 1
and holders less the cleared links in every case. The tables at the commit of one record: held counts of its old and its
new owner (R9). What giving back `n` granules of a reservation does: incoming of the receiving domain falls for ASSIGN
and TRANSFER, the reference count of the group for SHARE, nothing for the others. -/
def Obligations.CommittedRecordAndTables : Prop :=
  (∀ (d taker group : Nat) (rights : Rights) (x : Stable),
     (RangeOp.assign d rights).result x = .held d rights ∧
     (RangeOp.reclaim d true).result x = .wiped ∧ (RangeOp.reclaim d false).result x = .vacant ∧
     (∀ wipe, (RangeOp.transfer d taker rights wipe).result x = .held taker rights) ∧
     (RangeOp.share d group).result (.held d rights) = .shared d group rights ∧
     (RangeOp.unshare group).result (.shared d group rights) = .held d rights ∧
     RangeOp.wipe.result x = .wiped ∧ RangeOp.releaseFence.result x = .vacant) ∧
  (∀ (op : RangeOp) (run : Run) (asWiped : Bool) (r : GranuleRecord),
     let t := committedRecord op run asWiped r
     t.generation = r.generation + 1 ∧ (∀ l : LinkId, t.holders.getLsbD l.val =
       (r.holders.getLsbD l.val && !run.cleared.getLsbD l.val)) ∧
     (run.outcome = .clean → asWiped = false → t.state = .stable (op.result r.content)) ∧
     (run.outcome = .clean → asWiped = true → t.state = .stable .wiped) ∧
     (∀ cause link, run.outcome = .fenced cause link → t.state = .stable .fenced)) ∧
  (∀ (s : State) (old new : Stable),
     (∀ d, old.owner = some d → new.owner = some d → adjustHeld old new s = s) ∧
     (old.owner = none → new.owner = none → adjustHeld old new s = s) ∧
     (∀ d, old.owner = some d → new.owner = none →
       adjustHeld old new s = modDomain d (fun r => { r with held := r.held - 1 }) s) ∧
     (∀ d, old.owner = none → new.owner = some d →
       adjustHeld old new s = modDomain d (fun r => { r with held := r.held + 1 }) s) ∧
     (∀ d d', d ≠ d' → old.owner = some d → new.owner = some d' →
       (adjustHeld old new s).domain d = { s.domain d with held := (s.domain d).held - 1 } ∧
       (adjustHeld old new s).domain d' = { s.domain d' with held := (s.domain d').held + 1 } ∧
       ∀ x, x ≠ d → x ≠ d' → (adjustHeld old new s).domain x = s.domain x)) ∧
  (∀ (s : State) (n base count : Nat) (e : Option (BitVec 8)),
     (∀ d rights, releaseReservation (.range base count e (.assign d rights)) n s =
       modDomain d (fun r => { r with incoming := r.incoming - n }) s) ∧
     (∀ giver taker rights wipe, releaseReservation (.range base count e (.transfer giver taker rights wipe)) n s =
       modDomain taker (fun r => { r with incoming := r.incoming - n }) s) ∧
     (∀ owner group, releaseReservation (.range base count e (.share owner group)) n s =
       modGroup group (fun r => { r with refs := r.refs - n }) s) ∧
     (∀ d wipe, releaseReservation (.range base count e (.reclaim d wipe)) n s = s) ∧
     (∀ g, releaseReservation (.range base count e (.unshare g)) n s = s) ∧
     releaseReservation (.range base count e .wipe) n s = s ∧
     releaseReservation (.range base count e .releaseFence) n s = s ∧
     (∀ g, releaseReservation (.query g) n s = s) ∧ (∀ d, releaseReservation (.closeDomain d) n s = s))

/-- RECORD_UPDATE of MARK on a hit, short of the run's last granule: an unchanged record is counted and not written; a
FENCED one is counted fenced, except under RELEASE_FENCE; any other is written MOVING with its prior and this context,
everything else kept, its way dirty, and joins the run image and the union; CACHE_HITS advances by 1 and the LRU mark
names the way not used. At the run's last granule the record is taken the same way and MARK ends in that event (R89), by
the first case that holds: an empty image ends the run, its reservation given back; a recall that some record needs,
with holders in the union, is fanned out; a wipe that some record needs is presented; else the commit is. That
CACHE_HITS, with its COUNTER_WRAP, is counted after the end of MARK and its fan-out is deduced (log 13), and so is that
the run's need of a wipe is settled and held there (log 16). A request served at a fill is carried out the same way on
the copy installed, and a context with no record request is served nothing. -/
def Obligations.RecordUpdateMarks : Prop :=
  (∀ (s : State) (c : CtxId) (w : Work) (run : Run) (op : RangeOp) (r : GranuleRecord) (x : Stable),
     s.nextGrant = some (.engine c .update) → s.work c = some w → w.run = some run → w.job.op = some op →
     s.resident w.next = some r → r.state = .stable x → w.next + 1 < run.base + 2 ^ run.order →
     ∃ t w', exec .recordUpdate s = .next t ∧ t.work c = some w' ∧ (∀ c', c' ≠ c → t.work c' = s.work c') ∧
       t.portPtr = 6 ∧ t.enginePtr = c ∧ t.portSide = s.portSide ∧ t.domains = s.domains ∧ t.groups = s.groups ∧
       t.links = s.links ∧ t.park = s.park ∧ t.miss = s.miss ∧ t.store = s.store ∧ t.port = s.port ∧
       (t.counter (.ofPart .cacheHits)).value = (s.counter (.ofPart .cacheHits)).value + 1 ∧
       (∀ g, Sys2Proof.Machine.setOf g ≠ Sys2Proof.Machine.setOf w.next → t.cacheSet g = s.cacheSet g) ∧
       let wayIs := fun (after : GranuleRecord) (written : Bool) => t.resident w.next = some after ∧
         ∃ n y, (s.cacheSet w.next).find w.next = some n ∧ (s.cacheSet w.next).way n = some y ∧
           (t.cacheSet w.next).way n = some { y with record := after, dirty := y.dirty || written } ∧
           (t.cacheSet w.next).way n.other = (s.cacheSet w.next).way n.other ∧ (t.cacheSet w.next).lru = n.other
       w'.phase = w.phase ∧ w'.request = .update ∧ w'.next = w.next + 1 ∧ w'.changed = w.changed ∧
       (op.unchanged x = true → wayIs r false ∧ w'.unchanged = w.unchanged + 1 ∧
         w'.fenced = w.fenced ∧ w'.run = some run) ∧
       (op.unchanged x = false → x = .fenced → op ≠ .releaseFence → wayIs r false ∧
         w'.fenced = w.fenced + 1 ∧ w'.unchanged = w.unchanged ∧ w'.run = some run) ∧
       (op.unchanged x = false → x ≠ .fenced ∨ op = .releaseFence →
         let marked : GranuleRecord := { r with state := .moving c x }
         wayIs marked true ∧ w'.unchanged = w.unchanged ∧ w'.fenced = w.fenced ∧
         w'.run = some { run with image := run.image ++ [(w.next, marked)], union := run.union ||| r.holders })) ∧
  (∀ (s : State) (c : CtxId) (w : Work) (run : Run) (op : RangeOp) (r : GranuleRecord),
     s.nextGrant = some (.engine c .update) → s.work c = some w → w.run = some run → w.job.op = some op →
     s.resident w.next = some r → run.base + 2 ^ run.order ≤ w.next + 1 →
     exec .recordUpdate s = .next (signalInterrupt s (countEvent (.ofPart .cacheHits) (touchResident w.next
       (endMark c (markRecord c { w with waiting := false } op r (engineGranted c s))))))) ∧
  (∀ (s : State) (c : CtxId) (w : Work) (run : Run) (op : RangeOp) (r : GranuleRecord) (x : Stable),
     w.run = some run → r.state = .stable x →
     (op.unchanged x = true → markRecord c w op r s = setWork c (some { w with unchanged := w.unchanged + 1 }) s) ∧
     (op.unchanged x = false → x = .fenced → op ≠ .releaseFence →
       markRecord c w op r s = setWork c (some { w with fenced := w.fenced + 1 }) s) ∧
     (op.unchanged x = false → x ≠ .fenced ∨ op = .releaseFence →
       let marked : GranuleRecord := { r with state := .moving c x }
       let run' : Run := { run with image := run.image ++ [(w.next, marked)], union := run.union ||| r.holders }
       markRecord c w op r s = writeResident w.next marked (setWork c (some { w with run := some run' }) s))) ∧
  (∀ (s : State) (c : CtxId) (w : Work) (run : Run) (op : RangeOp),
     s.work c = some w → w.run = some run → w.job.op = some op →
     let recalls := ∃ e ∈ run.image, op.needsRecall e.2.content = true
     let wipes := run.image.any (fun e => op.needsWipe e.2.content)
     let worked : Work := { w with run := some { run with needsWipe := wipes } }
     (run.image = [] → endMark c s = endRun c (releaseReservation w.job (2 ^ run.order) s)) ∧
     (run.image ≠ [] → recalls → run.union ≠ 0 →
       endMark c s = recallFanOut c run.base run.order run.union (setWork c (some worked) s)) ∧
     (run.image ≠ [] → ¬(recalls ∧ run.union ≠ 0) → wipes = true →
       endMark c s = setWork c (some { worked with phase := .wipe, request := .wipeStart, waiting := false }) s) ∧
     (run.image ≠ [] → ¬(recalls ∧ run.union ≠ 0) → wipes = false →
       endMark c s = setWork c (some { worked with phase := .commit, request := .commit false, waiting := false }) s)) ∧
  (∀ (s : State) (c : CtxId) (w : Work) (run : Run) (op : RangeOp) (r : GranuleRecord),
     s.work c = some w → w.request = .update → w.run = some run → w.job.op = some op →
     let taken := markRecord c { w with waiting := false } op r s
     (w.next + 1 < run.base + 2 ^ run.order → ∃ w', taken.work c = some w' ∧
       serveContext c r s = setWork c (some { w' with next := w.next + 1 }) taken) ∧
     (run.base + 2 ^ run.order ≤ w.next + 1 → serveContext c r s = endMark c taken)) ∧
  (∀ (s : State) (c : CtxId) (r : GranuleRecord),
     (∀ w, s.work c = some w → w.request ≠ .read ∧ w.request ≠ .update) → serveContext c r s = s)

/-- The recall fan-out toward one link by its state (Table 5.5): an UP link with a place for the order is sent a RECALL
and awaited; one whose 38 places are taken leaves UP with cause PROTOCOL, and its mark waits for the rejoin (R147); a
REJOINING link's mark waits for its rejoin; a FAILED or OFF link fences the run. The fan-out goes to the links of the
union, in ascending order (the model's choice, log 14), in one event: the context enters RECALL and the recall deadline
starts, unless no mark is set, when the recall phase ends in the same event (R90). The end of the recall phase (Table
5.5b): the deadline is absent; a fenced run commits; a clean one reverts under the abort mark, and else is wiped where
it needs a wipe, or commits. That a context which reverts stays in RECALL until the revert is written is deduced (log
30), and so is that the need of a wipe was settled at the end of MARK (log 16). -/
def Obligations.RecallFanOutByLinkState : Prop :=
  (∀ (s : State) (c : CtxId) (base order : Nat) (l : LinkId) (w : Work) (r : Run),
     s.work c = some w → w.run = some r →
     ((s.link l).state = .up → orderCount (s.link l) < 38 →
       let t := recallTo c base order l s
       t.work c = some { w with run := some (r.setMark l .awaitingAck) } ∧
       t.link l = { s.link l with tx := (s.link l).tx ++ [.recall base order c (s.runSeq c)] } ∧
       (t.counter (.ofLink l .recallsSent)).value = (s.counter (.ofLink l .recallsSent)).value + 1) ∧
     ((s.link l).state = .rejoining →
       recallTo c base order l s = setWork c (some { w with run := some (r.setMark l .awaitingRejoin) }) s) ∧
     ((s.link l).state = .failed →
       recallTo c base order l s = setWork c (some { w with run := some (r.fence .linkFailed (some l)) }) s) ∧
     ((s.link l).state = .off →
       recallTo c base order l s = setWork c (some { w with run := some (r.fence .linkOff (some l)) }) s) ∧
     ((s.link l).state = .up → 38 ≤ orderCount (s.link l) →
       let left := leaveUpToRejoin l .protocol s
       recallTo c base order l s = modWork c (Work.modRun (fun r => r.setMark l .awaitingRejoin)) left ∧
       (left.link l).state = .rejoining ∧ (left.link l).attempt = 1 ∧
       (left.link l).rejoinNumber = (s.link l).rejoinNumber + 1 ∧
       ∀ c', left.work c' = (s.work c').map (Work.linkRejoining l))) ∧
  (∀ (s : State) (c : CtxId) (base order : Nat) (union : LinkSet) (w : Work), s.work c = some w →
     let entered := setWork c (some { w with phase := .recall, request := .noRequest, waiting := false }) s
     let asked := (allLinks.filter (fun l => union.getLsbD l.val)).foldl (fun s l => recallTo c base order l s) entered
     ∀ w' r, asked.work c = some w' → w'.run = some r →
       ((∀ l, r.mark l = .noMark) → recallFanOut c base order union s = setWork c (some w'.endRecall) asked) ∧
       ((∃ l, r.mark l ≠ .noMark) → recallFanOut c base order union s = setWork c (some { w' with
         run := some { r with deadline := some (.recall s.settings.recallDeadline) } }) asked)) ∧
  (∀ (w : Work) (r : Run), w.run = some r →
     let ended : Work := { w with run := some { r with deadline := none } }
     let commits : Work := { ended with phase := .commit, request := .commit false, waiting := false }
     (∀ cause link, r.outcome = .fenced cause link → w.endRecall = commits) ∧
     (r.outcome = .clean → w.abortMark = true → w.endRecall = { ended with request := .revert }) ∧
     (r.outcome = .clean → w.abortMark = false → r.needsWipe = true →
       w.endRecall = { ended with phase := .wipe, request := .wipeStart }) ∧
     (r.outcome = .clean → w.abortMark = false → r.needsWipe = false → w.endRecall = commits))

/-- WIPE_START: with the home link UP and a place for the order, every record of the image becomes WIPING in it, a WIPE
order goes to the tail of the home link's queue, the wipe is outstanding and its deadline runs; with the home link not
UP the run is fenced and the context enters COMMIT; with all 38 places of an UP home link taken, that link first leaves
UP with cause PROTOCOL, and the run is fenced as its wipe's loss fences it (R147). R130 (7.3) fences a sweep's run with
no home so; that a range command's run with no home is taken the same way is the model's choice (log 23). -/
def Obligations.WipeStartSendsOrFences : Prop :=
  ∀ (s : State) (c : CtxId) (w : Work) (r : Run),
    s.nextGrant = some (.engine c .wipeStart) → s.work c = some w → w.run = some r → r.outcome = .clean →
    ∃ t, exec .wipeStart s = .next t ∧ t.portPtr = 6 ∧ t.enginePtr = c ∧ t.portSide = s.portSide ∧
      t.domains = s.domains ∧ t.groups = s.groups ∧ t.store = s.store ∧
      (∀ l, s.homeLink r.base = some l → (s.link l).state = .up → orderCount (s.link l) < 38 →
        let image := r.image.map (fun e => (e.1, { e.2 with state := .wiping c e.2.content }))
        t.work c = some { w with
          request := .noRequest, waiting := false
          run := some { r with
            image := image, wipe := .outstanding l, deadline := some (.wipe s.settings.wipeDeadline) } } ∧
        t.link l = { s.link l with tx := (s.link l).tx ++ [.wipe r.base r.order c (s.runSeq c)] } ∧
        (∀ l', l' ≠ l → t.link l' = s.link l') ∧ (∀ c', c' ≠ c → t.work c' = s.work c') ∧
        (t.cache, t.miss, t.port) = ((runWrite image s).cache, (runWrite image s).miss, (runWrite image s).port)) ∧
      (∀ home, s.homeLink r.base = home → (∀ l, home = some l → (s.link l).state ≠ .up) →
        t.work c = some { w with
          run := some { r with outcome := .fenced .wipeLinkDown home, wipe := .notSent, deadline := none }
          phase := .commit, request := .commit false, waiting := false } ∧
        t.links = s.links ∧ t.cache = s.cache ∧ t.miss = s.miss ∧ t.port = s.port) ∧
      (∀ l, s.homeLink r.base = some l → (s.link l).state = .up → 38 ≤ orderCount (s.link l) →
        r.mark l ≠ .awaitingAck → r.wipe ≠ .outstanding l →
        t = signalInterrupt s (modWork c (Work.failWipe .wipeLinkDown (some l))
          (leaveUpToRejoin l .protocol (engineGranted c s))) ∧
        t.work c = some { w with
          run := some { r with outcome := .fenced .wipeLinkDown (some l), wipe := .notSent, deadline := none }
          phase := .commit, request := .commit false, waiting := false } ∧
        (t.link l).state = .rejoining ∧ (t.link l).attempt = 1 ∧
        (t.link l).rejoinNumber = (s.link l).rejoinNumber + 1 ∧ t.cache = s.cache ∧ t.port = s.port)

/-- COMMIT_RUN_WRITE of a range command's run with no check parked on it: the records of the image are written in one
run write, the counts rise, the run sequence advances, and the context goes on to its next run, or to POST with PARTIAL
where a record was fenced, OK otherwise, ABORTED under the abort mark. Every run of every command, with checks parked on
it or not: the tables are adjusted, the counts rise, the parked checks are decided again (Redecision), the records are
written as that leaves them, FENCED is offered, and the run ends (R98). The tables (R97, R117): each owner lost and
gained among the records moves held by 1, incoming of the receiving domain falls by 2^order, the group's references fall
by 2^order and rise by the records written SHARED under SHARE, and fall by the records written under UNSHARE. A sweep's
run (R130): held of each owner falls by 1 per record written, and no other count of the tables changes. The records of a
clean commit raise changed (a sweep's reclaimed figure), those of a fenced one raise fenced. FENCED (R118) is offered
for a fenced run that writes a record, with the tag, kind, context, base, order, number of records, cause and link. The
end of a range command's run (R98), as after an empty run. -/
def Obligations.CommitWritesTheRun : Prop :=
  (∀ (s : State) (c : CtxId) (w : Work) (run : Run) (asWiped : Bool) (base count : Nat) (e : Option (BitVec 8))
     (op : RangeOp),
     s.nextGrant = some (.engine c (.commit asWiped)) → s.work c = some w → w.run = some run →
     w.job = .range base count e op →
     (∀ k ∈ s.park, ¬(run.base ≤ k.granule ∧ k.granule < run.base + 2 ^ run.order)) →
     let records := run.image.map (fun e => (e.1, committedRecord op run asWiped e.2))
     let written := runWrite records s
     let changed := if run.outcome = .clean then w.changed + run.image.length else w.changed
     let fenced := if run.outcome = .clean then w.fenced else w.fenced + run.image.length
     let cursor := run.base + 2 ^ run.order
     ∃ t w', exec .commitRunWrite s = .next t ∧ t.work c = some w' ∧ (∀ c', c' ≠ c → t.work c' = s.work c') ∧
       (t.cache, t.port, t.miss) = (written.cache, written.port, written.miss) ∧ t.store = s.store ∧
       t.portPtr = 6 ∧ t.enginePtr = c ∧ t.portSide = s.portSide ∧ t.park = s.park ∧ t.links = s.links ∧
       t.runSeq c = s.runSeq c + 1 ∧ w'.changed = changed ∧ w'.unchanged = w.unchanged ∧ w'.fenced = fenced ∧
       w'.cursor = cursor ∧
       (w.abortMark = true → w'.phase = .post ∧ w'.run = none ∧ w'.result = some
         { tag := w.tag, kind := w.job.kindCode, status := .aborted, reason := none,
           body := .counts changed w.unchanged fenced }) ∧
       (w.abortMark = false → base + count ≤ cursor → w'.phase = .post ∧ w'.run = none ∧ w'.result = some
         { tag := w.tag, kind := w.job.kindCode, status := if 0 < fenced then .partly else .ok, reason := none,
           body := .counts changed w.unchanged fenced }) ∧
       (w.abortMark = false → cursor < base + count → w'.phase = .mark ∧ ∃ next, w'.run = some next ∧
         next.base = cursor ∧ next.order = carveOrder s cursor (base + count - cursor) ∧ next.image = [])) ∧
  (∀ (s : State) (c : CtxId) (w : Work) (run : Run) (asWiped : Bool) (op : RangeOp),
     s.nextGrant = some (.engine c (.commit asWiped)) → s.work c = some w → w.run = some run → w.job.op = some op →
     let records := run.image.map (fun e => (e.1, committedRecord op run asWiped e.2))
     let tabled := modWork c (Work.countCommit run) (adjustTables w.job op run asWiped (engineGranted c s))
     let decided := redecideRun run.base (2 ^ run.order) records tabled
     exec .commitRunWrite s =
       .next (signalInterrupt s (endRun c (offerFenced c w run (runWrite decided.2 decided.1))))) ∧
  (∀ (s : State) (base count : Nat) (e : Option (BitVec 8)) (op : RangeOp) (run : Run) (asWiped : Bool),
     let job : Job := .range base count e op
     let t := adjustTables job op run asWiped s
     let content := fun (e : Nat × GranuleRecord) => committedContent op run.outcome asWiped e.2.content
     let lost := fun (d : Nat) => (run.image.filter (fun e => decide (e.2.content.owner = some d))).length
     let gained := fun (d : Nat) => (run.image.filter (fun e => decide ((content e).owner = some d))).length
     let given := fun (d : Nat) => if job.receiver = some d then 2 ^ run.order else 0
     let shared := (run.image.filter (fun e => (content e).isShared)).length
     t = { s with domains := t.domains, groups := t.groups } ∧
     (∀ d, lost d ≤ (s.domain d).held → t.domain d = { s.domain d with
       held := (s.domain d).held - lost d + gained d, incoming := (s.domain d).incoming - given d }) ∧
     (∀ owner g, op = .share owner g → (t.group g).refs = (s.group g).refs + shared - 2 ^ run.order) ∧
     (∀ g, op = .unshare g → (t.group g).refs = (s.group g).refs - run.image.length) ∧
     (∀ g, (∀ owner, op ≠ .share owner g) → op ≠ .unshare g → t.group g = s.group g)) ∧
  (∀ (s : State) (d : Nat) (run : Run) (asWiped : Bool),
     let t := adjustTables (.closeDomain d) (.reclaim d true) run asWiped s
     t = { s with domains := t.domains } ∧
     (∀ d', t.domain d' = { s.domain d' with held := (s.domain d').held -
       (run.image.filter (fun e => decide (e.2.content.owner = some d'))).length })) ∧
  (∀ (w : Work) (run : Run),
     (run.outcome = .clean → Work.countCommit run w = { w with changed := w.changed + run.image.length }) ∧
     (run.outcome ≠ .clean → Work.countCommit run w = { w with fenced := w.fenced + run.image.length })) ∧
  (∀ (s : State) (c : CtxId) (w : Work) (run : Run),
     (run.outcome = .clean ∨ run.image = [] → offerFenced c w run s = s) ∧
     (∀ cause link, run.outcome = .fenced cause link → run.image ≠ [] → offerFenced c w run s =
       offerNotice (.fenced w.tag w.job.kindCode c run.base run.order run.image.length cause link) s)) ∧
  (∀ (s : State) (c : CtxId) (w : Work) (run : Run) (base count : Nat) (e : Option (BitVec 8)) (op : RangeOp),
     s.work c = some w → w.run = some run → w.job = .range base count e op →
     let cursor := run.base + 2 ^ run.order
     let moved : Work := { w with cursor := cursor }
     (w.abortMark = true → endRun c s = releaseReservation w.job (base + count - cursor)
       (setWork c (some (moved.enterPost .aborted none w.counts)) (advanceSeq c s))) ∧
     (w.abortMark = false → cursor < base + count → endRun c s =
       setWork c (some (moved.startRun cursor (carveOrder s cursor (base + count - cursor)))) (advanceSeq c s)) ∧
     (w.abortMark = false → base + count ≤ cursor → endRun c s =
       setWork c (some (moved.enterPost w.finalStatus none w.counts)) (advanceSeq c s)))

/-- REVERT of a run with no check parked on it: each record of the image is written with its prior content and its
generation, holders less the cleared links; the reservation for everything not committed is given back, and the context
enters POST with status ABORTED and the counts it holds. With checks parked on the run or not: they are decided again
against the records as the revert writes them (Redecision), the records are written as that leaves them, and the context
stops. That its run sequence advances at a revert, as at a commit, is deduced (log 17). -/
def Obligations.RevertWritesPriors : Prop :=
  (∀ (s : State) (c : CtxId) (w : Work) (run : Run),
     s.nextGrant = some (.engine c .revert) → s.work c = some w → w.run = some run →
     (∀ k ∈ s.park, ¬(run.base ≤ k.granule ∧ k.granule < run.base + 2 ^ run.order)) →
     let records := run.image.map (fun e => (e.1,
       { state := .stable e.2.content, generation := e.2.generation, holders := e.2.holders &&& ~~~run.cleared }))
     let written := runWrite records s
     ∃ t w', exec .revert s = .next t ∧ t.work c = some w' ∧ (∀ c', c' ≠ c → t.work c' = s.work c') ∧
       (t.cache, t.port, t.miss) = (written.cache, written.port, written.miss) ∧ t.store = s.store ∧
       t.portPtr = 6 ∧ t.enginePtr = c ∧ t.portSide = s.portSide ∧ t.park = s.park ∧ t.links = s.links ∧
       t.notices = s.notices ∧
       t.domains = (releaseReservation w.job (w.job.limit - w.cursor) s).domains ∧
       t.groups = (releaseReservation w.job (w.job.limit - w.cursor) s).groups ∧
       w'.phase = .post ∧ w'.run = none ∧ w'.result = some
         { tag := w.tag, kind := w.job.kindCode, status := .aborted, reason := none,
           body := .counts w.changed w.unchanged w.fenced }) ∧
  (∀ (s : State) (c : CtxId) (w : Work) (run : Run),
     s.nextGrant = some (.engine c .revert) → s.work c = some w → w.run = some run →
     let records := run.image.map (fun e => (e.1, revertedRecord run e.2))
     let decided := redecideRun run.base (2 ^ run.order) records (engineGranted c s)
     exec .revert s = .next (signalInterrupt s (stopContext c w (runWrite decided.2 decided.1)))) ∧
  (∀ (s : State) (c : CtxId) (w : Work), s.work c = some w → stopContext c w s =
     releaseReservation w.job (w.job.limit - w.cursor)
       (setWork c (some (w.enterPost .aborted none w.counts)) (advanceSeq c s)))

/-- SWEEP_WINDOW_TAKE of a sweep in SCAN with no window and its cursor below T: with a held count of 0 the sweep ends
and the domain is CLOSED; else it takes the window at its cursor where no other active context holds a range or window
over the block, and waits where one does (R127). Nothing but the context, and the domain at the end, changes. The read
pass (R128): each record found HELD by the domain joins the reclaim list, up to the window's 512th granule; then the
first run is carved, or the window is finished. A run of the sweep ends (R130): held 0 ends the sweep, else the next
run is carved at the first granule left in the list, or the window is finished. A finished window is given up, the
cursor moves on by 512, and at T the sweep ends with the held count as its lost figure (R132). In the event that
releases granules every sweep without a window is offered its block, in ascending order, so that none is left waiting
for a block that no other context holds. The end of a sweep (R131): its domain becomes CLOSED, and the counts are
reclaimed, lost and fenced. The model's choices (log 18): the taking is a row of its own beside those events, and the
sweep that gives up its window takes its place by context number among those offered. -/
def Obligations.SweepTakesWindow : Prop :=
  (∀ (s : State) (c : CtxId) (w : Work) (d : Nat),
     s.work c = some w → w.job = .closeDomain d → w.phase = .scan → w.window = none → w.cursor < s.tableSize →
     ((s.domain d).held = 0 → ∃ t w', exec (.sweepWindowTake c) s = .next t ∧ t.work c = some w' ∧
       w'.phase = .post ∧ w'.window = none ∧ w'.result = some
         { tag := w.tag, kind := 0x0A, status := if 0 < w.fenced then .partly else .ok, reason := none,
           body := .counts w.changed 0 w.fenced } ∧
       t.domain d = { s.domain d with
         state := .closed, quota := 0, held := 0, incoming := 0, policySet := 0, tally := none } ∧
       (∀ d', d' ≠ d → t.domain d' = s.domain d') ∧ (∀ c', c' ≠ c → t.work c' = s.work c') ∧
       t = { s with ctxs := t.ctxs, domains := t.domains }) ∧
     (0 < (s.domain d).held → (∃ c' w', c' ≠ c ∧ s.work c' = some w' ∧ w'.holdsOver w.cursor 512 = true) →
       exec (.sweepWindowTake c) s = .next s) ∧
     (0 < (s.domain d).held → (∀ c' w', c' ≠ c → s.work c' = some w' → w'.holdsOver w.cursor 512 = false) →
       exec (.sweepWindowTake c) s = .next (setWork c (some { w with
         window := some w.cursor, request := .read, next := w.cursor }) s))) ∧
  (∀ (s : State) (c : CtxId) (w : Work) (d : Nat) (r : GranuleRecord),
     s.work c = some w → w.job = .closeDomain d → w.request = .read →
     let reclaim := if r.state.heldBy = some d then w.reclaim ++ [w.next] else w.reclaim
     let taken : Work := { w with waiting := false, reclaim := reclaim }
     (w.next + 1 < w.cursor + 512 → serveContext c r s = setWork c (some { taken with next := w.next + 1 }) s) ∧
     (w.cursor + 512 ≤ w.next + 1 → reclaim = [] → serveContext c r s = finishWindow c d (setWork c (some taken) s)) ∧
     (∀ p rest, w.cursor + 512 ≤ w.next + 1 → reclaim = p :: rest → serveContext c r s =
       let order := sweepOrder s p reclaim
       setWork c (some { taken.startRun p order with reclaim := reclaim.drop (2 ^ order) }) s)) ∧
  (∀ (s : State) (c : CtxId) (w : Work) (run : Run) (d : Nat),
     s.work c = some w → w.run = some run → w.job = .closeDomain d →
     let ended : Work := { w with run := none }
     let moved := setWork c (some ended) (advanceSeq c s)
     ((s.domain d).held = 0 → endRun c s = offerWindows (closeSweep c d 0 moved)) ∧
     (0 < (s.domain d).held → w.reclaim = [] → endRun c s = finishWindow c d moved) ∧
     (∀ p rest, 0 < (s.domain d).held → w.reclaim = p :: rest → endRun c s =
       let order := sweepOrder s p w.reclaim
       setWork c (some { ended.startRun p order with reclaim := w.reclaim.drop (2 ^ order) }) (advanceSeq c s))) ∧
  (∀ (s : State) (c : CtxId) (w : Work) (d lost : Nat), s.work c = some w →
     let given := setWork c (some { w with
       window := none, cursor := w.cursor + 512, phase := .scan, request := .noRequest, run := none }) s
     (w.cursor + 512 < s.tableSize → finishWindow c d s = offerWindows given) ∧
     (s.tableSize ≤ w.cursor + 512 →
       finishWindow c d s = offerWindows (closeSweep c d (s.domain d).held given)) ∧
     offerWindows s = allCtxs.foldl (fun s x => tryTakeWindow x s) s ∧
     exec (.sweepWindowTake c) s = .next (signalInterrupt s (tryTakeWindow c s)) ∧
     closeSweep c d lost s = setWork c (some ({ w with lost := lost }.enterPost
         (if 0 < w.fenced then .partly else .ok) none (.counts w.changed lost w.fenced)))
       (modDomain d (fun r =>
         { r with state := .closed, quota := 0, held := 0, incoming := 0, policySet := 0, tally := none }) s)) ∧
  (∀ (s : State) (c : CtxId) (w : Work) (d : Nat), (offerWindows s).work c = some w → w.job = .closeDomain d →
     w.phase = .scan → w.window = none → w.cursor < s.tableSize →
     ∃ c' w', c' ≠ c ∧ (offerWindows s).work c' = some w' ∧ w'.holdsOver w.cursor 512 = true)

/-! ## The whole part, and the laws -/

/-- The check path, the change path, the frames and the expiries of links and runs leave the Control Port side as it is:
the part state, T, the Home Map, the Policy Sets, the intake, the responses, the latches, the settings, the snapshots.
-/
def Obligations.InnerCommandsLeaveThePort : Prop :=
  ∀ (command : Instr) (s t : State),
    (command ∈ [.checkPortEvent, .recordRead, .recordUpdate, .wipeStart, .commitRunWrite, .revert] ∨
      (∃ c, command ∈ [.sweepWindowTake c, .recallDeadlineExpiry c, .wipeDeadlineExpiry c]) ∨
      (∃ g d, command = .missQueueFill g d) ∨
      (∃ l, command ∈ [.idle l, .badCrcFrame l, .frameSent l, .silenceExpiry l, .rejoinDeadlineExpiry l]) ∨
      (∃ l p, command = .check l p) ∨ (∃ l p, command = .recallAck l p) ∨ (∃ l p, command = .wipeDone l p) ∨
      (∃ l p, command = .rejoinAck l p) ∨ (∃ l k, command = .unknownKindFrame l k) ∨
      (∃ l k, command = .partSentKindFrame l k)) →
    exec command s = .next t → t.portSide = s.portSide

/-- Every step keeps the part sound: the five queues within their capacities, the Tag Store in canonical form, the
settings in their ranges, each watermark showing its queue's occupancy (in PEAK no less), and pacing off only below its
starting thresholds and in force only above its ending ones. -/
def Obligations.EveryStepKeepsThePartSound : Prop :=
  ∀ s t : State, s.sound → step s = .next t → t.sound

/-- Law L9: every step keeps it. On each link the checks held in the part and the credits withheld are together at most
32, and both are 0 when the link is not UP; with what that rests on: the intake accounting lists the tags of the checks
held, a lane holds its own link's checks, and no two Miss Queue entries are of one granule. -/
def Obligations.EveryStepKeepsCredits : Prop :=
  ∀ s t : State, s.creditsKept → step s = .next t → t.creditsKept

/-- Law L8, as the contexts hold it: every step keeps it. The ranges of active contexts, for a sweep its window, are
pairwise disjoint; each context's run and every record of its run image lie inside its own range, and the image's
records are MOVING or WIPING in its own number; and each context's phase, request and cursor are in order. What the
Record Cache and the Tag Store hold of records under change is no part of this statement. -/
def Obligations.EveryStepKeepsContexts : Prop :=
  ∀ s t : State, s.contextsKept → step s = .next t → t.contextsKept

/-- Law L7: every step keeps it, where the contexts are in order (EveryStepKeepsContexts). For every domain but 0, held
+ incoming is at most its quota; with what that rests on: incoming is what the active contexts hold promised to the
domain, a CLOSED domain holds nothing, and promises go to ACTIVE domains only. -/
def Obligations.EveryStepKeepsQuotas : Prop :=
  ∀ s t : State, s.contextsKept → s.quotaKept → step s = .next t → t.quotaKept

/-- Law L10: every step keeps it, where the contexts are in order and the quotas kept (EveryStepKeepsContexts,
EveryStepKeepsQuotas). A group with references is DEFINED, the members of a DEFINED group are distinct and ACTIVE, and
the group count of a domain is the number of DEFINED groups that list it. -/
def Obligations.EveryStepKeepsShares : Prop :=
  ∀ s t : State, s.contextsKept → s.quotaKept → s.sharesKept → step s = .next t → t.sharesKept

/-- After part reset the part is sound, and laws L7 to L10 hold as the four statements above have them. -/
def Obligations.ResetIsSound : Prop :=
  State.reset.sound ∧ State.reset.creditsKept ∧ State.reset.contextsKept ∧ State.reset.quotaKept ∧
  State.reset.sharesKept

end Obligations
end

