-- ==== Sys2Proof/Laws/State.lean ====
section
/-! SUPPORT. One lemma per field per update: what each named update of State leaves as it is, and what it writes. -/

namespace Sys2Proof.Machine

/-! ## modLink -/

@[simp] theorem modLink_part (l : LinkId) (f : Link → Link) (s : State) : (modLink l f s).part = s.part := rfl
@[simp] theorem modLink_tableSize (l : LinkId) (f : Link → Link) (s : State) : (modLink l f s).tableSize = s.tableSize := rfl
@[simp] theorem modLink_capacity (l : LinkId) (f : Link → Link) (s : State) : (modLink l f s).capacity = s.capacity := rfl
@[simp] theorem modLink_domains (l : LinkId) (f : Link → Link) (s : State) : (modLink l f s).domains = s.domains := rfl
@[simp] theorem modLink_groups (l : LinkId) (f : Link → Link) (s : State) : (modLink l f s).groups = s.groups := rfl
@[simp] theorem modLink_homes (l : LinkId) (f : Link → Link) (s : State) : (modLink l f s).homes = s.homes := rfl
@[simp] theorem modLink_policies (l : LinkId) (f : Link → Link) (s : State) : (modLink l f s).policies = s.policies := rfl
@[simp] theorem modLink_store (l : LinkId) (f : Link → Link) (s : State) : (modLink l f s).store = s.store := rfl
@[simp] theorem modLink_cache (l : LinkId) (f : Link → Link) (s : State) : (modLink l f s).cache = s.cache := rfl
@[simp] theorem modLink_portPtr (l : LinkId) (f : Link → Link) (s : State) : (modLink l f s).portPtr = s.portPtr := rfl
@[simp] theorem modLink_enginePtr (l : LinkId) (f : Link → Link) (s : State) : (modLink l f s).enginePtr = s.enginePtr := rfl
@[simp] theorem modLink_miss (l : LinkId) (f : Link → Link) (s : State) : (modLink l f s).miss = s.miss := rfl
@[simp] theorem modLink_port (l : LinkId) (f : Link → Link) (s : State) : (modLink l f s).port = s.port := rfl
@[simp] theorem modLink_fill (l : LinkId) (f : Link → Link) (s : State) : (modLink l f s).fill = s.fill := rfl
@[simp] theorem modLink_park (l : LinkId) (f : Link → Link) (s : State) : (modLink l f s).park = s.park := rfl
@[simp] theorem modLink_pacing (l : LinkId) (f : Link → Link) (s : State) : (modLink l f s).pacing = s.pacing := rfl
@[simp] theorem modLink_intake (l : LinkId) (f : Link → Link) (s : State) : (modLink l f s).intake = s.intake := rfl
@[simp] theorem modLink_overrun (l : LinkId) (f : Link → Link) (s : State) : (modLink l f s).overrun = s.overrun := rfl
@[simp] theorem modLink_staging (l : LinkId) (f : Link → Link) (s : State) : (modLink l f s).staging = s.staging := rfl
@[simp] theorem modLink_ctxs (l : LinkId) (f : Link → Link) (s : State) : (modLink l f s).ctxs = s.ctxs := rfl
@[simp] theorem modLink_responses (l : LinkId) (f : Link → Link) (s : State) : (modLink l f s).responses = s.responses := rfl
@[simp] theorem modLink_respPtr (l : LinkId) (f : Link → Link) (s : State) : (modLink l f s).respPtr = s.respPtr := rfl
@[simp] theorem modLink_respLatch (l : LinkId) (f : Link → Link) (s : State) : (modLink l f s).respLatch = s.respLatch := rfl
@[simp] theorem modLink_notices (l : LinkId) (f : Link → Link) (s : State) : (modLink l f s).notices = s.notices := rfl
@[simp] theorem modLink_noticeLost (l : LinkId) (f : Link → Link) (s : State) : (modLink l f s).noticeLost = s.noticeLost := rfl
@[simp] theorem modLink_noticeLatch (l : LinkId) (f : Link → Link) (s : State) : (modLink l f s).noticeLatch = s.noticeLatch := rfl
@[simp] theorem modLink_counters (l : LinkId) (f : Link → Link) (s : State) : (modLink l f s).counters = s.counters := rfl
@[simp] theorem modLink_copies (l : LinkId) (f : Link → Link) (s : State) : (modLink l f s).copies = s.copies := rfl
@[simp] theorem modLink_snapSeq (l : LinkId) (f : Link → Link) (s : State) : (modLink l f s).snapSeq = s.snapSeq := rfl
@[simp] theorem modLink_snapTimer (l : LinkId) (f : Link → Link) (s : State) : (modLink l f s).snapTimer = s.snapTimer := rfl
@[simp] theorem modLink_parkMark (l : LinkId) (f : Link → Link) (s : State) : (modLink l f s).parkMark = s.parkMark := rfl
@[simp] theorem modLink_missMark (l : LinkId) (f : Link → Link) (s : State) : (modLink l f s).missMark = s.missMark := rfl
@[simp] theorem modLink_settings (l : LinkId) (f : Link → Link) (s : State) : (modLink l f s).settings = s.settings := rfl
@[simp] theorem modLink_irqResponse (l : LinkId) (f : Link → Link) (s : State) : (modLink l f s).irqResponse = s.irqResponse := rfl
@[simp] theorem modLink_irqNotice (l : LinkId) (f : Link → Link) (s : State) : (modLink l f s).irqNotice = s.irqNotice := rfl
@[simp] theorem modLink_msiSent (l : LinkId) (f : Link → Link) (s : State) : (modLink l f s).msiSent = s.msiSent := rfl
@[simp] theorem modLink_readData (l : LinkId) (f : Link → Link) (s : State) : (modLink l f s).readData = s.readData := rfl
@[simp] theorem modLink_arrivals (l : LinkId) (f : Link → Link) (s : State) : (modLink l f s).arrivals = s.arrivals := rfl
@[simp] theorem modLink_pending (l : LinkId) (f : Link → Link) (s : State) : (modLink l f s).pending = s.pending := rfl

/-! ## placeFrame -/

@[simp] theorem placeFrame_part (l : LinkId) (x : TxFrame) (s : State) : (placeFrame l x s).part = s.part := rfl
@[simp] theorem placeFrame_tableSize (l : LinkId) (x : TxFrame) (s : State) : (placeFrame l x s).tableSize = s.tableSize := rfl
@[simp] theorem placeFrame_capacity (l : LinkId) (x : TxFrame) (s : State) : (placeFrame l x s).capacity = s.capacity := rfl
@[simp] theorem placeFrame_domains (l : LinkId) (x : TxFrame) (s : State) : (placeFrame l x s).domains = s.domains := rfl
@[simp] theorem placeFrame_groups (l : LinkId) (x : TxFrame) (s : State) : (placeFrame l x s).groups = s.groups := rfl
@[simp] theorem placeFrame_homes (l : LinkId) (x : TxFrame) (s : State) : (placeFrame l x s).homes = s.homes := rfl
@[simp] theorem placeFrame_policies (l : LinkId) (x : TxFrame) (s : State) : (placeFrame l x s).policies = s.policies := rfl
@[simp] theorem placeFrame_store (l : LinkId) (x : TxFrame) (s : State) : (placeFrame l x s).store = s.store := rfl
@[simp] theorem placeFrame_cache (l : LinkId) (x : TxFrame) (s : State) : (placeFrame l x s).cache = s.cache := rfl
@[simp] theorem placeFrame_portPtr (l : LinkId) (x : TxFrame) (s : State) : (placeFrame l x s).portPtr = s.portPtr := rfl
@[simp] theorem placeFrame_enginePtr (l : LinkId) (x : TxFrame) (s : State) : (placeFrame l x s).enginePtr = s.enginePtr := rfl
@[simp] theorem placeFrame_miss (l : LinkId) (x : TxFrame) (s : State) : (placeFrame l x s).miss = s.miss := rfl
@[simp] theorem placeFrame_port (l : LinkId) (x : TxFrame) (s : State) : (placeFrame l x s).port = s.port := rfl
@[simp] theorem placeFrame_fill (l : LinkId) (x : TxFrame) (s : State) : (placeFrame l x s).fill = s.fill := rfl
@[simp] theorem placeFrame_park (l : LinkId) (x : TxFrame) (s : State) : (placeFrame l x s).park = s.park := rfl
@[simp] theorem placeFrame_pacing (l : LinkId) (x : TxFrame) (s : State) : (placeFrame l x s).pacing = s.pacing := rfl
@[simp] theorem placeFrame_intake (l : LinkId) (x : TxFrame) (s : State) : (placeFrame l x s).intake = s.intake := rfl
@[simp] theorem placeFrame_overrun (l : LinkId) (x : TxFrame) (s : State) : (placeFrame l x s).overrun = s.overrun := rfl
@[simp] theorem placeFrame_staging (l : LinkId) (x : TxFrame) (s : State) : (placeFrame l x s).staging = s.staging := rfl
@[simp] theorem placeFrame_ctxs (l : LinkId) (x : TxFrame) (s : State) : (placeFrame l x s).ctxs = s.ctxs := rfl
@[simp] theorem placeFrame_responses (l : LinkId) (x : TxFrame) (s : State) : (placeFrame l x s).responses = s.responses := rfl
@[simp] theorem placeFrame_respPtr (l : LinkId) (x : TxFrame) (s : State) : (placeFrame l x s).respPtr = s.respPtr := rfl
@[simp] theorem placeFrame_respLatch (l : LinkId) (x : TxFrame) (s : State) : (placeFrame l x s).respLatch = s.respLatch := rfl
@[simp] theorem placeFrame_notices (l : LinkId) (x : TxFrame) (s : State) : (placeFrame l x s).notices = s.notices := rfl
@[simp] theorem placeFrame_noticeLost (l : LinkId) (x : TxFrame) (s : State) : (placeFrame l x s).noticeLost = s.noticeLost := rfl
@[simp] theorem placeFrame_noticeLatch (l : LinkId) (x : TxFrame) (s : State) : (placeFrame l x s).noticeLatch = s.noticeLatch := rfl
@[simp] theorem placeFrame_counters (l : LinkId) (x : TxFrame) (s : State) : (placeFrame l x s).counters = s.counters := rfl
@[simp] theorem placeFrame_copies (l : LinkId) (x : TxFrame) (s : State) : (placeFrame l x s).copies = s.copies := rfl
@[simp] theorem placeFrame_snapSeq (l : LinkId) (x : TxFrame) (s : State) : (placeFrame l x s).snapSeq = s.snapSeq := rfl
@[simp] theorem placeFrame_snapTimer (l : LinkId) (x : TxFrame) (s : State) : (placeFrame l x s).snapTimer = s.snapTimer := rfl
@[simp] theorem placeFrame_parkMark (l : LinkId) (x : TxFrame) (s : State) : (placeFrame l x s).parkMark = s.parkMark := rfl
@[simp] theorem placeFrame_missMark (l : LinkId) (x : TxFrame) (s : State) : (placeFrame l x s).missMark = s.missMark := rfl
@[simp] theorem placeFrame_settings (l : LinkId) (x : TxFrame) (s : State) : (placeFrame l x s).settings = s.settings := rfl
@[simp] theorem placeFrame_irqResponse (l : LinkId) (x : TxFrame) (s : State) : (placeFrame l x s).irqResponse = s.irqResponse := rfl
@[simp] theorem placeFrame_irqNotice (l : LinkId) (x : TxFrame) (s : State) : (placeFrame l x s).irqNotice = s.irqNotice := rfl
@[simp] theorem placeFrame_msiSent (l : LinkId) (x : TxFrame) (s : State) : (placeFrame l x s).msiSent = s.msiSent := rfl
@[simp] theorem placeFrame_readData (l : LinkId) (x : TxFrame) (s : State) : (placeFrame l x s).readData = s.readData := rfl
@[simp] theorem placeFrame_arrivals (l : LinkId) (x : TxFrame) (s : State) : (placeFrame l x s).arrivals = s.arrivals := rfl
@[simp] theorem placeFrame_pending (l : LinkId) (x : TxFrame) (s : State) : (placeFrame l x s).pending = s.pending := rfl

/-! ## setCtx -/

@[simp] theorem setCtx_part (c : CtxId) (x : Context) (s : State) : (setCtx c x s).part = s.part := rfl
@[simp] theorem setCtx_tableSize (c : CtxId) (x : Context) (s : State) : (setCtx c x s).tableSize = s.tableSize := rfl
@[simp] theorem setCtx_capacity (c : CtxId) (x : Context) (s : State) : (setCtx c x s).capacity = s.capacity := rfl
@[simp] theorem setCtx_domains (c : CtxId) (x : Context) (s : State) : (setCtx c x s).domains = s.domains := rfl
@[simp] theorem setCtx_groups (c : CtxId) (x : Context) (s : State) : (setCtx c x s).groups = s.groups := rfl
@[simp] theorem setCtx_homes (c : CtxId) (x : Context) (s : State) : (setCtx c x s).homes = s.homes := rfl
@[simp] theorem setCtx_policies (c : CtxId) (x : Context) (s : State) : (setCtx c x s).policies = s.policies := rfl
@[simp] theorem setCtx_store (c : CtxId) (x : Context) (s : State) : (setCtx c x s).store = s.store := rfl
@[simp] theorem setCtx_cache (c : CtxId) (x : Context) (s : State) : (setCtx c x s).cache = s.cache := rfl
@[simp] theorem setCtx_portPtr (c : CtxId) (x : Context) (s : State) : (setCtx c x s).portPtr = s.portPtr := rfl
@[simp] theorem setCtx_enginePtr (c : CtxId) (x : Context) (s : State) : (setCtx c x s).enginePtr = s.enginePtr := rfl
@[simp] theorem setCtx_miss (c : CtxId) (x : Context) (s : State) : (setCtx c x s).miss = s.miss := rfl
@[simp] theorem setCtx_port (c : CtxId) (x : Context) (s : State) : (setCtx c x s).port = s.port := rfl
@[simp] theorem setCtx_fill (c : CtxId) (x : Context) (s : State) : (setCtx c x s).fill = s.fill := rfl
@[simp] theorem setCtx_park (c : CtxId) (x : Context) (s : State) : (setCtx c x s).park = s.park := rfl
@[simp] theorem setCtx_links (c : CtxId) (x : Context) (s : State) : (setCtx c x s).links = s.links := rfl
@[simp] theorem setCtx_pacing (c : CtxId) (x : Context) (s : State) : (setCtx c x s).pacing = s.pacing := rfl
@[simp] theorem setCtx_intake (c : CtxId) (x : Context) (s : State) : (setCtx c x s).intake = s.intake := rfl
@[simp] theorem setCtx_overrun (c : CtxId) (x : Context) (s : State) : (setCtx c x s).overrun = s.overrun := rfl
@[simp] theorem setCtx_staging (c : CtxId) (x : Context) (s : State) : (setCtx c x s).staging = s.staging := rfl
@[simp] theorem setCtx_responses (c : CtxId) (x : Context) (s : State) : (setCtx c x s).responses = s.responses := rfl
@[simp] theorem setCtx_respPtr (c : CtxId) (x : Context) (s : State) : (setCtx c x s).respPtr = s.respPtr := rfl
@[simp] theorem setCtx_respLatch (c : CtxId) (x : Context) (s : State) : (setCtx c x s).respLatch = s.respLatch := rfl
@[simp] theorem setCtx_notices (c : CtxId) (x : Context) (s : State) : (setCtx c x s).notices = s.notices := rfl
@[simp] theorem setCtx_noticeLost (c : CtxId) (x : Context) (s : State) : (setCtx c x s).noticeLost = s.noticeLost := rfl
@[simp] theorem setCtx_noticeLatch (c : CtxId) (x : Context) (s : State) : (setCtx c x s).noticeLatch = s.noticeLatch := rfl
@[simp] theorem setCtx_counters (c : CtxId) (x : Context) (s : State) : (setCtx c x s).counters = s.counters := rfl
@[simp] theorem setCtx_copies (c : CtxId) (x : Context) (s : State) : (setCtx c x s).copies = s.copies := rfl
@[simp] theorem setCtx_snapSeq (c : CtxId) (x : Context) (s : State) : (setCtx c x s).snapSeq = s.snapSeq := rfl
@[simp] theorem setCtx_snapTimer (c : CtxId) (x : Context) (s : State) : (setCtx c x s).snapTimer = s.snapTimer := rfl
@[simp] theorem setCtx_parkMark (c : CtxId) (x : Context) (s : State) : (setCtx c x s).parkMark = s.parkMark := rfl
@[simp] theorem setCtx_missMark (c : CtxId) (x : Context) (s : State) : (setCtx c x s).missMark = s.missMark := rfl
@[simp] theorem setCtx_settings (c : CtxId) (x : Context) (s : State) : (setCtx c x s).settings = s.settings := rfl
@[simp] theorem setCtx_irqResponse (c : CtxId) (x : Context) (s : State) : (setCtx c x s).irqResponse = s.irqResponse := rfl
@[simp] theorem setCtx_irqNotice (c : CtxId) (x : Context) (s : State) : (setCtx c x s).irqNotice = s.irqNotice := rfl
@[simp] theorem setCtx_msiSent (c : CtxId) (x : Context) (s : State) : (setCtx c x s).msiSent = s.msiSent := rfl
@[simp] theorem setCtx_readData (c : CtxId) (x : Context) (s : State) : (setCtx c x s).readData = s.readData := rfl
@[simp] theorem setCtx_arrivals (c : CtxId) (x : Context) (s : State) : (setCtx c x s).arrivals = s.arrivals := rfl
@[simp] theorem setCtx_pending (c : CtxId) (x : Context) (s : State) : (setCtx c x s).pending = s.pending := rfl

/-! ## setWork -/

@[simp] theorem setWork_part (c : CtxId) (w : Option Work) (s : State) : (setWork c w s).part = s.part := rfl
@[simp] theorem setWork_tableSize (c : CtxId) (w : Option Work) (s : State) : (setWork c w s).tableSize = s.tableSize := rfl
@[simp] theorem setWork_capacity (c : CtxId) (w : Option Work) (s : State) : (setWork c w s).capacity = s.capacity := rfl
@[simp] theorem setWork_domains (c : CtxId) (w : Option Work) (s : State) : (setWork c w s).domains = s.domains := rfl
@[simp] theorem setWork_groups (c : CtxId) (w : Option Work) (s : State) : (setWork c w s).groups = s.groups := rfl
@[simp] theorem setWork_homes (c : CtxId) (w : Option Work) (s : State) : (setWork c w s).homes = s.homes := rfl
@[simp] theorem setWork_policies (c : CtxId) (w : Option Work) (s : State) : (setWork c w s).policies = s.policies := rfl
@[simp] theorem setWork_store (c : CtxId) (w : Option Work) (s : State) : (setWork c w s).store = s.store := rfl
@[simp] theorem setWork_cache (c : CtxId) (w : Option Work) (s : State) : (setWork c w s).cache = s.cache := rfl
@[simp] theorem setWork_portPtr (c : CtxId) (w : Option Work) (s : State) : (setWork c w s).portPtr = s.portPtr := rfl
@[simp] theorem setWork_enginePtr (c : CtxId) (w : Option Work) (s : State) : (setWork c w s).enginePtr = s.enginePtr := rfl
@[simp] theorem setWork_miss (c : CtxId) (w : Option Work) (s : State) : (setWork c w s).miss = s.miss := rfl
@[simp] theorem setWork_port (c : CtxId) (w : Option Work) (s : State) : (setWork c w s).port = s.port := rfl
@[simp] theorem setWork_fill (c : CtxId) (w : Option Work) (s : State) : (setWork c w s).fill = s.fill := rfl
@[simp] theorem setWork_park (c : CtxId) (w : Option Work) (s : State) : (setWork c w s).park = s.park := rfl
@[simp] theorem setWork_links (c : CtxId) (w : Option Work) (s : State) : (setWork c w s).links = s.links := rfl
@[simp] theorem setWork_pacing (c : CtxId) (w : Option Work) (s : State) : (setWork c w s).pacing = s.pacing := rfl
@[simp] theorem setWork_intake (c : CtxId) (w : Option Work) (s : State) : (setWork c w s).intake = s.intake := rfl
@[simp] theorem setWork_overrun (c : CtxId) (w : Option Work) (s : State) : (setWork c w s).overrun = s.overrun := rfl
@[simp] theorem setWork_staging (c : CtxId) (w : Option Work) (s : State) : (setWork c w s).staging = s.staging := rfl
@[simp] theorem setWork_responses (c : CtxId) (w : Option Work) (s : State) : (setWork c w s).responses = s.responses := rfl
@[simp] theorem setWork_respPtr (c : CtxId) (w : Option Work) (s : State) : (setWork c w s).respPtr = s.respPtr := rfl
@[simp] theorem setWork_respLatch (c : CtxId) (w : Option Work) (s : State) : (setWork c w s).respLatch = s.respLatch := rfl
@[simp] theorem setWork_notices (c : CtxId) (w : Option Work) (s : State) : (setWork c w s).notices = s.notices := rfl
@[simp] theorem setWork_noticeLost (c : CtxId) (w : Option Work) (s : State) : (setWork c w s).noticeLost = s.noticeLost := rfl
@[simp] theorem setWork_noticeLatch (c : CtxId) (w : Option Work) (s : State) : (setWork c w s).noticeLatch = s.noticeLatch := rfl
@[simp] theorem setWork_counters (c : CtxId) (w : Option Work) (s : State) : (setWork c w s).counters = s.counters := rfl
@[simp] theorem setWork_copies (c : CtxId) (w : Option Work) (s : State) : (setWork c w s).copies = s.copies := rfl
@[simp] theorem setWork_snapSeq (c : CtxId) (w : Option Work) (s : State) : (setWork c w s).snapSeq = s.snapSeq := rfl
@[simp] theorem setWork_snapTimer (c : CtxId) (w : Option Work) (s : State) : (setWork c w s).snapTimer = s.snapTimer := rfl
@[simp] theorem setWork_parkMark (c : CtxId) (w : Option Work) (s : State) : (setWork c w s).parkMark = s.parkMark := rfl
@[simp] theorem setWork_missMark (c : CtxId) (w : Option Work) (s : State) : (setWork c w s).missMark = s.missMark := rfl
@[simp] theorem setWork_settings (c : CtxId) (w : Option Work) (s : State) : (setWork c w s).settings = s.settings := rfl
@[simp] theorem setWork_irqResponse (c : CtxId) (w : Option Work) (s : State) : (setWork c w s).irqResponse = s.irqResponse := rfl
@[simp] theorem setWork_irqNotice (c : CtxId) (w : Option Work) (s : State) : (setWork c w s).irqNotice = s.irqNotice := rfl
@[simp] theorem setWork_msiSent (c : CtxId) (w : Option Work) (s : State) : (setWork c w s).msiSent = s.msiSent := rfl
@[simp] theorem setWork_readData (c : CtxId) (w : Option Work) (s : State) : (setWork c w s).readData = s.readData := rfl
@[simp] theorem setWork_arrivals (c : CtxId) (w : Option Work) (s : State) : (setWork c w s).arrivals = s.arrivals := rfl
@[simp] theorem setWork_pending (c : CtxId) (w : Option Work) (s : State) : (setWork c w s).pending = s.pending := rfl

/-! ## modWork -/

@[simp] theorem modWork_part (c : CtxId) (f : Work → Work) (s : State) : (modWork c f s).part = s.part := rfl
@[simp] theorem modWork_tableSize (c : CtxId) (f : Work → Work) (s : State) : (modWork c f s).tableSize = s.tableSize := rfl
@[simp] theorem modWork_capacity (c : CtxId) (f : Work → Work) (s : State) : (modWork c f s).capacity = s.capacity := rfl
@[simp] theorem modWork_domains (c : CtxId) (f : Work → Work) (s : State) : (modWork c f s).domains = s.domains := rfl
@[simp] theorem modWork_groups (c : CtxId) (f : Work → Work) (s : State) : (modWork c f s).groups = s.groups := rfl
@[simp] theorem modWork_homes (c : CtxId) (f : Work → Work) (s : State) : (modWork c f s).homes = s.homes := rfl
@[simp] theorem modWork_policies (c : CtxId) (f : Work → Work) (s : State) : (modWork c f s).policies = s.policies := rfl
@[simp] theorem modWork_store (c : CtxId) (f : Work → Work) (s : State) : (modWork c f s).store = s.store := rfl
@[simp] theorem modWork_cache (c : CtxId) (f : Work → Work) (s : State) : (modWork c f s).cache = s.cache := rfl
@[simp] theorem modWork_portPtr (c : CtxId) (f : Work → Work) (s : State) : (modWork c f s).portPtr = s.portPtr := rfl
@[simp] theorem modWork_enginePtr (c : CtxId) (f : Work → Work) (s : State) : (modWork c f s).enginePtr = s.enginePtr := rfl
@[simp] theorem modWork_miss (c : CtxId) (f : Work → Work) (s : State) : (modWork c f s).miss = s.miss := rfl
@[simp] theorem modWork_port (c : CtxId) (f : Work → Work) (s : State) : (modWork c f s).port = s.port := rfl
@[simp] theorem modWork_fill (c : CtxId) (f : Work → Work) (s : State) : (modWork c f s).fill = s.fill := rfl
@[simp] theorem modWork_park (c : CtxId) (f : Work → Work) (s : State) : (modWork c f s).park = s.park := rfl
@[simp] theorem modWork_links (c : CtxId) (f : Work → Work) (s : State) : (modWork c f s).links = s.links := rfl
@[simp] theorem modWork_pacing (c : CtxId) (f : Work → Work) (s : State) : (modWork c f s).pacing = s.pacing := rfl
@[simp] theorem modWork_intake (c : CtxId) (f : Work → Work) (s : State) : (modWork c f s).intake = s.intake := rfl
@[simp] theorem modWork_overrun (c : CtxId) (f : Work → Work) (s : State) : (modWork c f s).overrun = s.overrun := rfl
@[simp] theorem modWork_staging (c : CtxId) (f : Work → Work) (s : State) : (modWork c f s).staging = s.staging := rfl
@[simp] theorem modWork_responses (c : CtxId) (f : Work → Work) (s : State) : (modWork c f s).responses = s.responses := rfl
@[simp] theorem modWork_respPtr (c : CtxId) (f : Work → Work) (s : State) : (modWork c f s).respPtr = s.respPtr := rfl
@[simp] theorem modWork_respLatch (c : CtxId) (f : Work → Work) (s : State) : (modWork c f s).respLatch = s.respLatch := rfl
@[simp] theorem modWork_notices (c : CtxId) (f : Work → Work) (s : State) : (modWork c f s).notices = s.notices := rfl
@[simp] theorem modWork_noticeLost (c : CtxId) (f : Work → Work) (s : State) : (modWork c f s).noticeLost = s.noticeLost := rfl
@[simp] theorem modWork_noticeLatch (c : CtxId) (f : Work → Work) (s : State) : (modWork c f s).noticeLatch = s.noticeLatch := rfl
@[simp] theorem modWork_counters (c : CtxId) (f : Work → Work) (s : State) : (modWork c f s).counters = s.counters := rfl
@[simp] theorem modWork_copies (c : CtxId) (f : Work → Work) (s : State) : (modWork c f s).copies = s.copies := rfl
@[simp] theorem modWork_snapSeq (c : CtxId) (f : Work → Work) (s : State) : (modWork c f s).snapSeq = s.snapSeq := rfl
@[simp] theorem modWork_snapTimer (c : CtxId) (f : Work → Work) (s : State) : (modWork c f s).snapTimer = s.snapTimer := rfl
@[simp] theorem modWork_parkMark (c : CtxId) (f : Work → Work) (s : State) : (modWork c f s).parkMark = s.parkMark := rfl
@[simp] theorem modWork_missMark (c : CtxId) (f : Work → Work) (s : State) : (modWork c f s).missMark = s.missMark := rfl
@[simp] theorem modWork_settings (c : CtxId) (f : Work → Work) (s : State) : (modWork c f s).settings = s.settings := rfl
@[simp] theorem modWork_irqResponse (c : CtxId) (f : Work → Work) (s : State) : (modWork c f s).irqResponse = s.irqResponse := rfl
@[simp] theorem modWork_irqNotice (c : CtxId) (f : Work → Work) (s : State) : (modWork c f s).irqNotice = s.irqNotice := rfl
@[simp] theorem modWork_msiSent (c : CtxId) (f : Work → Work) (s : State) : (modWork c f s).msiSent = s.msiSent := rfl
@[simp] theorem modWork_readData (c : CtxId) (f : Work → Work) (s : State) : (modWork c f s).readData = s.readData := rfl
@[simp] theorem modWork_arrivals (c : CtxId) (f : Work → Work) (s : State) : (modWork c f s).arrivals = s.arrivals := rfl
@[simp] theorem modWork_pending (c : CtxId) (f : Work → Work) (s : State) : (modWork c f s).pending = s.pending := rfl

/-! ## advanceSeq -/

@[simp] theorem advanceSeq_part (c : CtxId) (s : State) : (advanceSeq c s).part = s.part := rfl
@[simp] theorem advanceSeq_tableSize (c : CtxId) (s : State) : (advanceSeq c s).tableSize = s.tableSize := rfl
@[simp] theorem advanceSeq_capacity (c : CtxId) (s : State) : (advanceSeq c s).capacity = s.capacity := rfl
@[simp] theorem advanceSeq_domains (c : CtxId) (s : State) : (advanceSeq c s).domains = s.domains := rfl
@[simp] theorem advanceSeq_groups (c : CtxId) (s : State) : (advanceSeq c s).groups = s.groups := rfl
@[simp] theorem advanceSeq_homes (c : CtxId) (s : State) : (advanceSeq c s).homes = s.homes := rfl
@[simp] theorem advanceSeq_policies (c : CtxId) (s : State) : (advanceSeq c s).policies = s.policies := rfl
@[simp] theorem advanceSeq_store (c : CtxId) (s : State) : (advanceSeq c s).store = s.store := rfl
@[simp] theorem advanceSeq_cache (c : CtxId) (s : State) : (advanceSeq c s).cache = s.cache := rfl
@[simp] theorem advanceSeq_portPtr (c : CtxId) (s : State) : (advanceSeq c s).portPtr = s.portPtr := rfl
@[simp] theorem advanceSeq_enginePtr (c : CtxId) (s : State) : (advanceSeq c s).enginePtr = s.enginePtr := rfl
@[simp] theorem advanceSeq_miss (c : CtxId) (s : State) : (advanceSeq c s).miss = s.miss := rfl
@[simp] theorem advanceSeq_port (c : CtxId) (s : State) : (advanceSeq c s).port = s.port := rfl
@[simp] theorem advanceSeq_fill (c : CtxId) (s : State) : (advanceSeq c s).fill = s.fill := rfl
@[simp] theorem advanceSeq_park (c : CtxId) (s : State) : (advanceSeq c s).park = s.park := rfl
@[simp] theorem advanceSeq_links (c : CtxId) (s : State) : (advanceSeq c s).links = s.links := rfl
@[simp] theorem advanceSeq_pacing (c : CtxId) (s : State) : (advanceSeq c s).pacing = s.pacing := rfl
@[simp] theorem advanceSeq_intake (c : CtxId) (s : State) : (advanceSeq c s).intake = s.intake := rfl
@[simp] theorem advanceSeq_overrun (c : CtxId) (s : State) : (advanceSeq c s).overrun = s.overrun := rfl
@[simp] theorem advanceSeq_staging (c : CtxId) (s : State) : (advanceSeq c s).staging = s.staging := rfl
@[simp] theorem advanceSeq_responses (c : CtxId) (s : State) : (advanceSeq c s).responses = s.responses := rfl
@[simp] theorem advanceSeq_respPtr (c : CtxId) (s : State) : (advanceSeq c s).respPtr = s.respPtr := rfl
@[simp] theorem advanceSeq_respLatch (c : CtxId) (s : State) : (advanceSeq c s).respLatch = s.respLatch := rfl
@[simp] theorem advanceSeq_notices (c : CtxId) (s : State) : (advanceSeq c s).notices = s.notices := rfl
@[simp] theorem advanceSeq_noticeLost (c : CtxId) (s : State) : (advanceSeq c s).noticeLost = s.noticeLost := rfl
@[simp] theorem advanceSeq_noticeLatch (c : CtxId) (s : State) : (advanceSeq c s).noticeLatch = s.noticeLatch := rfl
@[simp] theorem advanceSeq_counters (c : CtxId) (s : State) : (advanceSeq c s).counters = s.counters := rfl
@[simp] theorem advanceSeq_copies (c : CtxId) (s : State) : (advanceSeq c s).copies = s.copies := rfl
@[simp] theorem advanceSeq_snapSeq (c : CtxId) (s : State) : (advanceSeq c s).snapSeq = s.snapSeq := rfl
@[simp] theorem advanceSeq_snapTimer (c : CtxId) (s : State) : (advanceSeq c s).snapTimer = s.snapTimer := rfl
@[simp] theorem advanceSeq_parkMark (c : CtxId) (s : State) : (advanceSeq c s).parkMark = s.parkMark := rfl
@[simp] theorem advanceSeq_missMark (c : CtxId) (s : State) : (advanceSeq c s).missMark = s.missMark := rfl
@[simp] theorem advanceSeq_settings (c : CtxId) (s : State) : (advanceSeq c s).settings = s.settings := rfl
@[simp] theorem advanceSeq_irqResponse (c : CtxId) (s : State) : (advanceSeq c s).irqResponse = s.irqResponse := rfl
@[simp] theorem advanceSeq_irqNotice (c : CtxId) (s : State) : (advanceSeq c s).irqNotice = s.irqNotice := rfl
@[simp] theorem advanceSeq_msiSent (c : CtxId) (s : State) : (advanceSeq c s).msiSent = s.msiSent := rfl
@[simp] theorem advanceSeq_readData (c : CtxId) (s : State) : (advanceSeq c s).readData = s.readData := rfl
@[simp] theorem advanceSeq_arrivals (c : CtxId) (s : State) : (advanceSeq c s).arrivals = s.arrivals := rfl
@[simp] theorem advanceSeq_pending (c : CtxId) (s : State) : (advanceSeq c s).pending = s.pending := rfl

/-! ## modDomain -/

@[simp] theorem modDomain_part (d : Nat) (f : DomainRecord → DomainRecord) (s : State) : (modDomain d f s).part = s.part := rfl
@[simp] theorem modDomain_tableSize (d : Nat) (f : DomainRecord → DomainRecord) (s : State) : (modDomain d f s).tableSize = s.tableSize := rfl
@[simp] theorem modDomain_capacity (d : Nat) (f : DomainRecord → DomainRecord) (s : State) : (modDomain d f s).capacity = s.capacity := rfl
@[simp] theorem modDomain_groups (d : Nat) (f : DomainRecord → DomainRecord) (s : State) : (modDomain d f s).groups = s.groups := rfl
@[simp] theorem modDomain_homes (d : Nat) (f : DomainRecord → DomainRecord) (s : State) : (modDomain d f s).homes = s.homes := rfl
@[simp] theorem modDomain_policies (d : Nat) (f : DomainRecord → DomainRecord) (s : State) : (modDomain d f s).policies = s.policies := rfl
@[simp] theorem modDomain_store (d : Nat) (f : DomainRecord → DomainRecord) (s : State) : (modDomain d f s).store = s.store := rfl
@[simp] theorem modDomain_cache (d : Nat) (f : DomainRecord → DomainRecord) (s : State) : (modDomain d f s).cache = s.cache := rfl
@[simp] theorem modDomain_portPtr (d : Nat) (f : DomainRecord → DomainRecord) (s : State) : (modDomain d f s).portPtr = s.portPtr := rfl
@[simp] theorem modDomain_enginePtr (d : Nat) (f : DomainRecord → DomainRecord) (s : State) : (modDomain d f s).enginePtr = s.enginePtr := rfl
@[simp] theorem modDomain_miss (d : Nat) (f : DomainRecord → DomainRecord) (s : State) : (modDomain d f s).miss = s.miss := rfl
@[simp] theorem modDomain_port (d : Nat) (f : DomainRecord → DomainRecord) (s : State) : (modDomain d f s).port = s.port := rfl
@[simp] theorem modDomain_fill (d : Nat) (f : DomainRecord → DomainRecord) (s : State) : (modDomain d f s).fill = s.fill := rfl
@[simp] theorem modDomain_park (d : Nat) (f : DomainRecord → DomainRecord) (s : State) : (modDomain d f s).park = s.park := rfl
@[simp] theorem modDomain_links (d : Nat) (f : DomainRecord → DomainRecord) (s : State) : (modDomain d f s).links = s.links := rfl
@[simp] theorem modDomain_pacing (d : Nat) (f : DomainRecord → DomainRecord) (s : State) : (modDomain d f s).pacing = s.pacing := rfl
@[simp] theorem modDomain_intake (d : Nat) (f : DomainRecord → DomainRecord) (s : State) : (modDomain d f s).intake = s.intake := rfl
@[simp] theorem modDomain_overrun (d : Nat) (f : DomainRecord → DomainRecord) (s : State) : (modDomain d f s).overrun = s.overrun := rfl
@[simp] theorem modDomain_staging (d : Nat) (f : DomainRecord → DomainRecord) (s : State) : (modDomain d f s).staging = s.staging := rfl
@[simp] theorem modDomain_ctxs (d : Nat) (f : DomainRecord → DomainRecord) (s : State) : (modDomain d f s).ctxs = s.ctxs := rfl
@[simp] theorem modDomain_responses (d : Nat) (f : DomainRecord → DomainRecord) (s : State) : (modDomain d f s).responses = s.responses := rfl
@[simp] theorem modDomain_respPtr (d : Nat) (f : DomainRecord → DomainRecord) (s : State) : (modDomain d f s).respPtr = s.respPtr := rfl
@[simp] theorem modDomain_respLatch (d : Nat) (f : DomainRecord → DomainRecord) (s : State) : (modDomain d f s).respLatch = s.respLatch := rfl
@[simp] theorem modDomain_notices (d : Nat) (f : DomainRecord → DomainRecord) (s : State) : (modDomain d f s).notices = s.notices := rfl
@[simp] theorem modDomain_noticeLost (d : Nat) (f : DomainRecord → DomainRecord) (s : State) : (modDomain d f s).noticeLost = s.noticeLost := rfl
@[simp] theorem modDomain_noticeLatch (d : Nat) (f : DomainRecord → DomainRecord) (s : State) : (modDomain d f s).noticeLatch = s.noticeLatch := rfl
@[simp] theorem modDomain_counters (d : Nat) (f : DomainRecord → DomainRecord) (s : State) : (modDomain d f s).counters = s.counters := rfl
@[simp] theorem modDomain_copies (d : Nat) (f : DomainRecord → DomainRecord) (s : State) : (modDomain d f s).copies = s.copies := rfl
@[simp] theorem modDomain_snapSeq (d : Nat) (f : DomainRecord → DomainRecord) (s : State) : (modDomain d f s).snapSeq = s.snapSeq := rfl
@[simp] theorem modDomain_snapTimer (d : Nat) (f : DomainRecord → DomainRecord) (s : State) : (modDomain d f s).snapTimer = s.snapTimer := rfl
@[simp] theorem modDomain_parkMark (d : Nat) (f : DomainRecord → DomainRecord) (s : State) : (modDomain d f s).parkMark = s.parkMark := rfl
@[simp] theorem modDomain_missMark (d : Nat) (f : DomainRecord → DomainRecord) (s : State) : (modDomain d f s).missMark = s.missMark := rfl
@[simp] theorem modDomain_settings (d : Nat) (f : DomainRecord → DomainRecord) (s : State) : (modDomain d f s).settings = s.settings := rfl
@[simp] theorem modDomain_irqResponse (d : Nat) (f : DomainRecord → DomainRecord) (s : State) : (modDomain d f s).irqResponse = s.irqResponse := rfl
@[simp] theorem modDomain_irqNotice (d : Nat) (f : DomainRecord → DomainRecord) (s : State) : (modDomain d f s).irqNotice = s.irqNotice := rfl
@[simp] theorem modDomain_msiSent (d : Nat) (f : DomainRecord → DomainRecord) (s : State) : (modDomain d f s).msiSent = s.msiSent := rfl
@[simp] theorem modDomain_readData (d : Nat) (f : DomainRecord → DomainRecord) (s : State) : (modDomain d f s).readData = s.readData := rfl
@[simp] theorem modDomain_arrivals (d : Nat) (f : DomainRecord → DomainRecord) (s : State) : (modDomain d f s).arrivals = s.arrivals := rfl
@[simp] theorem modDomain_pending (d : Nat) (f : DomainRecord → DomainRecord) (s : State) : (modDomain d f s).pending = s.pending := rfl

/-! ## modGroup -/

@[simp] theorem modGroup_part (g : Nat) (f : GroupRecord → GroupRecord) (s : State) : (modGroup g f s).part = s.part := rfl
@[simp] theorem modGroup_tableSize (g : Nat) (f : GroupRecord → GroupRecord) (s : State) : (modGroup g f s).tableSize = s.tableSize := rfl
@[simp] theorem modGroup_capacity (g : Nat) (f : GroupRecord → GroupRecord) (s : State) : (modGroup g f s).capacity = s.capacity := rfl
@[simp] theorem modGroup_domains (g : Nat) (f : GroupRecord → GroupRecord) (s : State) : (modGroup g f s).domains = s.domains := rfl
@[simp] theorem modGroup_homes (g : Nat) (f : GroupRecord → GroupRecord) (s : State) : (modGroup g f s).homes = s.homes := rfl
@[simp] theorem modGroup_policies (g : Nat) (f : GroupRecord → GroupRecord) (s : State) : (modGroup g f s).policies = s.policies := rfl
@[simp] theorem modGroup_store (g : Nat) (f : GroupRecord → GroupRecord) (s : State) : (modGroup g f s).store = s.store := rfl
@[simp] theorem modGroup_cache (g : Nat) (f : GroupRecord → GroupRecord) (s : State) : (modGroup g f s).cache = s.cache := rfl
@[simp] theorem modGroup_portPtr (g : Nat) (f : GroupRecord → GroupRecord) (s : State) : (modGroup g f s).portPtr = s.portPtr := rfl
@[simp] theorem modGroup_enginePtr (g : Nat) (f : GroupRecord → GroupRecord) (s : State) : (modGroup g f s).enginePtr = s.enginePtr := rfl
@[simp] theorem modGroup_miss (g : Nat) (f : GroupRecord → GroupRecord) (s : State) : (modGroup g f s).miss = s.miss := rfl
@[simp] theorem modGroup_port (g : Nat) (f : GroupRecord → GroupRecord) (s : State) : (modGroup g f s).port = s.port := rfl
@[simp] theorem modGroup_fill (g : Nat) (f : GroupRecord → GroupRecord) (s : State) : (modGroup g f s).fill = s.fill := rfl
@[simp] theorem modGroup_park (g : Nat) (f : GroupRecord → GroupRecord) (s : State) : (modGroup g f s).park = s.park := rfl
@[simp] theorem modGroup_links (g : Nat) (f : GroupRecord → GroupRecord) (s : State) : (modGroup g f s).links = s.links := rfl
@[simp] theorem modGroup_pacing (g : Nat) (f : GroupRecord → GroupRecord) (s : State) : (modGroup g f s).pacing = s.pacing := rfl
@[simp] theorem modGroup_intake (g : Nat) (f : GroupRecord → GroupRecord) (s : State) : (modGroup g f s).intake = s.intake := rfl
@[simp] theorem modGroup_overrun (g : Nat) (f : GroupRecord → GroupRecord) (s : State) : (modGroup g f s).overrun = s.overrun := rfl
@[simp] theorem modGroup_staging (g : Nat) (f : GroupRecord → GroupRecord) (s : State) : (modGroup g f s).staging = s.staging := rfl
@[simp] theorem modGroup_ctxs (g : Nat) (f : GroupRecord → GroupRecord) (s : State) : (modGroup g f s).ctxs = s.ctxs := rfl
@[simp] theorem modGroup_responses (g : Nat) (f : GroupRecord → GroupRecord) (s : State) : (modGroup g f s).responses = s.responses := rfl
@[simp] theorem modGroup_respPtr (g : Nat) (f : GroupRecord → GroupRecord) (s : State) : (modGroup g f s).respPtr = s.respPtr := rfl
@[simp] theorem modGroup_respLatch (g : Nat) (f : GroupRecord → GroupRecord) (s : State) : (modGroup g f s).respLatch = s.respLatch := rfl
@[simp] theorem modGroup_notices (g : Nat) (f : GroupRecord → GroupRecord) (s : State) : (modGroup g f s).notices = s.notices := rfl
@[simp] theorem modGroup_noticeLost (g : Nat) (f : GroupRecord → GroupRecord) (s : State) : (modGroup g f s).noticeLost = s.noticeLost := rfl
@[simp] theorem modGroup_noticeLatch (g : Nat) (f : GroupRecord → GroupRecord) (s : State) : (modGroup g f s).noticeLatch = s.noticeLatch := rfl
@[simp] theorem modGroup_counters (g : Nat) (f : GroupRecord → GroupRecord) (s : State) : (modGroup g f s).counters = s.counters := rfl
@[simp] theorem modGroup_copies (g : Nat) (f : GroupRecord → GroupRecord) (s : State) : (modGroup g f s).copies = s.copies := rfl
@[simp] theorem modGroup_snapSeq (g : Nat) (f : GroupRecord → GroupRecord) (s : State) : (modGroup g f s).snapSeq = s.snapSeq := rfl
@[simp] theorem modGroup_snapTimer (g : Nat) (f : GroupRecord → GroupRecord) (s : State) : (modGroup g f s).snapTimer = s.snapTimer := rfl
@[simp] theorem modGroup_parkMark (g : Nat) (f : GroupRecord → GroupRecord) (s : State) : (modGroup g f s).parkMark = s.parkMark := rfl
@[simp] theorem modGroup_missMark (g : Nat) (f : GroupRecord → GroupRecord) (s : State) : (modGroup g f s).missMark = s.missMark := rfl
@[simp] theorem modGroup_settings (g : Nat) (f : GroupRecord → GroupRecord) (s : State) : (modGroup g f s).settings = s.settings := rfl
@[simp] theorem modGroup_irqResponse (g : Nat) (f : GroupRecord → GroupRecord) (s : State) : (modGroup g f s).irqResponse = s.irqResponse := rfl
@[simp] theorem modGroup_irqNotice (g : Nat) (f : GroupRecord → GroupRecord) (s : State) : (modGroup g f s).irqNotice = s.irqNotice := rfl
@[simp] theorem modGroup_msiSent (g : Nat) (f : GroupRecord → GroupRecord) (s : State) : (modGroup g f s).msiSent = s.msiSent := rfl
@[simp] theorem modGroup_readData (g : Nat) (f : GroupRecord → GroupRecord) (s : State) : (modGroup g f s).readData = s.readData := rfl
@[simp] theorem modGroup_arrivals (g : Nat) (f : GroupRecord → GroupRecord) (s : State) : (modGroup g f s).arrivals = s.arrivals := rfl
@[simp] theorem modGroup_pending (g : Nat) (f : GroupRecord → GroupRecord) (s : State) : (modGroup g f s).pending = s.pending := rfl

/-! ## setCounter -/

@[simp] theorem setCounter_part (n : CounterName) (x : Counter) (s : State) : (setCounter n x s).part = s.part := rfl
@[simp] theorem setCounter_tableSize (n : CounterName) (x : Counter) (s : State) : (setCounter n x s).tableSize = s.tableSize := rfl
@[simp] theorem setCounter_capacity (n : CounterName) (x : Counter) (s : State) : (setCounter n x s).capacity = s.capacity := rfl
@[simp] theorem setCounter_domains (n : CounterName) (x : Counter) (s : State) : (setCounter n x s).domains = s.domains := rfl
@[simp] theorem setCounter_groups (n : CounterName) (x : Counter) (s : State) : (setCounter n x s).groups = s.groups := rfl
@[simp] theorem setCounter_homes (n : CounterName) (x : Counter) (s : State) : (setCounter n x s).homes = s.homes := rfl
@[simp] theorem setCounter_policies (n : CounterName) (x : Counter) (s : State) : (setCounter n x s).policies = s.policies := rfl
@[simp] theorem setCounter_store (n : CounterName) (x : Counter) (s : State) : (setCounter n x s).store = s.store := rfl
@[simp] theorem setCounter_cache (n : CounterName) (x : Counter) (s : State) : (setCounter n x s).cache = s.cache := rfl
@[simp] theorem setCounter_portPtr (n : CounterName) (x : Counter) (s : State) : (setCounter n x s).portPtr = s.portPtr := rfl
@[simp] theorem setCounter_enginePtr (n : CounterName) (x : Counter) (s : State) : (setCounter n x s).enginePtr = s.enginePtr := rfl
@[simp] theorem setCounter_miss (n : CounterName) (x : Counter) (s : State) : (setCounter n x s).miss = s.miss := rfl
@[simp] theorem setCounter_port (n : CounterName) (x : Counter) (s : State) : (setCounter n x s).port = s.port := rfl
@[simp] theorem setCounter_fill (n : CounterName) (x : Counter) (s : State) : (setCounter n x s).fill = s.fill := rfl
@[simp] theorem setCounter_park (n : CounterName) (x : Counter) (s : State) : (setCounter n x s).park = s.park := rfl
@[simp] theorem setCounter_links (n : CounterName) (x : Counter) (s : State) : (setCounter n x s).links = s.links := rfl
@[simp] theorem setCounter_pacing (n : CounterName) (x : Counter) (s : State) : (setCounter n x s).pacing = s.pacing := rfl
@[simp] theorem setCounter_intake (n : CounterName) (x : Counter) (s : State) : (setCounter n x s).intake = s.intake := rfl
@[simp] theorem setCounter_overrun (n : CounterName) (x : Counter) (s : State) : (setCounter n x s).overrun = s.overrun := rfl
@[simp] theorem setCounter_staging (n : CounterName) (x : Counter) (s : State) : (setCounter n x s).staging = s.staging := rfl
@[simp] theorem setCounter_ctxs (n : CounterName) (x : Counter) (s : State) : (setCounter n x s).ctxs = s.ctxs := rfl
@[simp] theorem setCounter_responses (n : CounterName) (x : Counter) (s : State) : (setCounter n x s).responses = s.responses := rfl
@[simp] theorem setCounter_respPtr (n : CounterName) (x : Counter) (s : State) : (setCounter n x s).respPtr = s.respPtr := rfl
@[simp] theorem setCounter_respLatch (n : CounterName) (x : Counter) (s : State) : (setCounter n x s).respLatch = s.respLatch := rfl
@[simp] theorem setCounter_notices (n : CounterName) (x : Counter) (s : State) : (setCounter n x s).notices = s.notices := rfl
@[simp] theorem setCounter_noticeLost (n : CounterName) (x : Counter) (s : State) : (setCounter n x s).noticeLost = s.noticeLost := rfl
@[simp] theorem setCounter_noticeLatch (n : CounterName) (x : Counter) (s : State) : (setCounter n x s).noticeLatch = s.noticeLatch := rfl
@[simp] theorem setCounter_copies (n : CounterName) (x : Counter) (s : State) : (setCounter n x s).copies = s.copies := rfl
@[simp] theorem setCounter_snapSeq (n : CounterName) (x : Counter) (s : State) : (setCounter n x s).snapSeq = s.snapSeq := rfl
@[simp] theorem setCounter_snapTimer (n : CounterName) (x : Counter) (s : State) : (setCounter n x s).snapTimer = s.snapTimer := rfl
@[simp] theorem setCounter_parkMark (n : CounterName) (x : Counter) (s : State) : (setCounter n x s).parkMark = s.parkMark := rfl
@[simp] theorem setCounter_missMark (n : CounterName) (x : Counter) (s : State) : (setCounter n x s).missMark = s.missMark := rfl
@[simp] theorem setCounter_settings (n : CounterName) (x : Counter) (s : State) : (setCounter n x s).settings = s.settings := rfl
@[simp] theorem setCounter_irqResponse (n : CounterName) (x : Counter) (s : State) : (setCounter n x s).irqResponse = s.irqResponse := rfl
@[simp] theorem setCounter_irqNotice (n : CounterName) (x : Counter) (s : State) : (setCounter n x s).irqNotice = s.irqNotice := rfl
@[simp] theorem setCounter_msiSent (n : CounterName) (x : Counter) (s : State) : (setCounter n x s).msiSent = s.msiSent := rfl
@[simp] theorem setCounter_readData (n : CounterName) (x : Counter) (s : State) : (setCounter n x s).readData = s.readData := rfl
@[simp] theorem setCounter_arrivals (n : CounterName) (x : Counter) (s : State) : (setCounter n x s).arrivals = s.arrivals := rfl
@[simp] theorem setCounter_pending (n : CounterName) (x : Counter) (s : State) : (setCounter n x s).pending = s.pending := rfl

/-! ## storeImage -/

@[simp] theorem storeImage_part (g : Nat) (x : BitVec 64) (e : BitVec 8) (s : State) : (storeImage g x e s).part = s.part := rfl
@[simp] theorem storeImage_tableSize (g : Nat) (x : BitVec 64) (e : BitVec 8) (s : State) : (storeImage g x e s).tableSize = s.tableSize := rfl
@[simp] theorem storeImage_capacity (g : Nat) (x : BitVec 64) (e : BitVec 8) (s : State) : (storeImage g x e s).capacity = s.capacity := rfl
@[simp] theorem storeImage_domains (g : Nat) (x : BitVec 64) (e : BitVec 8) (s : State) : (storeImage g x e s).domains = s.domains := rfl
@[simp] theorem storeImage_groups (g : Nat) (x : BitVec 64) (e : BitVec 8) (s : State) : (storeImage g x e s).groups = s.groups := rfl
@[simp] theorem storeImage_homes (g : Nat) (x : BitVec 64) (e : BitVec 8) (s : State) : (storeImage g x e s).homes = s.homes := rfl
@[simp] theorem storeImage_policies (g : Nat) (x : BitVec 64) (e : BitVec 8) (s : State) : (storeImage g x e s).policies = s.policies := rfl
@[simp] theorem storeImage_cache (g : Nat) (x : BitVec 64) (e : BitVec 8) (s : State) : (storeImage g x e s).cache = s.cache := rfl
@[simp] theorem storeImage_portPtr (g : Nat) (x : BitVec 64) (e : BitVec 8) (s : State) : (storeImage g x e s).portPtr = s.portPtr := rfl
@[simp] theorem storeImage_enginePtr (g : Nat) (x : BitVec 64) (e : BitVec 8) (s : State) : (storeImage g x e s).enginePtr = s.enginePtr := rfl
@[simp] theorem storeImage_miss (g : Nat) (x : BitVec 64) (e : BitVec 8) (s : State) : (storeImage g x e s).miss = s.miss := rfl
@[simp] theorem storeImage_port (g : Nat) (x : BitVec 64) (e : BitVec 8) (s : State) : (storeImage g x e s).port = s.port := rfl
@[simp] theorem storeImage_fill (g : Nat) (x : BitVec 64) (e : BitVec 8) (s : State) : (storeImage g x e s).fill = s.fill := rfl
@[simp] theorem storeImage_park (g : Nat) (x : BitVec 64) (e : BitVec 8) (s : State) : (storeImage g x e s).park = s.park := rfl
@[simp] theorem storeImage_links (g : Nat) (x : BitVec 64) (e : BitVec 8) (s : State) : (storeImage g x e s).links = s.links := rfl
@[simp] theorem storeImage_pacing (g : Nat) (x : BitVec 64) (e : BitVec 8) (s : State) : (storeImage g x e s).pacing = s.pacing := rfl
@[simp] theorem storeImage_intake (g : Nat) (x : BitVec 64) (e : BitVec 8) (s : State) : (storeImage g x e s).intake = s.intake := rfl
@[simp] theorem storeImage_overrun (g : Nat) (x : BitVec 64) (e : BitVec 8) (s : State) : (storeImage g x e s).overrun = s.overrun := rfl
@[simp] theorem storeImage_staging (g : Nat) (x : BitVec 64) (e : BitVec 8) (s : State) : (storeImage g x e s).staging = s.staging := rfl
@[simp] theorem storeImage_ctxs (g : Nat) (x : BitVec 64) (e : BitVec 8) (s : State) : (storeImage g x e s).ctxs = s.ctxs := rfl
@[simp] theorem storeImage_responses (g : Nat) (x : BitVec 64) (e : BitVec 8) (s : State) : (storeImage g x e s).responses = s.responses := rfl
@[simp] theorem storeImage_respPtr (g : Nat) (x : BitVec 64) (e : BitVec 8) (s : State) : (storeImage g x e s).respPtr = s.respPtr := rfl
@[simp] theorem storeImage_respLatch (g : Nat) (x : BitVec 64) (e : BitVec 8) (s : State) : (storeImage g x e s).respLatch = s.respLatch := rfl
@[simp] theorem storeImage_notices (g : Nat) (x : BitVec 64) (e : BitVec 8) (s : State) : (storeImage g x e s).notices = s.notices := rfl
@[simp] theorem storeImage_noticeLost (g : Nat) (x : BitVec 64) (e : BitVec 8) (s : State) : (storeImage g x e s).noticeLost = s.noticeLost := rfl
@[simp] theorem storeImage_noticeLatch (g : Nat) (x : BitVec 64) (e : BitVec 8) (s : State) : (storeImage g x e s).noticeLatch = s.noticeLatch := rfl
@[simp] theorem storeImage_counters (g : Nat) (x : BitVec 64) (e : BitVec 8) (s : State) : (storeImage g x e s).counters = s.counters := rfl
@[simp] theorem storeImage_copies (g : Nat) (x : BitVec 64) (e : BitVec 8) (s : State) : (storeImage g x e s).copies = s.copies := rfl
@[simp] theorem storeImage_snapSeq (g : Nat) (x : BitVec 64) (e : BitVec 8) (s : State) : (storeImage g x e s).snapSeq = s.snapSeq := rfl
@[simp] theorem storeImage_snapTimer (g : Nat) (x : BitVec 64) (e : BitVec 8) (s : State) : (storeImage g x e s).snapTimer = s.snapTimer := rfl
@[simp] theorem storeImage_parkMark (g : Nat) (x : BitVec 64) (e : BitVec 8) (s : State) : (storeImage g x e s).parkMark = s.parkMark := rfl
@[simp] theorem storeImage_missMark (g : Nat) (x : BitVec 64) (e : BitVec 8) (s : State) : (storeImage g x e s).missMark = s.missMark := rfl
@[simp] theorem storeImage_settings (g : Nat) (x : BitVec 64) (e : BitVec 8) (s : State) : (storeImage g x e s).settings = s.settings := rfl
@[simp] theorem storeImage_irqResponse (g : Nat) (x : BitVec 64) (e : BitVec 8) (s : State) : (storeImage g x e s).irqResponse = s.irqResponse := rfl
@[simp] theorem storeImage_irqNotice (g : Nat) (x : BitVec 64) (e : BitVec 8) (s : State) : (storeImage g x e s).irqNotice = s.irqNotice := rfl
@[simp] theorem storeImage_msiSent (g : Nat) (x : BitVec 64) (e : BitVec 8) (s : State) : (storeImage g x e s).msiSent = s.msiSent := rfl
@[simp] theorem storeImage_readData (g : Nat) (x : BitVec 64) (e : BitVec 8) (s : State) : (storeImage g x e s).readData = s.readData := rfl
@[simp] theorem storeImage_arrivals (g : Nat) (x : BitVec 64) (e : BitVec 8) (s : State) : (storeImage g x e s).arrivals = s.arrivals := rfl
@[simp] theorem storeImage_pending (g : Nat) (x : BitVec 64) (e : BitVec 8) (s : State) : (storeImage g x e s).pending = s.pending := rfl

/-! ## putCacheSet -/

@[simp] theorem putCacheSet_part (g : Nat) (x : CacheSet) (s : State) : (putCacheSet g x s).part = s.part := rfl
@[simp] theorem putCacheSet_tableSize (g : Nat) (x : CacheSet) (s : State) : (putCacheSet g x s).tableSize = s.tableSize := rfl
@[simp] theorem putCacheSet_capacity (g : Nat) (x : CacheSet) (s : State) : (putCacheSet g x s).capacity = s.capacity := rfl
@[simp] theorem putCacheSet_domains (g : Nat) (x : CacheSet) (s : State) : (putCacheSet g x s).domains = s.domains := rfl
@[simp] theorem putCacheSet_groups (g : Nat) (x : CacheSet) (s : State) : (putCacheSet g x s).groups = s.groups := rfl
@[simp] theorem putCacheSet_homes (g : Nat) (x : CacheSet) (s : State) : (putCacheSet g x s).homes = s.homes := rfl
@[simp] theorem putCacheSet_policies (g : Nat) (x : CacheSet) (s : State) : (putCacheSet g x s).policies = s.policies := rfl
@[simp] theorem putCacheSet_store (g : Nat) (x : CacheSet) (s : State) : (putCacheSet g x s).store = s.store := rfl
@[simp] theorem putCacheSet_portPtr (g : Nat) (x : CacheSet) (s : State) : (putCacheSet g x s).portPtr = s.portPtr := rfl
@[simp] theorem putCacheSet_enginePtr (g : Nat) (x : CacheSet) (s : State) : (putCacheSet g x s).enginePtr = s.enginePtr := rfl
@[simp] theorem putCacheSet_miss (g : Nat) (x : CacheSet) (s : State) : (putCacheSet g x s).miss = s.miss := rfl
@[simp] theorem putCacheSet_port (g : Nat) (x : CacheSet) (s : State) : (putCacheSet g x s).port = s.port := rfl
@[simp] theorem putCacheSet_fill (g : Nat) (x : CacheSet) (s : State) : (putCacheSet g x s).fill = s.fill := rfl
@[simp] theorem putCacheSet_park (g : Nat) (x : CacheSet) (s : State) : (putCacheSet g x s).park = s.park := rfl
@[simp] theorem putCacheSet_links (g : Nat) (x : CacheSet) (s : State) : (putCacheSet g x s).links = s.links := rfl
@[simp] theorem putCacheSet_pacing (g : Nat) (x : CacheSet) (s : State) : (putCacheSet g x s).pacing = s.pacing := rfl
@[simp] theorem putCacheSet_intake (g : Nat) (x : CacheSet) (s : State) : (putCacheSet g x s).intake = s.intake := rfl
@[simp] theorem putCacheSet_overrun (g : Nat) (x : CacheSet) (s : State) : (putCacheSet g x s).overrun = s.overrun := rfl
@[simp] theorem putCacheSet_staging (g : Nat) (x : CacheSet) (s : State) : (putCacheSet g x s).staging = s.staging := rfl
@[simp] theorem putCacheSet_ctxs (g : Nat) (x : CacheSet) (s : State) : (putCacheSet g x s).ctxs = s.ctxs := rfl
@[simp] theorem putCacheSet_responses (g : Nat) (x : CacheSet) (s : State) : (putCacheSet g x s).responses = s.responses := rfl
@[simp] theorem putCacheSet_respPtr (g : Nat) (x : CacheSet) (s : State) : (putCacheSet g x s).respPtr = s.respPtr := rfl
@[simp] theorem putCacheSet_respLatch (g : Nat) (x : CacheSet) (s : State) : (putCacheSet g x s).respLatch = s.respLatch := rfl
@[simp] theorem putCacheSet_notices (g : Nat) (x : CacheSet) (s : State) : (putCacheSet g x s).notices = s.notices := rfl
@[simp] theorem putCacheSet_noticeLost (g : Nat) (x : CacheSet) (s : State) : (putCacheSet g x s).noticeLost = s.noticeLost := rfl
@[simp] theorem putCacheSet_noticeLatch (g : Nat) (x : CacheSet) (s : State) : (putCacheSet g x s).noticeLatch = s.noticeLatch := rfl
@[simp] theorem putCacheSet_counters (g : Nat) (x : CacheSet) (s : State) : (putCacheSet g x s).counters = s.counters := rfl
@[simp] theorem putCacheSet_copies (g : Nat) (x : CacheSet) (s : State) : (putCacheSet g x s).copies = s.copies := rfl
@[simp] theorem putCacheSet_snapSeq (g : Nat) (x : CacheSet) (s : State) : (putCacheSet g x s).snapSeq = s.snapSeq := rfl
@[simp] theorem putCacheSet_snapTimer (g : Nat) (x : CacheSet) (s : State) : (putCacheSet g x s).snapTimer = s.snapTimer := rfl
@[simp] theorem putCacheSet_parkMark (g : Nat) (x : CacheSet) (s : State) : (putCacheSet g x s).parkMark = s.parkMark := rfl
@[simp] theorem putCacheSet_missMark (g : Nat) (x : CacheSet) (s : State) : (putCacheSet g x s).missMark = s.missMark := rfl
@[simp] theorem putCacheSet_settings (g : Nat) (x : CacheSet) (s : State) : (putCacheSet g x s).settings = s.settings := rfl
@[simp] theorem putCacheSet_irqResponse (g : Nat) (x : CacheSet) (s : State) : (putCacheSet g x s).irqResponse = s.irqResponse := rfl
@[simp] theorem putCacheSet_irqNotice (g : Nat) (x : CacheSet) (s : State) : (putCacheSet g x s).irqNotice = s.irqNotice := rfl
@[simp] theorem putCacheSet_msiSent (g : Nat) (x : CacheSet) (s : State) : (putCacheSet g x s).msiSent = s.msiSent := rfl
@[simp] theorem putCacheSet_readData (g : Nat) (x : CacheSet) (s : State) : (putCacheSet g x s).readData = s.readData := rfl
@[simp] theorem putCacheSet_arrivals (g : Nat) (x : CacheSet) (s : State) : (putCacheSet g x s).arrivals = s.arrivals := rfl
@[simp] theorem putCacheSet_pending (g : Nat) (x : CacheSet) (s : State) : (putCacheSet g x s).pending = s.pending := rfl

/-! ## modEntry -/

@[simp] theorem modEntry_part (g : Nat) (f : MissEntry → MissEntry) (s : State) : (modEntry g f s).part = s.part := rfl
@[simp] theorem modEntry_tableSize (g : Nat) (f : MissEntry → MissEntry) (s : State) : (modEntry g f s).tableSize = s.tableSize := rfl
@[simp] theorem modEntry_capacity (g : Nat) (f : MissEntry → MissEntry) (s : State) : (modEntry g f s).capacity = s.capacity := rfl
@[simp] theorem modEntry_domains (g : Nat) (f : MissEntry → MissEntry) (s : State) : (modEntry g f s).domains = s.domains := rfl
@[simp] theorem modEntry_groups (g : Nat) (f : MissEntry → MissEntry) (s : State) : (modEntry g f s).groups = s.groups := rfl
@[simp] theorem modEntry_homes (g : Nat) (f : MissEntry → MissEntry) (s : State) : (modEntry g f s).homes = s.homes := rfl
@[simp] theorem modEntry_policies (g : Nat) (f : MissEntry → MissEntry) (s : State) : (modEntry g f s).policies = s.policies := rfl
@[simp] theorem modEntry_store (g : Nat) (f : MissEntry → MissEntry) (s : State) : (modEntry g f s).store = s.store := rfl
@[simp] theorem modEntry_cache (g : Nat) (f : MissEntry → MissEntry) (s : State) : (modEntry g f s).cache = s.cache := rfl
@[simp] theorem modEntry_portPtr (g : Nat) (f : MissEntry → MissEntry) (s : State) : (modEntry g f s).portPtr = s.portPtr := rfl
@[simp] theorem modEntry_enginePtr (g : Nat) (f : MissEntry → MissEntry) (s : State) : (modEntry g f s).enginePtr = s.enginePtr := rfl
@[simp] theorem modEntry_port (g : Nat) (f : MissEntry → MissEntry) (s : State) : (modEntry g f s).port = s.port := rfl
@[simp] theorem modEntry_fill (g : Nat) (f : MissEntry → MissEntry) (s : State) : (modEntry g f s).fill = s.fill := rfl
@[simp] theorem modEntry_park (g : Nat) (f : MissEntry → MissEntry) (s : State) : (modEntry g f s).park = s.park := rfl
@[simp] theorem modEntry_links (g : Nat) (f : MissEntry → MissEntry) (s : State) : (modEntry g f s).links = s.links := rfl
@[simp] theorem modEntry_pacing (g : Nat) (f : MissEntry → MissEntry) (s : State) : (modEntry g f s).pacing = s.pacing := rfl
@[simp] theorem modEntry_intake (g : Nat) (f : MissEntry → MissEntry) (s : State) : (modEntry g f s).intake = s.intake := rfl
@[simp] theorem modEntry_overrun (g : Nat) (f : MissEntry → MissEntry) (s : State) : (modEntry g f s).overrun = s.overrun := rfl
@[simp] theorem modEntry_staging (g : Nat) (f : MissEntry → MissEntry) (s : State) : (modEntry g f s).staging = s.staging := rfl
@[simp] theorem modEntry_ctxs (g : Nat) (f : MissEntry → MissEntry) (s : State) : (modEntry g f s).ctxs = s.ctxs := rfl
@[simp] theorem modEntry_responses (g : Nat) (f : MissEntry → MissEntry) (s : State) : (modEntry g f s).responses = s.responses := rfl
@[simp] theorem modEntry_respPtr (g : Nat) (f : MissEntry → MissEntry) (s : State) : (modEntry g f s).respPtr = s.respPtr := rfl
@[simp] theorem modEntry_respLatch (g : Nat) (f : MissEntry → MissEntry) (s : State) : (modEntry g f s).respLatch = s.respLatch := rfl
@[simp] theorem modEntry_notices (g : Nat) (f : MissEntry → MissEntry) (s : State) : (modEntry g f s).notices = s.notices := rfl
@[simp] theorem modEntry_noticeLost (g : Nat) (f : MissEntry → MissEntry) (s : State) : (modEntry g f s).noticeLost = s.noticeLost := rfl
@[simp] theorem modEntry_noticeLatch (g : Nat) (f : MissEntry → MissEntry) (s : State) : (modEntry g f s).noticeLatch = s.noticeLatch := rfl
@[simp] theorem modEntry_counters (g : Nat) (f : MissEntry → MissEntry) (s : State) : (modEntry g f s).counters = s.counters := rfl
@[simp] theorem modEntry_copies (g : Nat) (f : MissEntry → MissEntry) (s : State) : (modEntry g f s).copies = s.copies := rfl
@[simp] theorem modEntry_snapSeq (g : Nat) (f : MissEntry → MissEntry) (s : State) : (modEntry g f s).snapSeq = s.snapSeq := rfl
@[simp] theorem modEntry_snapTimer (g : Nat) (f : MissEntry → MissEntry) (s : State) : (modEntry g f s).snapTimer = s.snapTimer := rfl
@[simp] theorem modEntry_parkMark (g : Nat) (f : MissEntry → MissEntry) (s : State) : (modEntry g f s).parkMark = s.parkMark := rfl
@[simp] theorem modEntry_missMark (g : Nat) (f : MissEntry → MissEntry) (s : State) : (modEntry g f s).missMark = s.missMark := rfl
@[simp] theorem modEntry_settings (g : Nat) (f : MissEntry → MissEntry) (s : State) : (modEntry g f s).settings = s.settings := rfl
@[simp] theorem modEntry_irqResponse (g : Nat) (f : MissEntry → MissEntry) (s : State) : (modEntry g f s).irqResponse = s.irqResponse := rfl
@[simp] theorem modEntry_irqNotice (g : Nat) (f : MissEntry → MissEntry) (s : State) : (modEntry g f s).irqNotice = s.irqNotice := rfl
@[simp] theorem modEntry_msiSent (g : Nat) (f : MissEntry → MissEntry) (s : State) : (modEntry g f s).msiSent = s.msiSent := rfl
@[simp] theorem modEntry_readData (g : Nat) (f : MissEntry → MissEntry) (s : State) : (modEntry g f s).readData = s.readData := rfl
@[simp] theorem modEntry_arrivals (g : Nat) (f : MissEntry → MissEntry) (s : State) : (modEntry g f s).arrivals = s.arrivals := rfl
@[simp] theorem modEntry_pending (g : Nat) (f : MissEntry → MissEntry) (s : State) : (modEntry g f s).pending = s.pending := rfl

/-! ## issueWrite -/

@[simp] theorem issueWrite_part (g : Nat) (r : GranuleRecord) (s : State) : (issueWrite g r s).part = s.part := rfl
@[simp] theorem issueWrite_tableSize (g : Nat) (r : GranuleRecord) (s : State) : (issueWrite g r s).tableSize = s.tableSize := rfl
@[simp] theorem issueWrite_capacity (g : Nat) (r : GranuleRecord) (s : State) : (issueWrite g r s).capacity = s.capacity := rfl
@[simp] theorem issueWrite_domains (g : Nat) (r : GranuleRecord) (s : State) : (issueWrite g r s).domains = s.domains := rfl
@[simp] theorem issueWrite_groups (g : Nat) (r : GranuleRecord) (s : State) : (issueWrite g r s).groups = s.groups := rfl
@[simp] theorem issueWrite_homes (g : Nat) (r : GranuleRecord) (s : State) : (issueWrite g r s).homes = s.homes := rfl
@[simp] theorem issueWrite_policies (g : Nat) (r : GranuleRecord) (s : State) : (issueWrite g r s).policies = s.policies := rfl
@[simp] theorem issueWrite_store (g : Nat) (r : GranuleRecord) (s : State) : (issueWrite g r s).store = s.store := rfl
@[simp] theorem issueWrite_cache (g : Nat) (r : GranuleRecord) (s : State) : (issueWrite g r s).cache = s.cache := rfl
@[simp] theorem issueWrite_portPtr (g : Nat) (r : GranuleRecord) (s : State) : (issueWrite g r s).portPtr = s.portPtr := rfl
@[simp] theorem issueWrite_enginePtr (g : Nat) (r : GranuleRecord) (s : State) : (issueWrite g r s).enginePtr = s.enginePtr := rfl
@[simp] theorem issueWrite_miss (g : Nat) (r : GranuleRecord) (s : State) : (issueWrite g r s).miss = s.miss := rfl
@[simp] theorem issueWrite_fill (g : Nat) (r : GranuleRecord) (s : State) : (issueWrite g r s).fill = s.fill := rfl
@[simp] theorem issueWrite_park (g : Nat) (r : GranuleRecord) (s : State) : (issueWrite g r s).park = s.park := rfl
@[simp] theorem issueWrite_links (g : Nat) (r : GranuleRecord) (s : State) : (issueWrite g r s).links = s.links := rfl
@[simp] theorem issueWrite_pacing (g : Nat) (r : GranuleRecord) (s : State) : (issueWrite g r s).pacing = s.pacing := rfl
@[simp] theorem issueWrite_intake (g : Nat) (r : GranuleRecord) (s : State) : (issueWrite g r s).intake = s.intake := rfl
@[simp] theorem issueWrite_overrun (g : Nat) (r : GranuleRecord) (s : State) : (issueWrite g r s).overrun = s.overrun := rfl
@[simp] theorem issueWrite_staging (g : Nat) (r : GranuleRecord) (s : State) : (issueWrite g r s).staging = s.staging := rfl
@[simp] theorem issueWrite_ctxs (g : Nat) (r : GranuleRecord) (s : State) : (issueWrite g r s).ctxs = s.ctxs := rfl
@[simp] theorem issueWrite_responses (g : Nat) (r : GranuleRecord) (s : State) : (issueWrite g r s).responses = s.responses := rfl
@[simp] theorem issueWrite_respPtr (g : Nat) (r : GranuleRecord) (s : State) : (issueWrite g r s).respPtr = s.respPtr := rfl
@[simp] theorem issueWrite_respLatch (g : Nat) (r : GranuleRecord) (s : State) : (issueWrite g r s).respLatch = s.respLatch := rfl
@[simp] theorem issueWrite_notices (g : Nat) (r : GranuleRecord) (s : State) : (issueWrite g r s).notices = s.notices := rfl
@[simp] theorem issueWrite_noticeLost (g : Nat) (r : GranuleRecord) (s : State) : (issueWrite g r s).noticeLost = s.noticeLost := rfl
@[simp] theorem issueWrite_noticeLatch (g : Nat) (r : GranuleRecord) (s : State) : (issueWrite g r s).noticeLatch = s.noticeLatch := rfl
@[simp] theorem issueWrite_counters (g : Nat) (r : GranuleRecord) (s : State) : (issueWrite g r s).counters = s.counters := rfl
@[simp] theorem issueWrite_copies (g : Nat) (r : GranuleRecord) (s : State) : (issueWrite g r s).copies = s.copies := rfl
@[simp] theorem issueWrite_snapSeq (g : Nat) (r : GranuleRecord) (s : State) : (issueWrite g r s).snapSeq = s.snapSeq := rfl
@[simp] theorem issueWrite_snapTimer (g : Nat) (r : GranuleRecord) (s : State) : (issueWrite g r s).snapTimer = s.snapTimer := rfl
@[simp] theorem issueWrite_parkMark (g : Nat) (r : GranuleRecord) (s : State) : (issueWrite g r s).parkMark = s.parkMark := rfl
@[simp] theorem issueWrite_missMark (g : Nat) (r : GranuleRecord) (s : State) : (issueWrite g r s).missMark = s.missMark := rfl
@[simp] theorem issueWrite_settings (g : Nat) (r : GranuleRecord) (s : State) : (issueWrite g r s).settings = s.settings := rfl
@[simp] theorem issueWrite_irqResponse (g : Nat) (r : GranuleRecord) (s : State) : (issueWrite g r s).irqResponse = s.irqResponse := rfl
@[simp] theorem issueWrite_irqNotice (g : Nat) (r : GranuleRecord) (s : State) : (issueWrite g r s).irqNotice = s.irqNotice := rfl
@[simp] theorem issueWrite_msiSent (g : Nat) (r : GranuleRecord) (s : State) : (issueWrite g r s).msiSent = s.msiSent := rfl
@[simp] theorem issueWrite_readData (g : Nat) (r : GranuleRecord) (s : State) : (issueWrite g r s).readData = s.readData := rfl
@[simp] theorem issueWrite_arrivals (g : Nat) (r : GranuleRecord) (s : State) : (issueWrite g r s).arrivals = s.arrivals := rfl
@[simp] theorem issueWrite_pending (g : Nat) (r : GranuleRecord) (s : State) : (issueWrite g r s).pending = s.pending := rfl

/-! ## issueRead -/

@[simp] theorem issueRead_part (g : Nat) (s : State) : (issueRead g s).part = s.part := rfl
@[simp] theorem issueRead_tableSize (g : Nat) (s : State) : (issueRead g s).tableSize = s.tableSize := rfl
@[simp] theorem issueRead_capacity (g : Nat) (s : State) : (issueRead g s).capacity = s.capacity := rfl
@[simp] theorem issueRead_domains (g : Nat) (s : State) : (issueRead g s).domains = s.domains := rfl
@[simp] theorem issueRead_groups (g : Nat) (s : State) : (issueRead g s).groups = s.groups := rfl
@[simp] theorem issueRead_homes (g : Nat) (s : State) : (issueRead g s).homes = s.homes := rfl
@[simp] theorem issueRead_policies (g : Nat) (s : State) : (issueRead g s).policies = s.policies := rfl
@[simp] theorem issueRead_store (g : Nat) (s : State) : (issueRead g s).store = s.store := rfl
@[simp] theorem issueRead_cache (g : Nat) (s : State) : (issueRead g s).cache = s.cache := rfl
@[simp] theorem issueRead_portPtr (g : Nat) (s : State) : (issueRead g s).portPtr = s.portPtr := rfl
@[simp] theorem issueRead_enginePtr (g : Nat) (s : State) : (issueRead g s).enginePtr = s.enginePtr := rfl
@[simp] theorem issueRead_miss (g : Nat) (s : State) : (issueRead g s).miss = s.miss := rfl
@[simp] theorem issueRead_fill (g : Nat) (s : State) : (issueRead g s).fill = s.fill := rfl
@[simp] theorem issueRead_park (g : Nat) (s : State) : (issueRead g s).park = s.park := rfl
@[simp] theorem issueRead_links (g : Nat) (s : State) : (issueRead g s).links = s.links := rfl
@[simp] theorem issueRead_pacing (g : Nat) (s : State) : (issueRead g s).pacing = s.pacing := rfl
@[simp] theorem issueRead_intake (g : Nat) (s : State) : (issueRead g s).intake = s.intake := rfl
@[simp] theorem issueRead_overrun (g : Nat) (s : State) : (issueRead g s).overrun = s.overrun := rfl
@[simp] theorem issueRead_staging (g : Nat) (s : State) : (issueRead g s).staging = s.staging := rfl
@[simp] theorem issueRead_ctxs (g : Nat) (s : State) : (issueRead g s).ctxs = s.ctxs := rfl
@[simp] theorem issueRead_responses (g : Nat) (s : State) : (issueRead g s).responses = s.responses := rfl
@[simp] theorem issueRead_respPtr (g : Nat) (s : State) : (issueRead g s).respPtr = s.respPtr := rfl
@[simp] theorem issueRead_respLatch (g : Nat) (s : State) : (issueRead g s).respLatch = s.respLatch := rfl
@[simp] theorem issueRead_notices (g : Nat) (s : State) : (issueRead g s).notices = s.notices := rfl
@[simp] theorem issueRead_noticeLost (g : Nat) (s : State) : (issueRead g s).noticeLost = s.noticeLost := rfl
@[simp] theorem issueRead_noticeLatch (g : Nat) (s : State) : (issueRead g s).noticeLatch = s.noticeLatch := rfl
@[simp] theorem issueRead_counters (g : Nat) (s : State) : (issueRead g s).counters = s.counters := rfl
@[simp] theorem issueRead_copies (g : Nat) (s : State) : (issueRead g s).copies = s.copies := rfl
@[simp] theorem issueRead_snapSeq (g : Nat) (s : State) : (issueRead g s).snapSeq = s.snapSeq := rfl
@[simp] theorem issueRead_snapTimer (g : Nat) (s : State) : (issueRead g s).snapTimer = s.snapTimer := rfl
@[simp] theorem issueRead_parkMark (g : Nat) (s : State) : (issueRead g s).parkMark = s.parkMark := rfl
@[simp] theorem issueRead_missMark (g : Nat) (s : State) : (issueRead g s).missMark = s.missMark := rfl
@[simp] theorem issueRead_settings (g : Nat) (s : State) : (issueRead g s).settings = s.settings := rfl
@[simp] theorem issueRead_irqResponse (g : Nat) (s : State) : (issueRead g s).irqResponse = s.irqResponse := rfl
@[simp] theorem issueRead_irqNotice (g : Nat) (s : State) : (issueRead g s).irqNotice = s.irqNotice := rfl
@[simp] theorem issueRead_msiSent (g : Nat) (s : State) : (issueRead g s).msiSent = s.msiSent := rfl
@[simp] theorem issueRead_readData (g : Nat) (s : State) : (issueRead g s).readData = s.readData := rfl
@[simp] theorem issueRead_arrivals (g : Nat) (s : State) : (issueRead g s).arrivals = s.arrivals := rfl
@[simp] theorem issueRead_pending (g : Nat) (s : State) : (issueRead g s).pending = s.pending := rfl

/-! ## placeResponse -/

@[simp] theorem placeResponse_part (r : Response) (s : State) : (placeResponse r s).part = s.part := rfl
@[simp] theorem placeResponse_tableSize (r : Response) (s : State) : (placeResponse r s).tableSize = s.tableSize := rfl
@[simp] theorem placeResponse_capacity (r : Response) (s : State) : (placeResponse r s).capacity = s.capacity := rfl
@[simp] theorem placeResponse_domains (r : Response) (s : State) : (placeResponse r s).domains = s.domains := rfl
@[simp] theorem placeResponse_groups (r : Response) (s : State) : (placeResponse r s).groups = s.groups := rfl
@[simp] theorem placeResponse_homes (r : Response) (s : State) : (placeResponse r s).homes = s.homes := rfl
@[simp] theorem placeResponse_policies (r : Response) (s : State) : (placeResponse r s).policies = s.policies := rfl
@[simp] theorem placeResponse_store (r : Response) (s : State) : (placeResponse r s).store = s.store := rfl
@[simp] theorem placeResponse_cache (r : Response) (s : State) : (placeResponse r s).cache = s.cache := rfl
@[simp] theorem placeResponse_portPtr (r : Response) (s : State) : (placeResponse r s).portPtr = s.portPtr := rfl
@[simp] theorem placeResponse_enginePtr (r : Response) (s : State) : (placeResponse r s).enginePtr = s.enginePtr := rfl
@[simp] theorem placeResponse_miss (r : Response) (s : State) : (placeResponse r s).miss = s.miss := rfl
@[simp] theorem placeResponse_port (r : Response) (s : State) : (placeResponse r s).port = s.port := rfl
@[simp] theorem placeResponse_fill (r : Response) (s : State) : (placeResponse r s).fill = s.fill := rfl
@[simp] theorem placeResponse_park (r : Response) (s : State) : (placeResponse r s).park = s.park := rfl
@[simp] theorem placeResponse_links (r : Response) (s : State) : (placeResponse r s).links = s.links := rfl
@[simp] theorem placeResponse_pacing (r : Response) (s : State) : (placeResponse r s).pacing = s.pacing := rfl
@[simp] theorem placeResponse_intake (r : Response) (s : State) : (placeResponse r s).intake = s.intake := rfl
@[simp] theorem placeResponse_overrun (r : Response) (s : State) : (placeResponse r s).overrun = s.overrun := rfl
@[simp] theorem placeResponse_staging (r : Response) (s : State) : (placeResponse r s).staging = s.staging := rfl
@[simp] theorem placeResponse_ctxs (r : Response) (s : State) : (placeResponse r s).ctxs = s.ctxs := rfl
@[simp] theorem placeResponse_respPtr (r : Response) (s : State) : (placeResponse r s).respPtr = s.respPtr := rfl
@[simp] theorem placeResponse_respLatch (r : Response) (s : State) : (placeResponse r s).respLatch = s.respLatch := rfl
@[simp] theorem placeResponse_notices (r : Response) (s : State) : (placeResponse r s).notices = s.notices := rfl
@[simp] theorem placeResponse_noticeLost (r : Response) (s : State) : (placeResponse r s).noticeLost = s.noticeLost := rfl
@[simp] theorem placeResponse_noticeLatch (r : Response) (s : State) : (placeResponse r s).noticeLatch = s.noticeLatch := rfl
@[simp] theorem placeResponse_counters (r : Response) (s : State) : (placeResponse r s).counters = s.counters := rfl
@[simp] theorem placeResponse_copies (r : Response) (s : State) : (placeResponse r s).copies = s.copies := rfl
@[simp] theorem placeResponse_snapSeq (r : Response) (s : State) : (placeResponse r s).snapSeq = s.snapSeq := rfl
@[simp] theorem placeResponse_snapTimer (r : Response) (s : State) : (placeResponse r s).snapTimer = s.snapTimer := rfl
@[simp] theorem placeResponse_parkMark (r : Response) (s : State) : (placeResponse r s).parkMark = s.parkMark := rfl
@[simp] theorem placeResponse_missMark (r : Response) (s : State) : (placeResponse r s).missMark = s.missMark := rfl
@[simp] theorem placeResponse_settings (r : Response) (s : State) : (placeResponse r s).settings = s.settings := rfl
@[simp] theorem placeResponse_irqResponse (r : Response) (s : State) : (placeResponse r s).irqResponse = s.irqResponse := rfl
@[simp] theorem placeResponse_irqNotice (r : Response) (s : State) : (placeResponse r s).irqNotice = s.irqNotice := rfl
@[simp] theorem placeResponse_msiSent (r : Response) (s : State) : (placeResponse r s).msiSent = s.msiSent := rfl
@[simp] theorem placeResponse_readData (r : Response) (s : State) : (placeResponse r s).readData = s.readData := rfl
@[simp] theorem placeResponse_arrivals (r : Response) (s : State) : (placeResponse r s).arrivals = s.arrivals := rfl
@[simp] theorem placeResponse_pending (r : Response) (s : State) : (placeResponse r s).pending = s.pending := rfl

/-! ## schedulerServed -/

@[simp] theorem schedulerServed_part (s : State) : (schedulerServed s).part = s.part := rfl
@[simp] theorem schedulerServed_tableSize (s : State) : (schedulerServed s).tableSize = s.tableSize := rfl
@[simp] theorem schedulerServed_capacity (s : State) : (schedulerServed s).capacity = s.capacity := rfl
@[simp] theorem schedulerServed_domains (s : State) : (schedulerServed s).domains = s.domains := rfl
@[simp] theorem schedulerServed_groups (s : State) : (schedulerServed s).groups = s.groups := rfl
@[simp] theorem schedulerServed_homes (s : State) : (schedulerServed s).homes = s.homes := rfl
@[simp] theorem schedulerServed_policies (s : State) : (schedulerServed s).policies = s.policies := rfl
@[simp] theorem schedulerServed_store (s : State) : (schedulerServed s).store = s.store := rfl
@[simp] theorem schedulerServed_cache (s : State) : (schedulerServed s).cache = s.cache := rfl
@[simp] theorem schedulerServed_portPtr (s : State) : (schedulerServed s).portPtr = s.portPtr := rfl
@[simp] theorem schedulerServed_enginePtr (s : State) : (schedulerServed s).enginePtr = s.enginePtr := rfl
@[simp] theorem schedulerServed_miss (s : State) : (schedulerServed s).miss = s.miss := rfl
@[simp] theorem schedulerServed_port (s : State) : (schedulerServed s).port = s.port := rfl
@[simp] theorem schedulerServed_fill (s : State) : (schedulerServed s).fill = s.fill := rfl
@[simp] theorem schedulerServed_park (s : State) : (schedulerServed s).park = s.park := rfl
@[simp] theorem schedulerServed_links (s : State) : (schedulerServed s).links = s.links := rfl
@[simp] theorem schedulerServed_pacing (s : State) : (schedulerServed s).pacing = s.pacing := rfl
@[simp] theorem schedulerServed_intake (s : State) : (schedulerServed s).intake = s.intake := rfl
@[simp] theorem schedulerServed_overrun (s : State) : (schedulerServed s).overrun = s.overrun := rfl
@[simp] theorem schedulerServed_staging (s : State) : (schedulerServed s).staging = s.staging := rfl
@[simp] theorem schedulerServed_ctxs (s : State) : (schedulerServed s).ctxs = s.ctxs := rfl
@[simp] theorem schedulerServed_responses (s : State) : (schedulerServed s).responses = s.responses := rfl
@[simp] theorem schedulerServed_respLatch (s : State) : (schedulerServed s).respLatch = s.respLatch := rfl
@[simp] theorem schedulerServed_notices (s : State) : (schedulerServed s).notices = s.notices := rfl
@[simp] theorem schedulerServed_noticeLost (s : State) : (schedulerServed s).noticeLost = s.noticeLost := rfl
@[simp] theorem schedulerServed_noticeLatch (s : State) : (schedulerServed s).noticeLatch = s.noticeLatch := rfl
@[simp] theorem schedulerServed_counters (s : State) : (schedulerServed s).counters = s.counters := rfl
@[simp] theorem schedulerServed_copies (s : State) : (schedulerServed s).copies = s.copies := rfl
@[simp] theorem schedulerServed_snapSeq (s : State) : (schedulerServed s).snapSeq = s.snapSeq := rfl
@[simp] theorem schedulerServed_snapTimer (s : State) : (schedulerServed s).snapTimer = s.snapTimer := rfl
@[simp] theorem schedulerServed_parkMark (s : State) : (schedulerServed s).parkMark = s.parkMark := rfl
@[simp] theorem schedulerServed_missMark (s : State) : (schedulerServed s).missMark = s.missMark := rfl
@[simp] theorem schedulerServed_settings (s : State) : (schedulerServed s).settings = s.settings := rfl
@[simp] theorem schedulerServed_irqResponse (s : State) : (schedulerServed s).irqResponse = s.irqResponse := rfl
@[simp] theorem schedulerServed_irqNotice (s : State) : (schedulerServed s).irqNotice = s.irqNotice := rfl
@[simp] theorem schedulerServed_msiSent (s : State) : (schedulerServed s).msiSent = s.msiSent := rfl
@[simp] theorem schedulerServed_readData (s : State) : (schedulerServed s).readData = s.readData := rfl
@[simp] theorem schedulerServed_arrivals (s : State) : (schedulerServed s).arrivals = s.arrivals := rfl
@[simp] theorem schedulerServed_pending (s : State) : (schedulerServed s).pending = s.pending := rfl

/-! ## What the updates write -/

@[simp] theorem link_modLink_same (l : LinkId) (f : Link → Link) (s : State) :
    (modLink l f s).link l = f (s.link l) := by
  simp [modLink, State.link]

theorem link_modLink_other {l l' : LinkId} (f : Link → Link) (s : State) (h : l' ≠ l) :
    (modLink l f s).link l' = s.link l' := by
  have : l.val ≠ l'.val := fun e => h (Fin.ext e.symm)
  simp [modLink, State.link, this]

theorem link_of_links_eq {s t : State} (h : t.links = s.links) (l : LinkId) : t.link l = s.link l := by
  simp [State.link, h]

@[simp] theorem work_setWork_same (c : CtxId) (w : Option Work) (s : State) : (setWork c w s).work c = w := by
  simp [setWork, setCtx, State.work]

theorem work_setWork_other {c c' : CtxId} (w : Option Work) (s : State) (h : c' ≠ c) :
    (setWork c w s).work c' = s.work c' := by
  have : c.val ≠ c'.val := fun e => h (Fin.ext e.symm)
  simp [setWork, setCtx, State.work, this]

@[simp] theorem work_modWork_same (c : CtxId) (f : Work → Work) (s : State) :
    (modWork c f s).work c = (s.work c).map f := work_setWork_same ..

theorem work_modWork_other {c c' : CtxId} (f : Work → Work) (s : State) (h : c' ≠ c) :
    (modWork c f s).work c' = s.work c' := work_setWork_other _ _ h

@[simp] theorem runSeq_setWork (c c' : CtxId) (w : Option Work) (s : State) :
    (setWork c w s).runSeq c' = s.runSeq c' := by
  by_cases h : c.val = c'.val <;> simp [setWork, setCtx, State.runSeq, h]

@[simp] theorem runSeq_modWork (c c' : CtxId) (f : Work → Work) (s : State) :
    (modWork c f s).runSeq c' = s.runSeq c' := runSeq_setWork ..

@[simp] theorem runSeq_advanceSeq_same (c : CtxId) (s : State) : (advanceSeq c s).runSeq c = s.runSeq c + 1 := by
  simp [advanceSeq, setCtx, State.runSeq]

@[simp] theorem work_advanceSeq (c c' : CtxId) (s : State) : (advanceSeq c s).work c' = s.work c' := by
  by_cases h : c.val = c'.val <;> simp [advanceSeq, setCtx, State.work, h]

theorem work_of_ctxs_eq {s t : State} (h : t.ctxs = s.ctxs) (c : CtxId) : t.work c = s.work c := by
  simp [State.work, h]

theorem runSeq_of_ctxs_eq {s t : State} (h : t.ctxs = s.ctxs) (c : CtxId) : t.runSeq c = s.runSeq c := by
  simp [State.runSeq, h]

@[simp] theorem counter_setCounter_same (n : CounterName) (x : Counter) (s : State) :
    (setCounter n x s).counter n = x := by
  simp [setCounter, State.counter]

end Sys2Proof.Machine
end

