-- ==== Sys2Proof/Laws/Event.lean ====
section
/-! SUPPORT. What the operations that end or report an event leave as it is, field by field, and what they do. -/

namespace Sys2Proof.Machine

/-! ## signalInterrupt -/

@[simp] theorem signalInterrupt_part (a s : State) : (signalInterrupt a s).part = s.part := by unfold signalInterrupt; split <;> rfl
@[simp] theorem signalInterrupt_tableSize (a s : State) : (signalInterrupt a s).tableSize = s.tableSize := by unfold signalInterrupt; split <;> rfl
@[simp] theorem signalInterrupt_capacity (a s : State) : (signalInterrupt a s).capacity = s.capacity := by unfold signalInterrupt; split <;> rfl
@[simp] theorem signalInterrupt_domains (a s : State) : (signalInterrupt a s).domains = s.domains := by unfold signalInterrupt; split <;> rfl
@[simp] theorem signalInterrupt_groups (a s : State) : (signalInterrupt a s).groups = s.groups := by unfold signalInterrupt; split <;> rfl
@[simp] theorem signalInterrupt_homes (a s : State) : (signalInterrupt a s).homes = s.homes := by unfold signalInterrupt; split <;> rfl
@[simp] theorem signalInterrupt_policies (a s : State) : (signalInterrupt a s).policies = s.policies := by unfold signalInterrupt; split <;> rfl
@[simp] theorem signalInterrupt_store (a s : State) : (signalInterrupt a s).store = s.store := by unfold signalInterrupt; split <;> rfl
@[simp] theorem signalInterrupt_cache (a s : State) : (signalInterrupt a s).cache = s.cache := by unfold signalInterrupt; split <;> rfl
@[simp] theorem signalInterrupt_portPtr (a s : State) : (signalInterrupt a s).portPtr = s.portPtr := by unfold signalInterrupt; split <;> rfl
@[simp] theorem signalInterrupt_enginePtr (a s : State) : (signalInterrupt a s).enginePtr = s.enginePtr := by unfold signalInterrupt; split <;> rfl
@[simp] theorem signalInterrupt_miss (a s : State) : (signalInterrupt a s).miss = s.miss := by unfold signalInterrupt; split <;> rfl
@[simp] theorem signalInterrupt_port (a s : State) : (signalInterrupt a s).port = s.port := by unfold signalInterrupt; split <;> rfl
@[simp] theorem signalInterrupt_fill (a s : State) : (signalInterrupt a s).fill = s.fill := by unfold signalInterrupt; split <;> rfl
@[simp] theorem signalInterrupt_park (a s : State) : (signalInterrupt a s).park = s.park := by unfold signalInterrupt; split <;> rfl
@[simp] theorem signalInterrupt_links (a s : State) : (signalInterrupt a s).links = s.links := by unfold signalInterrupt; split <;> rfl
@[simp] theorem signalInterrupt_pacing (a s : State) : (signalInterrupt a s).pacing = s.pacing := by unfold signalInterrupt; split <;> rfl
@[simp] theorem signalInterrupt_intake (a s : State) : (signalInterrupt a s).intake = s.intake := by unfold signalInterrupt; split <;> rfl
@[simp] theorem signalInterrupt_overrun (a s : State) : (signalInterrupt a s).overrun = s.overrun := by unfold signalInterrupt; split <;> rfl
@[simp] theorem signalInterrupt_staging (a s : State) : (signalInterrupt a s).staging = s.staging := by unfold signalInterrupt; split <;> rfl
@[simp] theorem signalInterrupt_ctxs (a s : State) : (signalInterrupt a s).ctxs = s.ctxs := by unfold signalInterrupt; split <;> rfl
@[simp] theorem signalInterrupt_responses (a s : State) : (signalInterrupt a s).responses = s.responses := by unfold signalInterrupt; split <;> rfl
@[simp] theorem signalInterrupt_respPtr (a s : State) : (signalInterrupt a s).respPtr = s.respPtr := by unfold signalInterrupt; split <;> rfl
@[simp] theorem signalInterrupt_respLatch (a s : State) : (signalInterrupt a s).respLatch = s.respLatch := by unfold signalInterrupt; split <;> rfl
@[simp] theorem signalInterrupt_notices (a s : State) : (signalInterrupt a s).notices = s.notices := by unfold signalInterrupt; split <;> rfl
@[simp] theorem signalInterrupt_noticeLost (a s : State) : (signalInterrupt a s).noticeLost = s.noticeLost := by unfold signalInterrupt; split <;> rfl
@[simp] theorem signalInterrupt_noticeLatch (a s : State) : (signalInterrupt a s).noticeLatch = s.noticeLatch := by unfold signalInterrupt; split <;> rfl
@[simp] theorem signalInterrupt_counters (a s : State) : (signalInterrupt a s).counters = s.counters := by unfold signalInterrupt; split <;> rfl
@[simp] theorem signalInterrupt_copies (a s : State) : (signalInterrupt a s).copies = s.copies := by unfold signalInterrupt; split <;> rfl
@[simp] theorem signalInterrupt_snapSeq (a s : State) : (signalInterrupt a s).snapSeq = s.snapSeq := by unfold signalInterrupt; split <;> rfl
@[simp] theorem signalInterrupt_snapTimer (a s : State) : (signalInterrupt a s).snapTimer = s.snapTimer := by unfold signalInterrupt; split <;> rfl
@[simp] theorem signalInterrupt_parkMark (a s : State) : (signalInterrupt a s).parkMark = s.parkMark := by unfold signalInterrupt; split <;> rfl
@[simp] theorem signalInterrupt_missMark (a s : State) : (signalInterrupt a s).missMark = s.missMark := by unfold signalInterrupt; split <;> rfl
@[simp] theorem signalInterrupt_settings (a s : State) : (signalInterrupt a s).settings = s.settings := by unfold signalInterrupt; split <;> rfl
@[simp] theorem signalInterrupt_irqResponse (a s : State) : (signalInterrupt a s).irqResponse = s.irqResponse := by unfold signalInterrupt; split <;> rfl
@[simp] theorem signalInterrupt_irqNotice (a s : State) : (signalInterrupt a s).irqNotice = s.irqNotice := by unfold signalInterrupt; split <;> rfl
@[simp] theorem signalInterrupt_readData (a s : State) : (signalInterrupt a s).readData = s.readData := by unfold signalInterrupt; split <;> rfl
@[simp] theorem signalInterrupt_arrivals (a s : State) : (signalInterrupt a s).arrivals = s.arrivals := by unfold signalInterrupt; split <;> rfl
@[simp] theorem signalInterrupt_pending (a s : State) : (signalInterrupt a s).pending = s.pending := by unfold signalInterrupt; split <;> rfl

/-! ## offerNotice -/

@[simp] theorem offerNotice_part (b : NoticeBody) (s : State) : (offerNotice b s).part = s.part := by unfold offerNotice; split <;> rfl
@[simp] theorem offerNotice_tableSize (b : NoticeBody) (s : State) : (offerNotice b s).tableSize = s.tableSize := by unfold offerNotice; split <;> rfl
@[simp] theorem offerNotice_capacity (b : NoticeBody) (s : State) : (offerNotice b s).capacity = s.capacity := by unfold offerNotice; split <;> rfl
@[simp] theorem offerNotice_domains (b : NoticeBody) (s : State) : (offerNotice b s).domains = s.domains := by unfold offerNotice; split <;> rfl
@[simp] theorem offerNotice_groups (b : NoticeBody) (s : State) : (offerNotice b s).groups = s.groups := by unfold offerNotice; split <;> rfl
@[simp] theorem offerNotice_homes (b : NoticeBody) (s : State) : (offerNotice b s).homes = s.homes := by unfold offerNotice; split <;> rfl
@[simp] theorem offerNotice_policies (b : NoticeBody) (s : State) : (offerNotice b s).policies = s.policies := by unfold offerNotice; split <;> rfl
@[simp] theorem offerNotice_store (b : NoticeBody) (s : State) : (offerNotice b s).store = s.store := by unfold offerNotice; split <;> rfl
@[simp] theorem offerNotice_cache (b : NoticeBody) (s : State) : (offerNotice b s).cache = s.cache := by unfold offerNotice; split <;> rfl
@[simp] theorem offerNotice_portPtr (b : NoticeBody) (s : State) : (offerNotice b s).portPtr = s.portPtr := by unfold offerNotice; split <;> rfl
@[simp] theorem offerNotice_enginePtr (b : NoticeBody) (s : State) : (offerNotice b s).enginePtr = s.enginePtr := by unfold offerNotice; split <;> rfl
@[simp] theorem offerNotice_miss (b : NoticeBody) (s : State) : (offerNotice b s).miss = s.miss := by unfold offerNotice; split <;> rfl
@[simp] theorem offerNotice_port (b : NoticeBody) (s : State) : (offerNotice b s).port = s.port := by unfold offerNotice; split <;> rfl
@[simp] theorem offerNotice_fill (b : NoticeBody) (s : State) : (offerNotice b s).fill = s.fill := by unfold offerNotice; split <;> rfl
@[simp] theorem offerNotice_park (b : NoticeBody) (s : State) : (offerNotice b s).park = s.park := by unfold offerNotice; split <;> rfl
@[simp] theorem offerNotice_links (b : NoticeBody) (s : State) : (offerNotice b s).links = s.links := by unfold offerNotice; split <;> rfl
@[simp] theorem offerNotice_pacing (b : NoticeBody) (s : State) : (offerNotice b s).pacing = s.pacing := by unfold offerNotice; split <;> rfl
@[simp] theorem offerNotice_intake (b : NoticeBody) (s : State) : (offerNotice b s).intake = s.intake := by unfold offerNotice; split <;> rfl
@[simp] theorem offerNotice_overrun (b : NoticeBody) (s : State) : (offerNotice b s).overrun = s.overrun := by unfold offerNotice; split <;> rfl
@[simp] theorem offerNotice_staging (b : NoticeBody) (s : State) : (offerNotice b s).staging = s.staging := by unfold offerNotice; split <;> rfl
@[simp] theorem offerNotice_ctxs (b : NoticeBody) (s : State) : (offerNotice b s).ctxs = s.ctxs := by unfold offerNotice; split <;> rfl
@[simp] theorem offerNotice_responses (b : NoticeBody) (s : State) : (offerNotice b s).responses = s.responses := by unfold offerNotice; split <;> rfl
@[simp] theorem offerNotice_respPtr (b : NoticeBody) (s : State) : (offerNotice b s).respPtr = s.respPtr := by unfold offerNotice; split <;> rfl
@[simp] theorem offerNotice_respLatch (b : NoticeBody) (s : State) : (offerNotice b s).respLatch = s.respLatch := by unfold offerNotice; split <;> rfl
@[simp] theorem offerNotice_noticeLatch (b : NoticeBody) (s : State) : (offerNotice b s).noticeLatch = s.noticeLatch := by unfold offerNotice; split <;> rfl
@[simp] theorem offerNotice_counters (b : NoticeBody) (s : State) : (offerNotice b s).counters = s.counters := by unfold offerNotice; split <;> rfl
@[simp] theorem offerNotice_copies (b : NoticeBody) (s : State) : (offerNotice b s).copies = s.copies := by unfold offerNotice; split <;> rfl
@[simp] theorem offerNotice_snapSeq (b : NoticeBody) (s : State) : (offerNotice b s).snapSeq = s.snapSeq := by unfold offerNotice; split <;> rfl
@[simp] theorem offerNotice_snapTimer (b : NoticeBody) (s : State) : (offerNotice b s).snapTimer = s.snapTimer := by unfold offerNotice; split <;> rfl
@[simp] theorem offerNotice_parkMark (b : NoticeBody) (s : State) : (offerNotice b s).parkMark = s.parkMark := by unfold offerNotice; split <;> rfl
@[simp] theorem offerNotice_missMark (b : NoticeBody) (s : State) : (offerNotice b s).missMark = s.missMark := by unfold offerNotice; split <;> rfl
@[simp] theorem offerNotice_settings (b : NoticeBody) (s : State) : (offerNotice b s).settings = s.settings := by unfold offerNotice; split <;> rfl
@[simp] theorem offerNotice_irqResponse (b : NoticeBody) (s : State) : (offerNotice b s).irqResponse = s.irqResponse := by unfold offerNotice; split <;> rfl
@[simp] theorem offerNotice_irqNotice (b : NoticeBody) (s : State) : (offerNotice b s).irqNotice = s.irqNotice := by unfold offerNotice; split <;> rfl
@[simp] theorem offerNotice_msiSent (b : NoticeBody) (s : State) : (offerNotice b s).msiSent = s.msiSent := by unfold offerNotice; split <;> rfl
@[simp] theorem offerNotice_readData (b : NoticeBody) (s : State) : (offerNotice b s).readData = s.readData := by unfold offerNotice; split <;> rfl
@[simp] theorem offerNotice_arrivals (b : NoticeBody) (s : State) : (offerNotice b s).arrivals = s.arrivals := by unfold offerNotice; split <;> rfl
@[simp] theorem offerNotice_pending (b : NoticeBody) (s : State) : (offerNotice b s).pending = s.pending := by unfold offerNotice; split <;> rfl

/-! ## countEvent -/

@[simp] theorem countEvent_part (n : CounterName) (s : State) : (countEvent n s).part = s.part := by
  unfold countEvent; dsimp only; split <;> simp
@[simp] theorem countEvent_tableSize (n : CounterName) (s : State) : (countEvent n s).tableSize = s.tableSize := by
  unfold countEvent; dsimp only; split <;> simp
@[simp] theorem countEvent_capacity (n : CounterName) (s : State) : (countEvent n s).capacity = s.capacity := by
  unfold countEvent; dsimp only; split <;> simp
@[simp] theorem countEvent_domains (n : CounterName) (s : State) : (countEvent n s).domains = s.domains := by
  unfold countEvent; dsimp only; split <;> simp
@[simp] theorem countEvent_groups (n : CounterName) (s : State) : (countEvent n s).groups = s.groups := by
  unfold countEvent; dsimp only; split <;> simp
@[simp] theorem countEvent_homes (n : CounterName) (s : State) : (countEvent n s).homes = s.homes := by
  unfold countEvent; dsimp only; split <;> simp
@[simp] theorem countEvent_policies (n : CounterName) (s : State) : (countEvent n s).policies = s.policies := by
  unfold countEvent; dsimp only; split <;> simp
@[simp] theorem countEvent_store (n : CounterName) (s : State) : (countEvent n s).store = s.store := by
  unfold countEvent; dsimp only; split <;> simp
@[simp] theorem countEvent_cache (n : CounterName) (s : State) : (countEvent n s).cache = s.cache := by
  unfold countEvent; dsimp only; split <;> simp
@[simp] theorem countEvent_portPtr (n : CounterName) (s : State) : (countEvent n s).portPtr = s.portPtr := by
  unfold countEvent; dsimp only; split <;> simp
@[simp] theorem countEvent_enginePtr (n : CounterName) (s : State) : (countEvent n s).enginePtr = s.enginePtr := by
  unfold countEvent; dsimp only; split <;> simp
@[simp] theorem countEvent_miss (n : CounterName) (s : State) : (countEvent n s).miss = s.miss := by
  unfold countEvent; dsimp only; split <;> simp
@[simp] theorem countEvent_port (n : CounterName) (s : State) : (countEvent n s).port = s.port := by
  unfold countEvent; dsimp only; split <;> simp
@[simp] theorem countEvent_fill (n : CounterName) (s : State) : (countEvent n s).fill = s.fill := by
  unfold countEvent; dsimp only; split <;> simp
@[simp] theorem countEvent_park (n : CounterName) (s : State) : (countEvent n s).park = s.park := by
  unfold countEvent; dsimp only; split <;> simp
@[simp] theorem countEvent_links (n : CounterName) (s : State) : (countEvent n s).links = s.links := by
  unfold countEvent; dsimp only; split <;> simp
@[simp] theorem countEvent_pacing (n : CounterName) (s : State) : (countEvent n s).pacing = s.pacing := by
  unfold countEvent; dsimp only; split <;> simp
@[simp] theorem countEvent_intake (n : CounterName) (s : State) : (countEvent n s).intake = s.intake := by
  unfold countEvent; dsimp only; split <;> simp
@[simp] theorem countEvent_overrun (n : CounterName) (s : State) : (countEvent n s).overrun = s.overrun := by
  unfold countEvent; dsimp only; split <;> simp
@[simp] theorem countEvent_staging (n : CounterName) (s : State) : (countEvent n s).staging = s.staging := by
  unfold countEvent; dsimp only; split <;> simp
@[simp] theorem countEvent_ctxs (n : CounterName) (s : State) : (countEvent n s).ctxs = s.ctxs := by
  unfold countEvent; dsimp only; split <;> simp
@[simp] theorem countEvent_responses (n : CounterName) (s : State) : (countEvent n s).responses = s.responses := by
  unfold countEvent; dsimp only; split <;> simp
@[simp] theorem countEvent_respPtr (n : CounterName) (s : State) : (countEvent n s).respPtr = s.respPtr := by
  unfold countEvent; dsimp only; split <;> simp
@[simp] theorem countEvent_respLatch (n : CounterName) (s : State) : (countEvent n s).respLatch = s.respLatch := by
  unfold countEvent; dsimp only; split <;> simp
@[simp] theorem countEvent_noticeLatch (n : CounterName) (s : State) : (countEvent n s).noticeLatch = s.noticeLatch := by
  unfold countEvent; dsimp only; split <;> simp
@[simp] theorem countEvent_copies (n : CounterName) (s : State) : (countEvent n s).copies = s.copies := by
  unfold countEvent; dsimp only; split <;> simp
@[simp] theorem countEvent_snapSeq (n : CounterName) (s : State) : (countEvent n s).snapSeq = s.snapSeq := by
  unfold countEvent; dsimp only; split <;> simp
@[simp] theorem countEvent_snapTimer (n : CounterName) (s : State) : (countEvent n s).snapTimer = s.snapTimer := by
  unfold countEvent; dsimp only; split <;> simp
@[simp] theorem countEvent_parkMark (n : CounterName) (s : State) : (countEvent n s).parkMark = s.parkMark := by
  unfold countEvent; dsimp only; split <;> simp
@[simp] theorem countEvent_missMark (n : CounterName) (s : State) : (countEvent n s).missMark = s.missMark := by
  unfold countEvent; dsimp only; split <;> simp
@[simp] theorem countEvent_settings (n : CounterName) (s : State) : (countEvent n s).settings = s.settings := by
  unfold countEvent; dsimp only; split <;> simp
@[simp] theorem countEvent_irqResponse (n : CounterName) (s : State) : (countEvent n s).irqResponse = s.irqResponse := by
  unfold countEvent; dsimp only; split <;> simp
@[simp] theorem countEvent_irqNotice (n : CounterName) (s : State) : (countEvent n s).irqNotice = s.irqNotice := by
  unfold countEvent; dsimp only; split <;> simp
@[simp] theorem countEvent_msiSent (n : CounterName) (s : State) : (countEvent n s).msiSent = s.msiSent := by
  unfold countEvent; dsimp only; split <;> simp
@[simp] theorem countEvent_readData (n : CounterName) (s : State) : (countEvent n s).readData = s.readData := by
  unfold countEvent; dsimp only; split <;> simp
@[simp] theorem countEvent_arrivals (n : CounterName) (s : State) : (countEvent n s).arrivals = s.arrivals := by
  unfold countEvent; dsimp only; split <;> simp
@[simp] theorem countEvent_pending (n : CounterName) (s : State) : (countEvent n s).pending = s.pending := by
  unfold countEvent; dsimp only; split <;> simp

/-! ## endPacing -/

@[simp] theorem endPacing_part (s : State) : (endPacing s).part = s.part := by
  simp [endPacing, allLinks]
@[simp] theorem endPacing_tableSize (s : State) : (endPacing s).tableSize = s.tableSize := by
  simp [endPacing, allLinks]
@[simp] theorem endPacing_capacity (s : State) : (endPacing s).capacity = s.capacity := by
  simp [endPacing, allLinks]
@[simp] theorem endPacing_domains (s : State) : (endPacing s).domains = s.domains := by
  simp [endPacing, allLinks]
@[simp] theorem endPacing_groups (s : State) : (endPacing s).groups = s.groups := by
  simp [endPacing, allLinks]
@[simp] theorem endPacing_homes (s : State) : (endPacing s).homes = s.homes := by
  simp [endPacing, allLinks]
@[simp] theorem endPacing_policies (s : State) : (endPacing s).policies = s.policies := by
  simp [endPacing, allLinks]
@[simp] theorem endPacing_store (s : State) : (endPacing s).store = s.store := by
  simp [endPacing, allLinks]
@[simp] theorem endPacing_cache (s : State) : (endPacing s).cache = s.cache := by
  simp [endPacing, allLinks]
@[simp] theorem endPacing_portPtr (s : State) : (endPacing s).portPtr = s.portPtr := by
  simp [endPacing, allLinks]
@[simp] theorem endPacing_enginePtr (s : State) : (endPacing s).enginePtr = s.enginePtr := by
  simp [endPacing, allLinks]
@[simp] theorem endPacing_miss (s : State) : (endPacing s).miss = s.miss := by
  simp [endPacing, allLinks]
@[simp] theorem endPacing_port (s : State) : (endPacing s).port = s.port := by
  simp [endPacing, allLinks]
@[simp] theorem endPacing_fill (s : State) : (endPacing s).fill = s.fill := by
  simp [endPacing, allLinks]
@[simp] theorem endPacing_park (s : State) : (endPacing s).park = s.park := by
  simp [endPacing, allLinks]
@[simp] theorem endPacing_intake (s : State) : (endPacing s).intake = s.intake := by
  simp [endPacing, allLinks]
@[simp] theorem endPacing_overrun (s : State) : (endPacing s).overrun = s.overrun := by
  simp [endPacing, allLinks]
@[simp] theorem endPacing_staging (s : State) : (endPacing s).staging = s.staging := by
  simp [endPacing, allLinks]
@[simp] theorem endPacing_ctxs (s : State) : (endPacing s).ctxs = s.ctxs := by
  simp [endPacing, allLinks]
@[simp] theorem endPacing_responses (s : State) : (endPacing s).responses = s.responses := by
  simp [endPacing, allLinks]
@[simp] theorem endPacing_respPtr (s : State) : (endPacing s).respPtr = s.respPtr := by
  simp [endPacing, allLinks]
@[simp] theorem endPacing_respLatch (s : State) : (endPacing s).respLatch = s.respLatch := by
  simp [endPacing, allLinks]
@[simp] theorem endPacing_notices (s : State) : (endPacing s).notices = s.notices := by
  simp [endPacing, allLinks]
@[simp] theorem endPacing_noticeLost (s : State) : (endPacing s).noticeLost = s.noticeLost := by
  simp [endPacing, allLinks]
@[simp] theorem endPacing_noticeLatch (s : State) : (endPacing s).noticeLatch = s.noticeLatch := by
  simp [endPacing, allLinks]
@[simp] theorem endPacing_counters (s : State) : (endPacing s).counters = s.counters := by
  simp [endPacing, allLinks]
@[simp] theorem endPacing_copies (s : State) : (endPacing s).copies = s.copies := by
  simp [endPacing, allLinks]
@[simp] theorem endPacing_snapSeq (s : State) : (endPacing s).snapSeq = s.snapSeq := by
  simp [endPacing, allLinks]
@[simp] theorem endPacing_snapTimer (s : State) : (endPacing s).snapTimer = s.snapTimer := by
  simp [endPacing, allLinks]
@[simp] theorem endPacing_parkMark (s : State) : (endPacing s).parkMark = s.parkMark := by
  simp [endPacing, allLinks]
@[simp] theorem endPacing_missMark (s : State) : (endPacing s).missMark = s.missMark := by
  simp [endPacing, allLinks]
@[simp] theorem endPacing_settings (s : State) : (endPacing s).settings = s.settings := by
  simp [endPacing, allLinks]
@[simp] theorem endPacing_irqResponse (s : State) : (endPacing s).irqResponse = s.irqResponse := by
  simp [endPacing, allLinks]
@[simp] theorem endPacing_irqNotice (s : State) : (endPacing s).irqNotice = s.irqNotice := by
  simp [endPacing, allLinks]
@[simp] theorem endPacing_msiSent (s : State) : (endPacing s).msiSent = s.msiSent := by
  simp [endPacing, allLinks]
@[simp] theorem endPacing_readData (s : State) : (endPacing s).readData = s.readData := by
  simp [endPacing, allLinks]
@[simp] theorem endPacing_arrivals (s : State) : (endPacing s).arrivals = s.arrivals := by
  simp [endPacing, allLinks]
@[simp] theorem endPacing_pending (s : State) : (endPacing s).pending = s.pending := by
  simp [endPacing, allLinks]

/-! ## testPacing -/

@[simp] theorem testPacing_part (s : State) : (testPacing s).part = s.part := by
  unfold testPacing; split; · rfl
  · split <;> simp
@[simp] theorem testPacing_tableSize (s : State) : (testPacing s).tableSize = s.tableSize := by
  unfold testPacing; split; · rfl
  · split <;> simp
@[simp] theorem testPacing_capacity (s : State) : (testPacing s).capacity = s.capacity := by
  unfold testPacing; split; · rfl
  · split <;> simp
@[simp] theorem testPacing_domains (s : State) : (testPacing s).domains = s.domains := by
  unfold testPacing; split; · rfl
  · split <;> simp
@[simp] theorem testPacing_groups (s : State) : (testPacing s).groups = s.groups := by
  unfold testPacing; split; · rfl
  · split <;> simp
@[simp] theorem testPacing_homes (s : State) : (testPacing s).homes = s.homes := by
  unfold testPacing; split; · rfl
  · split <;> simp
@[simp] theorem testPacing_policies (s : State) : (testPacing s).policies = s.policies := by
  unfold testPacing; split; · rfl
  · split <;> simp
@[simp] theorem testPacing_store (s : State) : (testPacing s).store = s.store := by
  unfold testPacing; split; · rfl
  · split <;> simp
@[simp] theorem testPacing_cache (s : State) : (testPacing s).cache = s.cache := by
  unfold testPacing; split; · rfl
  · split <;> simp
@[simp] theorem testPacing_portPtr (s : State) : (testPacing s).portPtr = s.portPtr := by
  unfold testPacing; split; · rfl
  · split <;> simp
@[simp] theorem testPacing_enginePtr (s : State) : (testPacing s).enginePtr = s.enginePtr := by
  unfold testPacing; split; · rfl
  · split <;> simp
@[simp] theorem testPacing_miss (s : State) : (testPacing s).miss = s.miss := by
  unfold testPacing; split; · rfl
  · split <;> simp
@[simp] theorem testPacing_port (s : State) : (testPacing s).port = s.port := by
  unfold testPacing; split; · rfl
  · split <;> simp
@[simp] theorem testPacing_fill (s : State) : (testPacing s).fill = s.fill := by
  unfold testPacing; split; · rfl
  · split <;> simp
@[simp] theorem testPacing_park (s : State) : (testPacing s).park = s.park := by
  unfold testPacing; split; · rfl
  · split <;> simp
@[simp] theorem testPacing_intake (s : State) : (testPacing s).intake = s.intake := by
  unfold testPacing; split; · rfl
  · split <;> simp
@[simp] theorem testPacing_overrun (s : State) : (testPacing s).overrun = s.overrun := by
  unfold testPacing; split; · rfl
  · split <;> simp
@[simp] theorem testPacing_staging (s : State) : (testPacing s).staging = s.staging := by
  unfold testPacing; split; · rfl
  · split <;> simp
@[simp] theorem testPacing_ctxs (s : State) : (testPacing s).ctxs = s.ctxs := by
  unfold testPacing; split; · rfl
  · split <;> simp
@[simp] theorem testPacing_responses (s : State) : (testPacing s).responses = s.responses := by
  unfold testPacing; split; · rfl
  · split <;> simp
@[simp] theorem testPacing_respPtr (s : State) : (testPacing s).respPtr = s.respPtr := by
  unfold testPacing; split; · rfl
  · split <;> simp
@[simp] theorem testPacing_respLatch (s : State) : (testPacing s).respLatch = s.respLatch := by
  unfold testPacing; split; · rfl
  · split <;> simp
@[simp] theorem testPacing_notices (s : State) : (testPacing s).notices = s.notices := by
  unfold testPacing; split; · rfl
  · split <;> simp
@[simp] theorem testPacing_noticeLost (s : State) : (testPacing s).noticeLost = s.noticeLost := by
  unfold testPacing; split; · rfl
  · split <;> simp
@[simp] theorem testPacing_noticeLatch (s : State) : (testPacing s).noticeLatch = s.noticeLatch := by
  unfold testPacing; split; · rfl
  · split <;> simp
@[simp] theorem testPacing_counters (s : State) : (testPacing s).counters = s.counters := by
  unfold testPacing; split; · rfl
  · split <;> simp
@[simp] theorem testPacing_copies (s : State) : (testPacing s).copies = s.copies := by
  unfold testPacing; split; · rfl
  · split <;> simp
@[simp] theorem testPacing_snapSeq (s : State) : (testPacing s).snapSeq = s.snapSeq := by
  unfold testPacing; split; · rfl
  · split <;> simp
@[simp] theorem testPacing_snapTimer (s : State) : (testPacing s).snapTimer = s.snapTimer := by
  unfold testPacing; split; · rfl
  · split <;> simp
@[simp] theorem testPacing_parkMark (s : State) : (testPacing s).parkMark = s.parkMark := by
  unfold testPacing; split; · rfl
  · split <;> simp
@[simp] theorem testPacing_missMark (s : State) : (testPacing s).missMark = s.missMark := by
  unfold testPacing; split; · rfl
  · split <;> simp
@[simp] theorem testPacing_settings (s : State) : (testPacing s).settings = s.settings := by
  unfold testPacing; split; · rfl
  · split <;> simp
@[simp] theorem testPacing_irqResponse (s : State) : (testPacing s).irqResponse = s.irqResponse := by
  unfold testPacing; split; · rfl
  · split <;> simp
@[simp] theorem testPacing_irqNotice (s : State) : (testPacing s).irqNotice = s.irqNotice := by
  unfold testPacing; split; · rfl
  · split <;> simp
@[simp] theorem testPacing_msiSent (s : State) : (testPacing s).msiSent = s.msiSent := by
  unfold testPacing; split; · rfl
  · split <;> simp
@[simp] theorem testPacing_readData (s : State) : (testPacing s).readData = s.readData := by
  unfold testPacing; split; · rfl
  · split <;> simp
@[simp] theorem testPacing_arrivals (s : State) : (testPacing s).arrivals = s.arrivals := by
  unfold testPacing; split; · rfl
  · split <;> simp
@[simp] theorem testPacing_pending (s : State) : (testPacing s).pending = s.pending := by
  unfold testPacing; split; · rfl
  · split <;> simp

/-! ## presentOccupancy -/

@[simp] theorem presentOccupancy_part (a s : State) : (presentOccupancy a s).part = s.part := by
  unfold presentOccupancy; split <;> simp
@[simp] theorem presentOccupancy_tableSize (a s : State) : (presentOccupancy a s).tableSize = s.tableSize := by
  unfold presentOccupancy; split <;> simp
@[simp] theorem presentOccupancy_capacity (a s : State) : (presentOccupancy a s).capacity = s.capacity := by
  unfold presentOccupancy; split <;> simp
@[simp] theorem presentOccupancy_domains (a s : State) : (presentOccupancy a s).domains = s.domains := by
  unfold presentOccupancy; split <;> simp
@[simp] theorem presentOccupancy_groups (a s : State) : (presentOccupancy a s).groups = s.groups := by
  unfold presentOccupancy; split <;> simp
@[simp] theorem presentOccupancy_homes (a s : State) : (presentOccupancy a s).homes = s.homes := by
  unfold presentOccupancy; split <;> simp
@[simp] theorem presentOccupancy_policies (a s : State) : (presentOccupancy a s).policies = s.policies := by
  unfold presentOccupancy; split <;> simp
@[simp] theorem presentOccupancy_store (a s : State) : (presentOccupancy a s).store = s.store := by
  unfold presentOccupancy; split <;> simp
@[simp] theorem presentOccupancy_cache (a s : State) : (presentOccupancy a s).cache = s.cache := by
  unfold presentOccupancy; split <;> simp
@[simp] theorem presentOccupancy_portPtr (a s : State) : (presentOccupancy a s).portPtr = s.portPtr := by
  unfold presentOccupancy; split <;> simp
@[simp] theorem presentOccupancy_enginePtr (a s : State) : (presentOccupancy a s).enginePtr = s.enginePtr := by
  unfold presentOccupancy; split <;> simp
@[simp] theorem presentOccupancy_miss (a s : State) : (presentOccupancy a s).miss = s.miss := by
  unfold presentOccupancy; split <;> simp
@[simp] theorem presentOccupancy_port (a s : State) : (presentOccupancy a s).port = s.port := by
  unfold presentOccupancy; split <;> simp
@[simp] theorem presentOccupancy_fill (a s : State) : (presentOccupancy a s).fill = s.fill := by
  unfold presentOccupancy; split <;> simp
@[simp] theorem presentOccupancy_park (a s : State) : (presentOccupancy a s).park = s.park := by
  unfold presentOccupancy; split <;> simp
@[simp] theorem presentOccupancy_intake (a s : State) : (presentOccupancy a s).intake = s.intake := by
  unfold presentOccupancy; split <;> simp
@[simp] theorem presentOccupancy_overrun (a s : State) : (presentOccupancy a s).overrun = s.overrun := by
  unfold presentOccupancy; split <;> simp
@[simp] theorem presentOccupancy_staging (a s : State) : (presentOccupancy a s).staging = s.staging := by
  unfold presentOccupancy; split <;> simp
@[simp] theorem presentOccupancy_ctxs (a s : State) : (presentOccupancy a s).ctxs = s.ctxs := by
  unfold presentOccupancy; split <;> simp
@[simp] theorem presentOccupancy_responses (a s : State) : (presentOccupancy a s).responses = s.responses := by
  unfold presentOccupancy; split <;> simp
@[simp] theorem presentOccupancy_respPtr (a s : State) : (presentOccupancy a s).respPtr = s.respPtr := by
  unfold presentOccupancy; split <;> simp
@[simp] theorem presentOccupancy_respLatch (a s : State) : (presentOccupancy a s).respLatch = s.respLatch := by
  unfold presentOccupancy; split <;> simp
@[simp] theorem presentOccupancy_notices (a s : State) : (presentOccupancy a s).notices = s.notices := by
  unfold presentOccupancy; split <;> simp
@[simp] theorem presentOccupancy_noticeLost (a s : State) : (presentOccupancy a s).noticeLost = s.noticeLost := by
  unfold presentOccupancy; split <;> simp
@[simp] theorem presentOccupancy_noticeLatch (a s : State) : (presentOccupancy a s).noticeLatch = s.noticeLatch := by
  unfold presentOccupancy; split <;> simp
@[simp] theorem presentOccupancy_counters (a s : State) : (presentOccupancy a s).counters = s.counters := by
  unfold presentOccupancy; split <;> simp
@[simp] theorem presentOccupancy_copies (a s : State) : (presentOccupancy a s).copies = s.copies := by
  unfold presentOccupancy; split <;> simp
@[simp] theorem presentOccupancy_snapSeq (a s : State) : (presentOccupancy a s).snapSeq = s.snapSeq := by
  unfold presentOccupancy; split <;> simp
@[simp] theorem presentOccupancy_snapTimer (a s : State) : (presentOccupancy a s).snapTimer = s.snapTimer := by
  unfold presentOccupancy; split <;> simp
@[simp] theorem presentOccupancy_settings (a s : State) : (presentOccupancy a s).settings = s.settings := by
  unfold presentOccupancy; split <;> simp
@[simp] theorem presentOccupancy_irqResponse (a s : State) : (presentOccupancy a s).irqResponse = s.irqResponse := by
  unfold presentOccupancy; split <;> simp
@[simp] theorem presentOccupancy_irqNotice (a s : State) : (presentOccupancy a s).irqNotice = s.irqNotice := by
  unfold presentOccupancy; split <;> simp
@[simp] theorem presentOccupancy_msiSent (a s : State) : (presentOccupancy a s).msiSent = s.msiSent := by
  unfold presentOccupancy; split <;> simp
@[simp] theorem presentOccupancy_readData (a s : State) : (presentOccupancy a s).readData = s.readData := by
  unfold presentOccupancy; split <;> simp
@[simp] theorem presentOccupancy_arrivals (a s : State) : (presentOccupancy a s).arrivals = s.arrivals := by
  unfold presentOccupancy; split <;> simp
@[simp] theorem presentOccupancy_pending (a s : State) : (presentOccupancy a s).pending = s.pending := by
  unfold presentOccupancy; split <;> simp

/-! ## presentToContexts -/

@[simp] theorem presentToContexts_part (f : Work → Work) (s : State) : (presentToContexts f s).part = s.part := by
  simp [presentToContexts, allCtxs]
@[simp] theorem presentToContexts_tableSize (f : Work → Work) (s : State) : (presentToContexts f s).tableSize = s.tableSize := by
  simp [presentToContexts, allCtxs]
@[simp] theorem presentToContexts_capacity (f : Work → Work) (s : State) : (presentToContexts f s).capacity = s.capacity := by
  simp [presentToContexts, allCtxs]
@[simp] theorem presentToContexts_domains (f : Work → Work) (s : State) : (presentToContexts f s).domains = s.domains := by
  simp [presentToContexts, allCtxs]
@[simp] theorem presentToContexts_groups (f : Work → Work) (s : State) : (presentToContexts f s).groups = s.groups := by
  simp [presentToContexts, allCtxs]
@[simp] theorem presentToContexts_homes (f : Work → Work) (s : State) : (presentToContexts f s).homes = s.homes := by
  simp [presentToContexts, allCtxs]
@[simp] theorem presentToContexts_policies (f : Work → Work) (s : State) : (presentToContexts f s).policies = s.policies := by
  simp [presentToContexts, allCtxs]
@[simp] theorem presentToContexts_store (f : Work → Work) (s : State) : (presentToContexts f s).store = s.store := by
  simp [presentToContexts, allCtxs]
@[simp] theorem presentToContexts_cache (f : Work → Work) (s : State) : (presentToContexts f s).cache = s.cache := by
  simp [presentToContexts, allCtxs]
@[simp] theorem presentToContexts_portPtr (f : Work → Work) (s : State) : (presentToContexts f s).portPtr = s.portPtr := by
  simp [presentToContexts, allCtxs]
@[simp] theorem presentToContexts_enginePtr (f : Work → Work) (s : State) : (presentToContexts f s).enginePtr = s.enginePtr := by
  simp [presentToContexts, allCtxs]
@[simp] theorem presentToContexts_miss (f : Work → Work) (s : State) : (presentToContexts f s).miss = s.miss := by
  simp [presentToContexts, allCtxs]
@[simp] theorem presentToContexts_port (f : Work → Work) (s : State) : (presentToContexts f s).port = s.port := by
  simp [presentToContexts, allCtxs]
@[simp] theorem presentToContexts_fill (f : Work → Work) (s : State) : (presentToContexts f s).fill = s.fill := by
  simp [presentToContexts, allCtxs]
@[simp] theorem presentToContexts_park (f : Work → Work) (s : State) : (presentToContexts f s).park = s.park := by
  simp [presentToContexts, allCtxs]
@[simp] theorem presentToContexts_links (f : Work → Work) (s : State) : (presentToContexts f s).links = s.links := by
  simp [presentToContexts, allCtxs]
@[simp] theorem presentToContexts_pacing (f : Work → Work) (s : State) : (presentToContexts f s).pacing = s.pacing := by
  simp [presentToContexts, allCtxs]
@[simp] theorem presentToContexts_intake (f : Work → Work) (s : State) : (presentToContexts f s).intake = s.intake := by
  simp [presentToContexts, allCtxs]
@[simp] theorem presentToContexts_overrun (f : Work → Work) (s : State) : (presentToContexts f s).overrun = s.overrun := by
  simp [presentToContexts, allCtxs]
@[simp] theorem presentToContexts_staging (f : Work → Work) (s : State) : (presentToContexts f s).staging = s.staging := by
  simp [presentToContexts, allCtxs]
@[simp] theorem presentToContexts_responses (f : Work → Work) (s : State) : (presentToContexts f s).responses = s.responses := by
  simp [presentToContexts, allCtxs]
@[simp] theorem presentToContexts_respPtr (f : Work → Work) (s : State) : (presentToContexts f s).respPtr = s.respPtr := by
  simp [presentToContexts, allCtxs]
@[simp] theorem presentToContexts_respLatch (f : Work → Work) (s : State) : (presentToContexts f s).respLatch = s.respLatch := by
  simp [presentToContexts, allCtxs]
@[simp] theorem presentToContexts_notices (f : Work → Work) (s : State) : (presentToContexts f s).notices = s.notices := by
  simp [presentToContexts, allCtxs]
@[simp] theorem presentToContexts_noticeLost (f : Work → Work) (s : State) : (presentToContexts f s).noticeLost = s.noticeLost := by
  simp [presentToContexts, allCtxs]
@[simp] theorem presentToContexts_noticeLatch (f : Work → Work) (s : State) : (presentToContexts f s).noticeLatch = s.noticeLatch := by
  simp [presentToContexts, allCtxs]
@[simp] theorem presentToContexts_counters (f : Work → Work) (s : State) : (presentToContexts f s).counters = s.counters := by
  simp [presentToContexts, allCtxs]
@[simp] theorem presentToContexts_copies (f : Work → Work) (s : State) : (presentToContexts f s).copies = s.copies := by
  simp [presentToContexts, allCtxs]
@[simp] theorem presentToContexts_snapSeq (f : Work → Work) (s : State) : (presentToContexts f s).snapSeq = s.snapSeq := by
  simp [presentToContexts, allCtxs]
@[simp] theorem presentToContexts_snapTimer (f : Work → Work) (s : State) : (presentToContexts f s).snapTimer = s.snapTimer := by
  simp [presentToContexts, allCtxs]
@[simp] theorem presentToContexts_parkMark (f : Work → Work) (s : State) : (presentToContexts f s).parkMark = s.parkMark := by
  simp [presentToContexts, allCtxs]
@[simp] theorem presentToContexts_missMark (f : Work → Work) (s : State) : (presentToContexts f s).missMark = s.missMark := by
  simp [presentToContexts, allCtxs]
@[simp] theorem presentToContexts_settings (f : Work → Work) (s : State) : (presentToContexts f s).settings = s.settings := by
  simp [presentToContexts, allCtxs]
@[simp] theorem presentToContexts_irqResponse (f : Work → Work) (s : State) : (presentToContexts f s).irqResponse = s.irqResponse := by
  simp [presentToContexts, allCtxs]
@[simp] theorem presentToContexts_irqNotice (f : Work → Work) (s : State) : (presentToContexts f s).irqNotice = s.irqNotice := by
  simp [presentToContexts, allCtxs]
@[simp] theorem presentToContexts_msiSent (f : Work → Work) (s : State) : (presentToContexts f s).msiSent = s.msiSent := by
  simp [presentToContexts, allCtxs]
@[simp] theorem presentToContexts_readData (f : Work → Work) (s : State) : (presentToContexts f s).readData = s.readData := by
  simp [presentToContexts, allCtxs]
@[simp] theorem presentToContexts_arrivals (f : Work → Work) (s : State) : (presentToContexts f s).arrivals = s.arrivals := by
  simp [presentToContexts, allCtxs]
@[simp] theorem presentToContexts_pending (f : Work → Work) (s : State) : (presentToContexts f s).pending = s.pending := by
  simp [presentToContexts, allCtxs]

/-! ## removeWaiters -/

@[simp] theorem removeWaiters_part (p : Waiter → Bool) (s : State) : (removeWaiters p s).part = s.part := rfl
@[simp] theorem removeWaiters_tableSize (p : Waiter → Bool) (s : State) : (removeWaiters p s).tableSize = s.tableSize := rfl
@[simp] theorem removeWaiters_capacity (p : Waiter → Bool) (s : State) : (removeWaiters p s).capacity = s.capacity := rfl
@[simp] theorem removeWaiters_domains (p : Waiter → Bool) (s : State) : (removeWaiters p s).domains = s.domains := rfl
@[simp] theorem removeWaiters_groups (p : Waiter → Bool) (s : State) : (removeWaiters p s).groups = s.groups := rfl
@[simp] theorem removeWaiters_homes (p : Waiter → Bool) (s : State) : (removeWaiters p s).homes = s.homes := rfl
@[simp] theorem removeWaiters_policies (p : Waiter → Bool) (s : State) : (removeWaiters p s).policies = s.policies := rfl
@[simp] theorem removeWaiters_store (p : Waiter → Bool) (s : State) : (removeWaiters p s).store = s.store := rfl
@[simp] theorem removeWaiters_cache (p : Waiter → Bool) (s : State) : (removeWaiters p s).cache = s.cache := rfl
@[simp] theorem removeWaiters_portPtr (p : Waiter → Bool) (s : State) : (removeWaiters p s).portPtr = s.portPtr := rfl
@[simp] theorem removeWaiters_enginePtr (p : Waiter → Bool) (s : State) : (removeWaiters p s).enginePtr = s.enginePtr := rfl
@[simp] theorem removeWaiters_port (p : Waiter → Bool) (s : State) : (removeWaiters p s).port = s.port := rfl
@[simp] theorem removeWaiters_fill (p : Waiter → Bool) (s : State) : (removeWaiters p s).fill = s.fill := rfl
@[simp] theorem removeWaiters_park (p : Waiter → Bool) (s : State) : (removeWaiters p s).park = s.park := rfl
@[simp] theorem removeWaiters_links (p : Waiter → Bool) (s : State) : (removeWaiters p s).links = s.links := rfl
@[simp] theorem removeWaiters_pacing (p : Waiter → Bool) (s : State) : (removeWaiters p s).pacing = s.pacing := rfl
@[simp] theorem removeWaiters_intake (p : Waiter → Bool) (s : State) : (removeWaiters p s).intake = s.intake := rfl
@[simp] theorem removeWaiters_overrun (p : Waiter → Bool) (s : State) : (removeWaiters p s).overrun = s.overrun := rfl
@[simp] theorem removeWaiters_staging (p : Waiter → Bool) (s : State) : (removeWaiters p s).staging = s.staging := rfl
@[simp] theorem removeWaiters_ctxs (p : Waiter → Bool) (s : State) : (removeWaiters p s).ctxs = s.ctxs := rfl
@[simp] theorem removeWaiters_responses (p : Waiter → Bool) (s : State) : (removeWaiters p s).responses = s.responses := rfl
@[simp] theorem removeWaiters_respPtr (p : Waiter → Bool) (s : State) : (removeWaiters p s).respPtr = s.respPtr := rfl
@[simp] theorem removeWaiters_respLatch (p : Waiter → Bool) (s : State) : (removeWaiters p s).respLatch = s.respLatch := rfl
@[simp] theorem removeWaiters_notices (p : Waiter → Bool) (s : State) : (removeWaiters p s).notices = s.notices := rfl
@[simp] theorem removeWaiters_noticeLost (p : Waiter → Bool) (s : State) : (removeWaiters p s).noticeLost = s.noticeLost := rfl
@[simp] theorem removeWaiters_noticeLatch (p : Waiter → Bool) (s : State) : (removeWaiters p s).noticeLatch = s.noticeLatch := rfl
@[simp] theorem removeWaiters_counters (p : Waiter → Bool) (s : State) : (removeWaiters p s).counters = s.counters := rfl
@[simp] theorem removeWaiters_copies (p : Waiter → Bool) (s : State) : (removeWaiters p s).copies = s.copies := rfl
@[simp] theorem removeWaiters_snapSeq (p : Waiter → Bool) (s : State) : (removeWaiters p s).snapSeq = s.snapSeq := rfl
@[simp] theorem removeWaiters_snapTimer (p : Waiter → Bool) (s : State) : (removeWaiters p s).snapTimer = s.snapTimer := rfl
@[simp] theorem removeWaiters_parkMark (p : Waiter → Bool) (s : State) : (removeWaiters p s).parkMark = s.parkMark := rfl
@[simp] theorem removeWaiters_missMark (p : Waiter → Bool) (s : State) : (removeWaiters p s).missMark = s.missMark := rfl
@[simp] theorem removeWaiters_settings (p : Waiter → Bool) (s : State) : (removeWaiters p s).settings = s.settings := rfl
@[simp] theorem removeWaiters_irqResponse (p : Waiter → Bool) (s : State) : (removeWaiters p s).irqResponse = s.irqResponse := rfl
@[simp] theorem removeWaiters_irqNotice (p : Waiter → Bool) (s : State) : (removeWaiters p s).irqNotice = s.irqNotice := rfl
@[simp] theorem removeWaiters_msiSent (p : Waiter → Bool) (s : State) : (removeWaiters p s).msiSent = s.msiSent := rfl
@[simp] theorem removeWaiters_readData (p : Waiter → Bool) (s : State) : (removeWaiters p s).readData = s.readData := rfl
@[simp] theorem removeWaiters_arrivals (p : Waiter → Bool) (s : State) : (removeWaiters p s).arrivals = s.arrivals := rfl
@[simp] theorem removeWaiters_pending (p : Waiter → Bool) (s : State) : (removeWaiters p s).pending = s.pending := rfl

/-! ## queueVerdict -/

@[simp] theorem queueVerdict_part (k : Check) (v : Verdict) (s : State) : (queueVerdict k v s).part = s.part := rfl
@[simp] theorem queueVerdict_tableSize (k : Check) (v : Verdict) (s : State) : (queueVerdict k v s).tableSize = s.tableSize := rfl
@[simp] theorem queueVerdict_capacity (k : Check) (v : Verdict) (s : State) : (queueVerdict k v s).capacity = s.capacity := rfl
@[simp] theorem queueVerdict_domains (k : Check) (v : Verdict) (s : State) : (queueVerdict k v s).domains = s.domains := rfl
@[simp] theorem queueVerdict_groups (k : Check) (v : Verdict) (s : State) : (queueVerdict k v s).groups = s.groups := rfl
@[simp] theorem queueVerdict_homes (k : Check) (v : Verdict) (s : State) : (queueVerdict k v s).homes = s.homes := rfl
@[simp] theorem queueVerdict_policies (k : Check) (v : Verdict) (s : State) : (queueVerdict k v s).policies = s.policies := rfl
@[simp] theorem queueVerdict_store (k : Check) (v : Verdict) (s : State) : (queueVerdict k v s).store = s.store := rfl
@[simp] theorem queueVerdict_cache (k : Check) (v : Verdict) (s : State) : (queueVerdict k v s).cache = s.cache := rfl
@[simp] theorem queueVerdict_portPtr (k : Check) (v : Verdict) (s : State) : (queueVerdict k v s).portPtr = s.portPtr := rfl
@[simp] theorem queueVerdict_enginePtr (k : Check) (v : Verdict) (s : State) : (queueVerdict k v s).enginePtr = s.enginePtr := rfl
@[simp] theorem queueVerdict_miss (k : Check) (v : Verdict) (s : State) : (queueVerdict k v s).miss = s.miss := rfl
@[simp] theorem queueVerdict_port (k : Check) (v : Verdict) (s : State) : (queueVerdict k v s).port = s.port := rfl
@[simp] theorem queueVerdict_fill (k : Check) (v : Verdict) (s : State) : (queueVerdict k v s).fill = s.fill := rfl
@[simp] theorem queueVerdict_park (k : Check) (v : Verdict) (s : State) : (queueVerdict k v s).park = s.park := rfl
@[simp] theorem queueVerdict_pacing (k : Check) (v : Verdict) (s : State) : (queueVerdict k v s).pacing = s.pacing := rfl
@[simp] theorem queueVerdict_intake (k : Check) (v : Verdict) (s : State) : (queueVerdict k v s).intake = s.intake := rfl
@[simp] theorem queueVerdict_overrun (k : Check) (v : Verdict) (s : State) : (queueVerdict k v s).overrun = s.overrun := rfl
@[simp] theorem queueVerdict_staging (k : Check) (v : Verdict) (s : State) : (queueVerdict k v s).staging = s.staging := rfl
@[simp] theorem queueVerdict_ctxs (k : Check) (v : Verdict) (s : State) : (queueVerdict k v s).ctxs = s.ctxs := rfl
@[simp] theorem queueVerdict_responses (k : Check) (v : Verdict) (s : State) : (queueVerdict k v s).responses = s.responses := rfl
@[simp] theorem queueVerdict_respPtr (k : Check) (v : Verdict) (s : State) : (queueVerdict k v s).respPtr = s.respPtr := rfl
@[simp] theorem queueVerdict_respLatch (k : Check) (v : Verdict) (s : State) : (queueVerdict k v s).respLatch = s.respLatch := rfl
@[simp] theorem queueVerdict_notices (k : Check) (v : Verdict) (s : State) : (queueVerdict k v s).notices = s.notices := rfl
@[simp] theorem queueVerdict_noticeLost (k : Check) (v : Verdict) (s : State) : (queueVerdict k v s).noticeLost = s.noticeLost := rfl
@[simp] theorem queueVerdict_noticeLatch (k : Check) (v : Verdict) (s : State) : (queueVerdict k v s).noticeLatch = s.noticeLatch := rfl
@[simp] theorem queueVerdict_counters (k : Check) (v : Verdict) (s : State) : (queueVerdict k v s).counters = s.counters := rfl
@[simp] theorem queueVerdict_copies (k : Check) (v : Verdict) (s : State) : (queueVerdict k v s).copies = s.copies := rfl
@[simp] theorem queueVerdict_snapSeq (k : Check) (v : Verdict) (s : State) : (queueVerdict k v s).snapSeq = s.snapSeq := rfl
@[simp] theorem queueVerdict_snapTimer (k : Check) (v : Verdict) (s : State) : (queueVerdict k v s).snapTimer = s.snapTimer := rfl
@[simp] theorem queueVerdict_parkMark (k : Check) (v : Verdict) (s : State) : (queueVerdict k v s).parkMark = s.parkMark := rfl
@[simp] theorem queueVerdict_missMark (k : Check) (v : Verdict) (s : State) : (queueVerdict k v s).missMark = s.missMark := rfl
@[simp] theorem queueVerdict_settings (k : Check) (v : Verdict) (s : State) : (queueVerdict k v s).settings = s.settings := rfl
@[simp] theorem queueVerdict_irqResponse (k : Check) (v : Verdict) (s : State) : (queueVerdict k v s).irqResponse = s.irqResponse := rfl
@[simp] theorem queueVerdict_irqNotice (k : Check) (v : Verdict) (s : State) : (queueVerdict k v s).irqNotice = s.irqNotice := rfl
@[simp] theorem queueVerdict_msiSent (k : Check) (v : Verdict) (s : State) : (queueVerdict k v s).msiSent = s.msiSent := rfl
@[simp] theorem queueVerdict_readData (k : Check) (v : Verdict) (s : State) : (queueVerdict k v s).readData = s.readData := rfl
@[simp] theorem queueVerdict_arrivals (k : Check) (v : Verdict) (s : State) : (queueVerdict k v s).arrivals = s.arrivals := rfl
@[simp] theorem queueVerdict_pending (k : Check) (v : Verdict) (s : State) : (queueVerdict k v s).pending = s.pending := rfl

/-! ## What an event adds -/

/-- The interrupt condition reads the enables and whether the two queues are empty. -/
theorem interruptCondition_congr {a b : State} (hr : a.irqResponse = b.irqResponse) (hn : a.irqNotice = b.irqNotice)
    (hq : a.responses.isEmpty = b.responses.isEmpty) (hm : a.notices.isEmpty = b.notices.isEmpty) :
    a.interruptCondition = b.interruptCondition := by
  unfold State.interruptCondition; rw [hr, hn, hq, hm]

/-- Where the condition holds before or fails after, no interrupt is sent. -/
theorem signalInterrupt_quiet {a s : State} (h : a.interruptCondition = true ∨ s.interruptCondition = false) :
    signalInterrupt a s = s := by
  unfold signalInterrupt
  rcases h with h | h <;> simp [h]

/-- An event that leaves the condition's fields sends no interrupt. -/
theorem signalInterrupt_same {a s : State} (hr : s.irqResponse = a.irqResponse) (hn : s.irqNotice = a.irqNotice)
    (hq : s.responses = a.responses) (hm : s.notices = a.notices) : signalInterrupt a s = s := by
  have h : s.interruptCondition = a.interruptCondition := interruptCondition_congr hr hn (by rw [hq]) (by rw [hm])
  apply signalInterrupt_quiet
  rw [h]
  cases a.interruptCondition <;> simp

/-- The interrupts sent after an event. -/
theorem signalInterrupt_msiSent (a s : State) : (signalInterrupt a s).msiSent =
    s.msiSent + (if a.interruptCondition = false ∧ s.interruptCondition = true then 1 else 0) := by
  unfold signalInterrupt
  cases a.interruptCondition <;> cases s.interruptCondition <;> simp

/-- An offered notice is placed while the queue has room. -/
theorem offerNotice_placed (b : NoticeBody) {s : State} (h : s.notices.length < 64) : offerNotice b s =
    { s with notices := s.notices ++ [{ body := b, lostBefore := s.noticeLost }], noticeLost := false } := by
  unfold offerNotice; rw [if_pos h]

/-- An offered notice is lost while the queue is full. -/
theorem offerNotice_lost (b : NoticeBody) {s : State} (h : 64 ≤ s.notices.length) :
    offerNotice b s = { s with noticeLost := true } := by
  unfold offerNotice; rw [if_neg (Nat.not_lt.mpr h)]

/-- A counter takes its step, whether or not it wraps. -/
theorem countEvent_value (n : CounterName) (s : State) : ((countEvent n s).counter n).value = (s.counter n).value + 1 := by
  unfold countEvent
  dsimp only
  split
  · rename_i h
    simp [State.counter, setCounter] at h ⊢
    rw [h]; rfl
  · simp [State.counter, setCounter]

/-- Another counter stays. -/
theorem countEvent_other {n m : CounterName} (h : m.index ≠ n.index) (s : State) :
    (countEvent n s).counter m = s.counter m := by
  have hv : n.index.val ≠ m.index.val := fun e => h (Fin.ext e.symm)
  unfold countEvent
  dsimp only
  split <;> simp [State.counter, setCounter, hv]

end Sys2Proof.Machine
end

