-- ==== Sys2Proof/Laws/Issue.lean ====
section
/-! SUPPORT. The choices of the arbiters and of the Scheduler, each said once: what a grant, a served producer and a
selected message entail, and what an issue event does. -/

namespace Sys2Proof.Machine

/-! ## Arbiters -/

/-- The first number after a pointer that meets a test meets it and lies below the number of requesters. -/
theorem firstAfter_some {n ptr i : Nat} {p : Nat → Bool} (h : firstAfter n ptr p = some i) : p i = true ∧ i < n := by
  unfold firstAfter at h
  obtain ⟨k, hk, hf⟩ := List.exists_of_findSome?_eq_some h
  have hn : 0 < n := Nat.lt_of_le_of_lt (Nat.zero_le _) (List.mem_range.mp hk)
  dsimp only at hf
  split at hf
  · rename_i hp
    cases hf
    exact ⟨hp, Nat.mod_lt _ hn⟩
  · cases hf

/-- An arbiter's search finds the first ready requester after the pointer, and nothing else. -/
theorem firstAfter_iff {n ptr i : Nat} {p : Nat → Bool} :
    firstAfter n ptr p = some i ↔ FirstReady n ptr (fun j => p j = true) i := by
  have key : ∀ m k, (List.range' k m).findSome? (fun x =>
      let j := (ptr + 1 + x) % n
      if p j then some j else none) = some i ↔
      ∃ x, k ≤ x ∧ x < k + m ∧ i = (ptr + 1 + x) % n ∧ p i = true ∧
        ∀ y, k ≤ y → y < x → ¬p ((ptr + 1 + y) % n) = true := by
    intro m
    induction m with
    | zero => intro k; simp; omega
    | succ m ih =>
        intro k
        simp only [List.range'_succ, List.findSome?_cons]
        by_cases hp : p ((ptr + 1 + k) % n) = true
        · simp only [hp, if_true, Option.some.injEq]
          constructor
          · rintro rfl
            exact ⟨k, Nat.le_refl _, by omega, rfl, hp, fun y h1 h2 => by omega⟩
          · rintro ⟨x, h1, h2, h3, _, h5⟩
            rcases Nat.eq_or_lt_of_le h1 with rfl | h
            · exact h3.symm
            · exact absurd hp (h5 k (Nat.le_refl _) h)
        · simp only [hp, Bool.false_eq_true, if_false]
          rw [ih]
          constructor
          · rintro ⟨x, h1, h2, h3, h4, h5⟩
            refine ⟨x, by omega, by omega, h3, h4, fun y hy1 hy2 => ?_⟩
            rcases Nat.eq_or_lt_of_le hy1 with rfl | h
            · exact hp
            · exact h5 y h hy2
          · rintro ⟨x, h1, h2, h3, h4, h5⟩
            rcases Nat.eq_or_lt_of_le h1 with rfl | h
            · rw [h3] at h4
              exact absurd h4 hp
            · exact ⟨x, h, by omega, h3, h4, fun y hy1 hy2 => h5 y (by omega) hy2⟩
  unfold firstAfter FirstReady
  rw [List.range_eq_range', key]
  constructor
  · rintro ⟨x, _, h2, h3, h4, h5⟩
    exact ⟨x, by omega, h3, h4, fun y hy => h5 y (Nat.zero_le _) hy⟩
  · rintro ⟨x, h2, h3, h4, h5⟩
    exact ⟨x, Nat.zero_le _, by omega, h3, h4, fun y _ hy => h5 y hy⟩

/-- A served producer finds a free slot, and is ready. -/
theorem served_some {s : State} {i : Nat} (h : s.served = some i) :
    0 < s.freeSlots ∧ s.producerReady i = true ∧ i < 17 := by
  unfold State.served at h
  split at h
  · rename_i hf
    exact ⟨hf, firstAfter_some h⟩
  · cases h

/-- A grant to the Change Engine names a context and the request it has. -/
theorem nextGrant_engine {s : State} {c : CtxId} {r : Request} (h : s.nextGrant = some (.engine c r)) :
    ∃ w, s.work c = some w ∧ w.request = r := by
  unfold State.nextGrant at h
  split at h
  · cases h
  · split at h
    · obtain ⟨c', _, h⟩ := Option.bind_eq_some_iff.mp h
      obtain ⟨w, hw, h⟩ := Option.map_eq_some_iff.mp h
      cases h
      exact ⟨w, hw, rfl⟩
    · obtain ⟨k, _, h⟩ := Option.map_eq_some_iff.mp h
      cases h

/-- A grant to a lane names its oldest check. -/
theorem nextGrant_lane {s : State} {l : LinkId} {k : Check} (h : s.nextGrant = some (.lane l k)) :
    (s.link l).lane.head? = some k := by
  unfold State.nextGrant at h
  split at h
  · cases h
  · split at h
    · obtain ⟨c', _, h⟩ := Option.bind_eq_some_iff.mp h
      obtain ⟨w, hw, h⟩ := Option.map_eq_some_iff.mp h
      cases h
    · obtain ⟨k', hk, h⟩ := Option.map_eq_some_iff.mp h
      cases h
      exact hk

/-! ## The Scheduler -/

/-- A selected message stands in the intake and can issue. -/
theorem selected_some {s : State} {i : Nat} {m : Message} (h : s.selected = some (i, m)) :
    s.intake[i]? = some m ∧ (judge s m).canIssue s.freeSlots = true := by
  have hissue : ∀ j k, s.issuable j = some k → k = j ∧ ∃ x, s.intake[j]? = some x ∧
      (judge s x).canIssue s.freeSlots = true := by
    intro j k hk
    unfold State.issuable State.message at hk
    split at hk
    · rename_i x hx
      split at hk
      · rename_i hc
        cases hk
        exact ⟨rfl, x, hx, hc⟩
      · cases hk
    · cases hk
  have hnext : ∀ k, s.nextIssue = some k → ∃ x, s.intake[k]? = some x ∧ (judge s x).canIssue s.freeSlots = true := by
    intro k hk
    unfold State.nextIssue at hk
    split at hk
    · rename_i j hj
      cases hk
      obtain ⟨rfl, x⟩ := hissue _ _ hj
      exact x
    · obtain ⟨j, _, hj⟩ := Option.bind_eq_some_iff.mp hk
      obtain ⟨rfl, x⟩ := hissue _ _ hj
      exact x
  unfold State.selected State.message at h
  split at h
  · cases h
  · rename_i k hk
    obtain ⟨x, hx, hc⟩ := hnext _ hk
    rw [hx] at h
    dsimp only at h
    split at h
    · cases h
      exact ⟨hx, hc⟩
    · cases h

/-- The kind code of a command (Table 11.5). -/
def Command.kindCode : Command → Nat
  | .job j => j.kindCode.toNat
  | .openDomain _ _ _ _ => 0x10
  | .setDomain _ _ _ _ => 0x11
  | .defineGroup _ _ => 0x12
  | .dropGroup _ => 0x13
  | .setPolicy _ _ _ => 0x14
  | .setHome _ _ _ _ => 0x15
  | .snapshot => 0x16
  | .abort _ => 0x17
  | .linkControl _ _ => 0x18

/-- A coded value is the value. -/
theorem coded_some {α : Type} {test : Bool} {x y : α} (h : coded test x = some y) : test = true ∧ x = y := by
  unfold coded at h
  split at h
  · rename_i ht
    cases h
    exact ⟨ht, rfl⟩
  · cases h

/-- The command a message spells is of the message's kind. -/
theorem decodeCommand_kind {m : Message} {c : Command} (h : decodeCommand m = some c) :
    (msgKind m).toNat = c.kindCode := by
  unfold decodeCommand decodeRange at h
  dsimp only at h
  split at h
  all_goals first
    | (cases h; assumption)
    | (obtain ⟨_, rfl⟩ := coded_some h; assumption)
    | (split at h <;> first | (obtain ⟨_, rfl⟩ := coded_some h; assumption) | cases h)
    | cases h

/-- The row of a kind takes the messages of that kind. -/
theorem rowKind_of_code {m : Message} {code : Nat} (h : (msgKind m).toNat = code) : rowKind code m = true := by
  simp [rowKind, h]

/-- An issue event of the row that the selected message is of. -/
theorem issueEvent_selected {s : State} {i : Nat} {m : Message} {row : Message → Bool}
    (effect : Message → State → State) (hs : s.selected = some (i, m)) (hr : row m = true) :
    issueEvent row effect s = .next (signalInterrupt s (effect m (s.issued i))) := by
  simp [issueEvent, event, hs, hr, State.issued]

/-- An issue event of another row, or with no message to issue, leaves the state as it is. -/
theorem issueEvent_idle {s : State} {row : Message → Bool} (effect : Message → State → State)
    (h : ∀ i m, s.selected = some (i, m) → row m = false) : issueEvent row effect s = .next s := by
  have hq : signalInterrupt s s = s := signalInterrupt_same rfl rfl rfl rfl
  unfold issueEvent event
  cases hs : s.selected with
  | none => simp [hs, hq]
  | some p =>
      obtain ⟨i, m⟩ := p
      simp [hs, h i m hs, hq]

/-- The refusal tests do not read the intake. -/
theorem refusal_issued (s : State) (i : Nat) (tag : BitVec 16) (job : Job) :
    refusal (s.issued i) tag job = refusal s tag job := rfl

end Sys2Proof.Machine
end

