-- ==== Sys2Proof/Laws/Table.lean ====
section
/-! SUPPORT. The laws of sparse tables: what a look-up gives after a write, and the canonical form. -/

namespace Sys2Proof.Machine

section
variable {α : Type} [DecidableEq α]

omit [DecidableEq α] in
theorem tableGet_filter_same (dflt : α) (t : Table α) (k : Nat) :
    tableGet dflt (t.filter (fun e => !(e.1 == k))) k = dflt := by
  induction t with
  | nil => rfl
  | cons e t ih =>
    rcases e with ⟨k', v⟩
    by_cases h : k' = k
    · simpa [List.filter_cons, h] using ih
    · simpa [List.filter_cons, h, tableGet] using ih

omit [DecidableEq α] in
theorem tableGet_filter_other (dflt : α) (t : Table α) {j k : Nat} (hjk : j ≠ k) :
    tableGet dflt (t.filter (fun e => !(e.1 == k))) j = tableGet dflt t j := by
  induction t with
  | nil => rfl
  | cons e t ih =>
    rcases e with ⟨k', v⟩
    by_cases h : k' = k
    · have hj : k' ≠ j := fun e => hjk (e.symm.trans h)
      simpa [List.filter_cons, h, tableGet, Ne.symm hjk] using ih
    · by_cases hj : k' = j
      · simp [tableGet, hj, hjk]
      · simpa [List.filter_cons, h, tableGet, hj] using ih

omit [DecidableEq α] in
theorem tableGet_insert_same (dflt : α) (t : Table α) (k : Nat) (v : α) (h : ∀ e ∈ t, e.1 ≠ k) :
    tableGet dflt (tableInsert k v t) k = v := by
  induction t with
  | nil => simp [tableInsert, tableGet]
  | cons e t ih =>
    rcases e with ⟨k', v'⟩
    have hk : k' ≠ k := h _ List.mem_cons_self
    by_cases hlt : k < k'
    · simp [tableInsert, hlt, tableGet]
    · simp [tableInsert, hlt, tableGet, hk, ih (fun e he => h e (List.mem_cons_of_mem _ he))]

omit [DecidableEq α] in
theorem tableGet_insert_other (dflt : α) (t : Table α) {j k : Nat} (v : α) (hjk : j ≠ k) :
    tableGet dflt (tableInsert k v t) j = tableGet dflt t j := by
  induction t with
  | nil => simp [tableInsert, tableGet, Ne.symm hjk]
  | cons e t ih =>
    rcases e with ⟨k', v'⟩
    by_cases hlt : k < k'
    · simp [tableInsert, hlt, tableGet, Ne.symm hjk]
    · rw [tableInsert, if_neg hlt]
      by_cases hj : k' = j <;> simp [tableGet, hj, ih]

omit [DecidableEq α] in
theorem filter_keys (t : Table α) (k : Nat) : ∀ e ∈ t.filter (fun e => !(e.1 == k)), e.1 ≠ k := by
  intro e he
  simpa using (List.mem_filter.mp he).2

/-- A look-up of the key written gives the value written. -/
@[simp] theorem tableGet_tablePut_same (dflt : α) (t : Table α) (k : Nat) (v : α) :
    tableGet dflt (tablePut dflt t k v) k = v := by
  unfold tablePut
  by_cases h : v = dflt
  · simp [h, tableGet_filter_same]
  · simp [h, tableGet_insert_same dflt _ k v (filter_keys t k)]

/-- A look-up of any other key gives what it gave before. -/
theorem tableGet_tablePut_other (dflt : α) (t : Table α) {j k : Nat} (v : α) (hjk : j ≠ k) :
    tableGet dflt (tablePut dflt t k v) j = tableGet dflt t j := by
  unfold tablePut
  by_cases h : v = dflt
  · simp [h, tableGet_filter_other dflt t hjk]
  · simp [h, tableGet_insert_other dflt _ v hjk, tableGet_filter_other dflt t hjk]

/-- The bound below the keys, as a proposition. -/
def keyAbove (low : Option Nat) (k : Nat) : Prop :=
  match low with
  | none => True
  | some b => b < k

theorem tableWfFrom_cons (dflt : α) (low : Option Nat) (k : Nat) (v : α) (t : Table α) :
    tableWfFrom dflt low ((k, v) :: t) = true ↔ keyAbove low k ∧ v ≠ dflt ∧ tableWfFrom dflt (some k) t = true := by
  cases low <;> simp [tableWfFrom, keyAbove, and_assoc]

theorem keyAbove_trans {low : Option Nat} {k k' : Nat} (h : keyAbove low k) (hk : k < k') : keyAbove low k' := by
  cases low with
  | none => trivial
  | some b => exact Nat.lt_trans h hk

theorem tableWfFrom_weaken (dflt : α) {low : Option Nat} {k : Nat} (h : keyAbove low k) (t : Table α)
    (ht : tableWfFrom dflt (some k) t = true) : tableWfFrom dflt low t = true := by
  cases t with
  | nil => cases low <;> rfl
  | cons e t =>
    rcases e with ⟨k', v⟩
    rw [tableWfFrom_cons] at ht ⊢
    exact ⟨keyAbove_trans h ht.1, ht.2⟩

theorem tableWfFrom_filter (dflt : α) (p : Nat × α → Bool) (t : Table α) (low : Option Nat)
    (ht : tableWfFrom dflt low t = true) : tableWfFrom dflt low (t.filter p) = true := by
  induction t generalizing low with
  | nil => simpa using ht
  | cons e t ih =>
    rcases e with ⟨k, v⟩
    rw [tableWfFrom_cons] at ht
    by_cases hp : p (k, v) = true
    · rw [List.filter_cons_of_pos hp, tableWfFrom_cons]
      exact ⟨ht.1, ht.2.1, ih _ ht.2.2⟩
    · rw [List.filter_cons_of_neg hp]
      exact tableWfFrom_weaken dflt ht.1 _ (ih _ ht.2.2)

theorem tableWfFrom_insert (dflt : α) (k : Nat) (v : α) (hv : v ≠ dflt) (t : Table α) (low : Option Nat)
    (ht : tableWfFrom dflt low t = true) (hk : ∀ e ∈ t, e.1 ≠ k) (hlow : keyAbove low k) :
    tableWfFrom dflt low (tableInsert k v t) = true := by
  induction t generalizing low with
  | nil => rw [tableInsert, tableWfFrom_cons]; exact ⟨hlow, hv, rfl⟩
  | cons e t ih =>
    rcases e with ⟨k', v'⟩
    rw [tableWfFrom_cons] at ht
    have hne : k' ≠ k := hk _ List.mem_cons_self
    by_cases hlt : k < k'
    · rw [tableInsert, if_pos hlt, tableWfFrom_cons, tableWfFrom_cons]
      exact ⟨hlow, hv, hlt, ht.2⟩
    · rw [tableInsert, if_neg hlt, tableWfFrom_cons]
      exact ⟨ht.1, ht.2.1, ih _ ht.2.2 (fun e he => hk e (List.mem_cons_of_mem _ he))
        (Nat.lt_of_le_of_ne (Nat.le_of_not_lt hlt) hne)⟩

/-- A write keeps the canonical form. -/
theorem tableWf_tablePut (dflt : α) (t : Table α) (k : Nat) (v : α) (ht : tableWf dflt t = true) :
    tableWf dflt (tablePut dflt t k v) = true := by
  unfold tablePut tableWf at *
  by_cases h : v = dflt
  · simpa [h] using tableWfFrom_filter dflt _ t none ht
  · simpa [h] using tableWfFrom_insert dflt k v h _ none (tableWfFrom_filter dflt _ t none ht) (filter_keys t k) trivial

end

/-! ## Domains and groups -/

@[simp] theorem domain_modDomain_same (d : Nat) (f : DomainRecord → DomainRecord) (s : State) :
    (modDomain d f s).domain d = f (s.domain d) := tableGet_tablePut_same ..

theorem domain_modDomain_other {d d' : Nat} (f : DomainRecord → DomainRecord) (s : State) (h : d' ≠ d) :
    (modDomain d f s).domain d' = s.domain d' := tableGet_tablePut_other _ _ _ h

@[simp] theorem group_modGroup_same (g : Nat) (f : GroupRecord → GroupRecord) (s : State) :
    (modGroup g f s).group g = f (s.group g) := tableGet_tablePut_same ..

theorem group_modGroup_other {g g' : Nat} (f : GroupRecord → GroupRecord) (s : State) (h : g' ≠ g) :
    (modGroup g f s).group g' = s.group g' := tableGet_tablePut_other _ _ _ h

/-! ## The Tag Store -/

/-- A completed write keeps the canonical form of the Tag Store. -/
theorem storeImage_wf (g : Nat) (image : BitVec 64) (ecc : BitVec 8) (s : State) (h : Memory.wf s.store = true) :
    Memory.wf (storeImage g image ecc s).store = true := tableWf_tablePut storeDefault s.store g _ h

/-- State.reset's Tag Store is in canonical form. -/
theorem reset_wf : Memory.wf State.reset.store = true := rfl

/-- The image a completed write stores for its granule. -/
@[simp] theorem stored_storeImage_same (g : Nat) (image : BitVec 64) (ecc : BitVec 8) (s : State) :
    (storeImage g image ecc s).stored g = image := congrArg StoredRecord.image (tableGet_tablePut_same ..)

/-- The ECC byte a completed write stores beside it. -/
@[simp] theorem storedEcc_storeImage_same (g : Nat) (image : BitVec 64) (ecc : BitVec 8) (s : State) :
    (storeImage g image ecc s).storedEcc g = some ecc := congrArg StoredRecord.ecc (tableGet_tablePut_same ..)

/-- What a completed write leaves for every other granule. -/
theorem stored_storeImage_other {g g' : Nat} (image : BitVec 64) (ecc : BitVec 8) (s : State) (h : g' ≠ g) :
    (storeImage g image ecc s).stored g' = s.stored g' :=
  congrArg StoredRecord.image (tableGet_tablePut_other _ _ _ h)

theorem storedEcc_storeImage_other {g g' : Nat} (image : BitVec 64) (ecc : BitVec 8) (s : State) (h : g' ≠ g) :
    (storeImage g image ecc s).storedEcc g' = s.storedEcc g' :=
  congrArg StoredRecord.ecc (tableGet_tablePut_other _ _ _ h)

end Sys2Proof.Machine
end

