-- ==== Sys2Proof/Laws/Moves.lean ====
section
/-! SUPPORT. The moves an event makes on the books of the part: what the contexts hold, the figures of the domains, the
share groups. Each move keeps laws L8, L7 and L10. -/

namespace Sys2Proof.Machine

/-- The figures of a domain that the laws read. -/
def DomainRecord.account (r : DomainRecord) : DomainRecord := { r with policySet := 0, tally := none }

/-- What a context gives up of its promise when its work goes from `w` to `w'`. -/
def givenUp (w w' : Work) : Nat := w.promised - w'.promised

/-- A domain's figures when a context's work goes on: the receiver's incoming falls by what is given up, and its held
count rises by no more; or the domain is closed by its sweep. -/
def domainFollows (w w' : Work) (d : Nat) (r r' : DomainRecord) : Prop :=
  let given := if w.job.receiver = some d then givenUp w w' else 0
  (r'.state = r.state ∧ r'.quota = r.quota ∧ r'.groupCount = r.groupCount ∧ r'.incoming = r.incoming - given ∧
    r'.held ≤ r.held + given) ∨
  (w.job = .closeDomain d ∧ w.phase ≠ .post ∧ w'.phase = .post ∧ r'.state = .closed ∧ r'.groupCount = r.groupCount ∧
    r'.incoming = 0 ∧ r'.held = 0)

/-- A group's figures when a context's work goes on. -/
def groupFollows (r r' : GroupRecord) : Prop := r'.defined = r.defined ∧ r'.members = r.members ∧ r'.refs ≤ r.refs

/-- No context but one holds a range or window over a block. -/
def apartFrom (s : State) (c : CtxId) (base count : Nat) : Prop :=
  ∀ c' w, c' ≠ c → s.work c' = some w → w.holdsOver base count = false

/-- The tables after an immediate command: a domain opened or set, a group defined or dropped. -/
def groupsMove (s t : State) : Prop :=
  ((∀ g, t.group g = s.group g) ∧ ∀ d, (t.domain d).groupCount = (s.domain d).groupCount) ∨
  (∃ g members, g < 256 ∧ (s.group g).defined = false ∧ members.Nodup ∧
    (∀ d ∈ members, (s.domain d).state = .active) ∧ t.group g = { s.group g with defined := true, members := members } ∧
    (∀ g', g' ≠ g → t.group g' = s.group g') ∧
    ∀ d, (t.domain d).groupCount = (s.domain d).groupCount + if d ∈ members then 1 else 0) ∨
  (∃ g, (s.group g).defined = true ∧ (s.group g).refs = 0 ∧ t.group g = { s.group g with defined := false, members := [] } ∧
    (∀ g', g' ≠ g → t.group g' = s.group g') ∧ ((s.group g).members.Nodup →
      ∀ d, (t.domain d).groupCount = (s.domain d).groupCount - if d ∈ (s.group g).members then 1 else 0))

/-- A move on the books. -/
inductive BookMove (s t : State) : Prop where
  /-- Nothing on the books changes. -/
  | keep (hw : ∀ c, t.work c = s.work c) (hd : ∀ d, (t.domain d).account = (s.domain d).account)
      (hg : ∀ g, t.group g = s.group g)
  /-- The work of one context goes on. -/
  | work (c : CtxId) (w w' : Work) (hs : s.work c = some w) (ht : t.work c = some w')
      (ho : ∀ c', c' ≠ c → t.work c' = s.work c') (hj : w'.job = w.job) (hord : w'.orderly c)
      (hpost : w.phase = .post → w'.phase = .post) (hprom : w'.promised ≤ w.promised)
      (hwin : w'.window = w.window ∨ w'.window = none ∨ ∃ b, w'.window = some b ∧ apartFrom s c b 512)
      (hd : ∀ d, domainFollows w w' d (s.domain d) (t.domain d))
      (hg : ∀ g, groupFollows (s.group g) (t.group g))
  /-- A context in POST becomes FREE. -/
  | free (c : CtxId) (w : Work) (hs : s.work c = some w) (hp : w.phase = .post) (ht : t.work c = none)
      (ho : ∀ c', c' ≠ c → t.work c' = s.work c') (hd : ∀ d, (t.domain d).account = (s.domain d).account)
      (hg : ∀ g, t.group g = s.group g)
  /-- A FREE context is taken. -/
  | take (c : CtxId) (w : Work) (hs : s.work c = none) (ht : t.work c = some w)
      (ho : ∀ c', c' ≠ c → t.work c' = s.work c') (hord : w.orderly c) (hp : w.phase ≠ .post)
      (hr : ∀ b n, w.heldRange = some (b, n) → apartFrom s c b n)
      (hd : ∀ d, (t.domain d).quota = (s.domain d).quota ∧ (t.domain d).groupCount = (s.domain d).groupCount ∧
        (t.domain d).incoming = (s.domain d).incoming + (if w.job.receiver = some d then w.promised else 0) ∧
        (d ≠ 0 → (t.domain d).held = (s.domain d).held) ∧
        (w.job.receiver = some d → (s.domain d).state = .active ∧
          (s.domain d).held + (s.domain d).incoming + w.promised ≤ (s.domain d).quota) ∧
        (w.job ≠ .closeDomain d → (t.domain d).state = (s.domain d).state) ∧
        (w.job = .closeDomain d → d ≠ 0 ∧ (s.domain d).state = .active ∧ (t.domain d).state = .draining ∧
          (s.domain d).groupCount = 0 ∧ ∀ c' w', s.work c' = some w' → w'.job.receiver ≠ some d))
      (hg : ∀ g, (t.group g).defined = (s.group g).defined ∧ (t.group g).members = (s.group g).members ∧
        ((t.group g).refs = (s.group g).refs ∨ (s.group g).defined = true))
  /-- The tables change and no context does. -/
  | tables (hw : ∀ c, t.work c = s.work c)
      (hd : ∀ d, (t.domain d).incoming = (s.domain d).incoming ∧ (t.domain d).held = (s.domain d).held ∧
        (((s.domain d).state = .closed ∧ (t.domain d).state = .active) ∨
          ((t.domain d).state = (s.domain d).state ∧ ((t.domain d).quota = (s.domain d).quota ∨
            (t.domain d).held + (t.domain d).incoming ≤ (t.domain d).quota))))
      (hg : groupsMove s t)
  /-- Part reset. -/
  | fresh (hw : ∀ c, t.work c = none) (hd : ∀ d, (t.domain d).incoming = 0 ∧ (t.domain d).held = 0 ∧
      (t.domain d).groupCount = 0) (hg : ∀ g, (t.group g).defined = false ∧ (t.group g).refs = 0)

/-! ## Sums over the contexts -/

theorem mem_allCtxs (c : CtxId) : c ∈ allCtxs := by
  revert c
  decide

/-- A sum over a list without repetition, after one summand has changed. -/
theorem sum_map_change {α : Type} [DecidableEq α] {L : List α} (hn : L.Nodup) {c : α} (hc : c ∈ L) {F G : α → Nat}
    (h : ∀ c', c' ≠ c → G c' = F c') : (L.map G).sum + F c = (L.map F).sum + G c := by
  induction L with
  | nil => cases hc
  | cons a L ih =>
      simp only [List.map_cons, List.sum_cons]
      rw [List.nodup_cons] at hn
      by_cases ha : a = c
      · subst ha
        have : L.map G = L.map F := List.map_congr_left (fun b hb => h b (fun e => hn.1 (e ▸ hb)))
        rw [this]
        omega
      · have := ih hn.2 ((List.mem_cons.1 hc).resolve_left (fun e => ha e.symm))
        rw [h a ha]
        omega

/-- A figure summed over the contexts, after one context has changed. -/
theorem sumOver_change {s t : State} {c : CtxId} (ho : ∀ c', c' ≠ c → t.work c' = s.work c') (f : Work → Nat) :
    t.sumOver f + ((s.work c).map f).getD 0 = s.sumOver f + ((t.work c).map f).getD 0 :=
  sum_map_change (L := allCtxs) (F := fun c => ((s.work c).map f).getD 0) (G := fun c => ((t.work c).map f).getD 0)
    (by decide) (mem_allCtxs c) (fun c' h => by rw [ho c' h])

theorem sumOver_congr {s t : State} (h : ∀ c, t.work c = s.work c) (f : Work → Nat) : t.sumOver f = s.sumOver f := by
  unfold State.sumOver
  congr 1
  exact List.map_congr_left (fun c _ => by rw [h])

/-- One context's figure is part of the sum. -/
theorem le_sumOver {s : State} {c : CtxId} {w : Work} (h : s.work c = some w) (f : Work → Nat) : f w ≤ s.sumOver f := by
  have key : ∀ (L : List CtxId), c ∈ L → f w ≤ (L.map (fun c => ((s.work c).map f).getD 0)).sum := by
    intro L hL
    induction L with
    | nil => cases hL
    | cons a L ih =>
        simp only [List.map_cons, List.sum_cons]
        rcases List.mem_cons.1 hL with e | e
        · subst e
          simp [h]
        · have := ih e
          omega
  exact key allCtxs (mem_allCtxs c)

theorem sumOver_zero {s : State} {f : Work → Nat} (h : ∀ c w, s.work c = some w → f w = 0) : s.sumOver f = 0 := by
  have key : ∀ (L : List CtxId), (L.map (fun c => ((s.work c).map f).getD 0)).sum = 0 := by
    intro L
    induction L with
    | nil => rfl
    | cons a L ih =>
        simp only [List.map_cons, List.sum_cons, ih, Nat.add_zero]
        cases hw : s.work a with
        | none => rfl
        | some w => simpa using h a w hw
  exact key allCtxs

/-! ## The laws over the moves -/

theorem overlaps_comm (b n b' n' : Nat) : overlaps b n b' n' = overlaps b' n' b n := by
  unfold overlaps
  rw [Bool.and_comm]

theorem heldRange_of_same {w w' : Work} (hj : w'.job = w.job) (hw : w'.window = w.window) : w'.heldRange = w.heldRange := by
  unfold Work.heldRange
  rw [hj, hw]

/-- Law L8 over a move. -/
theorem BookMove.contexts {s t : State} (m : BookMove s t) (h : s.contextsKept) : t.contextsKept := by
  obtain ⟨h1, h2⟩ := h
  cases m with
  | keep hw _ _ =>
      exact ⟨fun c w hc => h1 c w (hw c ▸ hc), fun c c' w w' b n b' n' hcc hc hc' =>
        h2 c c' w w' b n b' n' hcc (hw c ▸ hc) (hw c' ▸ hc')⟩
  | tables hw _ _ =>
      exact ⟨fun c w hc => h1 c w (hw c ▸ hc), fun c c' w w' b n b' n' hcc hc hc' =>
        h2 c c' w w' b n b' n' hcc (hw c ▸ hc) (hw c' ▸ hc')⟩
  | fresh hw _ _ =>
      refine ⟨fun c w hc => ?_, fun c c' w w' b n b' n' _ hc => ?_⟩ <;> (rw [hw] at hc; cases hc)
  | free c w hs hp ht ho _ _ =>
      have sub : ∀ c' w', t.work c' = some w' → s.work c' = some w' := by
        intro c' w' hc
        by_cases e : c' = c
        · subst e; rw [ht] at hc; cases hc
        · rwa [ho c' e] at hc
      exact ⟨fun c' w' hc => h1 c' w' (sub c' w' hc), fun c1 c2 w1 w2 b n b' n' hcc hc hc' =>
        h2 c1 c2 w1 w2 b n b' n' hcc (sub _ _ hc) (sub _ _ hc')⟩
  | take c w hs ht ho hord hp hr _ _ =>
      have key : ∀ c' w' b n b' n', c' ≠ c → s.work c' = some w' → w.heldRange = some (b, n) →
          w'.heldRange = some (b', n') → overlaps b n b' n' = false := by
        intro c' w' b n b' n' hc hw hb hb'
        have := hr b n hb c' w' hc hw
        simpa [Work.holdsOver, hb'] using this
      refine ⟨fun c' w' hc => ?_, fun c1 c2 w1 w2 b n b' n' hcc hc hc' hb hb' => ?_⟩
      · by_cases e : c' = c
        · subst e; rw [ht] at hc; cases hc; exact hord
        · rw [ho c' e] at hc; exact h1 c' w' hc
      · by_cases e1 : c1 = c
        · subst e1
          rw [ht] at hc
          cases hc
          rw [ho c2 (Ne.symm hcc)] at hc'
          exact key c2 w2 b n b' n' (Ne.symm hcc) hc' hb hb'
        · rw [ho c1 e1] at hc
          by_cases e2 : c2 = c
          · subst e2
            rw [ht] at hc'
            cases hc'
            rw [overlaps_comm]
            exact key c1 w1 b' n' b n hcc hc hb' hb
          · rw [ho c2 e2] at hc'
            exact h2 c1 c2 w1 w2 b n b' n' hcc hc hc' hb hb'
  | work c w w' hs ht ho hj hord hpost hprom hwin _ _ =>
      have key : ∀ c' x b n b' n', c' ≠ c → s.work c' = some x → w'.heldRange = some (b, n) →
          x.heldRange = some (b', n') → overlaps b n b' n' = false := by
        intro c' x b n b' n' hc hx hb hb'
        have same : w'.heldRange = w.heldRange → overlaps b n b' n' = false := fun e =>
          h2 c c' w x b n b' n' (Ne.symm hc) hs hx (e ▸ hb) hb'
        rcases hwin with e | e | ⟨b0, e, hap⟩
        · exact same (heldRange_of_same hj e)
        · cases hjob : w.job with
          | closeDomain d => simp [Work.heldRange, hj, hjob, e] at hb
          | range b1 n1 e1 op => exact same (by simp [Work.heldRange, hj, hjob])
          | query g => simp [Work.heldRange, hj, hjob] at hb
          | format a b1 c1 => simp [Work.heldRange, hj, hjob] at hb
        · cases hjob : w.job with
          | closeDomain d =>
              simp only [Work.heldRange, hj, hjob, e, Option.map_some, Option.some.injEq, Prod.mk.injEq] at hb
              have := hap c' x hc hx
              rw [← hb.1, ← hb.2]
              simpa [Work.holdsOver, hb'] using this
          | range b1 n1 e1 op => exact same (by simp [Work.heldRange, hj, hjob])
          | query g => simp [Work.heldRange, hj, hjob] at hb
          | format a b1 c1 => simp [Work.heldRange, hj, hjob] at hb
      refine ⟨fun c' x hc => ?_, fun c1 c2 w1 w2 b n b' n' hcc hc hc' hb hb' => ?_⟩
      · by_cases e : c' = c
        · subst e; rw [ht] at hc; cases hc; exact hord
        · rw [ho c' e] at hc; exact h1 c' x hc
      · by_cases e1 : c1 = c
        · subst e1
          rw [ht] at hc
          cases hc
          rw [ho c2 (Ne.symm hcc)] at hc'
          exact key c2 w2 b n b' n' (Ne.symm hcc) hc' hb hb'
        · rw [ho c1 e1] at hc
          by_cases e2 : c2 = c
          · subst e2
            rw [ht] at hc'
            cases hc'
            rw [overlaps_comm]
            exact key c1 w1 b' n' b n hcc hc hb' hb
          · rw [ho c2 e2] at hc'
            exact h2 c1 c2 w1 w2 b n b' n' hcc hc hc' hb hb'

theorem promised_post {w : Work} (h : w.phase = .post) : w.promised = 0 := by simp [Work.promised, h]

theorem account_eq {a b : DomainRecord} (h : a.account = b.account) :
    a.state = b.state ∧ a.quota = b.quota ∧ a.held = b.held ∧ a.incoming = b.incoming ∧ a.groupCount = b.groupCount := by
  unfold DomainRecord.account at h
  cases a
  cases b
  simp only [DomainRecord.mk.injEq] at h ⊢
  exact ⟨h.1, h.2.1, h.2.2.1, h.2.2.2.1, h.2.2.2.2.2.2⟩

/-- Law L7 over a move. -/
theorem BookMove.quota {s t : State} (m : BookMove s t) (h : s.quotaKept) : t.quotaKept := by
  obtain ⟨hq, hi, hc, hn⟩ := h
  cases m with
  | keep hw hd _ =>
      have e := fun d => account_eq (hd d)
      refine ⟨fun d h0 => ?_, fun d => ?_, fun d h0 hs => ?_, fun c w hcw hp => ?_⟩
      · rw [(e d).2.2.1, (e d).2.2.2.1, (e d).2.1]; exact hq d h0
      · rw [(e d).2.2.2.1, hi d]; exact (sumOver_congr hw _).symm
      · rw [(e d).2.2.1]; exact hc d h0 ((e d).1 ▸ hs)
      · obtain ⟨n1, n2⟩ := hn c w (hw c ▸ hcw) hp
        exact ⟨fun d hr => by rw [(e d).1]; exact n1 d hr, fun d hj => ⟨(n2 d hj).1, by rw [(e d).1]; exact (n2 d hj).2.1,
          fun c' w' hcc hw' => (n2 d hj).2.2 c' w' hcc (hw c' ▸ hw')⟩⟩
  | tables hw hd hg =>
      refine ⟨fun d h0 => ?_, fun d => ?_, fun d h0 hs => ?_, fun c w hcw hp => ?_⟩
      · obtain ⟨e1, e2, e3⟩ := hd d
        have hq' := hq d h0
        rcases e3 with ⟨hcl, hac⟩ | ⟨hst, hqq | hqq⟩
        · have hz := hc d h0 hcl
          have : s.promisedTo d = 0 := by
            refine sumOver_zero (fun c w hcw => ?_)
            split
            · rename_i hr
              by_cases hp : w.phase = .post
              · exact promised_post hp
              · have := (hn c w hcw hp).1 d hr
                rw [hcl] at this
                cases this
            · rfl
          rw [e1, e2, hz, hi d, this]
          exact Nat.zero_le _
        · rw [e1, e2, hqq]; exact hq'
        · exact hqq
      · rw [(hd d).1, hi d]; exact (sumOver_congr hw _).symm
      · obtain ⟨e1, e2, e3⟩ := hd d
        rw [e2]
        rcases e3 with ⟨_, hac⟩ | ⟨hst, _⟩
        · rw [hac] at hs; cases hs
        · exact hc d h0 (hst ▸ hs)
      · obtain ⟨n1, n2⟩ := hn c w (hw c ▸ hcw) hp
        have stay : ∀ d, (s.domain d).state ≠ .closed → (t.domain d).state = (s.domain d).state := by
          intro d hne
          rcases (hd d).2.2 with ⟨hcl, _⟩ | ⟨hst, _⟩
          · exact absurd hcl hne
          · exact hst
        refine ⟨fun d hr => ?_, fun d hj => ⟨(n2 d hj).1, ?_, fun c' w' hcc hw' => (n2 d hj).2.2 c' w' hcc (hw c' ▸ hw')⟩⟩
        · rw [stay d (by rw [n1 d hr]; decide)]; exact n1 d hr
        · rw [stay d (by rw [(n2 d hj).2.1]; decide)]; exact (n2 d hj).2.1
  | fresh hw hd _ =>
      refine ⟨fun d _ => by rw [(hd d).1, (hd d).2.1]; exact Nat.zero_le _, fun d => ?_, fun d _ _ => (hd d).2.1,
        fun c w hcw => by rw [hw] at hcw; cases hcw⟩
      rw [(hd d).1]
      exact (sumOver_zero (fun c w hcw => by rw [hw] at hcw; cases hcw)).symm
  | free c w hs hp ht ho hd _ =>
      have e := fun d => account_eq (hd d)
      have sub : ∀ c' w', t.work c' = some w' → s.work c' = some w' := by
        intro c' w' hc
        by_cases e : c' = c
        · subst e; rw [ht] at hc; cases hc
        · rwa [ho c' e] at hc
      refine ⟨fun d h0 => ?_, fun d => ?_, fun d h0 hst => ?_, fun c' w' hcw hp' => ?_⟩
      · rw [(e d).2.2.1, (e d).2.2.2.1, (e d).2.1]; exact hq d h0
      · rw [(e d).2.2.2.1, hi d]
        have := sumOver_change ho (fun w => if w.job.receiver = some d then w.promised else 0)
        simp only [hs, ht, Option.map_some, Option.getD_some, Option.map_none, Option.getD_none, promised_post hp,
          ite_self, Nat.add_zero] at this
        exact this.symm
      · rw [(e d).2.2.1]; exact hc d h0 ((e d).1 ▸ hst)
      · obtain ⟨n1, n2⟩ := hn c' w' (sub c' w' hcw) hp'
        exact ⟨fun d hr => by rw [(e d).1]; exact n1 d hr, fun d hj => ⟨(n2 d hj).1, by rw [(e d).1]; exact (n2 d hj).2.1,
          fun c2 w2 hcc hw' => (n2 d hj).2.2 c2 w2 hcc (sub c2 w2 hw')⟩⟩
  | take c w hs ht ho hord hp hr hd _ =>
      refine ⟨fun d h0 => ?_, fun d => ?_, fun d h0 hst => ?_, fun c' w' hcw hp' => ?_⟩
      · obtain ⟨e1, e2, e3, e4, e5, e6, e7⟩ := hd d
        rw [e1, e3, e4 h0]
        have := hq d h0
        split
        · rename_i hrec
          have := (e5 hrec).2
          omega
        · omega
      · obtain ⟨e1, e2, e3, e4, e5, e6, e7⟩ := hd d
        have := sumOver_change ho (fun w => if w.job.receiver = some d then w.promised else 0)
        simp only [hs, ht, Option.map_some, Option.getD_some, Option.map_none, Option.getD_none, Nat.add_zero] at this
        rw [e3, hi d]
        exact this.symm
      · obtain ⟨e1, e2, e3, e4, e5, e6, e7⟩ := hd d
        rw [e4 h0]
        by_cases hj : w.job = .closeDomain d
        · rw [(e7 hj).2.2.1] at hst; cases hst
        · exact hc d h0 (e6 hj ▸ hst)
      · by_cases e : c' = c
        · subst e
          rw [ht] at hcw
          cases hcw
          refine ⟨fun d hrec => ?_, fun d hj => ?_⟩
          · obtain ⟨e1, e2, e3, e4, e5, e6, e7⟩ := hd d
            rw [e6 (fun hj => by rw [hj] at hrec; cases hrec)]
            exact (e5 hrec).1
          · obtain ⟨e1, e2, e3, e4, e5, e6, e7⟩ := hd d
            refine ⟨(e7 hj).1, (e7 hj).2.2.1, fun c2 w2 hcc hw2 hp2 hj2 => ?_⟩
            rw [ho c2 hcc] at hw2
            have := ((hn c2 w2 hw2 hp2).2 d hj2).2.1
            rw [(e7 hj).2.1] at this
            cases this
        · rw [ho c' e] at hcw
          obtain ⟨n1, n2⟩ := hn c' w' hcw hp'
          refine ⟨fun d hrec => ?_, fun d hj => ⟨(n2 d hj).1, ?_, fun c2 w2 hcc hw2 hp2 => ?_⟩⟩
          · obtain ⟨e1, e2, e3, e4, e5, e6, e7⟩ := hd d
            by_cases hj : w.job = .closeDomain d
            · exact absurd hrec ((e7 hj).2.2.2.2 c' w' hcw)
            · rw [e6 hj]; exact n1 d hrec
          · obtain ⟨e1, e2, e3, e4, e5, e6, e7⟩ := hd d
            by_cases hj' : w.job = .closeDomain d
            · have := (n2 d hj).2.1
              rw [(e7 hj').2.1] at this
              cases this
            · rw [e6 hj']; exact (n2 d hj).2.1
          · by_cases e2 : c2 = c
            · subst e2
              rw [ht] at hw2
              cases hw2
              intro hj2
              have := ((hd d).2.2.2.2.2.2 hj2).2.1
              rw [(n2 d hj).2.1] at this
              cases this
            · rw [ho c2 e2] at hw2
              exact (n2 d hj).2.2 c2 w2 hcc hw2 hp2
  | work c w w' hs ht ho hj hord hpost hprom hwin hd _ =>
      have hrec : ∀ d, w'.job.receiver = some d ↔ w.job.receiver = some d := fun d => by rw [hj]
      have hgiven : ∀ d, t.promisedTo d + (if w.job.receiver = some d then givenUp w w' else 0) = s.promisedTo d := by
        intro d
        have := sumOver_change ho (fun w => if w.job.receiver = some d then w.promised else 0)
        simp only [hs, ht, Option.map_some, Option.getD_some, hrec d] at this
        unfold State.promisedTo givenUp
        by_cases e : w.job.receiver = some d
        · simp only [e, if_true] at this ⊢
          omega
        · simp only [e, if_false] at this ⊢
          omega
      refine ⟨fun d h0 => ?_, fun d => ?_, fun d h0 hst => ?_, fun c' x hcx hp' => ?_⟩
      · have hg := hgiven d
        have hid := hi d
        have hqd := hq d h0
        rcases hd d with ⟨e1, e2, e3, e4, e5⟩ | ⟨_, _, _, _, _, e6, e7⟩
        · rw [e2, e4]
          omega
        · rw [e6, e7]
          exact Nat.zero_le _
      · have hg := hgiven d
        have hid := hi d
        rcases hd d with ⟨e1, e2, e3, e4, e5⟩ | ⟨hjd, hnp, hp', e4, e5, e6, e7⟩
        · rw [e4]
          omega
        · have hz : s.promisedTo d = 0 := by
            refine sumOver_zero (fun c2 w2 hc2 => ?_)
            split
            · rename_i hr2
              by_cases hp2 : w2.phase = .post
              · exact promised_post hp2
              · have h1 := (hn c2 w2 hc2 hp2).1 d hr2
                have h2 := ((hn c w hs hnp).2 d hjd).2.1
                rw [h1] at h2
                cases h2
            · rfl
          rw [e6]
          omega
      · rcases hd d with ⟨e1, e2, e3, e4, e5⟩ | ⟨_, _, _, _, _, _, e7⟩
        · have hcl : (s.domain d).state = .closed := e1 ▸ hst
          have hz := hc d h0 hcl
          have hng : (if w.job.receiver = some d then givenUp w w' else 0) = 0 := by
            split
            · rename_i hr
              by_cases hp : w.phase = .post
              · unfold givenUp; rw [promised_post hp]; omega
              · have := (hn c w hs hp).1 d hr
                rw [hcl] at this
                cases this
            · rfl
          rw [hng] at e5
          omega
        · exact e7
      · have back : ∀ c2 w2, t.work c2 = some w2 → w2.phase ≠ .post → ∃ w0, s.work c2 = some w0 ∧ w0.phase ≠ .post ∧
            w0.job = w2.job := by
          intro c2 w2 h2 hp2
          by_cases e : c2 = c
          · subst e
            rw [ht] at h2
            cases h2
            exact ⟨w, hs, fun hp => hp2 (hpost hp), hj.symm⟩
          · rw [ho c2 e] at h2
            exact ⟨w2, h2, hp2, rfl⟩
        obtain ⟨x0, hx0, hxp, hxj⟩ := back c' x hcx hp'
        obtain ⟨n1, n2⟩ := hn c' x0 hx0 hxp
        refine ⟨fun d hr => ?_, fun d hjd => ⟨(n2 d (hxj.trans hjd)).1, ?_, fun c2 w2 hcc hw2 hp2 => ?_⟩⟩
        · have ha := n1 d (by rw [hxj]; exact hr)
          rcases hd d with ⟨e1, _⟩ | ⟨hjd, hnp, _⟩
          · rw [e1]; exact ha
          · have := ((hn c w hs hnp).2 d hjd).2.1
            rw [ha] at this
            cases this
        · have ha := (n2 d (hxj.trans hjd)).2.1
          rcases hd d with ⟨e1, _⟩ | ⟨hjd', hnp, hp2, _⟩
          · rw [e1]; exact ha
          · by_cases e : c' = c
            · subst e
              rw [ht] at hcx
              cases hcx
              exact absurd hp2 hp'
            · exact absurd (hxj.trans hjd) (((hn c w hs hnp).2 d hjd').2.2 c' x0 e hx0 hxp)
        · obtain ⟨w0, hw0, hp0, hj0⟩ := back c2 w2 hw2 hp2
          rw [← hj0]
          exact (n2 d (hxj.trans hjd)).2.2 c2 w0 hcc hw0 hp0

/-- The groups that list a domain, after one group has changed. -/
theorem groupsListing_change {s t : State} {g : Nat} (hg : g < 256) (ho : ∀ g', g' ≠ g → t.group g' = s.group g')
    (d : Nat) : t.groupsListing d + (if (s.group g).defined = true ∧ d ∈ (s.group g).members then 1 else 0) =
      s.groupsListing d + (if (t.group g).defined = true ∧ d ∈ (t.group g).members then 1 else 0) := by
  have len : ∀ (p : Nat → Bool) (L : List Nat), (L.filter p).length = (L.map (fun g => if p g = true then 1 else 0)).sum := by
    intro p L
    induction L with
    | nil => rfl
    | cons a L ih =>
        rw [List.filter_cons, List.map_cons, List.sum_cons, ← ih]
        split
        · rw [List.length_cons]; omega
        · omega
  have := sum_map_change (L := List.range 256) List.nodup_range (c := g) (List.mem_range.2 hg)
    (F := fun g => if ((s.group g).defined && decide (d ∈ (s.group g).members)) = true then 1 else 0)
    (G := fun g => if ((t.group g).defined && decide (d ∈ (t.group g).members)) = true then 1 else 0)
    (fun g' h => by rw [ho g' h])
  simp only [Bool.and_eq_true, decide_eq_true_eq] at this
  unfold State.groupsListing
  rw [len, len]
  simp only [Bool.and_eq_true, decide_eq_true_eq]
  exact this

theorem groupsListing_congr {s t : State} (h : ∀ g, (t.group g).defined = (s.group g).defined ∧
    (t.group g).members = (s.group g).members) (d : Nat) : t.groupsListing d = s.groupsListing d := by
  unfold State.groupsListing
  congr 2
  funext g
  rw [(h g).1, (h g).2]

/-- A domain that some group lists is ACTIVE, so its state is not what a sweep or an OPEN_DOMAIN changes. -/
theorem listed_pos {s : State} (h : s.sharesKept) {g d : Nat} (hd : (s.group g).defined = true)
    (hm : d ∈ (s.group g).members) : 0 < (s.domain d).groupCount := by
  rw [h.2.2 d]
  unfold State.groupsListing
  rw [List.length_pos_iff]
  intro hnil
  have : g ∈ (List.range 256).filter (fun g => (s.group g).defined && decide (d ∈ (s.group g).members)) := by
    simp [(h.2.1 g hd).1, hd, hm]
  rw [hnil] at this
  cases this

/-- Law L10 over a move. -/
theorem BookMove.shares {s t : State} (m : BookMove s t) (hk : s.quotaKept) (h : s.sharesKept) : t.sharesKept := by
  have hpos := fun g d => @listed_pos s h g d
  obtain ⟨hr, hm, hc⟩ := h
  obtain ⟨_, _, _, hn⟩ := hk
  have samegroups : ∀ {t : State}, (∀ c, t.work c = s.work c) → (∀ g, t.group g = s.group g) →
      (∀ d, (t.domain d).groupCount = (s.domain d).groupCount) →
      (∀ d, (s.domain d).state = .active → (t.domain d).state = .active) → t.sharesKept := by
    intro t hw hg hd ha
    refine ⟨fun g => by rw [hg g]; exact hr g, fun g hdef => ?_, fun d => ?_⟩
    · rw [hg g] at hdef ⊢
      exact ⟨(hm g hdef).1, (hm g hdef).2.1, fun d hd => ha d ((hm g hdef).2.2 d hd)⟩
    · rw [hd d, hc d]
      exact (groupsListing_congr (fun g => by rw [hg g]; exact ⟨rfl, rfl⟩) d).symm
  cases m with
  | keep hw hd hg =>
      exact samegroups hw hg (fun d => (account_eq (hd d)).2.2.2.2) (fun d ha => by rw [(account_eq (hd d)).1]; exact ha)
  | fresh hw hd hg =>
      refine ⟨fun g hx => by rw [(hg g).2] at hx; omega, fun g hx => (by rw [(hg g).1] at hx; cases hx), fun d => ?_⟩
      · rw [(hd d).2.2]
        unfold State.groupsListing
        symm
        rw [List.length_eq_zero_iff, List.filter_eq_nil_iff]
        intro g _
        simp [(hg g).1]
  | tables hw hd hgm =>
      have act : ∀ d, (s.domain d).state = .active → (t.domain d).state = .active := by
        intro d ha
        rcases (hd d).2.2 with ⟨hcl, hac⟩ | ⟨hst, _⟩
        · exact hac
        · rw [hst]; exact ha
      rcases hgm with ⟨hg, hgc⟩ | ⟨g, members, hlt, hund, hnd, hact, hgg, ho, hgc⟩ | ⟨g, hdef, hz, hgg, ho, hgc⟩
      · exact samegroups hw hg hgc act
      · refine ⟨fun g' => ?_, fun g' hd' => ?_, fun d => ?_⟩
        · by_cases e : g' = g
          · subst e; rw [hgg]; exact fun _ => rfl
          · rw [ho g' e]; exact hr g'
        · by_cases e : g' = g
          · subst e; rw [hgg]; exact ⟨hlt, hnd, fun d hd => act d (hact d hd)⟩
          · rw [ho g' e] at hd' ⊢
            exact ⟨(hm g' hd').1, (hm g' hd').2.1, fun d hd => act d ((hm g' hd').2.2 d hd)⟩
        · have := groupsListing_change hlt ho d
          rw [hund, hgg] at this
          simp only [Bool.false_eq_true, false_and, if_false, true_and] at this
          rw [hgc d, hc d]
          omega
      · have hlt := (hm g hdef).1
        refine ⟨fun g' => ?_, fun g' hd' => ?_, fun d => ?_⟩
        · by_cases e : g' = g
          · subst e; rw [hgg]; dsimp only; omega
          · rw [ho g' e]; exact hr g'
        · by_cases e : g' = g
          · subst e; rw [hgg] at hd'; cases hd'
          · rw [ho g' e] at hd' ⊢
            exact ⟨(hm g' hd').1, (hm g' hd').2.1, fun d hd => act d ((hm g' hd').2.2 d hd)⟩
        · have := groupsListing_change hlt ho d
          rw [hdef, hgg] at this
          simp only [Bool.false_eq_true, false_and, if_false, true_and] at this
          rw [hgc (hm g hdef).2.1 d, hc d]
          omega
  | free c w hs hpost ht ho hd hg =>
      refine ⟨fun g => by rw [hg g]; exact hr g, fun g hdef => ?_, fun d => ?_⟩
      · rw [hg g] at hdef ⊢
        exact ⟨(hm g hdef).1, (hm g hdef).2.1, fun d hd' => by rw [(account_eq (hd d)).1]; exact (hm g hdef).2.2 d hd'⟩
      · rw [(account_eq (hd d)).2.2.2.2, hc d]
        exact (groupsListing_congr (fun g => by rw [hg g]; exact ⟨rfl, rfl⟩) d).symm
  | take c w hs ht ho hord hnp hrange hd hg =>
      refine ⟨fun g => ?_, fun g hdef => ?_, fun d => ?_⟩
      · obtain ⟨e1, e2, e3⟩ := hg g
        rw [e1]
        rcases e3 with e | e
        · rw [e]; exact hr g
        · exact fun _ => e
      · obtain ⟨e1, e2, e3⟩ := hg g
        rw [e1] at hdef
        rw [e2]
        refine ⟨(hm g hdef).1, (hm g hdef).2.1, fun d hdm => ?_⟩
        have ha := (hm g hdef).2.2 d hdm
        by_cases hj : w.job = .closeDomain d
        · have hz := ((hd d).2.2.2.2.2.2 hj).2.2.2.1
          have := hpos g d hdef hdm
          omega
        · rw [(hd d).2.2.2.2.2.1 hj]; exact ha
      · rw [(hd d).2.1, hc d]
        exact (groupsListing_congr (fun g => ⟨(hg g).1, (hg g).2.1⟩) d).symm
  | work c w w' hs ht ho hj hord hpost hprom hwin hd hg =>
      have hstate : ∀ g d, (s.group g).defined = true → d ∈ (s.group g).members → (t.domain d).state = .active := by
        intro g d hdef hdm
        have ha := (hm g hdef).2.2 d hdm
        rcases hd d with ⟨e1, _⟩ | ⟨hjd, hnp, _⟩
        · rw [e1]; exact ha
        · have := ((hn c w hs hnp).2 d hjd).2.1
          rw [ha] at this
          cases this
      refine ⟨fun g hx => ?_, fun g hdef => ?_, fun d => ?_⟩
      · obtain ⟨e1, e2, e3⟩ := hg g
        rw [e1]
        exact hr g (Nat.lt_of_lt_of_le hx e3)
      · obtain ⟨e1, e2, e3⟩ := hg g
        rw [e1] at hdef
        rw [e2]
        exact ⟨(hm g hdef).1, (hm g hdef).2.1, fun d hdm => hstate g d hdef hdm⟩
      · have hgc : (t.domain d).groupCount = (s.domain d).groupCount := by
          rcases hd d with ⟨_, _, e3, _⟩ | ⟨_, _, _, _, e, _⟩
          · exact e3
          · exact e
        rw [hgc, hc d]
        exact (groupsListing_congr (fun g => ⟨(hg g).1, (hg g).2.1⟩) d).symm

end Sys2Proof.Machine
end

