-- ==== Sys2Proof/Laws/Books.lean ====
section
/-! SUPPORT. Each shared operation as moves on the books: one lemma says which moves it makes, from a state whose
contexts are in order. -/

namespace Sys2Proof.Machine

/-! ## What leaves the books as they are -/

/-- Nothing on the books changes. -/
structure Keeps (s t : State) : Prop where
  ctxs : t.ctxs = s.ctxs
  account : ∀ d, (t.domain d).account = (s.domain d).account
  groups : t.groups = s.groups

namespace Keeps

variable {s u : State}

theorem refl (s : State) : Keeps s s := ⟨rfl, fun _ => rfl, rfl⟩

theorem trans {a b c : State} (h : Keeps a b) (k : Keeps b c) : Keeps a c :=
  ⟨k.ctxs.trans h.ctxs, fun d => (k.account d).trans (h.account d), k.groups.trans h.groups⟩

/-- An update that leaves the contexts, the domains and the groups. -/
theorem same (h : Keeps s u) {t : State} (hk : (t.ctxs, t.domains, t.groups) = (u.ctxs, u.domains, u.groups)) :
    Keeps s t := by
  simp only [Prod.mk.injEq] at hk
  obtain ⟨h1, h2, h3⟩ := hk
  exact h.trans ⟨h1, fun d => by simp only [State.domain, h2], h3⟩

/-- A fold of operations. -/
theorem foldl {α : Type} {f : State → α → State} (hf : ∀ v a, Keeps v (f v a)) (h : Keeps s u)
    (l : List α) : Keeps s (l.foldl f u) := by
  induction l generalizing u with
  | nil => exact h
  | cons a l ih => exact ih (h.trans (hf u a))

/-- A change of a domain's policy set and tally. -/
theorem modPolicy (h : Keeps s u) (d : Nat) {f : DomainRecord → DomainRecord}
    (hf : ∀ r, (f r).account = r.account) : Keeps s (modDomain d f u) := by
  refine h.trans ⟨rfl, fun d' => ?_, rfl⟩
  by_cases e : d' = d
  · subst e
    rw [domain_modDomain_same]
    exact hf _
  · rw [domain_modDomain_other f u e]

theorem modLink (h : Keeps s u) (l : LinkId) (f : Link → Link) : Keeps s (modLink l f u) := h.same rfl

theorem placeFrame (h : Keeps s u) (l : LinkId) (f : TxFrame) : Keeps s (placeFrame l f u) := h.same rfl

theorem putCacheSet (h : Keeps s u) (g : Nat) (y : CacheSet) : Keeps s (putCacheSet g y u) := h.same rfl

theorem issueWrite (h : Keeps s u) (g : Nat) (r : GranuleRecord) : Keeps s (issueWrite g r u) := h.same rfl

theorem issueRead (h : Keeps s u) (g : Nat) : Keeps s (issueRead g u) := h.same rfl

theorem modEntry (h : Keeps s u) (g : Nat) (f : MissEntry → MissEntry) : Keeps s (modEntry g f u) := h.same rfl

theorem removeWaiters (h : Keeps s u) (p : Waiter → Bool) : Keeps s (removeWaiters p u) := h.same rfl

/-! ## Notices, counters, pacing, checks, links: the books stay -/

theorem offerNotice (h : Keeps s u) (b : NoticeBody) : Keeps s (offerNotice b u) := by
  unfold Machine.offerNotice
  split <;> exact h.same rfl

theorem countEvent (h : Keeps s u) (n : CounterName) : Keeps s (countEvent n u) := by
  unfold Machine.countEvent
  dsimp only
  split
  · have h' : Keeps s (setCounter n { value := 0, wrapped := true } u) := h.same rfl
    exact h'.offerNotice _
  · exact h.same rfl

theorem endPacing (h : Keeps s u) : Keeps s (endPacing u) := by
  have h' : Keeps s { u with pacing := false } := h.same rfl
  exact h'.foldl (f := fun s l => Machine.modLink l Machine.returnCredits s) (fun v l => (refl v).modLink l _) _

theorem testPacing (h : Keeps s u) : Keeps s (testPacing u) := by
  unfold Machine.testPacing
  split
  · exact h.same rfl
  · split
    · exact h.endPacing
    · exact h

theorem presentOccupancy (h : Keeps s u) (b : State) : Keeps s (presentOccupancy b u) := by
  unfold Machine.presentOccupancy
  split
  · exact h
  · have h' : Keeps s { u with
        parkMark := followOccupancy u.settings.parkMode u.park.length u.parkMark
        missMark := followOccupancy u.settings.missMode u.miss.length u.missMark } := h.same rfl
    exact h'.testPacing

theorem touchResident (h : Keeps s u) (g : Nat) : Keeps s (touchResident g u) := by
  unfold Machine.touchResident
  split <;> exact h.same rfl

theorem writeResident (h : Keeps s u) (g : Nat) (r : GranuleRecord) : Keeps s (writeResident g r u) := by
  unfold Machine.writeResident
  split <;> exact h.same rfl

theorem writeBackVictim (h : Keeps s u) (v : Option Way) : Keeps s (writeBackVictim v u) := by
  unfold Machine.writeBackVictim
  split
  · split
    · exact (h.issueWrite _ _).countEvent _
    · exact h
  · exact h

theorem installRecord (h : Keeps s u) (g : Nat) (r : GranuleRecord) : Keeps s (installRecord g r u) :=
  (h.writeBackVictim _).putCacheSet _ _

theorem takeMiss (h : Keeps s u) {g : Nat} {w : Waiter} {t : State} (ht : takeMiss g w u = some t) :
    Keeps s t := by
  unfold Machine.takeMiss at ht
  split at ht
  · split at ht
    · cases ht
      exact h.modEntry _ _
    · cases ht
  · split at ht
    · cases ht
      have h' : Keeps s { u with miss := u.miss ++ [{ granule := g, waiters := [w], superseding := none }] } :=
        h.same rfl
      exact (h'.issueRead g).presentOccupancy u
    · cases ht

theorem queueVerdict (h : Keeps s u) (k : Check) (v : Verdict) : Keeps s (queueVerdict k v u) :=
  h.modLink _ _

theorem advanceTally (h : Keeps s u) (k : Check) (cls : FaultClass) : Keeps s (advanceTally k cls u) := by
  unfold Machine.advanceTally
  split
  · exact h
  · split
    · exact h
    · split
      · exact (h.modPolicy k.domain (f := fun r => { r with tally := none }) (fun _ => rfl)).offerNotice _
      · exact h.modPolicy k.domain (f := fun r => { r with tally := some (_ + 1) }) (fun _ => rfl)

theorem answerRetry (h : Keeps s u) (k : Check) : Keeps s (answerRetry k u) :=
  (h.queueVerdict _ _).countEvent _

theorem answerGrant (h : Keeps s u) (k : Check) (r : Rights) (g : BitVec 8) (b : Bool) :
    Keeps s (answerGrant k r g b u) := (h.queueVerdict _ _).countEvent _

theorem answerDenial (h : Keeps s u) (k : Check) (cls : FaultClass) (g : BitVec 8) :
    Keeps s (answerDenial k cls g u) := by
  unfold Machine.answerDenial
  refine countEvent (advanceTally ?_ k cls) _
  split
  · exact (h.queueVerdict _ _).offerNotice _
  · exact h.queueVerdict _ _

theorem parkCheck (h : Keeps s u) (k : Check) : Keeps s (parkCheck k u) := by
  unfold Machine.parkCheck
  split
  · have h' : Keeps s { u with park := u.park ++ [k] } := h.same rfl
    exact (h'.presentOccupancy u).countEvent _
  · exact h.answerRetry _

theorem decideCheck (h : Keeps s u) (k : Check) (r : GranuleRecord) : Keeps s (decideCheck k r u).1 := by
  unfold Machine.decideCheck
  split
  · exact h.answerGrant _ _ _ _
  · exact h.answerDenial _ _ _
  · exact h.parkCheck _

theorem decideResident (h : Keeps s u) (k : Check) (r : GranuleRecord) : Keeps s (decideResident k r u) := by
  unfold Machine.decideResident
  dsimp only
  split
  · exact h.decideCheck k r
  · exact (h.decideCheck k r).writeResident _ _

theorem decideParked (h : Keeps s u) (ks : List Check) (records : List (Nat × GranuleRecord)) :
    Keeps s (decideParked ks records u).1 := by
  induction ks generalizing u records with
  | nil => exact h
  | cons k ks ih => exact ih (h.decideCheck k _) _

theorem unpark (h : Keeps s u) (p : Check → Bool) : Keeps s { u with park := u.park.filter p } := h.same rfl

theorem redecideRun (h : Keeps s u) (base count : Nat) (records : List (Nat × GranuleRecord)) :
    Keeps s (redecideRun base count records u).1 :=
  decideParked ((h.unpark _).presentOccupancy u) _ _

theorem decideAllResident (h : Keeps s u) (g : Nat) (ks : List Check) : Keeps s (decideAllResident g ks u) := by
  induction ks generalizing u with
  | nil => exact h
  | cons k ks ih => exact ih (h.decideResident k _)

theorem redecideGranule (h : Keeps s u) (g : Nat) : Keeps s (redecideGranule g u) :=
  decideAllResident ((h.unpark _).presentOccupancy u) _ _

theorem beginAttempt (h : Keeps s u) (n : Nat) (l : LinkId) : Keeps s (beginAttempt n l u) :=
  h.modLink _ _

theorem startAttempts (h : Keeps s u) (l : LinkId) : Keeps s (startAttempts l u) :=
  (h.beginAttempt _ _).countEvent _

theorem takeFrameEvent (h : Keeps s u) (l : LinkId) : Keeps s (takeFrameEvent l u) :=
  h.modLink _ _

theorem discardChecks (h : Keeps s u) (l : LinkId) : Keeps s (discardChecks l u) :=
  ((h.unpark _).removeWaiters _).presentOccupancy _

theorem runWriteRecord (h : Keeps s u) (e : Nat × GranuleRecord) : Keeps s (runWriteRecord u e) := by
  unfold Machine.runWriteRecord
  split
  · exact (h.writeResident _ _).touchResident _
  · exact (h.issueWrite _ _).modEntry _ _

theorem runWrite (h : Keeps s u) (records : List (Nat × GranuleRecord)) : Keeps s (runWrite records u) :=
  h.foldl (fun v e => (refl v).runWriteRecord e) _

theorem offerFenced (h : Keeps s u) (c : CtxId) (w : Work) (run : Run) : Keeps s (offerFenced c w run u) := by
  unfold Machine.offerFenced
  repeat' split
  all_goals first | exact h | exact h.offerNotice _

theorem storeImage (h : Keeps s u) (g : Nat) (image : BitVec 64) (ecc : BitVec 8) :
    Keeps s (storeImage g image ecc u) := h.same rfl

theorem completeWrite (h : Keeps s u) (g : Nat) : Keeps s (completeWrite g u) := by
  unfold Machine.completeWrite
  split
  · have h' : Keeps s { u with port := dropOldest g u.port } := h.same rfl
    exact h'.storeImage _ _ _
  all_goals exact h

end Keeps

/-! ## Chains of moves -/

/-- A chain of moves. -/
inductive BookMoves : State → State → Prop where
  | refl (s : State) : BookMoves s s
  | tail {s u t : State} (h : BookMoves s u) (m : BookMove u t) : BookMoves s t

theorem BookMoves.trans {s u t : State} (h : BookMoves s u) (k : BookMoves u t) :
    BookMoves s t := by
  induction k with
  | refl => exact h
  | tail _ m ih => exact ih.tail m

theorem BookMoves.contexts {s t : State} (h : BookMoves s t) (hs : s.contextsKept) :
    t.contextsKept := by
  induction h with
  | refl => exact hs
  | tail _ m ih => exact m.contexts ih

theorem BookMoves.quota {s t : State} (h : BookMoves s t) (hs : s.quotaKept) : t.quotaKept := by
  induction h with
  | refl => exact hs
  | tail _ m ih => exact m.quota ih

theorem BookMoves.shares {s t : State} (h : BookMoves s t) (hq : s.quotaKept) (hs : s.sharesKept) :
    t.sharesKept := by
  induction h with
  | refl => exact hs
  | tail h' m ih => exact m.shares (h'.quota hq) ih

/-- The moves from a state whose contexts are in order. -/
def Books (s t : State) : Prop := s.contextsKept → BookMoves s t

/-! ## The work of one context -/

/-- A context's work that goes on with its promise as it was. -/
structure Goes (c : CtxId) (w w' : Work) : Prop where
  job : w'.job = w.job
  window : w'.window = w.window
  promised : w'.promised = w.promised
  post : w.phase = .post → w'.phase = .post
  orderly : w'.orderly c

/-- An orderly context after a change of its phase, its request and its run. -/
theorem goes {c : CtxId} {w w' : Work} (ho : w.orderly c) (hj : w'.job = w.job) (hw : w'.window = w.window)
    (hcu : w'.cursor = w.cursor) (hre : w'.reclaim = w.reclaim) (hn : w'.next = w.next)
    (hp : w'.phase = w.phase ∨ (w.run.isSome = true ∧ (w'.phase = .recall ∨ w'.phase = .wipe ∨ w'.phase = .commit)))
    (hq : w'.request = w.request ∨ w'.request = .noRequest ∨
      (w.phase ≠ .post ∧ w'.request ≠ .read ∧ w'.request ≠ .update))
    (hr : ∀ r', w'.run = some r' → ∃ r, w.run = some r ∧ r'.base = r.base ∧ r'.order = r.order ∧
      r'.image.length ≤ r.image.length ∧ ∀ e ∈ r'.image, r.base ≤ e.1 ∧ e.1 < r.base + 2 ^ r.order ∧
        ∃ prior, e.2.state = .moving c prior ∨ e.2.state = .wiping c prior) : Goes c w w' := by
  obtain ⟨o1, o2, o3, o4⟩ := ho
  have hrun : w.run = none → w'.run = none := by
    intro h
    cases hr' : w'.run with
    | none => rfl
    | some r' =>
        obtain ⟨r, h', _⟩ := hr r' hr'
        rw [h] at h'
        cases h'
  have notpost : ∀ r, w.run = some r → w.phase ≠ .post := fun r h e => by rw [(o1 e).1] at h; cases h
  have hread : w'.request = .read → w.request = .read := by
    intro h
    rcases hq with e | e | ⟨_, e, _⟩
    · rw [← e]; exact h
    · rw [e] at h; cases h
    · exact absurd h e
  have hpost : w.phase = .post → w'.phase = .post := by
    intro h
    rcases hp with e | ⟨e, _⟩
    · rw [e]; exact h
    · rw [(o1 h).1] at e; cases e
  have hpost' : w'.phase = .post → w.phase = .post := by
    intro h
    rcases hp with e | ⟨_, e | e | e⟩
    · rw [← e]; exact h
    all_goals (rw [e] at h; cases h)
  refine ⟨hj, hw, ?_, hpost, ?_, ?_, ?_, ?_⟩
  · unfold Work.promised
    rw [hj, hcu]
    by_cases e : w.phase = .post
    · simp [e, hpost e]
    · have e' : w'.phase ≠ .post := fun h => e (hpost' h)
      simp [e, e']
  · intro h
    have h := hpost' h
    refine ⟨hrun (o1 h).1, ?_, by rw [hw]; exact (o1 h).2.2⟩
    rcases hq with e | e | ⟨e, _⟩
    · rw [e]; exact (o1 h).2.1
    · exact e
    · exact absurd h e
  · intro base count expected op hjob
    obtain ⟨p1, p2, p3, p4, p5, p6⟩ := o2 base count expected op (hj ▸ hjob)
    have hval : w'.phase = .validate → w.phase = .validate := by
      intro h
      rcases hp with e | ⟨_, e | e | e⟩
      · rw [← e]; exact h
      all_goals (rw [e] at h; cases h)
    refine ⟨?_, ?_, by rw [hcu]; exact p3, fun h => ?_, fun h => ?_, fun r' hr' => ?_⟩
    · rcases hp with e | ⟨_, e | e | e⟩
      · rw [e]; exact p1
      all_goals (rw [e]; decide)
    · rcases hp with e | ⟨_, e | e | e⟩
      · rw [e]; exact p2
      all_goals (rw [e]; decide)
    · have := p4 (hval h)
      exact ⟨by rw [hcu]; exact this.1, this.2.1, hrun this.2.2⟩
    · have h := p5 (hread h)
      rcases hp with e | ⟨hs, _⟩
      · rw [e]; exact h
      · rw [(p4 h).2.2] at hs; cases hs
    · obtain ⟨r, h1, h2, h3, _⟩ := hr r' hr'
      rw [h2, h3, hcu]
      exact p6 r h1
  · intro d hjob
    obtain ⟨q1, q2, q3, q4⟩ := o3 d (hj ▸ hjob)
    refine ⟨fun b h => ?_, fun h => ?_, fun g h => ?_, fun r' hr' => ?_⟩
    · rw [hcu]; exact q1 b (hw ▸ h)
    · rw [hw, hcu, hn]; exact q2 (hread h)
    · rw [hw, hcu]; exact q3 g (hre ▸ h)
    · obtain ⟨r, h1, h2, h3, _⟩ := hr r' hr'
      rw [h2, h3, hw, hcu]
      exact q4 r h1
  · intro r' hr'
    obtain ⟨r, h1, h2, h3, h4, h5⟩ := hr r' hr'
    obtain ⟨k1, k2, k3, k4⟩ := o4 r h1
    refine ⟨by rw [hj]; exact k1, by rw [h3]; omega, fun h => ?_, fun e he => by rw [h2, h3]; exact h5 e he⟩
    have hup : w.request = .update := by
      rcases hq with e | e | ⟨_, _, e⟩
      · rw [← e]; exact h
      · rw [e] at h; cases h
      · exact absurd h e
    rw [h2, h3, hn]
    have := k3 hup
    omega

/-- The run is kept. -/
theorem runSame {c : CtxId} {w w' : Work} (ho : w.orderly c) (h : w'.run = w.run) :
    ∀ r', w'.run = some r' → ∃ r, w.run = some r ∧ r'.base = r.base ∧ r'.order = r.order ∧
      r'.image.length ≤ r.image.length ∧ ∀ e ∈ r'.image, r.base ≤ e.1 ∧ e.1 < r.base + 2 ^ r.order ∧
        ∃ prior, e.2.state = .moving c prior ∨ e.2.state = .wiping c prior := by
  intro r' hr'
  rw [h] at hr'
  exact ⟨r', hr', rfl, rfl, Nat.le_refl _, (ho.2.2.2 r' hr').2.2.2⟩

/-- The run is kept but for what is beside its base, its order and its image. -/
theorem runMod {c : CtxId} {w w' : Work} (ho : w.orderly c) {f : Run → Run}
    (hf : ∀ r, (f r).base = r.base ∧ (f r).order = r.order ∧ (f r).image = r.image) (h : w'.run = w.run.map f) :
    ∀ r', w'.run = some r' → ∃ r, w.run = some r ∧ r'.base = r.base ∧ r'.order = r.order ∧
      r'.image.length ≤ r.image.length ∧ ∀ e ∈ r'.image, r.base ≤ e.1 ∧ e.1 < r.base + 2 ^ r.order ∧
        ∃ prior, e.2.state = .moving c prior ∨ e.2.state = .wiping c prior := by
  intro r' hr'
  rw [h] at hr'
  obtain ⟨r, hr, rfl⟩ := Option.map_eq_some_iff.1 hr'
  obtain ⟨e1, e2, e3⟩ := hf r
  exact ⟨r, hr, e1, e2, Nat.le_of_eq (by rw [e3]), by rw [e3]; exact (ho.2.2.2 r hr).2.2.2⟩

namespace Goes

variable {c : CtxId} {w w' : Work}

theorem refl (ho : w.orderly c) : Goes c w w := ⟨rfl, rfl, rfl, id, ho⟩

theorem trans {w'' : Work} (h : Goes c w w') (k : Goes c w' w'') : Goes c w w'' :=
  ⟨k.job.trans h.job, k.window.trans h.window, k.promised.trans h.promised, fun x => k.post (h.post x), k.orderly⟩

theorem modRun (ho : w.orderly c) (f : Run → Run)
    (hf : ∀ r, (f r).base = r.base ∧ (f r).order = r.order ∧ (f r).image = r.image) : Goes c w (w.modRun f) :=
  goes ho rfl rfl rfl rfl rfl (.inl rfl) (.inl rfl) (runMod ho hf rfl)

theorem fence_run (cause : FenceCause) (link : Option LinkId) (r : Run) :
    (r.fence cause link).base = r.base ∧ (r.fence cause link).order = r.order ∧ (r.fence cause link).image = r.image := by
  unfold Run.fence
  split <;> exact ⟨rfl, rfl, rfl⟩

theorem enterCommit (ho : w.orderly c) (hr : w.run.isSome = true) (b : Bool) : Goes c w (w.enterCommit b) := by
  have hnp : w.phase ≠ .post := fun e => by rw [(ho.1 e).1] at hr; cases hr
  exact goes ho rfl rfl rfl rfl rfl (.inr ⟨hr, .inr (.inr rfl)⟩)
    (.inr (.inr ⟨hnp, by simp [Work.enterCommit], by simp [Work.enterCommit]⟩)) (runSame ho rfl)

theorem endRecall (ho : w.orderly c) : Goes c w w.endRecall := by
  unfold Work.endRecall
  split
  · exact refl ho
  · rename_i r hr
    have hnp : w.phase ≠ .post := fun e => by rw [(ho.1 e).1] at hr; cases hr
    have h0 : Goes c w { w with run := some { r with deadline := none } } := by
      refine goes ho rfl rfl rfl rfl rfl (.inl rfl) (.inl rfl) (runMod ho (f := fun r => { r with deadline := none })
        (fun _ => ⟨rfl, rfl, rfl⟩) (by rw [hr]; rfl))
    dsimp only
    split
    · exact h0.trans (enterCommit h0.orderly rfl false)
    · refine h0.trans (goes h0.orderly rfl rfl rfl rfl rfl (.inl rfl)
        (.inr (.inr ⟨hnp, by simp, by simp⟩)) (runSame h0.orderly rfl))
    · split
      · exact h0.trans (goes h0.orderly rfl rfl rfl rfl rfl (.inr ⟨rfl, .inr (.inl rfl)⟩)
          (.inr (.inr ⟨hnp, by simp, by simp⟩)) (runSame h0.orderly rfl))
      · exact h0.trans (enterCommit h0.orderly rfl false)

theorem endRecallIfCleared (ho : w.orderly c) : Goes c w w.endRecallIfCleared := by
  unfold Work.endRecallIfCleared
  split
  · split
    · exact endRecall ho
    · exact refl ho
  · exact refl ho

theorem clearMark (ho : w.orderly c) (l : LinkId) : Goes c w (w.clearMark l) := by
  have h := modRun (c := c) (w := w) ho (fun r => { r.setMark l .noMark with cleared := addLink l r.cleared })
    (fun _ => ⟨rfl, rfl, rfl⟩)
  exact h.trans (endRecallIfCleared h.orderly)

theorem failWipe (ho : w.orderly c) (hr : w.run.isSome = true) (cause : FenceCause) (link : Option LinkId) :
    Goes c w (w.failWipe cause link) := by
  have h := modRun (c := c) (w := w) ho (fun r => { r.fence cause link with wipe := .notSent, deadline := none })
    (fun r => fence_run cause link r)
  exact h.trans (enterCommit h.orderly (by simpa [Work.modRun] using hr) false)

theorem linkRejoining (ho : w.orderly c) (l : LinkId) : Goes c w (w.linkRejoining l) := by
  unfold Work.linkRejoining
  have h : Goes c w (if w.markOf l = .awaitingAck then w.modRun (fun r => r.setMark l .awaitingRejoin) else w) := by
    split
    · exact modRun ho _ (fun _ => ⟨rfl, rfl, rfl⟩)
    · exact refl ho
  generalize (if w.markOf l = .awaitingAck then w.modRun (fun r => r.setMark l .awaitingRejoin) else w) = x at h
  dsimp only
  split
  · rename_i hw
    refine h.trans (failWipe h.orderly ?_ _ _)
    unfold Work.wipeOutstanding at hw
    split at hw
    · rename_i hr
      rw [hr]
      rfl
    · cases hw
  · exact h

theorem linkRejoined (ho : w.orderly c) (l : LinkId) : Goes c w (w.linkRejoined l) := by
  unfold Work.linkRejoined
  split
  · exact clearMark ho l
  · exact refl ho

theorem linkLost (ho : w.orderly c) (cause : FenceCause) (l : LinkId) : Goes c w (w.linkLost cause l) := by
  unfold Work.linkLost
  split
  · rename_i hw
    refine failWipe ho ?_ _ _
    unfold Work.wipeOutstanding at hw
    split at hw
    · rename_i hr
      rw [hr]
      rfl
    · cases hw
  · split
    · exact refl ho
    · have h := modRun (c := c) (w := w) ho (fun r => (r.setMark l .noMark).fence cause (some l))
        (fun r => fence_run cause (some l) (r.setMark l .noMark))
      exact h.trans (endRecallIfCleared h.orderly)

theorem wipeOk (ho : w.orderly c) (hr : w.run.isSome = true) : Goes c w w.wipeOk := by
  have h := modRun (c := c) (w := w) ho (fun r => { r with wipe := .done, deadline := none }) (fun _ => ⟨rfl, rfl, rfl⟩)
  exact h.trans (enterCommit h.orderly (by simpa [Work.modRun] using hr) _)

theorem loseRecord (ho : w.orderly c) (g : Nat) : Goes c w (w.loseRecord g) := by
  unfold Work.loseRecord
  split
  · refine goes ho rfl rfl rfl rfl rfl (.inl rfl) (.inl rfl) (fun r' hr' => ?_)
    obtain ⟨r, hr, rfl⟩ := Option.map_eq_some_iff.1 hr'
    exact ⟨r, hr, rfl, rfl, List.length_filter_le _ _, fun e he => (ho.2.2.2 r hr).2.2.2 e ((List.mem_filter.1 he).1)⟩
  · exact refl ho

theorem countCommit (ho : w.orderly c) (run : Run) : Goes c w (w.countCommit run) := by
  unfold Work.countCommit
  split <;> exact goes ho rfl rfl rfl rfl rfl (.inl rfl) (.inl rfl) (runSame ho rfl)

end Goes

namespace Books

variable {s u : State}

theorem refl (s : State) : Books s s := fun _ => .refl s

theorem trans {a b c : State} (h : Books a b) (k : Books b c) : Books a c :=
  fun ha => (h ha).trans (k ((h ha).contexts ha))

theorem move (h : Books s u) {t : State} (k : u.contextsKept → BookMove u t) : Books s t :=
  fun hs => (h hs).tail (k ((h hs).contexts hs))

/-- An update that leaves the books. -/
theorem keeps (h : Books s u) {t : State} (k : Keeps u t) : Books s t :=
  h.move (fun _ => .keep (fun c => work_of_ctxs_eq k.ctxs c) k.account (fun g => by simp only [State.group, k.groups]))

theorem advanceSeq (h : Books s u) (c : CtxId) : Books s (advanceSeq c u) :=
  h.move (fun _ => .keep (fun _ => work_advanceSeq _ _ _) (fun _ => rfl) (fun _ => rfl))

/-- The work of one context goes on, its promise as it was. -/
theorem setWork (h : Books s u) (c : CtxId) {w w' : Work} (hw : u.work c = some w)
    (hg : w.orderly c → Goes c w w') : Books s (setWork c (some w') u) := by
  refine h.move (fun hk => ?_)
  have g := hg (hk.1 c w hw)
  refine .work c w w' hw (work_setWork_same _ _ _) (fun c' hc => work_setWork_other _ _ hc) g.job g.orderly g.post
    (Nat.le_of_eq g.promised) (.inl g.window) (fun d => .inl ?_) (fun x => ?_)
  · have : givenUp w w' = 0 := by unfold givenUp; rw [g.promised]; omega
    simp [this, State.domain, Machine.setWork, setCtx]
  · have hz : givenUp w w' = 0 := by unfold givenUp; rw [g.promised]; omega
    exact ⟨rfl, rfl, Nat.le_refl _⟩

theorem modWork (h : Books s u) (c : CtxId) {f : Work → Work} (hf : ∀ w, u.work c = some w → w.orderly c →
    Goes c w (f w)) : Books s (modWork c f u) := by
  unfold Machine.modWork
  cases hw : u.work c with
  | none =>
      refine h.move (fun _ => .keep (fun c' => ?_) (fun _ => rfl) (fun _ => rfl))
      by_cases e : c' = c
      · subst e
        rw [work_setWork_same, hw]
        rfl
      · exact work_setWork_other _ _ e
  | some w => exact h.setWork c hw (hf w hw)

theorem presentToContexts (h : Books s u) {f : Work → Work} (hf : ∀ c w, w.orderly c → Goes c w (f w)) :
    Books s (presentToContexts f u) := by
  unfold Machine.presentToContexts
  generalize allCtxs = L
  induction L generalizing u with
  | nil => exact h
  | cons c L ih => exact ih (h.modWork c (fun w _ ho => hf c w ho))

/-- A fold of operations. -/
theorem foldl {α : Type} {f : State → α → State} (hf : ∀ v a, Books v (f v a)) (h : Books s u)
    (l : List α) : Books s (l.foldl f u) := by
  induction l generalizing u with
  | nil => exact h
  | cons a l ih => exact ih (h.trans (hf u a))

/-! ## Links -/

theorem leaveUpToRejoin (h : Books s u) (l : LinkId) (cause : DownCause) : Books s (leaveUpToRejoin l cause u) :=
  ((h.keeps (((Keeps.refl u).modLink l _).discardChecks l)).presentToContexts
    (fun _ _ ho => Goes.linkRejoining ho l)).keeps (((Keeps.refl _).offerNotice _).startAttempts l)

theorem leaveUpToOff (h : Books s u) (l : LinkId) : Books s (leaveUpToOff l u) :=
  ((h.keeps (((Keeps.refl u).modLink l _).discardChecks l)).presentToContexts
    (fun _ _ ho => Goes.linkLost ho .linkOff l)).keeps ((Keeps.refl _).offerNotice _)

theorem askRejoin (h : Books s u) (l : LinkId) (cause : DownCause) : Books s (askRejoin l cause u) := by
  unfold Machine.askRejoin
  split
  · exact h.leaveUpToRejoin _ _
  · exact h

theorem protocolFault (h : Books s u) (l : LinkId) (cause : DownCause) : Books s (protocolFault l cause u) := by
  unfold Machine.protocolFault
  split
  · exact h.leaveUpToRejoin _ _
  · exact h

/-! ## One context and what stands beside it -/

end Books

/-- Only one context differs. -/
structure Beside (c : CtxId) (u v : State) : Prop where
  others : ∀ c', c' ≠ c → v.work c' = u.work c'
  account : ∀ d, (v.domain d).account = (u.domain d).account
  groups : ∀ g, v.group g = u.group g

namespace Beside

variable {c : CtxId} {a u : State}

theorem refl (c : CtxId) (u : State) : Beside c u u := ⟨fun _ _ => rfl, fun _ => rfl, fun _ => rfl⟩

theorem setWork (h : Beside c a u) (w : Option Work) : Beside c a (setWork c w u) :=
  ⟨fun c' hc => (work_setWork_other w u hc).trans (h.others c' hc), h.account, h.groups⟩

theorem modWork (h : Beside c a u) (f : Work → Work) : Beside c a (modWork c f u) := h.setWork _

theorem advanceSeq (h : Beside c a u) : Beside c a (advanceSeq c u) :=
  ⟨fun c' hc => (work_advanceSeq c c' u).trans (h.others c' hc), h.account, h.groups⟩

theorem keeps (h : Beside c a u) {v : State} (k : Keeps u v) : Beside c a v :=
  ⟨fun c' hc => (work_of_ctxs_eq k.ctxs c').trans (h.others c' hc), fun d => (k.account d).trans (h.account d),
    fun g => by rw [State.group, k.groups]; exact h.groups g⟩

end Beside

/-- The tables of `v` follow those of `u` while one context's work goes from `w` to `w'`. -/
structure Follows (c : CtxId) (u v : State) (w w' : Work) : Prop where
  others : ∀ c', c' ≠ c → v.work c' = u.work c'
  domains : ∀ d, domainFollows w w' d (u.domain d) (v.domain d)
  groups : ∀ g, groupFollows (u.group g) (v.group g)

theorem groupFollows.refl (r : GroupRecord) : groupFollows r r := ⟨rfl, rfl, Nat.le_refl _⟩

theorem domainFollows_account {w w' : Work} (hg : w'.promised = w.promised) {d : Nat} {r r' : DomainRecord}
    (h : r'.account = r.account) : domainFollows w w' d r r' := by
  obtain ⟨h1, h2, h3, h4, h5⟩ := account_eq h
  have hz : givenUp w w' = 0 := by unfold givenUp; omega
  refine .inl ⟨h1, h2, h5, ?_, ?_⟩
  · simp [hz, h4]
  · simp [hz, h3]

namespace Books

variable {s u : State}

/-- The work of one context goes on, its promise as it was, and nothing beside it changes. -/
theorem workTo (h : Books s u) {c : CtxId} {w w' : Work} {v : State} (hw : u.work c = some w) (hv : Beside c u v)
    (hv' : v.work c = some w') (hg : w.orderly c → Goes c w w') : Books s v :=
  h.move (fun hk =>
    have g := hg (hk.1 c w hw)
    .work c w w' hw hv' hv.others g.job g.orderly g.post (Nat.le_of_eq g.promised) (.inl g.window)
      (fun d => domainFollows_account g.promised (hv.account d)) (fun x => by rw [hv.groups x]; exact .refl _))

/-- A context enters POST. -/
theorem workPost (h : Books s u) {c : CtxId} {w : Work} {v : State} (status : Status) (reason : Option Reason)
    (body : ResponseBody) (hw : u.work c = some w) (hv' : v.work c = some (w.enterPost status reason body))
    (hf : Follows c u v w (w.enterPost status reason body)) : Books s v := by
  refine h.move (fun hk => ?_)
  obtain ⟨o1, o2, o3, o4⟩ := hk.1 c w hw
  refine .work c w _ hw hv' hf.others rfl ⟨fun _ => ⟨rfl, rfl, rfl⟩, fun base count e op hj => ?_, fun d hj => ?_, fun r hr => by cases hr⟩
    (fun _ => rfl) ?_ (.inr (.inl rfl)) hf.domains hf.groups
  · obtain ⟨p1, p2, p3, p4, p5, p6⟩ := o2 base count e op hj
    exact ⟨by simp [Work.enterPost], by simp [Work.enterPost], p3, fun hp => (by cases hp), fun hq => (by cases hq), fun r hr => by cases hr⟩
  · exact ⟨fun b hb => (by cases hb), fun hq => (by cases hq), fun g hg => (by cases hg), fun r hr => by cases hr⟩
  · have : (w.enterPost status reason body).promised = 0 := by unfold Work.promised; simp [Work.enterPost]
    omega

end Books

/-! ## Reservations given back -/

theorem releaseReservation_domain (job : Job) (n : Nat) (s : State) (d : Nat) :
    (releaseReservation job n s).domain d =
      { s.domain d with incoming := (s.domain d).incoming - if job.receiver = some d then n else 0 } := by
  have low : ∀ a, (lowerIncoming a n s).domain d =
      { s.domain d with incoming := (s.domain d).incoming - if some a = some d then n else 0 } := by
    intro a
    by_cases e : d = a
    · subst e
      simp [lowerIncoming]
    · rw [lowerIncoming, domain_modDomain_other _ s e]
      simp [show ¬a = d from fun h => e h.symm]
  unfold releaseReservation Job.receiver
  split <;> first | exact low _ | simp [State.domain, lowerRefs, modGroup]

theorem releaseReservation_group (job : Job) (n : Nat) (s : State) (g : Nat) :
    groupFollows (s.group g) ((releaseReservation job n s).group g) := by
  unfold releaseReservation
  split
  · exact .refl _
  · exact .refl _
  · rename_i x
    by_cases e : g = x
    · subst e
      simp [lowerRefs, groupFollows]
    · rw [lowerRefs, group_modGroup_other _ s e]
      exact .refl _
  all_goals exact .refl _

theorem releaseReservation_ctxs (job : Job) (n : Nat) (s : State) : (releaseReservation job n s).ctxs = s.ctxs := by
  unfold releaseReservation
  split <;> rfl

theorem promised_enterPost (w : Work) (a : Status) (b : Option Reason) (x : ResponseBody) :
    (w.enterPost a b x).promised = 0 := by
  unfold Work.promised
  simp [Work.enterPost]

theorem promised_live {w : Work} (h : w.phase ≠ .post) : w.promised = w.job.limit - w.cursor := by
  unfold Work.promised
  simp [h]

namespace Books

variable {s u : State}

/-- A context stops: it enters POST and gives back all it has not come past. -/
theorem stop (h : Books s u) {c : CtxId} {w : Work} {v : State} {n : Nat} (status : Status) (reason : Option Reason)
    (body : ResponseBody) (hw : u.work c = some w) (hnp : w.phase ≠ .post) (hn : n = w.job.limit - w.cursor)
    (hv : Beside c u v) (hv' : v.work c = some (w.enterPost status reason body)) :
    Books s (releaseReservation w.job n v) := by
  have hc := releaseReservation_ctxs w.job n v
  refine h.workPost status reason body hw ((work_of_ctxs_eq hc c).trans hv')
    ⟨fun c' e => (work_of_ctxs_eq hc c').trans (hv.others c' e), fun d => ?_, fun g => ?_⟩
  · obtain ⟨h1, h2, h3, h4, h5⟩ := account_eq (hv.account d)
    rw [releaseReservation_domain]
    have hg : givenUp w (w.enterPost status reason body) = n := by
      unfold givenUp
      rw [promised_enterPost, promised_live hnp, hn, Nat.sub_zero]
    refine .inl ⟨h1, h2, h5, ?_, ?_⟩
    · rw [hg]; dsimp only; rw [h4]
    · dsimp only; rw [h3]; omega
  · rw [← hv.groups g]
    exact releaseReservation_group _ _ _ _

/-- A context that has come past its whole range, or promised nothing, enters POST. -/
theorem post (h : Books s u) {c : CtxId} {w : Work} {v : State} (status : Status) (reason : Option Reason)
    (body : ResponseBody) (hw : u.work c = some w) (hz : w.promised = 0) (hv : Beside c u v)
    (hv' : v.work c = some (w.enterPost status reason body)) : Books s v :=
  h.workPost status reason body hw hv' ⟨hv.others,
    fun d => domainFollows_account (by rw [hz, promised_enterPost]) (hv.account d),
    fun g => by rw [hv.groups g]; exact .refl _⟩

/-! ## Runs are carved -/

end Books

theorem carveOrder_fits (s : State) (cursor remaining : Nat) (h : 0 < remaining) :
    2 ^ carveOrder s cursor remaining ≤ remaining := by
  unfold carveOrder
  cases hf : orders.find? _ with
  | none => exact h
  | some k =>
      have := List.find?_some hf
      simp only [Bool.and_eq_true, decide_eq_true_eq] at this
      exact this.1.2

theorem sweepOrder_fits (s : State) {p : Nat} {rest : List Nat} :
    ∀ x, p ≤ x → x < p + 2 ^ sweepOrder s p (p :: rest) → x ∈ p :: rest := by
  intro x hx hlt
  unfold sweepOrder at hlt
  cases hf : orders.find? _ with
  | none =>
      rw [hf] at hlt
      simp only [Option.getD_none, Nat.pow_zero] at hlt
      have : x = p := by omega
      simp [this]
  | some k =>
      rw [hf] at hlt
      have := List.find?_some hf
      simp only [Bool.and_eq_true, decide_eq_true_eq] at this
      have ht := this.1.2
      refine List.mem_of_mem_take (i := 2 ^ k) ?_
      rw [ht, List.mem_range'_1]
      exact ⟨hx, hlt⟩

namespace Books

variable {s u : State}

theorem carveRun (h : Books s u) {c : CtxId} {w : Work} {base count : Nat} {e : Option (BitVec 8)} {op : RangeOp}
    (hw : u.work c = some w) (hj : w.job = .range base count e op) (hnp : w.phase ≠ .post)
    (hlt : w.cursor < base + count) : Books s (carveRun c u) := by
  refine h.workTo hw ((Beside.refl c u).modWork _) ((work_modWork_same _ _ _).trans (by rw [hw]; rfl)) (fun ho => ?_)
  have hl : w.job.limit = base + count := by rw [hj]; rfl
  have hfit := carveOrder_fits u w.cursor (w.job.limit - w.cursor) (by omega)
  have hpos := Nat.two_pow_pos (carveOrder u w.cursor (w.job.limit - w.cursor))
  obtain ⟨o1, o2, o3, o4⟩ := ho
  refine ⟨rfl, rfl, ?_, fun hp => absurd hp hnp,
    fun hp => (by cases hp), fun b n x y hjob => ?_, fun d hjob => ?_, fun r hr => ?_⟩
  · rw [promised_live hnp, promised_live (by simp [Work.startRun])]
    rfl
  · have hjob : w.job = _ := hjob
    rw [hj] at hjob
    cases hjob
    obtain ⟨p1, p2, p3, p4, p5, p6⟩ := o2 base count e op hj
    refine ⟨by simp [Work.startRun], by simp [Work.startRun], p3, fun hp => (by cases hp), fun hq => (by cases hq), fun r hr => ?_⟩
    cases hr
    exact ⟨rfl, by show w.cursor + _ ≤ _; simp only [freshRun]; omega⟩
  · have hjob : w.job = _ := hjob
    rw [hj] at hjob
    cases hjob
  · cases hr
    refine ⟨by show w.job.op.isSome = true; rw [hj]; rfl, Nat.zero_le _, fun _ => ?_, fun e he => by cases he⟩
    exact ⟨Nat.le_refl _, by show w.cursor < w.cursor + _; simp only [freshRun]; omega⟩

theorem carveSweepRun (h : Books s u) {c : CtxId} {w : Work} {d : Nat} (hw : u.work c = some w)
    (hj : w.job = .closeDomain d) (hnp : w.phase ≠ .post) : Books s (carveSweepRun c u) := by
  unfold Machine.carveSweepRun
  refine h.modWork c (fun w' hw' ho => ?_)
  rw [hw] at hw'
  cases hw'
  split
  · exact .refl ho
  · rename_i p rest hre
    dsimp only
    obtain ⟨o1, o2, o3, o4⟩ := ho
    obtain ⟨q1, q2, q3, q4⟩ := o3 d hj
    have hmem := sweepOrder_fits u (p := p) (rest := rest)
    have hpos := Nat.two_pow_pos (sweepOrder u p w.reclaim)
    rw [← hre] at hmem
    have hp := q3 p (hmem p (Nat.le_refl _) (by omega))
    have hlast := q3 (p + 2 ^ sweepOrder u p w.reclaim - 1) (hmem _ (by omega) (by omega))
    refine ⟨rfl, rfl, ?_, fun hp => absurd hp hnp,
      fun hp => (by cases hp), fun b n x y hjob => ?_, fun d' hjob => ?_, fun r hr => ?_⟩
    · rw [promised_live hnp, promised_live (by simp [Work.startRun])]
      rfl
    · have hjob : w.job = _ := hjob
      rw [hj] at hjob
      cases hjob
    · refine ⟨q1, fun hq => (by cases hq), fun g hg => q3 g (List.mem_of_mem_drop hg), fun r hr => ?_⟩
      cases hr
      refine ⟨hp.1, hp.2.1, ?_⟩
      show p + _ ≤ w.cursor + 512
      simp only [freshRun]
      omega
    · cases hr
      refine ⟨by show w.job.op.isSome = true; rw [hj]; rfl, Nat.zero_le _, fun _ => ?_, fun e he => by cases he⟩
      exact ⟨Nat.le_refl _, by show p < p + _; simp only [freshRun]; omega⟩

end Books
end Sys2Proof.Machine
end

