-- ==== Sys2Proof/Laws/BooksChange.lean ====
section
/-! SUPPORT. The work of the Change Engine as moves on the books: the retire sweep, VALIDATE, MARK, the recall fan-out, the
run writes and the end of a run. -/

namespace Sys2Proof.Machine

/-! ## The retire sweep -/

namespace Books

variable {s u : State}

theorem closeSweep (h : Books s u) {c : CtxId} {w : Work} {d : Nat} (lost : Nat) (hw : u.work c = some w)
    (hj : w.job = .closeDomain d) (hnp : w.phase ≠ .post) : Books s (closeSweep c d lost u) := by
  let v := modDomain d (fun r =>
    { r with state := .closed, quota := 0, held := 0, incoming := 0, policySet := 0, tally := none }) u
  have hvw : v.work c = some w := hw
  refine h.move (fun hk => ?_)
  obtain ⟨o1, o2, o3, o4⟩ := hk.1 c w hw
  refine .work c w ({ w with lost := lost }.enterPost w.finalStatus none (.counts w.changed lost w.fenced)) hw
    ((work_modWork_same c _ v).trans (by rw [hvw]; rfl)) (fun c' hc => work_modWork_other _ v hc) rfl
    ⟨fun _ => ⟨rfl, rfl, rfl⟩, fun base count e op hj' => ?_, fun d' hj' => ?_, fun r hr => by cases hr⟩ (fun _ => rfl)
    ?_ (.inr (.inl rfl)) (fun d' => ?_) (fun g => .refl _)
  · have hj' : w.job = _ := hj'
    rw [hj] at hj'
    cases hj'
  · exact ⟨fun b hb => (by cases hb), fun hq => (by cases hq), fun g hg => (by cases hg), fun r hr => by cases hr⟩
  · rw [promised_enterPost]
    exact Nat.zero_le _
  · by_cases e : d' = d
    · subst e
      refine .inr ⟨hj, hnp, rfl, ?_⟩
      have : (Machine.closeSweep c d' lost u).domain d' = v.domain d' := rfl
      rw [this, domain_modDomain_same]
      exact ⟨rfl, rfl, rfl, rfl⟩
    · have : (Machine.closeSweep c d lost u).domain d' = v.domain d' := rfl
      rw [this, domain_modDomain_other _ u e]
      exact .inl ⟨rfl, rfl, rfl, by simp [hj, Job.receiver], Nat.le_add_right _ _⟩

theorem tryTakeWindow (h : Books s u) (c : CtxId) : Books s (tryTakeWindow c u) := by
  unfold Machine.tryTakeWindow
  split
  · exact h
  · rename_i w hw
    split
    · rename_i d hj
      split
      · rename_i ht
        have hnp : w.phase ≠ .post := by rw [ht.1]; decide
        split
        · exact h.closeSweep 0 hw hj hnp
        · split
          · exact h
          · rename_i hother
            refine h.move (fun hk => ?_)
            obtain ⟨o1, o2, o3, o4⟩ := hk.1 c w hw
            obtain ⟨q1, q2, q3, q4⟩ := o3 d hj
            have hprom : ({ w with window := some w.cursor, request := Request.read, next := w.cursor } : Work).promised =
              w.promised := rfl
            refine .work c w _ hw (work_setWork_same _ _ _) (fun c' hc => work_setWork_other _ u hc) rfl
              ⟨fun hp => absurd hp hnp, fun base count e op hj' => ?_, fun d' hj' => ?_, fun r hr => ?_⟩ id
              (Nat.le_of_eq hprom) (.inr (.inr ⟨w.cursor, rfl, fun c' w' hc hw' => ?_⟩))
              (fun d' => domainFollows_account hprom rfl) (fun g => .refl _)
            · have hj' : w.job = _ := hj'
              rw [hj] at hj'
              cases hj'
            · refine ⟨fun b hb => (by cases hb; rfl), fun _ => ⟨rfl, Nat.le_refl _, ?_⟩, fun g hg => ?_, fun r hr => ?_⟩
              · show w.cursor < w.cursor + 512
                omega
              · have := (q3 g hg).1
                rw [ht.2.1] at this
                cases this
              · have := (q4 r hr).1
                rw [ht.2.1] at this
                cases this
            · have := (q4 r hr).1
              rw [ht.2.1] at this
              cases this
            · unfold otherHolds at hother
              simp only [Bool.not_eq_true, List.any_eq_false] at hother
              have := hother c' (mem_allCtxs c')
              rw [hw'] at this
              simpa [hc] using this
      · exact h
    all_goals exact h

theorem offerWindows (h : Books s u) : Books s (offerWindows u) :=
  h.foldl (f := fun s c => Machine.tryTakeWindow c s) (fun v c => (refl v).tryTakeWindow c) _

/-- A window is finished once its reclaim list is empty. -/
theorem finishWindow (h : Books s u) {c : CtxId} {w : Work} {d : Nat} (hw : u.work c = some w)
    (hj : w.job = .closeDomain d) (hnp : w.phase ≠ .post) (hre : w.reclaim = []) : Books s (finishWindow c d u) := by
  unfold Machine.finishWindow
  let w' : Work := { w with window := none, cursor := w.cursor + 512, phase := .scan, request := .noRequest, run := none }
  let v := Machine.modWork c (fun w =>
    { w with window := none, cursor := w.cursor + 512, phase := .scan, request := .noRequest, run := none }) u
  have hv : v.work c = some w' := (work_modWork_same c _ u).trans (by rw [hw]; rfl)
  have hb : Books s v := by
    refine h.move (fun hk => ?_)
    have hprom : w'.promised = w.promised := by
      rw [promised_live hnp, promised_live (w := w') (by simp [w'])]
      show w.job.limit - _ = _
      rw [hj]
      simp [Job.limit]
    refine .work c w w' hw hv (fun c' hc => work_modWork_other _ u hc) rfl
      ⟨fun hp => (by cases hp), fun base count e op hj' => ?_, fun d' hj' => ?_, fun r hr => by cases hr⟩
      (fun hp => absurd hp hnp) (Nat.le_of_eq hprom) (.inr (.inl rfl)) (fun d' => domainFollows_account hprom rfl)
      (fun g => .refl _)
    · have hj' : w.job = _ := hj'
      rw [hj] at hj'
      cases hj'
    · refine ⟨fun b hb => (by cases hb), fun hq => (by cases hq), fun g hg => ?_, fun r hr => by cases hr⟩
      have hg : g ∈ w.reclaim := hg
      rw [hre] at hg
      cases hg
  have both : ∀ n, Books s (if v.tableSize ≤ n then Machine.closeSweep c d (v.domain d).held v else v) := by
    intro n
    split
    · exact hb.closeSweep _ hv hj (by simp [w'])
    · exact hb
  exact (both _).offerWindows

theorem sweepRunEnded (h : Books s u) {c : CtxId} {w : Work} {d : Nat} (hw : u.work c = some w)
    (hj : w.job = .closeDomain d) (hnp : w.phase ≠ .post) : Books s (sweepRunEnded c d u) := by
  unfold Machine.sweepRunEnded
  split
  · exact (h.closeSweep 0 hw hj hnp).offerWindows
  · rw [hw]
    dsimp only
    split
    · rename_i hre
      exact h.finishWindow hw hj hnp (by simpa using hre)
    · exact h.carveSweepRun hw hj hnp

end Books

/-! ## The tables at a commit -/

/-- The owner a commit writes is none, the owner the record had, or the domain that receives. -/
theorem committedContent_owner {job : Job} {op : RangeOp} (hj : job.op = some op) (o : RunOutcome) (b : Bool)
    (prior : Stable) : (committedContent op o b prior).owner = none ∨
      (committedContent op o b prior).owner = prior.owner ∨ (committedContent op o b prior).owner = job.receiver := by
  unfold committedContent
  split
  · exact .inl rfl
  · split
    · exact .inl rfl
    · cases job with
      | range base count e op' =>
          cases hj
          cases op with
          | assign d r => exact .inr (.inr rfl)
          | reclaim d w => cases w <;> exact .inl rfl
          | transfer a d r w => exact .inr (.inr rfl)
          | share o g => cases prior <;> exact .inr (.inl rfl)
          | unshare g => cases prior <;> exact .inr (.inl rfl)
          | wipe => exact .inl rfl
          | releaseFence => exact .inl rfl
      | closeDomain d => cases hj; exact .inl rfl
      | query g => cases hj
      | format a b c => cases hj

/-- The figures that a change of held counts leaves. -/
def heldOnly (r r' : DomainRecord) : Prop :=
  r'.state = r.state ∧ r'.quota = r.quota ∧ r'.groupCount = r.groupCount ∧ r'.incoming = r.incoming

theorem adjustHeld_domain (old new : Stable) (s : State) (d : Nat) :
    heldOnly (s.domain d) ((adjustHeld old new s).domain d) ∧
    ((adjustHeld old new s).domain d).held ≤
      (s.domain d).held + if new.owner = some d ∧ old.owner ≠ some d then 1 else 0 := by
  have low : ∀ a (v : State), heldOnly (v.domain d) ((lowerHeld a 1 v).domain d) ∧
      ((lowerHeld a 1 v).domain d).held ≤ (v.domain d).held := by
    intro a v
    by_cases e : d = a
    · subst e
      simp [lowerHeld, heldOnly]
    · rw [lowerHeld, domain_modDomain_other _ v e]
      exact ⟨⟨rfl, rfl, rfl, rfl⟩, Nat.le_refl _⟩
  have up : ∀ a (v : State), heldOnly (v.domain d) ((raiseHeld a 1 v).domain d) ∧
      ((raiseHeld a 1 v).domain d).held ≤ (v.domain d).held + if some a = some d then 1 else 0 := by
    intro a v
    by_cases e : d = a
    · subst e
      simp [raiseHeld, heldOnly]
    · rw [raiseHeld, domain_modDomain_other _ v e]
      exact ⟨⟨rfl, rfl, rfl, rfl⟩, Nat.le_add_right _ _⟩
  unfold adjustHeld
  split
  · rename_i a b ho hn
    split
    · exact ⟨⟨rfl, rfl, rfl, rfl⟩, Nat.le_add_right _ _⟩
    · rename_i hab
      obtain ⟨⟨l1, l2, l3, l4⟩, l5⟩ := low a s
      obtain ⟨⟨u1, u2, u3, u4⟩, u5⟩ := up b (lowerHeld a 1 s)
      refine ⟨⟨u1.trans l1, u2.trans l2, u3.trans l3, u4.trans l4⟩, ?_⟩
      rw [ho, hn]
      by_cases e : b = d
      · subst e
        simp only [Option.some.injEq, ne_eq, hab, not_false_eq_true, and_self, if_true] at u5 ⊢
        omega
      · simp only [Option.some.injEq, e, false_and, if_false] at u5 ⊢
        omega
  · rename_i a ho hn
    obtain ⟨l1, l5⟩ := low a s
    exact ⟨l1, Nat.le_trans l5 (Nat.le_add_right _ _)⟩
  · rename_i b ho hn
    obtain ⟨u1, u5⟩ := up b s
    refine ⟨u1, ?_⟩
    rw [ho, hn]
    simpa using u5
  · exact ⟨⟨rfl, rfl, rfl, rfl⟩, Nat.le_add_right _ _⟩

theorem adjustHeld_rest (old new : Stable) (s : State) :
    (adjustHeld old new s).ctxs = s.ctxs ∧ (adjustHeld old new s).groups = s.groups := by
  unfold adjustHeld
  split
  · split <;> exact ⟨rfl, rfl⟩
  all_goals exact ⟨rfl, rfl⟩

theorem adjustRefs_rest (op : RangeOp) (l : List Stable) (s : State) :
    (adjustRefs op l s).ctxs = s.ctxs ∧ (adjustRefs op l s).domains = s.domains := by
  unfold adjustRefs
  split <;> exact ⟨rfl, rfl⟩

/-- The tables after a commit. -/
theorem adjustTables_follows {job : Job} {op : RangeOp} (hj : job.op = some op) (run : Run) (b : Bool) (s : State)
    (hlen : run.image.length ≤ 2 ^ run.order) : let t := adjustTables job op run b s
    t.ctxs = s.ctxs ∧ (∀ g, groupFollows (s.group g) (t.group g)) ∧
    ∀ d, (t.domain d).state = (s.domain d).state ∧ (t.domain d).quota = (s.domain d).quota ∧
      (t.domain d).groupCount = (s.domain d).groupCount ∧
      (t.domain d).incoming = (s.domain d).incoming - (if job.receiver = some d then 2 ^ run.order else 0) ∧
      (t.domain d).held ≤ (s.domain d).held + if job.receiver = some d then 2 ^ run.order else 0 := by
  have fold : ∀ (L : List (Nat × GranuleRecord)) (v : State),
      let t := L.foldl (fun s e => adjustHeld e.2.content (committedContent op run.outcome b e.2.content) s) v
      t.ctxs = v.ctxs ∧ t.groups = v.groups ∧ ∀ d, heldOnly (v.domain d) (t.domain d) ∧
        (t.domain d).held ≤ (v.domain d).held + if job.receiver = some d then L.length else 0 := by
    intro L
    induction L with
    | nil => exact fun v => ⟨rfl, rfl, fun d => ⟨⟨rfl, rfl, rfl, rfl⟩, Nat.le_add_right _ _⟩⟩
    | cons e L ih =>
        intro v
        obtain ⟨h1, h2, h3⟩ := ih (adjustHeld e.2.content (committedContent op run.outcome b e.2.content) v)
        obtain ⟨r1, r2⟩ := adjustHeld_rest e.2.content (committedContent op run.outcome b e.2.content) v
        refine ⟨h1.trans r1, h2.trans r2, fun d => ?_⟩
        obtain ⟨⟨a1, a2, a3, a4⟩, a5⟩ := h3 d
        obtain ⟨⟨b1, b2, b3, b4⟩, b5⟩ := adjustHeld_domain e.2.content (committedContent op run.outcome b e.2.content) v d
        refine ⟨⟨a1.trans b1, a2.trans b2, a3.trans b3, a4.trans b4⟩, Nat.le_trans a5 ?_⟩
        rw [List.length_cons]
        by_cases hr : job.receiver = some d
        · simp only [hr, if_true]
          split at b5 <;> omega
        · simp only [hr, if_false, Nat.add_zero]
          have : ¬((committedContent op run.outcome b e.2.content).owner = some d ∧ e.2.content.owner ≠ some d) := by
            rintro ⟨x1, x2⟩
            rcases committedContent_owner hj run.outcome b e.2.content with y | y | y
            · rw [y] at x1; cases x1
            · exact x2 (y ▸ x1)
            · exact hr (y ▸ x1)
          rw [if_neg this] at b5
          omega
  have refs : ∀ (v : State) g, (groupFollows (v.group g) ((releaseReservation job (2 ^ run.order)
      (adjustRefs op (run.image.map (fun e => committedContent op run.outcome b e.2.content)) v)).group g)) := by
    intro v g
    cases job with
    | range base count e op' =>
        cases hj
        cases op with
        | share o x =>
            by_cases e : g = x
            · subst e
              have := List.length_filter_le Stable.isShared
                (run.image.map (fun e => committedContent (.share o g) run.outcome b e.2.content))
              rw [List.length_map] at this
              simp only [releaseReservation, adjustRefs, lowerRefs, raiseRefs, group_modGroup_same]
              exact ⟨rfl, rfl, by dsimp only; omega⟩
            · simp only [releaseReservation, adjustRefs, lowerRefs, raiseRefs]
              rw [group_modGroup_other _ _ e, group_modGroup_other _ _ e]
              exact .refl _
        | unshare x =>
            by_cases e : g = x
            · subst e
              simp [releaseReservation, adjustRefs, lowerRefs, groupFollows]
            · simp only [releaseReservation, adjustRefs, lowerRefs]
              rw [group_modGroup_other _ _ e]
              exact .refl _
        | assign d r => exact .refl _
        | reclaim d w => exact .refl _
        | transfer a d r w => exact .refl _
        | wipe => exact .refl _
        | releaseFence => exact .refl _
    | closeDomain d => cases hj; exact .refl _
    | query g => cases hj
    | format a b c => cases hj
  intro t
  obtain ⟨f1, f2, f3⟩ := fold run.image s
  let v := run.image.foldl (fun s e => adjustHeld e.2.content (committedContent op run.outcome b e.2.content) s) s
  obtain ⟨r1, r2⟩ := adjustRefs_rest op (run.image.map (fun e => committedContent op run.outcome b e.2.content)) v
  refine ⟨(releaseReservation_ctxs _ _ _).trans (r1.trans f1), fun g => ?_, fun d => ?_⟩
  · have := refs v g
    rwa [show v.group g = s.group g from by simp only [State.group, v, f2]] at this
  · have hd : t.domain d = _ := releaseReservation_domain job (2 ^ run.order) _ d
    have hd' : (adjustRefs op (run.image.map (fun e => committedContent op run.outcome b e.2.content)) v).domain d =
      v.domain d := by simp only [State.domain, r2]
    rw [hd'] at hd
    obtain ⟨⟨a1, a2, a3, a4⟩, a5⟩ := f3 d
    rw [hd]
    refine ⟨a1, a2, a3, by dsimp only; rw [a4], ?_⟩
    refine Nat.le_trans a5 ?_
    split <;> omega

/-! ## The end of a run -/

/-- A context whose run `r` is over: the tables have taken the whole run, the context still names it. -/
structure RunDone (c : CtxId) (u v : State) (w w' : Work) (r : Run) : Prop where
  work : v.work c = some w'
  others : ∀ c', c' ≠ c → v.work c' = u.work c'
  job : w'.job = w.job
  phase : w'.phase = w.phase
  cursor : w'.cursor = w.cursor
  window : w'.window = w.window
  reclaim : w'.reclaim = w.reclaim
  request : w'.request ≠ .read
  run : ∃ r', w'.run = some r' ∧ r'.base = r.base ∧ r'.order = r.order
  domains : ∀ d, (v.domain d).state = (u.domain d).state ∧ (v.domain d).quota = (u.domain d).quota ∧
    (v.domain d).groupCount = (u.domain d).groupCount ∧
    (v.domain d).incoming = (u.domain d).incoming - (if w.job.receiver = some d then 2 ^ r.order else 0) ∧
    (v.domain d).held ≤ (u.domain d).held + if w.job.receiver = some d then 2 ^ r.order else 0
  groups : ∀ g, groupFollows (u.group g) (v.group g)

namespace Books

variable {s u : State}

theorem endRun (h : Books s u) {c : CtxId} {w w' : Work} {r : Run} {v : State} (hw : u.work c = some w)
    (hr : w.run = some r) (hd : RunDone c u v w w' r) : Books s (endRun c v) := by
  intro hk
  have hord := ((h hk).contexts hk).1 c w hw
  revert hk
  obtain ⟨o1, o2, o3, o4⟩ := hord
  have hnp : w.phase ≠ .post := fun e => by rw [(o1 e).1] at hr; cases hr
  obtain ⟨r', hr', hbase, horder⟩ := hd.run
  unfold Machine.endRun
  rw [hd.work]
  dsimp only
  rw [hr']
  dsimp only
  cases hj : w'.job with
  | closeDomain d =>
      have hjw : w.job = .closeDomain d := hd.job ▸ hj
      dsimp only
      let x : Work := { w' with run := none }
      have hx : (Machine.modWork c (fun w => { w with run := none }) (Machine.advanceSeq c v)).work c = some x := by
        rw [work_modWork_same, work_advanceSeq, hd.work]
        rfl
      refine Books.sweepRunEnded (h.move (fun hk => ?_)) hx hj (by show w'.phase ≠ _; rw [hd.phase]; exact hnp)
      have hprom : x.promised = w.promised := by
        rw [promised_live hnp, promised_live (w := x) (by show w'.phase ≠ _; rw [hd.phase]; exact hnp)]
        show w'.job.limit - w'.cursor = _
        rw [hd.job, hd.cursor]
      obtain ⟨q1, q2, q3, q4⟩ := o3 d hjw
      refine .work c w x hw hx
        (fun c' hc => (work_modWork_other _ _ hc).trans ((work_advanceSeq _ _ _).trans (hd.others c' hc))) hd.job
        ⟨fun hp => absurd (hd.phase ▸ hp) hnp, fun base count e op hj' => ?_, fun d' hj' => ?_, fun r hr => by cases hr⟩
        (fun hp => absurd hp hnp) (Nat.le_of_eq hprom) (.inl hd.window) (fun d' => ?_) (fun g => ?_)
      · have hj' : w'.job = _ := hj'
        rw [hj] at hj'
        cases hj'
      · refine ⟨fun b hb => ?_, fun hq => absurd hq hd.request, fun g hg => ?_, fun r hr => by cases hr⟩
        · show b = w'.cursor
          rw [hd.cursor]
          exact q1 b (hd.window ▸ hb)
        · show w'.window = some w'.cursor ∧ w'.cursor ≤ g ∧ g < w'.cursor + 512
          rw [hd.window, hd.cursor]
          exact q3 g (hd.reclaim ▸ hg)
      · obtain ⟨e1, e2, e3, e4, e5⟩ := hd.domains d'
        have hz : givenUp w x = 0 := by unfold givenUp; omega
        have hn : w.job.receiver = none := by rw [hjw]; rfl
        rw [hn] at e4 e5
        refine .inl ⟨e1, e2, e3, ?_, ?_⟩
        · rw [hn]; exact e4
        · rw [hn]; exact e5
      · exact hd.groups g
  | range base count e op =>
      have hjw : w.job = .range base count e op := hd.job ▸ hj
      dsimp only
      obtain ⟨p1, p2, p3, p4, p5, p6⟩ := o2 base count e op hjw
      obtain ⟨k1, k2⟩ := p6 r hr
      let x : Work := { w' with run := none, cursor := r'.base + 2 ^ r'.order }
      let y := Machine.modWork c (fun w => { w with run := none, cursor := r'.base + 2 ^ r'.order }) (Machine.advanceSeq c v)
      have hx : y.work c = some x := by
        show (Machine.modWork c _ (Machine.advanceSeq c v)).work c = _
        rw [work_modWork_same, work_advanceSeq, hd.work]
        rfl
      have hxp : x.phase ≠ .post := by show w'.phase ≠ _; rw [hd.phase]; exact hnp
      have hlim : w.job.limit = base + count := by rw [hjw]; rfl
      have hxl : x.promised = w.promised - 2 ^ r.order ∧ 2 ^ r.order ≤ w.promised := by
        rw [promised_live hnp, promised_live hxp, hlim]
        show w'.job.limit - (r'.base + 2 ^ r'.order) = _ ∧ _
        rw [hd.job, hlim, hbase, horder, k1]
        omega
      have hgiven : givenUp w x = 2 ^ r.order := by
        unfold givenUp
        rw [hxl.1]
        exact Nat.sub_sub_self hxl.2
      have hy : Books s y := by
        refine h.move (fun hk => ?_)
        refine .work c w x hw hx
          (fun c' hc => (work_modWork_other _ _ hc).trans ((work_advanceSeq _ _ _).trans (hd.others c' hc))) hd.job
          ⟨fun hp => absurd (hd.phase ▸ hp) hnp, fun b n e' op' hj' => ?_, fun d' hj' => ?_, fun r hr => by cases hr⟩
          (fun hp => absurd hp hnp) (by rw [hxl.1]; exact Nat.sub_le _ _) (.inl hd.window) (fun d' => ?_) (fun g => ?_)
        · have hj' : w'.job = _ := hj'
          rw [hj] at hj'
          cases hj'
          refine ⟨?_, ?_, ?_, fun hp => ?_, fun hq => absurd hq hd.request, fun r hr => by cases hr⟩
          · show w'.phase ≠ _; rw [hd.phase]; exact p1
          · show w'.phase ≠ _; rw [hd.phase]; exact p2
          · show base ≤ r'.base + 2 ^ r'.order; rw [hbase, k1]; exact Nat.le_trans p3 (Nat.le_add_right _ _)
          · have := (p4 (hd.phase ▸ hp)).2.2
            rw [hr] at this
            cases this
        · have hj' : w'.job = _ := hj'
          rw [hj] at hj'
          cases hj'
        · obtain ⟨e1, e2, e3, e4, e5⟩ := hd.domains d'
          exact .inl ⟨e1, e2, e3, by rw [hgiven]; exact e4, by rw [hgiven]; exact e5⟩
        · exact hd.groups g
      split
      · have := hy.stop (n := w'.job.limit - (r'.base + 2 ^ r'.order)) .aborted none x.counts hx hxp rfl
          ((Beside.refl c y).modWork (fun w => w.enterPost .aborted none w.counts))
          ((work_modWork_same _ _ _).trans (by rw [hx]; rfl))
        rw [show x.job = .range base count e op from hj, ← hj] at this
        rw [← hj]
        exact this
      · split
        · rename_i hlt
          exact hy.carveRun hx hj hxp hlt
        · rename_i hlt
          refine hy.post x.finalStatus none x.counts hx ?_ ((Beside.refl c y).modWork _)
            ((work_modWork_same _ _ _).trans (by rw [hx]; rfl))
          rw [promised_live hxp]
          show w'.job.limit - (r'.base + 2 ^ r'.order) = 0
          rw [hj]
          omega
  | query g =>
      have hjw : w.job = .query g := hd.job ▸ hj
      have := (o4 r hr).1
      rw [hjw] at this
      cases this
  | format a b x =>
      have hjw : w.job = .format a b x := hd.job ▸ hj
      have := (o4 r hr).1
      rw [hjw] at this
      cases this

/-- A run that has come to nothing ends with its reservation given back (R89). -/
theorem endEmptyRun (h : Books s u) {c : CtxId} {w w' : Work} {r : Run} {v : State} (hw : u.work c = some w)
    (hr : w.run = some r) (hv : Beside c u v) (hv' : v.work c = some w') (hjob : w'.job = w.job)
    (hphase : w'.phase = w.phase) (hcursor : w'.cursor = w.cursor) (hwindow : w'.window = w.window)
    (hreclaim : w'.reclaim = w.reclaim) (hrequest : w'.request ≠ .read)
    (hrun : ∃ r', w'.run = some r' ∧ r'.base = r.base ∧ r'.order = r.order) :
    Books s (Machine.endRun c (releaseReservation w.job (2 ^ r.order) v)) := by
  have hc := releaseReservation_ctxs w.job (2 ^ r.order) v
  refine h.endRun hw hr (w' := w') ⟨(work_of_ctxs_eq hc c).trans hv',
    fun c' e => (work_of_ctxs_eq hc c').trans (hv.others c' e), hjob, hphase, hcursor, hwindow, hreclaim, hrequest, hrun,
    fun d => ?_, fun g => ?_⟩
  · obtain ⟨h1, h2, h3, h4, h5⟩ := account_eq (hv.account d)
    rw [releaseReservation_domain]
    exact ⟨h1, h2, h5, by dsimp only; rw [h4], by dsimp only; omega⟩
  · rw [← hv.groups g]
    exact releaseReservation_group _ _ _ _

theorem doCommit (h : Books s u) (c : CtxId) (b : Bool) (hq : ∀ w, u.work c = some w → w.request = .commit b) :
    Books s (doCommit c b u) := by
  unfold Machine.doCommit
  split
  · exact h
  · rename_i w hw
    split
    · rename_i run op hr hop
      dsimp only
      intro hk
      have hlen := ((((h hk).contexts hk).1 c w hw).2.2.2 run hr).2.1
      revert hk
      obtain ⟨t1, t2, t3⟩ := adjustTables_follows hop run b u hlen
      let v := Machine.modWork c (Work.countCommit run) (adjustTables w.job op run b u)
      let records := run.image.map (fun e => (e.1, committedRecord op run b e.2))
      have kp : Keeps v (offerFenced c w run (runWrite (redecideRun run.base (2 ^ run.order) records v).2
          (redecideRun run.base (2 ^ run.order) records v).1)) :=
        (((Keeps.refl v).redecideRun _ _ _).runWrite _).offerFenced _ _ _
      have hvc : v.work c = some (w.countCommit run) := by
        show (Machine.modWork c _ _).work c = _
        rw [work_modWork_same, work_of_ctxs_eq t1 c, hw]
        rfl
      have hcc : ∀ x : Work, (x.countCommit run).job = x.job ∧ (x.countCommit run).phase = x.phase ∧
          (x.countCommit run).cursor = x.cursor ∧ (x.countCommit run).window = x.window ∧
          (x.countCommit run).reclaim = x.reclaim ∧ (x.countCommit run).request = x.request ∧
          (x.countCommit run).run = x.run := by
        intro x
        unfold Work.countCommit
        split <;> exact ⟨rfl, rfl, rfl, rfl, rfl, rfl, rfl⟩
      obtain ⟨c1, c2, c3, c4, c5, c6, c7⟩ := hcc w
      refine h.endRun hw hr (w' := w.countCommit run) ⟨(work_of_ctxs_eq kp.ctxs c).trans hvc,
        fun c' e => (work_of_ctxs_eq kp.ctxs c').trans ((work_modWork_other _ _ e).trans (work_of_ctxs_eq t1 c')),
        c1, c2, c3, c4, c5, by rw [c6, hq w hw]; simp, ⟨run, c7.trans hr, rfl, rfl⟩, fun d => ?_, fun g => ?_⟩
      · obtain ⟨h1, h2, h3, h4, h5⟩ := account_eq (kp.account d)
        obtain ⟨a1, a2, a3, a4, a5⟩ := t3 d
        exact ⟨h1.trans a1, h2.trans a2, h5.trans a3, h4.trans a4, by rw [h3]; exact a5⟩
      · have hg : (Machine.offerFenced c w run (Machine.runWrite (redecideRun run.base (2 ^ run.order) records v).2
          (redecideRun run.base (2 ^ run.order) records v).1)).group g = v.group g := by
          simp only [State.group, kp.groups]
        rw [hg]
        exact t2 g
    · exact h

end Books

/-! ## Events that every context takes -/

theorem work_foldl_modWork (f : Work → Work) (L : List CtxId) (hL : L.Nodup) (s : State) (c : CtxId) :
    (L.foldl (fun s c => modWork c f s) s).work c = if c ∈ L then (s.work c).map f else s.work c := by
  induction L generalizing s with
  | nil => rfl
  | cons a L ih =>
      rw [List.foldl_cons, ih (List.nodup_cons.1 hL).2]
      by_cases e : c = a
      · subst e
        simp [(List.nodup_cons.1 hL).1]
      · rw [work_modWork_other f s e]
        simp [e]

/-- Every active context takes the event. -/
theorem work_presentToContexts (f : Work → Work) (s : State) (c : CtxId) :
    (presentToContexts f s).work c = (s.work c).map f := by
  unfold presentToContexts
  rw [work_foldl_modWork f allCtxs (by decide) s c, if_pos (mem_allCtxs c)]

/-- What a link's leaving of UP does to the contexts. -/
theorem work_leaveUpToRejoin (l : LinkId) (cause : DownCause) (s : State) (c : CtxId) :
    (leaveUpToRejoin l cause s).work c = (s.work c).map (Work.linkRejoining l) := by
  have k := ((Keeps.refl (presentToContexts (Work.linkRejoining l) (discardChecks l (modLink l (fun k =>
    { k with state := .rejoining, silenceTimer := none, lane := [], accounting := [], withheld := 0, tx := [] }) s)))).offerNotice
      (.linkDown l cause)).startAttempts l
  have k' := ((Keeps.refl s).modLink l (fun k =>
    { k with state := .rejoining, silenceTimer := none, lane := [], accounting := [], withheld := 0, tx := [] })).discardChecks l
  exact (work_of_ctxs_eq k.ctxs c).trans ((work_presentToContexts _ _ c).trans (by rw [work_of_ctxs_eq k'.ctxs c]))

theorem linkRejoining_run (l : LinkId) (w : Work) : (w.linkRejoining l).run.isSome = w.run.isSome := by
  unfold Work.linkRejoining
  dsimp only
  split <;> split <;> simp [Work.failWipe, Work.modRun, Work.enterCommit]

/-! ## Reads -/

namespace Goes

variable {c : CtxId} {w w' : Work}

/-- A read goes on to another granule, for a context that has no run or is a sweep. -/
theorem nextRead (ho : w.orderly c) (hq : w.request = .read) (hj : w'.job = w.job) (hph : w'.phase = w.phase)
    (hcu : w'.cursor = w.cursor) (hqq : w'.request = .read) (hrun : w'.run = w.run) (hwin : w'.window = w.window)
    (hre : ∀ g ∈ w'.reclaim, g ∈ w.reclaim ∨ g = w.next)
    (hn : ∀ d, w.job = .closeDomain d → w.cursor ≤ w'.next ∧ w'.next < w.cursor + 512) : Goes c w w' := by
  obtain ⟨o1, o2, o3, o4⟩ := ho
  have hnp : w.phase ≠ .post := fun e => by rw [(o1 e).2.1] at hq; cases hq
  refine ⟨hj, hwin, ?_, fun hp => absurd hp hnp, fun hp => absurd (hph ▸ hp) hnp, fun base count e op hjob => ?_,
    fun d hjob => ?_, fun r hr => ?_⟩
  · rw [promised_live hnp, promised_live (by rw [hph]; exact hnp), hj, hcu]
  · obtain ⟨p1, p2, p3, p4, p5, p6⟩ := o2 base count e op (hj ▸ hjob)
    rw [Work.rangeOrderly, hph, hcu, hrun]
    exact ⟨p1, p2, p3, p4, fun _ => p5 hq, p6⟩
  · obtain ⟨q1, q2, q3, q4⟩ := o3 d (hj ▸ hjob)
    rw [Work.sweepOrderly, hwin, hcu, hrun]
    refine ⟨q1, fun _ => ⟨(q2 hq).1, hn d (hj ▸ hjob)⟩, fun g hg => ?_, q4⟩
    rcases hre g hg with h | h
    · exact q3 g h
    · rw [h]; exact q2 hq
  · obtain ⟨k1, k2, k3, k4⟩ := o4 r (hrun ▸ hr)
    exact ⟨by rw [hj]; exact k1, k2, fun hu => (by rw [hqq] at hu; cases hu), k4⟩

/-- A context's waiting mark. -/
theorem waiting (ho : w.orderly c) (b : Bool) : Goes c w { w with waiting := b } :=
  goes ho rfl rfl rfl rfl rfl (.inl rfl) (.inl rfl) (runSame ho rfl)

end Goes

namespace Books

variable {s u : State}

/-- A stopped context, whose run, if it has one, ends. -/
theorem stopContext (h : Books s u) {c : CtxId} {w w' : Work} (hw : u.work c = some w) (hnp : w.phase ≠ .post)
    (hj : w'.job = w.job) (hc : w'.cursor = w.cursor) : Books s (stopContext c w' u) := by
  unfold Machine.stopContext
  rw [hj, hc]
  refine h.stop .aborted none w.counts hw hnp rfl (((Beside.refl c u).advanceSeq).modWork _) ?_
  rw [work_modWork_same, work_advanceSeq, hw]
  rfl

theorem doRevert (h : Books s u) (c : CtxId) : Books s (doRevert c u) := by
  unfold Machine.doRevert
  split
  · exact h
  · rename_i w hw
    split
    · exact h
    · rename_i run hr
      intro hk
      have hnp : w.phase ≠ .post := fun e => by
        have := ((((h hk).contexts hk).1 c w hw).1 e).1
        rw [hr] at this
        cases this
      revert hk
      have kp := ((Keeps.refl u).redecideRun run.base (2 ^ run.order)
        (run.image.map (fun e => (e.1, revertedRecord run e.2)))).runWrite
        (redecideRun run.base (2 ^ run.order) (run.image.map (fun e => (e.1, revertedRecord run e.2))) u).2
      exact (h.keeps kp).stopContext ((work_of_ctxs_eq kp.ctxs c).trans hw) hnp rfl rfl

theorem validateRecord (h : Books s u) {c : CtxId} {w : Work} {base count : Nat} {e : Option (BitVec 8)} {op : RangeOp}
    (hw : u.work c = some w) (hj : w.job = .range base count e op) (hq : w.request = .read) (r : GranuleRecord) :
    Books s (validateRecord c { w with waiting := false } base count e op r u) := by
  intro hk
  obtain ⟨o1, o2, o3, o4⟩ := ((h hk).contexts hk).1 c w hw
  obtain ⟨p1, p2, p3, p4, p5, p6⟩ := o2 base count e op hj
  have hv := p5 hq
  have hnp : w.phase ≠ .post := by rw [hv]; decide
  revert hk
  unfold Machine.validateRecord
  split
  · rename_i reason _
    show Books s (releaseReservation w.job count _)
    refine h.stop .refused (some reason) (.counts 0 0 0) hw hnp ?_ ((Beside.refl c u).setWork _) (work_setWork_same _ _ _)
    rw [hj, (p4 hv).1]
    simp [Job.limit]
  · unfold validateNext
    have hg : ∀ n : Nat, w.orderly c → Goes c w { (Work.noteMix r { w with waiting := false }) with next := n } := fun n ho =>
      Goes.nextRead ho hq rfl rfl rfl hq rfl rfl (fun g hg => .inl hg) (fun d hd => by rw [hj] at hd; cases hd)
    split
    · exact h.workTo hw ((Beside.refl c u).setWork _) (work_setWork_same _ _ _) (hg _)
    · have hb : Books s (Machine.setWork c (some (Work.noteMix r { w with waiting := false })) u) :=
        h.workTo hw ((Beside.refl c u).setWork _) (work_setWork_same _ _ _) (hg w.next)
      refine hb.carveRun (work_setWork_same _ _ _) hj hnp ?_
      show w.cursor < base + count
      rw [(p4 hv).1]
      have := (p4 hv).2.1
      omega

theorem sweepRead (h : Books s u) {c : CtxId} {w : Work} {d : Nat} (hw : u.work c = some w)
    (hj : w.job = .closeDomain d) (hq : w.request = .read) (r : GranuleRecord) :
    Books s (sweepRead c { w with waiting := false } d r u) := by
  intro hk
  obtain ⟨o1, o2, o3, o4⟩ := ((h hk).contexts hk).1 c w hw
  obtain ⟨q1, q2, q3, q4⟩ := o3 d hj
  obtain ⟨a1, a2, a3⟩ := q2 hq
  have hnp : w.phase ≠ .post := fun e => by rw [(o1 e).2.1] at hq; cases hq
  revert hk
  unfold Machine.sweepRead
  generalize hx : ({ w with waiting := false } : Work).noteHeld d r = x
  have facts : x.job = w.job ∧ x.phase = w.phase ∧ x.cursor = w.cursor ∧ x.request = .read ∧ x.run = w.run ∧
      x.window = w.window ∧ x.next = w.next ∧ ∀ g ∈ x.reclaim, g ∈ w.reclaim ∨ g = w.next := by
    rw [← hx]
    unfold Work.noteHeld
    split
    · refine ⟨rfl, rfl, rfl, hq, rfl, rfl, rfl, fun g hg => ?_⟩
      simpa using hg
    · exact ⟨rfl, rfl, rfl, hq, rfl, rfl, rfl, fun g hg => .inl hg⟩
  obtain ⟨x1, x2, x3, x4, x5, x6, x7, x8⟩ := facts
  have hg : ∀ n : Nat, w.cursor ≤ n → n < w.cursor + 512 → w.orderly c → Goes c w { x with next := n } := fun n h1 h2 ho =>
    Goes.nextRead ho hq x1 x2 x3 x4 x5 x6 x8 (fun _ _ => ⟨h1, h2⟩)
  have hb : Books s (Machine.setWork c (some x) u) := by
    refine h.workTo hw ((Beside.refl c u).setWork _) (work_setWork_same _ _ _) (fun ho => ?_)
    have := hg x.next (by rw [x7]; exact a2) (by rw [x7]; exact a3) ho
    exact this
  unfold sweepReadNext
  split
  · rename_i hlt
    rw [x7, x3] at hlt
    exact h.workTo hw ((Beside.refl c u).setWork _) (work_setWork_same _ _ _)
      (hg _ (by rw [x7]; omega) (by rw [x7]; omega))
  · split
    · rename_i hre
      exact hb.finishWindow (work_setWork_same _ _ _) (x1.trans hj) (by rw [x2]; exact hnp) (by simpa using hre)
    · exact hb.carveSweepRun (work_setWork_same _ _ _) (x1.trans hj) (by rw [x2]; exact hnp)

theorem serveRead (h : Books s u) (c : CtxId) (r : GranuleRecord) (hq : ∀ w, u.work c = some w → w.request = .read) :
    Books s (serveRead c r u) := by
  unfold Machine.serveRead
  split
  · exact h
  · rename_i w hw
    dsimp only
    split
    · rename_i hj
      exact h.validateRecord hw hj (hq w hw) r
    · rename_i hj
      exact h.sweepRead hw hj (hq w hw) r
    · rename_i hj
      refine h.post .ok none (.image (encodeImage r)) hw ?_ ((Beside.refl c u).setWork _) (work_setWork_same _ _ _)
      have hj : w.job = _ := hj
      unfold Work.promised
      rw [hj]
      simp [Job.limit]
    · exact h

end Books

/-! ## MARK -/

namespace Goes

variable {c : CtxId} {w w' : Work}

/-- MARK takes a record: the image gains at most that record, and no further record is asked for but the next. -/
theorem mark (ho : w.orderly c) {r r' : Run} (hr : w.run = some r) (hq : w.request = .update) (hj : w'.job = w.job)
    (hw : w'.window = w.window) (hcu : w'.cursor = w.cursor) (hre : w'.reclaim = w.reclaim)
    (hp : w'.phase = w.phase ∨ w'.phase = .recall ∨ w'.phase = .wipe ∨ w'.phase = .commit)
    (hq' : w'.request ≠ .read) (hn : w'.request = .update → w'.next = w.next + 1 ∧ w.next + 1 < r.base + 2 ^ r.order)
    (hr' : w'.run = some r') (hb : r'.base = r.base) (hord : r'.order = r.order)
    (him : r'.image = r.image ∨ ∃ m prior, m.state = .moving c prior ∧ r'.image = r.image ++ [(w.next, m)]) :
    Goes c w w' := by
  obtain ⟨o1, o2, o3, o4⟩ := ho
  obtain ⟨k1, k2, k3, k4⟩ := o4 r hr
  obtain ⟨n1, n2⟩ := k3 hq
  have hnp : w.phase ≠ .post := fun e => by rw [(o1 e).1] at hr; cases hr
  have hnp' : w'.phase ≠ .post := by
    rcases hp with e | e | e | e
    · rw [e]; exact hnp
    all_goals (rw [e]; decide)
  have hlen : r'.image.length ≤ r.image.length + 1 := by
    rcases him with e | ⟨m, p, _, e⟩
    · rw [e]; exact Nat.le_succ _
    · rw [e]; simp
  refine ⟨hj, hw, ?_, fun h => absurd h hnp, fun h => absurd h hnp', fun base count e op hjob => ?_, fun d hjob => ?_,
    fun x hx => ?_⟩
  · rw [promised_live hnp, promised_live hnp', hj, hcu]
  · obtain ⟨p1, p2, p3, p4, p5, p6⟩ := o2 base count e op (hj ▸ hjob)
    have hnv : w'.phase ≠ .validate := by
      intro hv
      rcases hp with e | e | e | e
      · have := (p4 (e ▸ hv)).2.2
        rw [hr] at this
        cases this
      all_goals (rw [e] at hv; cases hv)
    refine ⟨?_, ?_, by rw [hcu]; exact p3, fun h => absurd h hnv, fun h => absurd h hq', fun x hx => ?_⟩
    · rcases hp with e | e | e | e
      · rw [e]; exact p1
      all_goals (rw [e]; decide)
    · rcases hp with e | e | e | e
      · rw [e]; exact p2
      all_goals (rw [e]; decide)
    · rw [hr'] at hx
      cases hx
      rw [hb, hord, hcu]
      exact p6 r hr
  · obtain ⟨q1, q2, q3, q4⟩ := o3 d (hj ▸ hjob)
    rw [Work.sweepOrderly, hw, hcu, hre]
    refine ⟨q1, fun h => absurd h hq', q3, fun x hx => ?_⟩
    rw [hr'] at hx
    cases hx
    rw [hb, hord]
    exact q4 r hr
  · rw [hr'] at hx
    cases hx
    refine ⟨by rw [hj]; exact k1, by rw [hord]; omega, fun hu => ?_, fun e he => ?_⟩
    · obtain ⟨h1, h2⟩ := hn hu
      rw [hb, hord, h1]
      omega
    · rw [hb, hord]
      rcases him with e' | ⟨m, p, hm, e'⟩
      · rw [e'] at he; exact k4 e he
      · rw [e'] at he
        rcases List.mem_append.1 he with he | he
        · exact k4 e he
        · rw [List.mem_singleton.1 he]
          exact ⟨by dsimp only; omega, n2, p, .inl hm⟩

end Goes

namespace Books

variable {s u : State}

theorem recallTo (h : Books s u) (c : CtxId) (base order : Nat) (l : LinkId) : Books s (recallTo c base order l u) := by
  unfold Machine.recallTo
  have mark : ∀ {v : State} (m : RecallMark), Books s v →
      Books s (Machine.modWork c (Work.modRun (fun r => r.setMark l m)) v) :=
    fun m hv => hv.modWork c (fun w _ ho => Goes.modRun ho _ (fun _ => ⟨rfl, rfl, rfl⟩))
  have fence : ∀ (cause : FenceCause), Books s (Machine.modWork c (Work.modRun (Run.fence cause (some l))) u) :=
    fun cause => h.modWork c (fun w _ ho => Goes.modRun ho _ (Goes.fence_run cause (some l)))
  dsimp only
  split
  · split
    · exact mark _ (h.keeps (((Keeps.refl u).placeFrame l _).countEvent _))
    · exact mark _ (h.leaveUpToRejoin l .protocol)
  · exact mark _ h
  · exact fence _
  · exact fence _

/-- The recall fan-out of a context whose MARK has ended in `v`. -/
theorem recallFanOut (h : Books s u) {c : CtxId} {w w' : Work} {v : State} (hw : u.work c = some w)
    (hv : Beside c u v) (hv' : v.work c = some w')
    (hg : w.orderly c → Goes c w { w' with phase := .recall, request := .noRequest, waiting := false })
    (base order : Nat) (union : LinkSet) : Books s (recallFanOut c base order union v) := by
  unfold Machine.recallFanOut
  have h1 : Books s (Machine.modWork c (fun w => { w with phase := .recall, request := .noRequest, waiting := false }) v) :=
    h.workTo hw (hv.modWork _) ((work_modWork_same _ _ _).trans (by rw [hv']; rfl)) hg
  refine Books.modWork (h1.foldl (fun x l => (refl x).recallTo c base order l) _) c (fun x _ ho => ?_)
  split
  · exact .refl ho
  · rename_i r hr
    split
    · exact Goes.endRecall ho
    · refine goes ho rfl rfl rfl rfl rfl (.inl rfl) (.inl rfl) (runMod ho
        (f := fun x => { x with deadline := some (.recall _) }) (fun _ => ⟨rfl, rfl, rfl⟩) (by rw [hr]; rfl))

end Books

namespace Books

variable {s u : State}

/-- The end of MARK, in a state `v` where the last record has been taken. -/
theorem endMark (h : Books s u) {c : CtxId} {w w' : Work} {r r' : Run} {op : RangeOp} {v : State}
    (hw : u.work c = some w) (hr : w.run = some r) (hq : w.request = .update) (hop : w.job.op = some op)
    (hv : Beside c u v) (hv' : v.work c = some w') (hj : w'.job = w.job) (hp : w'.phase = w.phase)
    (hcu : w'.cursor = w.cursor) (hwin : w'.window = w.window) (hre : w'.reclaim = w.reclaim)
    (hqq : w'.request = .update) (hr' : w'.run = some r') (hb : r'.base = r.base) (hord : r'.order = r.order)
    (him : r'.image = r.image ∨ ∃ m prior, m.state = .moving c prior ∧ r'.image = r.image ++ [(w.next, m)]) :
    Books s (endMark c v) := by
  unfold Machine.endMark
  rw [hv']
  dsimp only
  rw [hr', hj, hop]
  dsimp only
  have step : ∀ x : Work, x.job = w'.job → x.window = w'.window → x.cursor = w'.cursor → x.reclaim = w'.reclaim →
      (x.phase = .recall ∨ x.phase = .wipe ∨ x.phase = .commit) → x.request ≠ .read → x.request ≠ .update →
      (∃ b, x.run = some { r' with needsWipe := b }) → w.orderly c → Goes c w x := by
    intro x x1 x2 x3 x4 x5 x6 x7 ⟨b, x8⟩ ho
    exact Goes.mark ho hr hq (x1.trans hj) (x2.trans hwin) (x3.trans hcu) (x4.trans hre) (.inr x5) x6
      (fun hu => absurd hu x7) x8 hb hord him
  split
  · rw [← hj, hj, hord]
    exact h.endEmptyRun hw hr hv hv' hj hp hcu hwin hre (by rw [hqq]; decide) ⟨r', hr', hb, hord⟩
  · split
    · refine h.recallFanOut (w' := w'.modRun (fun r => { r with
          needsWipe := r'.image.any (fun e => op.needsWipe e.2.content) })) hw (hv.setWork _) (work_setWork_same _ _ _)
        (step _ rfl rfl rfl rfl (.inl rfl) (by simp) (by simp)
          ⟨r'.image.any (fun e => op.needsWipe e.2.content), ?_⟩) _ _ _
      simp only [Work.modRun, hr']
      rfl
    · split
      · exact h.workTo hw (hv.setWork _) (work_setWork_same _ _ _)
          (step _ rfl rfl rfl rfl (.inr (.inl rfl)) (by simp) (by simp) ⟨_, by simp only [Work.modRun, hr']; rfl⟩)
      · exact h.workTo hw (hv.setWork _) (work_setWork_same _ _ _)
          (step _ rfl rfl rfl rfl (.inr (.inr rfl)) (by simp [Work.enterCommit]) (by simp [Work.enterCommit])
            ⟨_, by simp only [Work.modRun, Work.enterCommit, hr']; rfl⟩)

theorem serveUpdate (h : Books s u) (c : CtxId) (x : GranuleRecord)
    (hq : ∀ w, u.work c = some w → w.request = .update) : Books s (serveUpdate c x u) := by
  unfold Machine.serveUpdate
  split
  · exact h
  · rename_i w hw
    split
    · rename_i run op hr hop
      dsimp only
      have hq := hq w hw
      -- the record is taken
      have taken : ∃ w' r', (Machine.markRecord c { w with waiting := false } op x u).work c = some w' ∧
          Beside c u (Machine.markRecord c { w with waiting := false } op x u) ∧ w'.job = w.job ∧ w'.phase = w.phase ∧
          w'.cursor = w.cursor ∧ w'.window = w.window ∧ w'.reclaim = w.reclaim ∧ w'.request = .update ∧
          w'.next = w.next ∧ w'.run = some r' ∧ r'.base = run.base ∧ r'.order = run.order ∧
          (r'.image = run.image ∨ ∃ m prior, m.state = .moving c prior ∧ r'.image = run.image ++ [(w.next, m)]) := by
        unfold markRecord
        split
        · exact ⟨_, run, work_setWork_same _ _ _, (Beside.refl c u).setWork _, rfl, rfl, rfl, rfl, rfl, hq, rfl, hr, rfl,
            rfl, .inl rfl⟩
        · exact ⟨_, run, work_setWork_same _ _ _, (Beside.refl c u).setWork _, rfl, rfl, rfl, rfl, rfl, hq, rfl, hr, rfl,
            rfl, .inl rfl⟩
        · have k := fun v => (Keeps.refl v).writeResident w.next (markedRecord c x)
          refine ⟨_, run.addRecord w.next (markedRecord c x), (work_of_ctxs_eq (k _).ctxs c).trans (work_setWork_same _ _ _),
            ((Beside.refl c u).setWork _).keeps (k _), rfl, rfl, rfl, rfl, rfl, hq, rfl, by simp [Work.modRun, hr], rfl,
            rfl, .inr ⟨markedRecord c x, x.content, rfl, rfl⟩⟩
      obtain ⟨w', r', t1, t2, t3, t4, t5, t6, t7, t8, t9, t10, t11, t12, t13⟩ := taken
      split
      · rename_i hlt
        refine h.workTo hw (t2.modWork _) ((work_modWork_same _ _ _).trans (by rw [t1]; rfl)) (fun ho => ?_)
        exact Goes.mark ho hr hq t3 t6 t5 t7 (.inl t4) (by simp [t8]) (fun _ => ⟨by simp [t9], hlt⟩) t10 t11 t12 t13
      · exact h.endMark hw hr hq hop t2 t1 t3 t4 t5 t6 t7 t8 t10 t11 t12 t13
    · exact h

theorem serveContext (h : Books s u) (c : CtxId) (x : GranuleRecord) : Books s (serveContext c x u) := by
  unfold Machine.serveContext
  have rq : ∀ {q : Request}, (u.work c).map Work.request = some q → ∀ w, u.work c = some w → w.request = q := by
    intro q hq w hw
    rw [hw] at hq
    exact Option.some.inj hq
  split
  · rename_i hq
    exact h.serveRead c x (rq hq)
  · rename_i hq
    exact h.serveUpdate c x (rq hq)
  all_goals exact h

theorem lookUpContext (h : Books s u) (c : CtxId) : Books s (lookUpContext c u) := by
  unfold Machine.lookUpContext
  dsimp only
  split
  · rename_i r _
    exact (h.serveContext c r).keeps (((Keeps.refl _).touchResident _).countEvent _)
  · split
    · rename_i v hv
      exact (h.keeps (((Keeps.refl u).countEvent _).takeMiss hv)).modWork c (fun w _ ho => Goes.waiting ho true)
    · exact h.keeps ((Keeps.refl u).countEvent _)

/-! ## The wipe start -/

theorem failWipe (h : Books s u) (c : CtxId) (hr : ∀ w, u.work c = some w → w.run.isSome = true) (cause : FenceCause)
    (link : Option LinkId) : Books s (Machine.modWork c (Work.failWipe cause link) u) :=
  h.modWork c (fun w hw ho => Goes.failWipe ho (hr w hw) cause link)

theorem doWipeStart (h : Books s u) (c : CtxId) : Books s (doWipeStart c u) := by
  unfold Machine.doWipeStart
  split
  · exact h
  · rename_i w hw
    split
    · exact h
    · rename_i r hr
      have run : ∀ w', u.work c = some w' → w'.run.isSome = true := by
        intro w' hw'
        rw [hw] at hw'
        cases hw'
        rw [hr]
        rfl
      split
      · exact h.failWipe c run _ _
      · rename_i l _
        split
        · split
          · unfold sendWipe
            dsimp only
            have hs : Books s (Machine.setWork c (some { w with
                request := .noRequest, waiting := false
                run := some { r with
                  image := r.image.map (fun e => (e.1, { e.2 with state := .wiping c e.2.content }))
                  wipe := .outstanding l, deadline := some (.wipe u.settings.wipeDeadline) } }) u) := by
              refine h.workTo hw ((Beside.refl c u).setWork _) (work_setWork_same _ _ _) (fun ho => ?_)
              refine goes ho rfl rfl rfl rfl rfl (.inl rfl) (.inr (.inl rfl)) (fun r' hr' => ?_)
              cases hr'
              refine ⟨r, hr, rfl, rfl, by simp, fun e he => ?_⟩
              obtain ⟨e', he', rfl⟩ := List.mem_map.1 he
              have := (ho.2.2.2 r hr).2.2.2 e' he'
              exact ⟨this.1, this.2.1, _, .inr rfl⟩
            exact hs.keeps (((Keeps.refl _).runWrite _).placeFrame _ _)
          · refine (h.leaveUpToRejoin l .protocol).failWipe c (fun w' hw' => ?_) _ _
            rw [work_leaveUpToRejoin, hw] at hw'
            cases hw'
            rw [linkRejoining_run, hr]
            rfl
        · exact h.failWipe c run _ _

end Books

end Sys2Proof.Machine
end

