-- ==== Sys2Proof/Laws/BooksEvents.lean ====
section
/-! SUPPORT. The fills, the frames, the expiries, the aborts and the issue of commands as moves on the books. -/

namespace Sys2Proof.Machine

namespace Books

variable {s u : State}

/-! ## Fills and writes -/

theorem loseRecord (h : Books s u) (g : Nat) (ws : List Waiter) : Books s (loseRecord g ws u) :=
  (h.keeps ((((Keeps.refl u).issueWrite g _).offerNotice _).countEvent _)).presentToContexts
    (fun _ _ ho => Goes.loseRecord ho g)

theorem installSettled (h : Books s u) (g : Nat) (ws : List Waiter) (x : Settled) :
    Books s (installSettled g ws x u) := by
  unfold Machine.installSettled
  split
  · exact h.keeps ((Keeps.refl u).installRecord _ _)
  · exact h.keeps ((((Keeps.refl u).issueWrite _ _).countEvent _).installRecord _ _)
  · exact (h.loseRecord g ws).keeps (((Keeps.refl _).installRecord _ _).redecideGranule _)

theorem serveWaiter (h : Books s u) (g : Nat) (w : Waiter) : Books s (serveWaiter g w u) := by
  unfold Machine.serveWaiter
  split
  · exact h
  · split
    · exact h.keeps ((Keeps.refl u).decideResident _ _)
    · exact h.serveContext _ _

theorem serveWaiters (h : Books s u) (n g : Nat) : Books s (serveWaiters n g u) := by
  induction n generalizing u with
  | zero => exact h
  | succ n ih =>
      unfold Machine.serveWaiters
      split
      · exact ih ((h.keeps ((Keeps.refl u).modEntry g _)).serveWaiter g _)
      · exact h
      · exact h

theorem removeEntry (h : Books s u) (g : Nat) : Books s (removeEntry g u) := by
  have h0 : Keeps u { u with miss := u.miss.filter (fun e => !(e.granule == g)) } := (Keeps.refl u).same rfl
  exact h.keeps (h0.presentOccupancy u)

theorem fillEntry (h : Books s u) (e : MissEntry) (f : Option (BitVec 64)) (d : DramReturn) :
    Books s (fillEntry e f d u) := by
  unfold Machine.fillEntry
  have h0 : Books s { u with port := dropOldest e.granule u.port } := h.keeps ((Keeps.refl u).same rfl)
  exact ((h0.installSettled e.granule e.waiters (settle e f (u.stored e.granule) d)).serveWaiters
    e.waiters.length e.granule).removeEntry e.granule

/-- FILL's context enters POST at its last write. -/
theorem endFill (h : Books s u) : Books s (endFill u) := by
  unfold Machine.endFill Machine.presentToContexts
  have h0 : Books s { u with fill := none } := h.keeps ((Keeps.refl u).same rfl)
  refine h0.foldl (fun v c => ?_) _
  cases hw : v.work c with
  | none =>
      refine (refl v).move (fun _ => .keep (fun c' => ?_) (fun _ => rfl) (fun _ => rfl))
      by_cases e : c' = c
      · subst e
        rw [work_modWork_same, hw]
        rfl
      · exact work_modWork_other _ v e
  | some w =>
      cases hj : w.job with
      | format size b n =>
          by_cases hp : w.phase = .fill
          · refine (refl v).post .ok none (.counts size (n.getD 0) 0) hw ?_ ((Beside.refl c v).modWork _) ?_
            · unfold Work.promised
              rw [hj]
              simp [Job.limit]
            · rw [work_modWork_same, hw]
              simp [hj, hp]
          · refine (refl v).workTo hw ((Beside.refl c v).modWork _) (w' := w) ?_ Goes.refl
            rw [work_modWork_same, hw]
            simp [hj, hp]
      | range base count e op =>
          refine (refl v).workTo hw ((Beside.refl c v).modWork _) (w' := w) ?_ Goes.refl
          rw [work_modWork_same, hw]
          simp [hj]
      | query g =>
          refine (refl v).workTo hw ((Beside.refl c v).modWork _) (w' := w) ?_ Goes.refl
          rw [work_modWork_same, hw]
          simp [hj]
      | closeDomain d =>
          refine (refl v).workTo hw ((Beside.refl c v).modWork _) (w' := w) ?_ Goes.refl
          rw [work_modWork_same, hw]
          simp [hj]

theorem completeFillWrite (h : Books s u) (g : Nat) (f : FillWrites) : Books s (completeFillWrite g f u) := by
  have h0 := h.keeps ((Keeps.refl u).storeImage g (encodeImage (fillRecord f.root g))
    (Config.ecc (encodeImage (fillRecord f.root g))))
  unfold Machine.completeFillWrite
  dsimp only
  generalize Machine.storeImage g (encodeImage (fillRecord f.root g)) (Config.ecc (encodeImage (fillRecord f.root g))) u =
    v at h0 ⊢
  have h1 : Keeps v { v with fill := some { f with outstanding := removeGranule g f.outstanding } } :=
    (Keeps.refl v).same rfl
  split
  · exact h0.endFill
  · exact h0.keeps h1

/-! ## Frames and expiries -/

theorem strayAnswer (h : Books s u) (l : LinkId) : Books s (strayAnswer l u) := h.keeps ((Keeps.refl u).countEvent _)

theorem takeRecallAck (h : Books s u) (l : LinkId) (c : CtxId) (q : BitVec 4) : Books s (takeRecallAck l c q u) := by
  unfold Machine.takeRecallAck
  split
  · exact h.modWork c (fun _ _ ho => Goes.clearMark ho l)
  · exact h.strayAnswer l

theorem takeWipeDone (h : Books s u) (l : LinkId) (c : CtxId) (q : BitVec 4) (failed : Bool) :
    Books s (takeWipeDone l c q failed u) := by
  unfold Machine.takeWipeDone
  split
  · rename_i hm
    refine h.modWork c (fun w hw ho => ?_)
    have hr : w.run.isSome = true := by
      unfold State.wipeMatches at hm
      rw [hw] at hm
      simp only [Bool.and_eq_true] at hm
      have := hm.2
      unfold Work.wipeOutstanding at this
      split at this
      · rename_i hr
        rw [hr]
        rfl
      · cases this
    split
    · exact Goes.failWipe ho hr _ _
    · exact Goes.wipeOk ho hr
  · exact h.strayAnswer l

theorem completeRejoin (h : Books s u) (l : LinkId) : Books s (completeRejoin l u) :=
  ((h.keeps ((Keeps.refl u).modLink l _)).presentToContexts (fun _ _ ho => Goes.linkRejoined ho l)).keeps
    ((Keeps.refl _).offerNotice _)

theorem takeRejoinAck (h : Books s u) (l : LinkId) (n : BitVec 4) : Books s (takeRejoinAck l n u) := by
  unfold Machine.takeRejoinAck
  split
  · exact h.strayAnswer l
  · split
    · exact h.completeRejoin l
    · exact h.strayAnswer l
  all_goals exact h

theorem takeCheck (h : Books s u) (l : LinkId) (k : Check) : Books s (takeCheck l k u) := by
  unfold Machine.takeCheck
  dsimp only
  split
  · exact h.leaveUpToRejoin _ _
  · split
    · exact h.leaveUpToRejoin _ _
    · exact h.keeps ((Keeps.refl u).modLink l _)

theorem lookUpCheck (k : Check) (u : State) : Keeps u (lookUpCheck k u) := by
  unfold Machine.lookUpCheck
  split
  · exact (((Keeps.refl u).decideResident _ _).touchResident _).countEvent _
  · dsimp only
    split
    · rename_i v hv
      exact ((Keeps.refl u).countEvent _).takeMiss hv
    · exact ((Keeps.refl u).countEvent _).answerRetry _

theorem portCheck (h : Books s u) (k : Check) : Books s (portCheck k u) := by
  unfold Machine.portCheck
  split
  · exact h.keeps ((Keeps.refl u).answerGrant _ _ _ _)
  · exact h.keeps ((Keeps.refl u).answerDenial _ _ _)
  · exact h.keeps (lookUpCheck k u)
  · exact h.keeps (lookUpCheck k u)

theorem expireMark (h : Books s u) (c : CtxId) (l : LinkId) : Books s (expireMark c l u) := by
  unfold Machine.expireMark
  split
  · split
    · have h1 : Books s (Machine.modWork c (Work.modRun (fun r => r.setMark l .awaitingRejoin)) u) :=
        h.modWork c (fun _ _ ho => Goes.modRun ho _ (fun _ => ⟨rfl, rfl, rfl⟩))
      exact h1.askRejoin l .recallExpiry
    · exact h
  · exact h

theorem expireRecall (h : Books s u) (c : CtxId) : Books s (expireRecall c u) :=
  (h.modWork c (fun _ _ ho => Goes.modRun ho (fun r => { r with deadline := none }) (fun _ => ⟨rfl, rfl, rfl⟩))).foldl
    (f := fun s l => Machine.expireMark c l s) (fun v l => (refl v).expireMark c l) _

theorem expireWipe (h : Books s u) (c : CtxId) (hd : ∃ d, u.deadline c = some d) : Books s (expireWipe c u) := by
  refine h.modWork c (fun w hw ho => Goes.failWipe ho ?_ _ _)
  obtain ⟨d, hd⟩ := hd
  unfold State.deadline at hd
  rw [hw] at hd
  cases hr : w.run with
  | none => simp [hr] at hd
  | some r => rfl

theorem exhaustRejoin (h : Books s u) (l : LinkId) : Books s (exhaustRejoin l u) :=
  ((h.keeps ((Keeps.refl u).modLink l _)).presentToContexts (fun _ _ ho => Goes.linkLost ho _ l)).keeps
    ((Keeps.refl _).offerNotice _)

theorem expireRejoin (h : Books s u) (l : LinkId) : Books s (expireRejoin l u) := by
  unfold Machine.expireRejoin
  split
  · exact h.keeps ((Keeps.refl u).beginAttempt _ l)
  · exact h.exhaustRejoin l

theorem takeSnapshot (h : Books s u) : Books s (takeSnapshot u) := h.keeps ((Keeps.refl u).same rfl)

/-! ## Responses, ABORT and LINK_CONTROL -/

theorem answer (h : Books s u) (m : Message) (a : Status) (r : Option Reason) : Books s (answer m a r u) :=
  h.keeps ((Keeps.refl u).same rfl)

theorem refuse (h : Books s u) (m : Message) (r : Reason) : Books s (refuse m r u) := h.answer m _ _

theorem withdrawRequest (h : Books s u) (c : CtxId) : Books s (withdrawRequest c u) :=
  (h.keeps ((Keeps.refl u).removeWaiters _)).modWork c (fun _ _ ho =>
    goes ho rfl rfl rfl rfl rfl (.inl rfl) (.inr (.inl rfl)) (runSame ho rfl))

theorem work_withdrawRequest (c : CtxId) (u : State) : (Machine.withdrawRequest c u).work c =
    (u.work c).map (fun w => { w with request := .noRequest, waiting := false }) := by
  unfold Machine.withdrawRequest
  exact work_modWork_same _ _ _

theorem abortEarly (h : Books s u) {c : CtxId} {w : Work} (hw : u.work c = some w) (ha : w.job.abortable = true)
    (hp : w.phase = .read ∨ w.phase = .validate) : Books s (abortEarly c w u) := by
  intro hk
  obtain ⟨o1, o2, o3, o4⟩ := ((h hk).contexts hk).1 c w hw
  revert hk
  unfold Machine.abortEarly
  have hx : (Machine.withdrawRequest c u).work c = some { w with request := .noRequest, waiting := false } := by
    rw [work_withdrawRequest, hw]
    rfl
  have hnp : w.phase ≠ .post := by rcases hp with e | e <;> (rw [e]; decide)
  show Books s (releaseReservation
    ({ w with request := .noRequest, waiting := false } : Work).job w.job.count _)
  refine (h.withdrawRequest c).stop (n := w.job.count) .aborted none (.counts 0 0 0) hx hnp ?_ ((Beside.refl c _).modWork _)
    ((work_modWork_same _ _ _).trans (by rw [hx]; rfl))
  show w.job.count = w.job.limit - w.cursor
  cases hj : w.job with
  | range base count e op =>
      obtain ⟨p1, p2, p3, p4, p5, p6⟩ := o2 base count e op hj
      have hv : w.phase = .validate := by
        rcases hp with e | e
        · exact absurd e p1
        · exact e
      rw [(p4 hv).1]
      simp [Job.count, Job.limit]
  | query g => simp [Job.count, Job.limit]
  | format a b n => rw [hj] at ha; cases ha
  | closeDomain d => rw [hj] at ha; cases ha

theorem abortMarking (h : Books s u) {c : CtxId} {w : Work} (hw : u.work c = some w) (hp : w.phase = .mark) :
    Books s (abortMarking c w u) := by
  unfold Machine.abortMarking
  have h1 : Books s (Machine.modWork c (fun w => { w with abortMark := true }) (Machine.withdrawRequest c u)) :=
    (h.withdrawRequest c).modWork c (fun _ _ ho => goes ho rfl rfl rfl rfl rfl (.inl rfl) (.inl rfl) (runSame ho rfl))
  have hx : (Machine.modWork c (fun w => { w with abortMark := true }) (Machine.withdrawRequest c u)).work c =
      some { w with request := .noRequest, waiting := false, abortMark := true } := by
    rw [work_modWork_same, work_withdrawRequest, hw]
    rfl
  dsimp only
  split
  · refine h1.modWork c (fun w' hw' ho => ?_)
    rw [hx] at hw'
    cases hw'
    exact goes ho rfl rfl rfl rfl rfl (.inl rfl) (.inr (.inr ⟨by show w.phase ≠ _; rw [hp]; decide, by simp, by simp⟩))
      (runSame ho rfl)
  · exact h1.stopContext hx (by show w.phase ≠ _; rw [hp]; decide) rfl rfl

theorem abortWiping (h : Books s u) {c : CtxId} {w : Work} (hw : u.work c = some w) (hp : w.phase = .wipe) :
    Books s (abortWiping c u) := by
  unfold Machine.abortWiping
  refine h.modWork c (fun w' hw' ho => ?_)
  rw [hw] at hw'
  cases hw'
  refine goes ho rfl rfl rfl rfl rfl (.inl rfl) ?_ (runSame ho rfl)
  dsimp only
  split
  · exact .inr (.inr ⟨by rw [hp]; decide, by simp, by simp⟩)
  · exact .inl rfl

theorem abortContext (h : Books s u) (m : Message) {c : CtxId} {w : Work} (hw : u.work c = some w)
    (ha : w.job.abortable = true) : Books s (abortContext m c w u) := by
  unfold Machine.abortContext
  split
  · exact h.answer m _ _
  · split
    · exact h.answer m _ _
    · refine answer ?_ m _ _
      have mark : Books s (Machine.modWork c (fun w => { w with abortMark := true }) u) :=
        h.modWork c (fun _ _ ho => goes ho rfl rfl rfl rfl rfl (.inl rfl) (.inl rfl) (runSame ho rfl))
      match hp : w.phase with
      | .read => exact h.abortEarly hw ha (.inl hp)
      | .validate => exact h.abortEarly hw ha (.inr hp)
      | .mark => exact h.abortMarking hw hp
      | .recall => exact mark
      | .commit => exact mark
      | .wipe => exact h.abortWiping hw hp
      | .post => exact h
      | .scan => exact h
      | .fill => exact h

theorem abortActive (h : Books s u) (m : Message) (t : BitVec 16) : Books s (abortActive m t u) := by
  unfold Machine.abortActive
  split
  · exact h.answer m _ _
  · split
    · exact h.answer m _ _
    · rename_i w hw
      split
      · rename_i ha
        exact h.abortContext m hw ha
      · exact h.refuse m _

theorem abortQueued (h : Books s u) (m : Message) (i : Nat) (q : Message) : Books s (abortQueued m i q u) := by
  unfold Machine.abortQueued
  split
  · exact h.refuse m _
  · have h0 : Keeps u (placeResponse (plainResponse (msgTag q) (msgKind q) .aborted none)
        { u with intake := u.intake.eraseIdx i }) := (Keeps.refl u).same rfl
    exact (h.keeps h0).answer m _ _

theorem abortTarget (h : Books s u) (m : Message) (t : BitVec 16) : Books s (abortTarget m t u) := by
  unfold Machine.abortTarget
  split
  · exact h.abortActive m t
  · split
    · exact h.abortQueued m _ _
    · exact h.abortActive m t

theorem startRejoin (h : Books s u) (l : LinkId) : Books s (startRejoin l u) :=
  h.keeps (((Keeps.refl u).modLink l _).startAttempts l)

theorem huntAgain (h : Books s u) (l : LinkId) : Books s (huntAgain l u) := h.keeps ((Keeps.refl u).modLink l _)

theorem enableLink (h : Books s u) (m : Message) (l : LinkId) : Books s (enableLink m l u) := by
  unfold Machine.enableLink
  split
  · exact ((h.huntAgain l).startRejoin l).answer m _ _
  all_goals exact h.refuse m _

theorem stopRejoin (h : Books s u) (l : LinkId) : Books s (stopRejoin l u) :=
  (h.keeps ((Keeps.refl u).modLink l _)).presentToContexts (fun _ _ ho => Goes.linkLost ho _ l)

theorem disableLink (h : Books s u) (m : Message) (l : LinkId) : Books s (disableLink m l u) := by
  unfold Machine.disableLink
  refine answer ?_ m _ _
  split
  · exact h
  · exact h.stopRejoin l
  · exact h.leaveUpToOff l
  · exact h.keeps ((Keeps.refl u).modLink l _)

theorem rejoinLink (h : Books s u) (m : Message) (l : LinkId) : Books s (rejoinLink m l u) := by
  unfold Machine.rejoinLink
  split
  · exact h.refuse m _
  · exact h.answer m _ _
  · exact (h.leaveUpToRejoin l .command).answer m _ _
  · exact (h.startRejoin l).answer m _ _

/-! ## The immediate commands -/

/-- A command that changes the tables and no context. -/
theorem tables (h : Books s u) {t : State} (hc : t.ctxs = u.ctxs) (hd : ∀ d, (t.domain d).incoming = (u.domain d).incoming ∧
    (t.domain d).held = (u.domain d).held ∧ (((u.domain d).state = .closed ∧ (t.domain d).state = .active) ∨
      ((t.domain d).state = (u.domain d).state ∧ ((t.domain d).quota = (u.domain d).quota ∨
        (t.domain d).held + (t.domain d).incoming ≤ (t.domain d).quota))))
    (hg : groupsMove u t) : Books s t :=
  h.move (fun _ => .tables (work_of_ctxs_eq hc) hd hg)

theorem openDomain (h : Books s u) (m : Message) (d q : Nat) (p : Fin 4) (x : Option Nat) :
    Books s (openDomain m d q p x u) := by
  unfold Machine.openDomain
  split
  · rename_i hcl
    refine answer ?_ m _ _
    refine h.tables rfl (fun d' => ?_) ?_
    · by_cases e : d' = d
      · subst e
        rw [domain_modDomain_same]
        exact ⟨rfl, rfl, .inl ⟨hcl, rfl⟩⟩
      · rw [domain_modDomain_other _ u e]
        exact ⟨rfl, rfl, .inr ⟨rfl, .inl rfl⟩⟩
    · refine .inl ⟨fun _ => rfl, fun d' => ?_⟩
      by_cases e : d' = d
      · subst e
        rw [domain_modDomain_same]
      · rw [domain_modDomain_other _ u e]
  · exact h.refuse m _

theorem setDomain (h : Books s u) (m : Message) (d : Nat) (q : Option Nat) (p : Option (Fin 4)) (x : Option Nat) :
    Books s (setDomain m d q p x u) := by
  unfold Machine.setDomain
  split
  · exact h.refuse m _
  · rename_i hf
    refine answer ?_ m _ _
    refine h.tables rfl (fun d' => ?_) ?_
    · by_cases e : d' = d
      · subst e
        rw [domain_modDomain_same]
        refine ⟨rfl, rfl, .inr ⟨rfl, ?_⟩⟩
        show q.getD _ = _ ∨ (u.domain d').held + (u.domain d').incoming ≤ q.getD _
        cases q with
        | none => exact .inl rfl
        | some n =>
            right
            simp only [firstFailure, setDomainTests, Option.map_eq_none_iff, List.find?_eq_none] at hf
            have := hf (_, Reason.quota) (.tail _ (.tail _ (.head _)))
            simp only [Option.any_some, decide_eq_true_eq, Nat.not_lt] at this
            exact this
      · rw [domain_modDomain_other _ u e]
        exact ⟨rfl, rfl, .inr ⟨rfl, .inl rfl⟩⟩
    · refine .inl ⟨fun _ => rfl, fun d' => ?_⟩
      by_cases e : d' = d
      · subst e
        rw [domain_modDomain_same]
        rfl
      · rw [domain_modDomain_other _ u e]

end Books

end Sys2Proof.Machine
end

