-- ==== Sys2Proof/Laws/BooksIssue.lean ====
section
/-! SUPPORT. The taking of a context, the share group commands and POST_RESPONSE as moves on the books. -/

namespace Sys2Proof.Machine

/-! ## What the Scheduler's tests say -/

theorem firstFailure_none {tests : List (Bool × Reason)} (h : firstFailure tests = none) : ∀ t ∈ tests, t.1 = false := by
  intro t ht
  simp only [firstFailure, Option.map_eq_none_iff, List.find?_eq_none] at h
  simpa using h t ht

theorem freeCtx_work {s : State} {c : CtxId} (h : freeCtx s = some c) : s.work c = none := by
  have := List.find?_some h
  simpa using this

theorem anyCtx_false {s : State} {p : Work → Bool} (h : anyCtx s p = false) {c : CtxId} {w : Work}
    (hw : s.work c = some w) : p w = false := by
  simp only [anyCtx, findCtx, Option.isSome_eq_false_iff, Option.isNone_iff_eq_none, List.find?_eq_none] at h
  have := h c (mem_allCtxs c)
  rw [hw] at this
  simpa using this

/-- A range command in its coding names at least one granule (R170). -/
theorem decodeCommand_range {m : Message} {base count : Nat} {e : Option (BitVec 8)} {op : RangeOp}
    (h : decodeCommand m = some (.job (.range base count e op))) : 1 ≤ count := by
  unfold decodeCommand decodeRange at h
  dsimp only at h
  split at h
  all_goals first
    | (obtain ⟨ht, h⟩ := coded_some h
       cases h
       simp only [rangeCoded, Bool.and_eq_true, decide_eq_true_eq] at ht
       exact ht.1.1.1.2)
    | (split at h <;> first | (cases h) | (obtain ⟨_, h⟩ := coded_some h; cases h))
    | (cases h)
    | (obtain ⟨_, h⟩ := coded_some h; cases h)

/-- A DEFINE_GROUP in its coding names a group of the table and lists distinct domains (R170). -/
theorem decodeCommand_defineGroup {m : Message} {g : Nat} {members : List Nat}
    (h : decodeCommand m = some (.defineGroup g members)) : g < 256 ∧ members.Nodup := by
  unfold decodeCommand decodeRange at h
  dsimp only at h
  split at h
  all_goals first
    | (obtain ⟨ht, h⟩ := coded_some h
       cases h
       simp only [membersCoded, Bool.and_eq_true, decide_eq_true_eq] at ht
       exact ⟨Nat.mod_lt _ (by decide), ht.2⟩)
    | (split at h <;> first | (cases h) | (obtain ⟨_, h⟩ := coded_some h; cases h))
    | (cases h)
    | (obtain ⟨_, h⟩ := coded_some h; cases h)

/-- The group counts after a change of each member's. -/
theorem modGroupCounts_domain (f : Nat → Nat) (L : List Nat) (hL : L.Nodup) (s : State) (d : Nat) :
    (modGroupCounts f L s).domain d =
      if d ∈ L then { s.domain d with groupCount := f (s.domain d).groupCount } else s.domain d := by
  unfold modGroupCounts
  induction L generalizing s with
  | nil => rfl
  | cons a L ih =>
      rw [List.foldl_cons, ih (List.nodup_cons.1 hL).2]
      by_cases e : d = a
      · subst e
        simp [(List.nodup_cons.1 hL).1]
      · rw [domain_modDomain_other _ s e]
        simp [e]

theorem modGroupCounts_rest (f : Nat → Nat) (L : List Nat) (s : State) :
    (modGroupCounts f L s).ctxs = s.ctxs ∧ (modGroupCounts f L s).groups = s.groups ∧
    ∀ d, heldOnly ({ (modGroupCounts f L s).domain d with groupCount := (s.domain d).groupCount }) (s.domain d) ∧
      ((modGroupCounts f L s).domain d).held = (s.domain d).held := by
  unfold modGroupCounts
  induction L generalizing s with
  | nil => exact ⟨rfl, rfl, fun d => ⟨⟨rfl, rfl, rfl, rfl⟩, rfl⟩⟩
  | cons a L ih =>
      rw [List.foldl_cons]
      obtain ⟨h1, h2, h3⟩ := ih (modDomain a (fun r => { r with groupCount := f r.groupCount }) s)
      refine ⟨h1, h2, fun d => ?_⟩
      obtain ⟨⟨e1, e2, e3, e4⟩, e5⟩ := h3 d
      by_cases e : d = a
      · subst e
        rw [domain_modDomain_same] at e1 e2 e4 e5
        exact ⟨⟨e1, e2, rfl, e4⟩, e5⟩
      · rw [domain_modDomain_other _ s e] at e1 e2 e4 e5
        exact ⟨⟨e1, e2, rfl, e4⟩, e5⟩

namespace Books

variable {s u : State}

theorem defineGroup (h : Books s u) (m : Message) {g : Nat} {members : List Nat} (hg : g < 256) (hnd : members.Nodup) :
    Books s (defineGroup m g members u) := by
  unfold Machine.defineGroup
  split
  · exact h.refuse m _
  · rename_i hfree
    split
    · exact h.refuse m _
    · rename_i hact
      refine answer ?_ m _ _
      obtain ⟨r1, r2, r3⟩ := modGroupCounts_rest (fun n => n + 1) members
        (modGroup g (fun r => { r with defined := true, members := members }) u)
      refine h.tables r1 (fun d => ?_) (.inr (.inl ⟨g, members, hg, by simpa using hfree, hnd, fun d hd => ?_, ?_, fun g' hg' => ?_,
        fun d => ?_⟩))
      · obtain ⟨⟨e1, e2, e3, e4⟩, e5⟩ := r3 d
        exact ⟨e4.symm, e5, .inr ⟨e1.symm, .inl e2.symm⟩⟩
      · simp only [Bool.not_eq_true', Bool.not_eq_false, List.all_eq_true] at hact
        have := hact d hd
        simpa [State.isActive] using this
      · simp only [State.group, r2]
        exact group_modGroup_same g _ u
      · simp only [State.group, r2]
        exact group_modGroup_other _ u hg'
      · rw [modGroupCounts_domain _ _ hnd]
        have : ∀ d, (modGroup g (fun r => { r with defined := true, members := members }) u).domain d = u.domain d :=
          fun _ => rfl
        rw [this]
        split <;> rfl

theorem dropGroup (h : Books s u) (m : Message) (g : Nat) : Books s (dropGroup m g u) := by
  unfold Machine.dropGroup
  dsimp only
  split
  · exact h.refuse m _
  · rename_i hok
    simp only [Bool.or_eq_true, Bool.not_eq_true', decide_eq_true_eq, not_or, Bool.not_eq_false, Nat.not_lt,
      Nat.le_zero] at hok
    refine answer ?_ m _ _
    obtain ⟨r1, r2, r3⟩ := modGroupCounts_rest (fun n => n - 1) (u.group g).members u
    have hgr : ∀ x, (modGroupCounts (fun n => n - 1) (u.group g).members u).group x = u.group x := fun x => by
      unfold State.group at r2 ⊢
      rw [r2]
    refine h.tables r1 (fun d => ?_) (.inr (.inr ⟨g, hok.1, hok.2, ?_, fun g' hg' => ?_, fun hnd d => ?_⟩))
    · obtain ⟨⟨e1, e2, e3, e4⟩, e5⟩ := r3 d
      exact ⟨e4.symm, e5, .inr ⟨e1.symm, .inl e2.symm⟩⟩
    · rw [group_modGroup_same, hgr g]
    · rw [group_modGroup_other _ _ hg']
      exact hgr g'
    · have := modGroupCounts_domain (fun n => n - 1) _ hnd u d
      show ((modGroupCounts (fun n => n - 1) (u.group g).members u).domain d).groupCount = _
      rw [this]
      split <;> rfl

/-! ## The taking of a context -/

theorem firstWork_facts (tag : BitVec 16) (job : Job) : (firstWork tag job).job = job ∧ (firstWork tag job).run = none ∧
    (firstWork tag job).window = none ∧ (firstWork tag job).reclaim = [] ∧ (firstWork tag job).phase ≠ .post := by
  cases job <;> exact ⟨rfl, rfl, rfl, rfl, by simp [firstWork, newWork]⟩

theorem firstWork_orderly (c : CtxId) (tag : BitVec 16) (job : Job)
    (hpos : ∀ base count e op, job = .range base count e op → 0 < count) : (firstWork tag job).orderly c := by
  obtain ⟨f1, f2, f3, f4, f5⟩ := firstWork_facts tag job
  refine ⟨fun h => absurd h f5, fun base count e op hj => ?_, fun d hj => ?_, fun r hr => by rw [f2] at hr; cases hr⟩
  · rw [f1] at hj
    subst hj
    exact ⟨by simp [firstWork, newWork], by simp [firstWork, newWork], Nat.le_refl _,
      fun _ => ⟨rfl, hpos base count e op rfl, rfl⟩, fun _ => rfl, fun r hr => by cases hr⟩
  · rw [f1] at hj
    subst hj
    exact ⟨fun b hb => (by cases hb), fun hq => (by cases hq), fun g hg => (by cases hg), fun r hr => by cases hr⟩

theorem receiver_names {job : Job} {d : Nat} (h : job.receiver = some d) : job.names d = true := by
  cases job with
  | range base count e op =>
      cases op <;> simp_all [Job.receiver, Job.names]
  | query g => cases h
  | format a b c => cases h
  | closeDomain d => cases h

/-- A context command takes a FREE context, with its reservation (R67, Table 4.4). -/
theorem take (h : Books s u) {tag : BitVec 16} {job : Job} {c : CtxId} (hr : refusal u tag job = none)
    (hc : freeCtx u = some c) (hct : canTake u job = true)
    (hpos : ∀ base count e op, job = .range base count e op → 0 < count) :
    Books s (reserve job (Machine.setWork c (some (firstWork tag job)) u)) := by
  obtain ⟨f1, f2, f3, f4, f5⟩ := firstWork_facts tag job
  let v := Machine.setWork c (some (firstWork tag job)) u
  have hctx : ∀ (f : State → State), (f v).ctxs = v.ctxs → (f v).work c = some (firstWork tag job) ∧
      ∀ c', c' ≠ c → (f v).work c' = u.work c' := fun f hf =>
    ⟨(work_of_ctxs_eq hf c).trans (work_setWork_same _ _ _),
      fun c' hne => (work_of_ctxs_eq hf c').trans (work_setWork_other _ u hne)⟩
  have hres : (reserve job v).ctxs = v.ctxs := by
    unfold reserve
    split <;> rfl
  obtain ⟨hw, ho⟩ := hctx (reserve job) hres
  simp only [canTake, Bool.and_eq_true] at hct
  have hord := firstWork_orderly c tag job hpos
  have hprom : (firstWork tag job).promised = job.count := by
    rw [promised_live f5, f1]
    cases job <;> simp [Job.limit, Job.count, firstWork, newWork]
  have apart : ∀ b n, (firstWork tag job).heldRange = some (b, n) → apartFrom u c b n := by
    intro b n hh c' w hne hwc
    unfold Work.heldRange at hh
    rw [f1, f3] at hh
    cases job with
    | range base count e op =>
        simp only [Option.some.injEq, Prod.mk.injEq] at hh
        obtain ⟨rfl, rfl⟩ := hh
        have := hct.2
        simp only [Bool.not_eq_true'] at this
        exact anyCtx_false this hwc
    | query g => cases hh
    | format a b c => cases hh
    | closeDomain d => cases hh
  -- what raising a domain's incoming count leaves
  have raise : ∀ (x n d : Nat), ((raiseIncoming x n v).domain d) =
      { u.domain d with incoming := (u.domain d).incoming + if some x = some d then n else 0 } := by
    intro x n d
    by_cases e : d = x
    · subst e
      rw [raiseIncoming, domain_modDomain_same]
      simp [v, State.domain, Machine.setWork, setCtx]
    · rw [raiseIncoming, domain_modDomain_other _ _ e]
      simp [show ¬x = d from fun h => e h.symm, v, State.domain, Machine.setWork, setCtx]
  have groups : ∀ (f : State → State), (f v).groups = v.groups → ∀ g, ((f v).group g).defined = (u.group g).defined ∧
      ((f v).group g).members = (u.group g).members ∧
      (((f v).group g).refs = (u.group g).refs ∨ (u.group g).defined = true) := by
    intro f hf g
    have : (f v).group g = u.group g := by simp only [State.group, hf]; rfl
    rw [this]
    exact ⟨rfl, rfl, .inl rfl⟩
  refine h.move (fun _ => .take c (firstWork tag job) (freeCtx_work hc) hw ho hord f5 apart (fun d => ?_) ?_)
  · rw [f1, hprom]
    cases job with
    | range base count e op =>
        have tests := firstFailure_none hr
        cases op with
        | assign x r =>
            have hd := raise x count d
            rw [show (reserve (.range base count e (.assign x r)) v).domain d = _ from hd]
            refine ⟨rfl, rfl, rfl, fun _ => rfl, fun hx => ?_, fun _ => rfl, fun hj => by cases hj⟩
            cases hx
            have t1 := tests (_, .domainState) (.tail _ (.tail _ (.tail _ (.head _))))
            have t2 := tests (_, .quota) (.tail _ (.tail _ (.tail _ (.tail _ (.head _)))))
            simp only [Bool.not_eq_false', State.isActive, decide_eq_true_eq, decide_eq_false_iff_not, Nat.not_lt] at t1 t2
            exact ⟨t1, t2⟩
        | transfer giver x r wp =>
            have hd := raise x count d
            rw [show (reserve (.range base count e (.transfer giver x r wp)) v).domain d = _ from hd]
            refine ⟨rfl, rfl, rfl, fun _ => rfl, fun hx => ?_, fun _ => rfl, fun hj => by cases hj⟩
            cases hx
            have t1 := tests (_, .domainState) (.tail _ (.tail _ (.tail _ (.head _))))
            have t2 := tests (_, .quota) (.tail _ (.tail _ (.tail _ (.tail _ (.tail _ (.tail _ (.head _)))))))
            simp only [Bool.or_eq_false_iff, Bool.not_eq_false', State.isActive, decide_eq_true_eq, decide_eq_false_iff_not,
              Nat.not_lt] at t1 t2
            exact ⟨t1.2, t2⟩
        | reclaim x wp => exact ⟨rfl, rfl, rfl, fun _ => rfl, fun hx => (by cases hx), fun _ => rfl, fun hj => by cases hj⟩
        | share o x => exact ⟨rfl, rfl, rfl, fun _ => rfl, fun hx => (by cases hx), fun _ => rfl, fun hj => by cases hj⟩
        | unshare x => exact ⟨rfl, rfl, rfl, fun _ => rfl, fun hx => (by cases hx), fun _ => rfl, fun hj => by cases hj⟩
        | wipe => exact ⟨rfl, rfl, rfl, fun _ => rfl, fun hx => (by cases hx), fun _ => rfl, fun hj => by cases hj⟩
        | releaseFence => exact ⟨rfl, rfl, rfl, fun _ => rfl, fun hx => (by cases hx), fun _ => rfl, fun hj => by cases hj⟩
    | query g => exact ⟨rfl, rfl, rfl, fun _ => rfl, fun hx => (by cases hx), fun _ => rfl, fun hj => by cases hj⟩
    | format a b n =>
        by_cases e : d = 0
        · subst e
          have hd : (reserve (.format a b n) v).domain 0 = { u.domain 0 with held := n.getD 0 } := by
            unfold reserve startFill
            rw [domain_modDomain_same]
            rfl
          rw [hd]
          exact ⟨rfl, rfl, rfl, fun h0 => absurd rfl h0, fun hx => (by cases hx), fun _ => rfl, fun hj => by cases hj⟩
        · have hd : (reserve (.format a b n) v).domain d = u.domain d := by
            unfold reserve startFill
            rw [domain_modDomain_other _ _ e]
            rfl
          rw [hd]
          exact ⟨rfl, rfl, rfl, fun _ => rfl, fun hx => (by cases hx), fun _ => rfl, fun hj => by cases hj⟩
    | closeDomain x =>
        have tests := firstFailure_none hr
        have t1 := tests (_, .domainState) (.tail _ (.tail _ (.head _)))
        have t2 := tests (_, .inGroup) (.tail _ (.tail _ (.tail _ (.head _))))
        simp only [Bool.or_eq_false_iff, Bool.not_eq_false', State.isActive, decide_eq_true_eq, decide_eq_false_iff_not,
          Nat.not_lt, Nat.le_zero] at t1 t2
        by_cases e : d = x
        · subst e
          have hd : (reserve (.closeDomain d) v).domain d = { u.domain d with state := .draining } := by
            unfold reserve
            rw [domain_modDomain_same]
            rfl
          rw [hd]
          refine ⟨rfl, rfl, rfl, fun _ => rfl, fun hx => (by cases hx), fun hj => absurd rfl hj, fun _ => ?_⟩
          refine ⟨t1.1, t1.2, rfl, t2, fun c' w' hw' hx => ?_⟩
          have := hct.2
          simp only [Bool.not_eq_true'] at this
          have := anyCtx_false this hw'
          rw [receiver_names hx] at this
          cases this
        · have hd : (reserve (.closeDomain x) v).domain d = u.domain d := by
            unfold reserve
            rw [domain_modDomain_other _ _ e]
            rfl
          rw [hd]
          exact ⟨rfl, rfl, rfl, fun _ => rfl, fun hx => (by cases hx), fun _ => rfl, fun hj => by cases hj; exact absurd rfl e⟩
  · cases job with
    | range base count e op =>
        cases op with
        | share o x =>
            have tests := firstFailure_none hr
            have t1 := tests (_, .groupState) (.tail _ (.tail _ (.tail _ (.tail _ (.head _)))))
            simp only [Bool.or_eq_false_iff, Bool.not_eq_false'] at t1
            intro g
            by_cases eg : g = x
            · subst eg
              have hd : (reserve (.range base count e (.share o g)) v).group g =
                  { u.group g with refs := (u.group g).refs + count } := by
                unfold reserve raiseRefs
                rw [group_modGroup_same]
                rfl
              rw [hd]
              exact ⟨rfl, rfl, .inr t1.1⟩
            · have hd : (reserve (.range base count e (.share o x)) v).group g = u.group g := by
                unfold reserve raiseRefs
                rw [group_modGroup_other _ _ eg]
                rfl
              rw [hd]
              exact ⟨rfl, rfl, .inl rfl⟩
        | assign x r => exact groups (reserve _) rfl
        | transfer a x r w => exact groups (reserve _) rfl
        | reclaim x w => exact groups (reserve _) rfl
        | unshare x => exact groups (reserve _) rfl
        | wipe => exact groups (reserve _) rfl
        | releaseFence => exact groups (reserve _) rfl
    | query g => exact groups (reserve _) rfl
    | format a b n => exact groups (reserve _) rfl
    | closeDomain d => exact groups (reserve _) rfl

theorem issueJob (h : Books s u) (m : Message) {job : Job} (hd : decodeCommand m = some (.job job))
    (hct : refusal u (msgTag m) job = none → canTake u job = true) : Books s (issueJob m job u) := by
  unfold Machine.issueJob
  split
  · exact h.refuse m _
  · rename_i hr
    split
    · exact h
    · rename_i c hc
      refine h.take hr hc (hct hr) (fun base count e op hj => ?_)
      subst hj
      exact decodeCommand_range hd

/-- The context that a context command takes holds the job's first work. -/
theorem work_issueJob {m : Message} {job : Job} {c : CtxId} (hr : refusal u (msgTag m) job = none)
    (hc : freeCtx u = some c) : (Machine.issueJob m job u).work c = some (firstWork (msgTag m) job) := by
  unfold Machine.issueJob
  simp only [hr, hc]
  refine (work_of_ctxs_eq ?_ c).trans (work_setWork_same _ _ u)
  unfold reserve
  split <;> rfl

/-- A sweep begins: it ends, takes its first window, or waits. -/
theorem startSweep (h : Books s u) {c : CtxId} {w : Work} {d : Nat} (hw : u.work c = some w)
    (hj : w.job = .closeDomain d) (hnp : w.phase ≠ .post) : Books s (startSweep c d u) := by
  unfold Machine.startSweep
  split
  · exact h.closeSweep 0 hw hj hnp
  · exact h.tryTakeWindow c

/-- A context in POST becomes FREE, and waiting sweeps are offered windows. -/
theorem postResponse (h : Books s u) {c : CtxId} (hp : u.inPost c = true) : Books s (postResponse c u) := by
  unfold Machine.postResponse
  split
  · exact h
  · rename_i w hw
    split
    · exact h
    · rename_i r _
      have hph : w.phase = .post := by
        unfold State.inPost at hp
        rw [hw] at hp
        simpa using hp
      have h1 : Books s (Machine.setWork c none (placeResponse r { u with respPtr := Fin.ofNat 17 c.val })) :=
        h.move (fun _ => .free c w hw hph (work_setWork_same _ _ _) (fun c' hne => work_setWork_other _ _ hne)
          (fun _ => rfl) (fun _ => rfl))
      refine Books.offerWindows (h1.keeps ?_)
      unfold servingIfFormat
      split
      · exact (Keeps.refl _).same rfl
      all_goals exact Keeps.refl _

end Books

end Sys2Proof.Machine
end

