-- ==== Sys2Proof/Laws/Serving.lean ====
section
/-! SUPPORT. What the serving of a waiter leaves of the Miss Queue and of the Record Cache: entries lose waiters and gain
none, and a resident granule stays resident. -/

namespace Sys2Proof.Machine

/-- A later state of the serving of waiters. -/
structure Serving (s t : State) : Prop where
  miss : ∃ p : Waiter → Bool, t.miss = s.miss.map (fun e => { e with waiters := e.waiters.filter p })
  resident : ∀ g, s.resident g ≠ none → t.resident g ≠ none

namespace Serving

variable {s u : State}

/-- Entries that lose no waiter. -/
theorem keepAll (es : List MissEntry) :
    es = es.map (fun e => { e with waiters := e.waiters.filter (fun _ => true) }) := by
  induction es with
  | nil => rfl
  | cons e es ih =>
      rw [List.map_cons, ← ih]
      have : e.waiters.filter (fun _ => true) = e.waiters := List.filter_eq_self.2 (fun _ _ => rfl)
      rw [this]

theorem refl (s : State) : Serving s s := ⟨⟨fun _ => true, keepAll _⟩, fun _ h => h⟩

theorem trans {a b c : State} (h : Serving a b) (k : Serving b c) : Serving a c := by
  obtain ⟨p, hp⟩ := h.miss
  obtain ⟨q, hq⟩ := k.miss
  refine ⟨⟨fun w => p w && q w, ?_⟩, fun g hg => k.resident g (h.resident g hg)⟩
  rw [hq, hp, List.map_map]
  refine List.map_congr_left (fun e _ => ?_)
  simp [Function.comp, List.filter_filter, Bool.and_comm]

/-- An update that leaves the Miss Queue and the Record Cache. -/
theorem same (h : Serving s u) {t : State} (hk : (t.miss, t.cache) = (u.miss, u.cache)) : Serving s t := by
  simp only [Prod.mk.injEq] at hk
  refine h.trans ⟨⟨fun _ => true, hk.1.trans (keepAll _)⟩, fun g hg => ?_⟩
  have : t.resident g = u.resident g := by simp only [State.resident, State.cacheSet, hk.2]
  rwa [this]

theorem modLink (h : Serving s u) (l : LinkId) (f : Link → Link) : Serving s (modLink l f u) := h.same rfl

theorem placeFrame (h : Serving s u) (l : LinkId) (f : TxFrame) : Serving s (placeFrame l f u) := h.same rfl

theorem setWork (h : Serving s u) (c : CtxId) (w : Option Work) : Serving s (setWork c w u) := h.same rfl

theorem modWork (h : Serving s u) (c : CtxId) (f : Work → Work) : Serving s (modWork c f u) := h.same rfl

theorem advanceSeq (h : Serving s u) (c : CtxId) : Serving s (advanceSeq c u) := h.same rfl

theorem modDomain (h : Serving s u) (d : Nat) (f : DomainRecord → DomainRecord) : Serving s (modDomain d f u) :=
  h.same rfl

theorem modGroup (h : Serving s u) (g : Nat) (f : GroupRecord → GroupRecord) : Serving s (modGroup g f u) := h.same rfl

/-- A fold of operations. -/
theorem foldl {α : Type} {f : State → α → State} (hf : ∀ v a, Serving s v → Serving s (f v a)) (h : Serving s u)
    (l : List α) : Serving s (l.foldl f u) := by
  induction l generalizing u with
  | nil => exact h
  | cons a l ih => exact ih (hf u a h)

/-- A granule is resident where a way of its set holds it. -/
theorem resident_iff (s : State) (g : Nat) : s.resident g ≠ none ↔ ∃ n, (s.cacheSet g).find g = some n := by
  unfold State.resident
  cases hf : (s.cacheSet g).find g with
  | none => simp
  | some n =>
      simp only [ne_eq, Option.map_eq_none_iff, Option.some.injEq, exists_eq', iff_true]
      intro hn
      unfold CacheSet.find at hf
      split at hf
      · cases hf
        rename_i hw
        change (s.cacheSet g).way0 = none at hn
        rw [hn] at hw
        cases hw
      · split at hf
        · cases hf
          rename_i hw
          change (s.cacheSet g).way1 = none at hn
          rw [hn] at hw
          cases hw
        · cases hf

/-- The sets after one set is replaced. -/
theorem cacheSet_put (g g' : Nat) (x : CacheSet) (s : State) :
    (Machine.putCacheSet g x s).cacheSet g' = if setOf g' = setOf g then x else s.cacheSet g' := by
  unfold State.cacheSet Machine.putCacheSet
  dsimp only
  split
  · rename_i h
    rw [h]
    exact tableGet_tablePut_same _ _ _ _
  · rename_i h
    exact tableGet_tablePut_other _ _ _ h

/-- A set in which a way takes another copy of the granule it holds. -/
theorem find_put {x : CacheSet} {g g' : Nat} {n : WayName} (r : GranuleRecord) (hn : x.find g = some n)
    (h : ∃ m, x.find g' = some m) : ∃ m, (x.put n (some { granule := g, record := r, dirty := true })).find g' = some m := by
  obtain ⟨w0, w1, lru⟩ := x
  obtain ⟨m, hm⟩ := h
  unfold CacheSet.find at hn hm ⊢
  cases n with
  | way0 =>
      have h0 : holdsGranule g w0 = true := by
        by_cases h : holdsGranule g w0 = true
        · exact h
        · simp [h] at hn
      simp only [CacheSet.put]
      by_cases hg : g = g'
      · subst hg
        exact ⟨.way0, by simp [holdsGranule]⟩
      · have h0' : holdsGranule g' w0 = false := by
          cases w0 with
          | none => rfl
          | some w =>
              simp only [holdsGranule, beq_iff_eq] at h0
              simp [holdsGranule, h0, hg]
        simp only [h0', Bool.false_eq_true, if_false] at hm
        have : holdsGranule g' (some { granule := g, record := r, dirty := true }) = false := by simp [holdsGranule, hg]
        simp only [this, Bool.false_eq_true, if_false]
        exact ⟨m, hm⟩
  | way1 =>
      have h1 : holdsGranule g w1 = true := by
        by_cases h : holdsGranule g w0 = true
        · simp [h] at hn
        · by_cases h' : holdsGranule g w1 = true
          · exact h'
          · simp [h, h'] at hn
      simp only [CacheSet.put]
      by_cases h0 : holdsGranule g' w0 = true
      · exact ⟨.way0, by simp [h0]⟩
      · simp only [h0, Bool.false_eq_true, if_false] at hm ⊢
        by_cases hg : g = g'
        · subst hg
          exact ⟨.way1, by simp [holdsGranule]⟩
        · have h1' : holdsGranule g' w1 = false := by
            cases w1 with
            | none => rfl
            | some w =>
                simp only [holdsGranule, beq_iff_eq] at h1
                simp [holdsGranule, h1, hg]
          simp [h1'] at hm

theorem writeResident (h : Serving s u) (g : Nat) (r : GranuleRecord) : Serving s (writeResident g r u) := by
  unfold Machine.writeResident
  split
  · rename_i n hn
    refine h.trans ⟨⟨fun _ => true, keepAll _⟩, fun g' hg' => ?_⟩
    rw [resident_iff] at hg' ⊢
    rw [cacheSet_put]
    split
    · rename_i hs
      have : u.cacheSet g' = u.cacheSet g := by unfold State.cacheSet; rw [hs]
      rw [this] at hg'
      exact find_put r hn hg'
    · exact hg'
  · exact h

theorem presentToContexts (h : Serving s u) (f : Work → Work) : Serving s (presentToContexts f u) :=
  h.foldl (fun _ c hv => hv.modWork c f) _

theorem offerNotice (h : Serving s u) (b : NoticeBody) : Serving s (offerNotice b u) := by
  unfold Machine.offerNotice
  split <;> exact h.same rfl

theorem countEvent (h : Serving s u) (n : CounterName) : Serving s (countEvent n u) := by
  unfold Machine.countEvent
  dsimp only
  split
  · have h' : Serving s (setCounter n { value := 0, wrapped := true } u) := h.same rfl
    exact h'.offerNotice _
  · exact h.same rfl

theorem endPacing (h : Serving s u) : Serving s (endPacing u) := by
  have h' : Serving s { u with pacing := false } := h.same rfl
  exact h'.foldl (f := fun s l => Machine.modLink l Machine.returnCredits s) (fun _ l hv => hv.modLink l _) _

theorem testPacing (h : Serving s u) : Serving s (testPacing u) := by
  unfold Machine.testPacing
  split
  · exact h.same rfl
  · split
    · exact h.endPacing
    · exact h

theorem presentOccupancy (h : Serving s u) (b : State) : Serving s (presentOccupancy b u) := by
  unfold Machine.presentOccupancy
  split
  · exact h
  · have h' : Serving s { u with
        parkMark := followOccupancy u.settings.parkMode u.park.length u.parkMark
        missMark := followOccupancy u.settings.missMode u.miss.length u.missMark } := h.same rfl
    exact h'.testPacing

theorem queueVerdict (h : Serving s u) (k : Check) (v : Verdict) : Serving s (queueVerdict k v u) := h.modLink _ _

theorem advanceTally (h : Serving s u) (k : Check) (cls : FaultClass) : Serving s (advanceTally k cls u) := by
  unfold Machine.advanceTally
  split
  · exact h
  · split
    · exact h
    · split
      · exact (h.modDomain _ _).offerNotice _
      · exact h.modDomain _ _

theorem answerRetry (h : Serving s u) (k : Check) : Serving s (answerRetry k u) :=
  (h.queueVerdict _ _).countEvent _

theorem answerGrant (h : Serving s u) (k : Check) (r : Rights) (g : BitVec 8) (b : Bool) :
    Serving s (answerGrant k r g b u) := (h.queueVerdict _ _).countEvent _

theorem answerDenial (h : Serving s u) (k : Check) (cls : FaultClass) (g : BitVec 8) :
    Serving s (answerDenial k cls g u) := by
  unfold Machine.answerDenial
  refine countEvent (advanceTally ?_ k cls) _
  split
  · exact (h.queueVerdict _ _).offerNotice _
  · exact h.queueVerdict _ _

theorem parkCheck (h : Serving s u) (k : Check) : Serving s (parkCheck k u) := by
  unfold Machine.parkCheck
  split
  · have h' : Serving s { u with park := u.park ++ [k] } := h.same rfl
    exact (h'.presentOccupancy u).countEvent _
  · exact h.answerRetry _

theorem decideCheck (h : Serving s u) (k : Check) (r : GranuleRecord) : Serving s (decideCheck k r u).1 := by
  unfold Machine.decideCheck
  split
  · exact h.answerGrant _ _ _ _
  · exact h.answerDenial _ _ _
  · exact h.parkCheck _

theorem decideResident (h : Serving s u) (k : Check) (r : GranuleRecord) : Serving s (decideResident k r u) := by
  unfold Machine.decideResident
  dsimp only
  split
  · exact h.decideCheck k r
  · exact (h.decideCheck k r).writeResident _ _

theorem beginAttempt (h : Serving s u) (n : Nat) (l : LinkId) : Serving s (beginAttempt n l u) :=
  h.modLink _ _

theorem startAttempts (h : Serving s u) (l : LinkId) : Serving s (startAttempts l u) :=
  (h.beginAttempt _ _).countEvent _

theorem discardChecks (h : Serving s u) (l : LinkId) : Serving s (discardChecks l u) := by
  have h' : Serving s (removeWaiters (Waiter.ofLink l) { u with park := u.park.filter (fun k => !(k.link == l)) }) :=
    h.trans ⟨⟨fun w => !Waiter.ofLink l w, rfl⟩, fun _ hg => hg⟩
  exact h'.presentOccupancy u

theorem leaveUpToRejoin (h : Serving s u) (l : LinkId) (cause : DownCause) : Serving s (leaveUpToRejoin l cause u) :=
  ((((h.modLink l _).discardChecks l).presentToContexts _).offerNotice _).startAttempts _

theorem releaseReservation (h : Serving s u) (job : Job) (n : Nat) : Serving s (releaseReservation job n u) := by
  unfold Machine.releaseReservation
  split <;> first | exact h | exact h.modDomain _ _ | exact h.modGroup _ _

theorem carveRun (h : Serving s u) (c : CtxId) : Serving s (carveRun c u) := h.modWork _ _

theorem carveSweepRun (h : Serving s u) (c : CtxId) : Serving s (carveSweepRun c u) := h.modWork _ _

theorem closeSweep (h : Serving s u) (c : CtxId) (d lost : Nat) : Serving s (closeSweep c d lost u) :=
  (h.modDomain _ _).modWork _ _

theorem tryTakeWindow (h : Serving s u) (c : CtxId) : Serving s (tryTakeWindow c u) := by
  unfold Machine.tryTakeWindow
  repeat' split
  all_goals first | exact h | exact h.closeSweep _ _ _ | exact h.setWork _ _

theorem offerWindows (h : Serving s u) : Serving s (offerWindows u) :=
  h.foldl (fun _ _ hv => hv.tryTakeWindow _) _

theorem finishWindow (h : Serving s u) (c : CtxId) (d : Nat) : Serving s (finishWindow c d u) := by
  unfold Machine.finishWindow
  dsimp only
  refine offerWindows ?_
  repeat' split
  all_goals first | exact h.modWork _ _ | exact (h.modWork _ _).closeSweep _ _ _

theorem sweepRunEnded (h : Serving s u) (c : CtxId) (d : Nat) : Serving s (sweepRunEnded c d u) := by
  unfold Machine.sweepRunEnded
  split
  · exact (h.closeSweep _ _ _).offerWindows
  · split
    · split
      · exact h.finishWindow _ _
      · exact h.carveSweepRun _
    · exact h

theorem endRun (h : Serving s u) (c : CtxId) : Serving s (endRun c u) := by
  unfold Machine.endRun
  split
  · exact h
  · split
    · exact h
    · dsimp only
      split
      · exact ((h.advanceSeq _).modWork _ _).sweepRunEnded _ _
      all_goals
        split
        · exact (((h.advanceSeq _).modWork _ _).modWork _ _).releaseReservation _ _
        · split
          · exact ((h.advanceSeq _).modWork _ _).carveRun _
          · exact ((h.advanceSeq _).modWork _ _).modWork _ _

theorem serveRead (h : Serving s u) (c : CtxId) (r : GranuleRecord) : Serving s (serveRead c r u) := by
  unfold Machine.serveRead
  split
  · exact h
  · dsimp only
    split
    · unfold validateRecord
      split
      · exact (h.setWork _ _).releaseReservation _ _
      · unfold validateNext
        split
        · exact h.setWork _ _
        · exact (h.setWork _ _).carveRun _
    · unfold sweepRead sweepReadNext
      split
      · exact h.setWork _ _
      · split
        · exact (h.setWork _ _).finishWindow _ _
        · exact (h.setWork _ _).carveSweepRun _
    · exact h.setWork _ _
    · exact h

theorem recallTo (h : Serving s u) (c : CtxId) (base order : Nat) (l : LinkId) :
    Serving s (recallTo c base order l u) := by
  unfold Machine.recallTo
  dsimp only
  split
  · split
    · exact ((h.placeFrame _ _).countEvent _).modWork _ _
    · exact (h.leaveUpToRejoin _ _).modWork _ _
  all_goals exact h.modWork _ _

theorem recallFanOut (h : Serving s u) (c : CtxId) (base order : Nat) (union : LinkSet) :
    Serving s (recallFanOut c base order union u) :=
  (foldl (fun _ l hv => hv.recallTo c base order l) (h.modWork _ _) _).modWork _ _

theorem endMark (h : Serving s u) (c : CtxId) : Serving s (endMark c u) := by
  unfold Machine.endMark
  split
  · exact h
  · split
    · dsimp only
      split
      · exact (h.releaseReservation _ _).endRun _
      · split
        · exact (h.setWork _ _).recallFanOut _ _ _ _
        · split <;> exact h.setWork _ _
    · exact h

theorem markRecord (h : Serving s u) (c : CtxId) (w : Work) (op : RangeOp) (r : GranuleRecord) :
    Serving s (markRecord c w op r u) := by
  unfold Machine.markRecord
  split
  · exact h.setWork _ _
  · exact h.setWork _ _
  · exact (h.setWork _ _).writeResident _ _

theorem serveUpdate (h : Serving s u) (c : CtxId) (r : GranuleRecord) : Serving s (serveUpdate c r u) := by
  unfold Machine.serveUpdate
  split
  · exact h
  · split
    · dsimp only
      split
      · exact (h.markRecord _ _ _ _).modWork _ _
      · exact (h.markRecord _ _ _ _).endMark _
    · exact h

theorem serveContext (h : Serving s u) (c : CtxId) (r : GranuleRecord) : Serving s (serveContext c r u) := by
  unfold Machine.serveContext
  split
  · exact h.serveRead _ _
  · exact h.serveUpdate _ _
  all_goals exact h

end Serving
end Sys2Proof.Machine
end

