-- ==== Sys2Proof/Laws/Credits.lean ====
section
/-! SUPPORT. Law L9 operation by operation: one lemma per shared operation says that it keeps the credits, with the
checks that have left their places and await their decision carried beside the state. -/

namespace Sys2Proof.Machine

/-- Law L9 while the checks `x` have left their places and are not decided yet. -/
structure Credits (x : List Check) (s : State) : Prop where
  link : ∀ l : LinkId,
    (s.link l).accounting.length + (s.link l).withheld ≤ 32 ∧
    ((s.link l).state ≠ .up → (s.link l).accounting = [] ∧ (s.link l).withheld = 0) ∧
    (((x ++ s.waitingChecks).filter (fun k => k.link == l) ++ (s.link l).lane).map Check.tag).Perm (s.link l).accounting ∧
    ∀ k ∈ (s.link l).lane, k.link = l
  entries : (s.miss.map MissEntry.granule).Nodup

/-- The law is what Credits says of a state in which every check is in its place. -/
theorem credits_iff (s : State) : Credits [] s ↔ s.creditsKept := by
  have swap : ∀ l, (((([] : List Check) ++ s.waitingChecks).filter (fun k => k.link == l) ++ (s.link l).lane).map
      Check.tag).Perm ((s.checksHeld l).map Check.tag) := fun l => by
    simpa [State.checksHeld] using List.perm_append_comm
  constructor
  · intro h
    refine ⟨fun l => ?_, h.entries⟩
    obtain ⟨h1, h2, h3, h4⟩ := h.link l
    have h5 := (swap l).symm.trans h3
    have hlen := h5.length_eq
    rw [List.length_map] at hlen
    refine ⟨by show _ ≤ 32; omega, fun hu => ?_, h5, h4⟩
    obtain ⟨ha, hw⟩ := h2 hu
    rw [ha] at hlen
    exact ⟨List.eq_nil_of_length_eq_zero hlen, hw⟩
  · intro h
    refine ⟨fun l => ?_, h.2⟩
    obtain ⟨h1, h2, h3, h4⟩ := h.1 l
    have hlen := h3.length_eq
    rw [List.length_map] at hlen
    have h1 : (s.checksHeld l).length + (s.link l).withheld ≤ 32 := h1
    refine ⟨by omega, fun hu => ?_, (swap l).trans h3, h4⟩
    obtain ⟨ha, hw⟩ := h2 hu
    rw [ha] at hlen
    exact ⟨List.eq_nil_of_length_eq_zero hlen.symm, hw⟩

namespace Credits

variable {x : List Check} {u : State}

/-- An update that leaves the links, the Park Queue and the Miss Queue. -/
theorem same (h : Credits x u) {t : State} (hk : (t.links, t.park, t.miss) = (u.links, u.park, u.miss)) :
    Credits x t := by
  simp only [Prod.mk.injEq] at hk
  obtain ⟨h1, h2, h3⟩ := hk
  refine ⟨fun l => ?_, by rw [h3]; exact h.entries⟩
  have := h.link l
  simp only [State.waitingChecks, State.link, h1, h2, h3] at this ⊢
  exact this

/-- The part of the law that is about one link. -/
theorem of_links {t : State} (h : Credits x u) (hw : t.waitingChecks = u.waitingChecks)
    (hm : t.miss.map MissEntry.granule = u.miss.map MissEntry.granule)
    (hl : ∀ l, (t.link l).state = (u.link l).state ∧ (t.link l).accounting = (u.link l).accounting ∧
      (t.link l).lane = (u.link l).lane ∧ (t.link l).withheld ≤ (u.link l).withheld) : Credits x t := by
  refine ⟨fun l => ?_, by rw [hm]; exact h.entries⟩
  obtain ⟨e1, e2, e3, e4⟩ := hl l
  obtain ⟨h1, h2, h3, h4⟩ := h.link l
  rw [e1, e2, e3, hw]
  exact ⟨by omega, fun hu => ⟨(h2 hu).1, by have := (h2 hu).2; omega⟩, h3, h4⟩

theorem modLink (h : Credits x u) (l : LinkId) (f : Link → Link)
    (hf : (f (u.link l)).state = (u.link l).state ∧ (f (u.link l)).accounting = (u.link l).accounting ∧
      (f (u.link l)).lane = (u.link l).lane ∧ (f (u.link l)).withheld ≤ (u.link l).withheld) :
    Credits x (modLink l f u) := by
  refine h.of_links rfl rfl (fun l' => ?_)
  by_cases hl : l' = l
  · subst hl
    rw [link_modLink_same]
    exact hf
  · rw [link_modLink_other f u hl]
    exact ⟨rfl, rfl, rfl, Nat.le_refl _⟩

theorem placeFrame (h : Credits x u) (l : LinkId) (f : TxFrame) : Credits x (placeFrame l f u) :=
  h.modLink _ _ ⟨rfl, rfl, rfl, Nat.le_refl _⟩

theorem setWork (h : Credits x u) (c : CtxId) (w : Option Work) : Credits x (setWork c w u) := h.same rfl

theorem modWork (h : Credits x u) (c : CtxId) (f : Work → Work) : Credits x (modWork c f u) := h.same rfl

theorem advanceSeq (h : Credits x u) (c : CtxId) : Credits x (advanceSeq c u) := h.same rfl

theorem modDomain (h : Credits x u) (d : Nat) (f : DomainRecord → DomainRecord) : Credits x (modDomain d f u) :=
  h.same rfl

theorem modGroup (h : Credits x u) (g : Nat) (f : GroupRecord → GroupRecord) : Credits x (modGroup g f u) := h.same rfl

theorem putCacheSet (h : Credits x u) (g : Nat) (y : CacheSet) : Credits x (putCacheSet g y u) := h.same rfl

theorem issueWrite (h : Credits x u) (g : Nat) (r : GranuleRecord) : Credits x (issueWrite g r u) := h.same rfl

theorem issueRead (h : Credits x u) (g : Nat) : Credits x (issueRead g u) := h.same rfl

/-- A fold of operations, each of which keeps the credits. -/
theorem foldl {α : Type} {f : State → α → State} (hf : ∀ v a, Credits x v → Credits x (f v a)) (h : Credits x u)
    (l : List α) : Credits x (l.foldl f u) := by
  induction l generalizing u with
  | nil => exact h
  | cons a l ih => exact ih (hf u a h)

theorem presentToContexts (h : Credits x u) (f : Work → Work) : Credits x (presentToContexts f u) :=
  h.foldl (fun _ c hv => hv.modWork c f) _

/-! ## Notices, counters, pacing -/

theorem offerNotice (h : Credits x u) (b : NoticeBody) : Credits x (offerNotice b u) := by
  unfold Machine.offerNotice
  split <;> exact h.same rfl

theorem countEvent (h : Credits x u) (n : CounterName) : Credits x (countEvent n u) := by
  unfold Machine.countEvent
  dsimp only
  split
  · have h' : Credits x (setCounter n { value := 0, wrapped := true } u) := h.same rfl
    exact h'.offerNotice _
  · exact h.same rfl

theorem returnCredits (h : Credits x u) (l : LinkId) : Credits x (Machine.modLink l returnCredits u) := by
  refine h.modLink _ _ ?_
  unfold Machine.returnCredits
  split <;> simp

theorem endPacing (h : Credits x u) : Credits x (endPacing u) := by
  have h' : Credits x { u with pacing := false } := h.same rfl
  exact h'.foldl (f := fun s l => Machine.modLink l Machine.returnCredits s) (fun _ l hv => hv.returnCredits l) _

theorem testPacing (h : Credits x u) : Credits x (testPacing u) := by
  unfold Machine.testPacing
  split
  · exact h.same rfl
  · split
    · exact h.endPacing
    · exact h

theorem presentOccupancy (h : Credits x u) (b : State) : Credits x (presentOccupancy b u) := by
  unfold Machine.presentOccupancy
  split
  · exact h
  · have h' : Credits x { u with
        parkMark := followOccupancy u.settings.parkMode u.park.length u.parkMark
        missMark := followOccupancy u.settings.missMode u.miss.length u.missMark } := h.same rfl
    exact h'.testPacing

/-! ## The Record Cache and the Miss Queue -/

theorem touchResident (h : Credits x u) (g : Nat) : Credits x (touchResident g u) := by
  unfold Machine.touchResident
  split <;> exact h.same rfl

theorem writeResident (h : Credits x u) (g : Nat) (r : GranuleRecord) : Credits x (writeResident g r u) := by
  unfold Machine.writeResident
  split <;> exact h.same rfl

theorem writeBackVictim (h : Credits x u) (v : Option Way) : Credits x (writeBackVictim v u) := by
  unfold Machine.writeBackVictim
  split
  · split
    · exact (h.issueWrite _ _).countEvent _
    · exact h
  · exact h

theorem installRecord (h : Credits x u) (g : Nat) (r : GranuleRecord) : Credits x (installRecord g r u) :=
  (h.writeBackVictim _).putCacheSet _ _

/-- An update of the entries that leaves their granules and their waiters. -/
theorem mapEntries {f : MissEntry → MissEntry} (hf : ∀ e, (f e).granule = e.granule ∧ (f e).waiters = e.waiters)
    (h : Credits x u) : Credits x { u with miss := u.miss.map f } := by
  refine h.of_links ?_ ?_ (fun _ => ⟨rfl, rfl, rfl, Nat.le_refl _⟩)
  · simp [State.waitingChecks, List.flatMap_map, hf]
  · simp [hf]

/-- A granule without an entry leaves the entries as they are. -/
theorem map_of_no_entry {g : Nat} {f : MissEntry → MissEntry} {es : List MissEntry}
    (h : es.find? (fun e => e.granule == g) = none) : es.map (fun e => if e.granule = g then f e else e) = es := by
  rw [List.find?_eq_none] at h
  refine (List.map_congr_left (fun e he => ?_)).trans (List.map_id es)
  have : e.granule ≠ g := by simpa using h e he
  simp [this]

/-- The entries with one more waiter in the entry of a granule hold that waiter besides. -/
theorem join_perm {g : Nat} {w : Waiter} {es : List MissEntry} {e : MissEntry}
    (hn : (es.map MissEntry.granule).Nodup) (he : es.find? (fun e => e.granule == g) = some e) :
    ((es.map (fun e => if e.granule = g then { e with waiters := e.waiters ++ [w] } else e)).flatMap
      (fun e => e.waiters.filterMap Waiter.asCheck)).Perm
    ([w].filterMap Waiter.asCheck ++ es.flatMap (fun e => e.waiters.filterMap Waiter.asCheck)) := by
  induction es with
  | nil => simp at he
  | cons a es ih =>
      simp only [List.map_cons, List.nodup_cons] at hn
      by_cases ha : a.granule = g
      · have rest : es.map (fun e => if e.granule = g then { e with waiters := e.waiters ++ [w] } else e) = es := by
          refine map_of_no_entry (f := fun e => { e with waiters := e.waiters ++ [w] }) ?_
          rw [List.find?_eq_none]
          intro y hy
          have : y.granule ≠ g := fun hyg => hn.1 (by rw [ha, ← hyg]; exact List.mem_map_of_mem hy)
          simpa using this
        simp only [List.map_cons, List.flatMap_cons, rest, ha, if_true, List.filterMap_append]
        exact (List.perm_append_comm.append_right _).trans (by simp)
      · have he' : es.find? (fun e => e.granule == g) = some e := by
          simpa [List.find?_cons, ha] using he
        simp only [List.map_cons, List.flatMap_cons, ha, if_false]
        exact ((ih hn.2 he').append_left _).trans (by
          rw [← List.append_assoc, ← List.append_assoc]
          exact List.perm_append_comm.append_right _)

/-- The waiting checks and those without a place, in another order. -/
theorem reorder {y : List Check} {t : State} (h : Credits x u) (hl : t.links = u.links)
    (hp : (y ++ t.waitingChecks).Perm (x ++ u.waitingChecks)) (hm : (t.miss.map MissEntry.granule).Nodup) :
    Credits y t := by
  refine ⟨fun l => ?_, hm⟩
  obtain ⟨h1, h2, h3, h4⟩ := h.link l
  rw [link_of_links_eq hl l]
  exact ⟨h1, h2, (((hp.filter _).append_right _).map _).trans h3, h4⟩

/-- A waiter that the Miss Queue takes has its place there. -/
theorem takeMiss {g : Nat} {w : Waiter} {t : State} (h : Credits ([w].filterMap Waiter.asCheck ++ x) u)
    (ht : takeMiss g w u = some t) : Credits x t := by
  unfold Machine.takeMiss at ht
  split at ht
  · rename_i e he
    split at ht
    · cases ht
      refine h.reorder rfl ?_ ?_
      · have hj := List.perm_iff_count.1 (join_perm (w := w) h.entries he)
        refine List.perm_iff_count.2 (fun a => ?_)
        have ha := hj a
        simp only [State.waitingChecks, Machine.modEntry, List.count_append] at ha ⊢
        omega
      · have : (Machine.modEntry g (fun e => { e with waiters := e.waiters ++ [w] }) u).miss.map MissEntry.granule =
            u.miss.map MissEntry.granule := by
          simp only [Machine.modEntry, List.map_map]
          refine List.map_congr_left (fun e _ => ?_)
          simp only [Function.comp]
          split <;> rfl
        rw [this]
        exact h.entries
    · cases ht
  · rename_i he
    split at ht
    · cases ht
      have h' : Credits x { u with miss := u.miss ++ [{ granule := g, waiters := [w], superseding := none }] } := by
        refine h.reorder rfl ?_ ?_
        · refine List.perm_iff_count.2 (fun a => ?_)
          simp only [State.waitingChecks, List.flatMap_append, List.flatMap_cons, List.flatMap_nil, List.append_nil,
            List.count_append]
          omega
        · have hg : g ∉ u.miss.map MissEntry.granule := by
            intro hg
            obtain ⟨e, hem, heg⟩ := List.mem_map.1 hg
            have := List.find?_eq_none.1 he e hem
            simp [heg] at this
          simp only [List.map_append, List.map_cons, List.map_nil]
          rw [List.nodup_append]
          exact ⟨h.entries, by simp, by
            intro a ha b hb
            simp only [List.mem_singleton] at hb
            subst hb
            exact fun hab => hg (hab ▸ ha)⟩
      exact (h'.issueRead g).presentOccupancy u
    · cases ht

/-! ## Deciding a check -/

/-- A verdict: the check leaves the part, and its tag the accounting. -/
theorem queueVerdict {k : Check} (h : Credits (k :: x) u) (v : Verdict) : Credits x (queueVerdict k v u) := by
  refine ⟨fun l => ?_, h.entries⟩
  obtain ⟨h1, h2, h3, h4⟩ := h.link l
  by_cases hl : l = k.link
  · subst hl
    simp only [List.cons_append, List.filter_cons, beq_self_eq_true, if_true, List.map_cons] at h3
    obtain ⟨hmem, herase⟩ := List.cons_perm_iff_perm_erase.1 h3
    have hlen : ((u.link k.link).accounting.erase k.tag).length + 1 = (u.link k.link).accounting.length := by
      rw [List.length_erase_of_mem hmem]
      have := List.length_pos_of_mem hmem
      omega
    have hup : (u.link k.link).state = .up := by
      by_cases hu : (u.link k.link).state = .up
      · exact hu
      · rw [(h2 hu).1] at hmem
        cases hmem
    unfold Machine.queueVerdict
    rw [link_modLink_same]
    refine ⟨?_, fun hu => absurd hup hu, herase, h4⟩
    dsimp only
    split <;> omega
  · unfold Machine.queueVerdict
    rw [link_modLink_other _ _ hl]
    have : (k.link == l) = false := by simpa using fun e => hl e.symm
    simp only [List.cons_append, List.filter_cons, this] at h3
    exact ⟨h1, h2, h3, h4⟩

theorem advanceTally (h : Credits x u) (k : Check) (cls : FaultClass) : Credits x (advanceTally k cls u) := by
  unfold Machine.advanceTally
  split
  · exact h
  · split
    · exact h
    · split
      · exact (h.modDomain _ _).offerNotice _
      · exact h.modDomain _ _

theorem answerRetry {k : Check} (h : Credits (k :: x) u) : Credits x (answerRetry k u) :=
  (h.queueVerdict _).countEvent _

theorem answerGrant {k : Check} (h : Credits (k :: x) u) (r : Rights) (g : BitVec 8) (b : Bool) :
    Credits x (answerGrant k r g b u) := (h.queueVerdict _).countEvent _

theorem answerDenial {k : Check} (h : Credits (k :: x) u) (cls : FaultClass) (g : BitVec 8) :
    Credits x (answerDenial k cls g u) := by
  unfold Machine.answerDenial
  refine countEvent (advanceTally ?_ k cls) _
  split
  · exact (h.queueVerdict _).offerNotice _
  · exact h.queueVerdict _

theorem parkCheck {k : Check} (h : Credits (k :: x) u) : Credits x (parkCheck k u) := by
  unfold Machine.parkCheck
  split
  · have h' : Credits x { u with park := u.park ++ [k] } := by
      refine h.reorder rfl (List.perm_iff_count.2 (fun a => ?_)) h.entries
      simp only [State.waitingChecks, List.cons_append, List.count_cons, List.count_append, List.count_nil]
      omega
    exact (h'.presentOccupancy u).countEvent _
  · exact h.answerRetry

theorem decideCheck {k : Check} (h : Credits (k :: x) u) (r : GranuleRecord) : Credits x (decideCheck k r u).1 := by
  unfold Machine.decideCheck
  split
  · exact h.answerGrant _ _ _
  · exact h.answerDenial _ _
  · exact h.parkCheck

theorem decideResident {k : Check} (h : Credits (k :: x) u) (r : GranuleRecord) : Credits x (decideResident k r u) := by
  unfold Machine.decideResident
  dsimp only
  split
  · exact h.decideCheck r
  · exact (h.decideCheck r).writeResident _ _

theorem decideParked (ks : List Check) (records : List (Nat × GranuleRecord)) (h : Credits (ks ++ x) u) :
    Credits x (decideParked ks records u).1 := by
  induction ks generalizing u records with
  | nil => exact h
  | cons k ks ih => exact ih _ (h.decideCheck _)

/-- Parked checks that have left the Park Queue. -/
theorem unpark (h : Credits x u) (p : Check → Bool) :
    Credits (u.park.filter p ++ x) { u with park := u.park.filter (fun k => !p k) } := by
  refine h.reorder rfl (List.perm_iff_count.2 (fun a => ?_)) h.entries
  have key := List.perm_iff_count.1 (List.filter_append_perm p u.park) a
  simp only [State.waitingChecks, List.count_append] at key ⊢
  omega

theorem redecideRun (h : Credits x u) (base count : Nat) (records : List (Nat × GranuleRecord)) :
    Credits x (redecideRun base count records u).1 :=
  decideParked _ _ ((h.unpark _).presentOccupancy u)

theorem decideAllResident (g : Nat) (ks : List Check) (h : Credits (ks ++ x) u) : Credits x (decideAllResident g ks u) := by
  induction ks generalizing u with
  | nil => exact h
  | cons k ks ih => exact ih (h.decideResident _)

theorem redecideGranule (h : Credits x u) (g : Nat) : Credits x (redecideGranule g u) :=
  decideAllResident g _ ((h.unpark _).presentOccupancy u)

/-! ## Links -/

theorem beginAttempt (h : Credits x u) (n : Nat) (l : LinkId) : Credits x (beginAttempt n l u) :=
  h.modLink _ _ ⟨rfl, rfl, rfl, Nat.le_refl _⟩

theorem startAttempts (h : Credits x u) (l : LinkId) : Credits x (startAttempts l u) :=
  (h.beginAttempt _ _).countEvent _

theorem huntAgain (h : Credits x u) (l : LinkId) : Credits x (huntAgain l u) :=
  h.modLink _ _ ⟨rfl, rfl, rfl, Nat.le_refl _⟩

theorem takeFrameEvent (h : Credits x u) (l : LinkId) : Credits x (takeFrameEvent l u) :=
  h.modLink _ _ ⟨rfl, rfl, rfl, Nat.le_refl _⟩

/-- The waiting checks without those of a link. -/
theorem waitingChecks_discard (l : LinkId) (s : State) :
    (Machine.removeWaiters (Waiter.ofLink l) { s with park := s.park.filter (fun k => !(k.link == l)) }).waitingChecks =
      s.waitingChecks.filter (fun k => !(k.link == l)) := by
  have key : ∀ ws : List Waiter, (ws.filter (fun w => !Waiter.ofLink l w)).filterMap Waiter.asCheck =
      (ws.filterMap Waiter.asCheck).filter (fun k => !(k.link == l)) := by
    intro ws
    induction ws with
    | nil => rfl
    | cons w ws ih =>
        have hc : ∀ c, Waiter.ofLink l (.context c) = false := fun _ => rfl
        have hk : ∀ k, Waiter.ofLink l (.check k) = (k.link == l) := fun _ => rfl
        have ac : ∀ c, Waiter.asCheck (.context c) = none := fun _ => rfl
        have ak : ∀ k, Waiter.asCheck (.check k) = some k := fun _ => rfl
        cases w with
        | context c => simp only [List.filter_cons, hc, List.filterMap_cons, ac, Bool.not_false, if_true, ih]
        | check k =>
            cases hl : (k.link == l) <;>
              simp [hk, ak, hl, ih]
  simp only [State.waitingChecks, Machine.removeWaiters, List.filter_append, List.flatMap_map, key]
  congr 1
  induction s.miss with
  | nil => rfl
  | cons e es ih => simp [List.flatMap_cons, List.filter_append, ih]

/-- A link that leaves UP: its fields emptied, its checks discarded. -/
theorem leaveUp (h : Credits [] u) (l : LinkId) (f : Link → Link)
    (hf : (f (u.link l)).accounting = [] ∧ (f (u.link l)).lane = [] ∧ (f (u.link l)).withheld = 0) :
    Credits [] (discardChecks l (Machine.modLink l f u)) := by
  have h' : Credits [] (Machine.removeWaiters (Waiter.ofLink l)
      { Machine.modLink l f u with park := u.park.filter (fun k => !(k.link == l)) }) := by
    refine ⟨fun l' => ?_, by simpa [Machine.removeWaiters, Function.comp_def] using h.entries⟩
    have hw := waitingChecks_discard l (Machine.modLink l f u)
    have hl : ∀ l', (Machine.removeWaiters (Waiter.ofLink l)
        { Machine.modLink l f u with park := u.park.filter (fun k => !(k.link == l)) }).link l' =
        (Machine.modLink l f u).link l' := fun _ => rfl
    rw [hl]
    obtain ⟨h1, h2, h3, h4⟩ := h.link l'
    by_cases e : l' = l
    · subst e
      rw [link_modLink_same, hf.1, hf.2.1, hf.2.2]
      refine ⟨by simp, fun _ => ⟨rfl, rfl⟩, ?_, by simp⟩
      erw [hw]
      simp [List.filter_filter]
    · rw [link_modLink_other f u e]
      refine ⟨h1, h2, ?_, h4⟩
      erw [hw]
      have : (u.waitingChecks.filter (fun k => !(k.link == l))).filter (fun k => k.link == l') =
          u.waitingChecks.filter (fun k => k.link == l') := by
        rw [List.filter_filter]
        refine List.filter_congr (fun k _ => ?_)
        by_cases hk : k.link = l'
        · simp [hk, e]
        · simp [hk]
      simp only [List.nil_append]
      show (((List.filter _ (List.filter _ u.waitingChecks)) ++ _).map Check.tag).Perm _
      rw [this]
      exact h3
  exact h'.presentOccupancy _

theorem leaveUpToRejoin (h : Credits [] u) (l : LinkId) (cause : DownCause) : Credits [] (leaveUpToRejoin l cause u) :=
  (((h.leaveUp l _ ⟨rfl, rfl, rfl⟩).presentToContexts _).offerNotice _).startAttempts _

theorem leaveUpToOff (h : Credits [] u) (l : LinkId) : Credits [] (leaveUpToOff l u) :=
  ((h.leaveUp l _ ⟨rfl, rfl, rfl⟩).presentToContexts _).offerNotice _

theorem askRejoin (h : Credits [] u) (l : LinkId) (cause : DownCause) : Credits [] (askRejoin l cause u) := by
  unfold Machine.askRejoin
  split
  · exact h.leaveUpToRejoin _ _
  · exact h

theorem protocolFault (h : Credits [] u) (l : LinkId) (cause : DownCause) : Credits [] (protocolFault l cause u) := by
  unfold Machine.protocolFault
  split
  · exact h.leaveUpToRejoin _ _
  · exact h

/-- A link that is not UP goes to another state; it holds no check and no withheld credit before and after. -/
theorem moveLink (h : Credits x u) (l : LinkId) (f : Link → Link) (hn : (u.link l).state ≠ .up)
    (hf : (f (u.link l)).lane = (u.link l).lane ∧
      ((f (u.link l)).accounting = (u.link l).accounting ∨ (f (u.link l)).accounting = []) ∧
      ((f (u.link l)).withheld = (u.link l).withheld ∨ (f (u.link l)).withheld = 0)) :
    Credits x (Machine.modLink l f u) := by
  refine ⟨fun l' => ?_, h.entries⟩
  obtain ⟨h1, h2, h3, h4⟩ := h.link l'
  by_cases e : l' = l
  · subst e
    obtain ⟨ha, hw⟩ := h2 hn
    rw [link_modLink_same]
    have ha' : (f (u.link l')).accounting = [] := by
      rcases hf.2.1 with e | e
      · rw [e, ha]
      · exact e
    have hw' : (f (u.link l')).withheld = 0 := by
      rcases hf.2.2 with e | e
      · rw [e, hw]
      · exact e
    rw [ha', hw', hf.1]
    rw [ha] at h3
    exact ⟨by simp, fun _ => ⟨rfl, rfl⟩, h3, h4⟩
  · rw [link_modLink_other f u e]
    exact ⟨h1, h2, h3, h4⟩

/-! ## The Change Engine -/

theorem releaseReservation (h : Credits x u) (job : Job) (n : Nat) : Credits x (releaseReservation job n u) := by
  unfold Machine.releaseReservation
  split <;> first | exact h | exact h.modDomain _ _ | exact h.modGroup _ _

theorem carveRun (h : Credits x u) (c : CtxId) : Credits x (carveRun c u) := h.modWork _ _

theorem carveSweepRun (h : Credits x u) (c : CtxId) : Credits x (carveSweepRun c u) := h.modWork _ _

theorem closeSweep (h : Credits x u) (c : CtxId) (d lost : Nat) : Credits x (closeSweep c d lost u) :=
  (h.modDomain _ _).modWork _ _

theorem tryTakeWindow (h : Credits x u) (c : CtxId) : Credits x (tryTakeWindow c u) := by
  unfold Machine.tryTakeWindow
  repeat' split
  all_goals first | exact h | exact h.closeSweep _ _ _ | exact h.setWork _ _

theorem startSweep (h : Credits x u) (c : CtxId) (d : Nat) : Credits x (startSweep c d u) := by
  unfold Machine.startSweep
  split
  · exact h.closeSweep _ _ _
  · exact h.tryTakeWindow _

theorem offerWindows (h : Credits x u) : Credits x (offerWindows u) :=
  h.foldl (fun _ _ hv => hv.tryTakeWindow _) _

theorem finishWindow (h : Credits x u) (c : CtxId) (d : Nat) : Credits x (finishWindow c d u) := by
  unfold Machine.finishWindow
  dsimp only
  refine offerWindows ?_
  repeat' split
  all_goals first | exact h.modWork _ _ | exact (h.modWork _ _).closeSweep _ _ _

theorem sweepRunEnded (h : Credits x u) (c : CtxId) (d : Nat) : Credits x (sweepRunEnded c d u) := by
  unfold Machine.sweepRunEnded
  split
  · exact (h.closeSweep _ _ _).offerWindows
  · split
    · split
      · exact h.finishWindow _ _
      · exact h.carveSweepRun _
    · exact h

theorem endRun (h : Credits x u) (c : CtxId) : Credits x (endRun c u) := by
  unfold Machine.endRun
  split
  · exact h
  · split
    · exact h
    · dsimp only
      split
      · exact ((h.advanceSeq _).modWork _ _).sweepRunEnded _ _
      all_goals
        split
        · exact (((h.advanceSeq _).modWork _ _).modWork _ _).releaseReservation _ _
        · split
          · exact ((h.advanceSeq _).modWork _ _).carveRun _
          · exact ((h.advanceSeq _).modWork _ _).modWork _ _

theorem serveRead (h : Credits x u) (c : CtxId) (r : GranuleRecord) : Credits x (serveRead c r u) := by
  unfold Machine.serveRead
  split
  · exact h
  · dsimp only
    split
    · unfold validateRecord
      split
      · exact (h.setWork _ _).releaseReservation _ _
      · unfold validateNext
        split
        · exact h.setWork _ _
        · exact (h.setWork _ _).carveRun _
    · unfold sweepRead sweepReadNext
      split
      · exact h.setWork _ _
      · split
        · exact (h.setWork _ _).finishWindow _ _
        · exact (h.setWork _ _).carveSweepRun _
    · exact h.setWork _ _
    · exact h

theorem recallTo (h : Credits [] u) (c : CtxId) (base order : Nat) (l : LinkId) :
    Credits [] (recallTo c base order l u) := by
  unfold Machine.recallTo
  dsimp only
  split
  · split
    · exact ((h.placeFrame _ _).countEvent _).modWork _ _
    · exact (h.leaveUpToRejoin _ _).modWork _ _
  all_goals exact h.modWork _ _

theorem recallFanOut (h : Credits [] u) (c : CtxId) (base order : Nat) (union : LinkSet) :
    Credits [] (recallFanOut c base order union u) :=
  (foldl (fun _ l hv => hv.recallTo c base order l) (h.modWork _ _) _).modWork _ _

theorem endMark (h : Credits [] u) (c : CtxId) : Credits [] (endMark c u) := by
  unfold Machine.endMark
  split
  · exact h
  · split
    · dsimp only
      split
      · exact (h.releaseReservation _ _).endRun _
      · split
        · exact (h.setWork _ _).recallFanOut _ _ _ _
        · split <;> exact h.setWork _ _
    · exact h

theorem markRecord (h : Credits x u) (c : CtxId) (w : Work) (op : RangeOp) (r : GranuleRecord) :
    Credits x (markRecord c w op r u) := by
  unfold Machine.markRecord
  split
  · exact h.setWork _ _
  · exact h.setWork _ _
  · exact (h.setWork _ _).writeResident _ _

theorem serveUpdate (h : Credits [] u) (c : CtxId) (r : GranuleRecord) : Credits [] (serveUpdate c r u) := by
  unfold Machine.serveUpdate
  split
  · exact h
  · split
    · dsimp only
      split
      · exact (h.markRecord _ _ _ _).modWork _ _
      · exact (h.markRecord _ _ _ _).endMark _
    · exact h

theorem serveContext (h : Credits [] u) (c : CtxId) (r : GranuleRecord) : Credits [] (serveContext c r u) := by
  unfold Machine.serveContext
  split
  · exact h.serveRead _ _
  · exact h.serveUpdate _ _
  all_goals exact h

theorem runWriteRecord (h : Credits x u) (e : Nat × GranuleRecord) : Credits x (runWriteRecord u e) := by
  unfold Machine.runWriteRecord
  split
  · exact (h.writeResident _ _).touchResident _
  · refine (h.issueWrite _ _).mapEntries (fun y => ?_)
    split <;> exact ⟨rfl, rfl⟩

theorem runWrite (h : Credits x u) (records : List (Nat × GranuleRecord)) : Credits x (runWrite records u) :=
  h.foldl (fun _ e hv => hv.runWriteRecord e) _

theorem sendWipe (h : Credits x u) (c : CtxId) (w : Work) (r : Run) (l : LinkId) : Credits x (sendWipe c w r l u) :=
  ((h.setWork _ _).runWrite _).placeFrame _ _

theorem doWipeStart (h : Credits [] u) (c : CtxId) : Credits [] (doWipeStart c u) := by
  unfold Machine.doWipeStart
  split
  · exact h
  · split
    · exact h
    · split
      · exact h.modWork _ _
      · split
        · split
          · exact h.sendWipe _ _ _ _
          · exact (h.leaveUpToRejoin _ _).modWork _ _
        · exact h.modWork _ _

theorem adjustTables (h : Credits x u) (job : Job) (op : RangeOp) (run : Run) (b : Bool) :
    Credits x (adjustTables job op run b u) := by
  have held : ∀ (a b : Stable) (v : State), Credits x v → Credits x (adjustHeld a b v) := by
    intro a b v hv
    unfold adjustHeld
    repeat' split
    all_goals first | exact hv | exact hv.modDomain _ _ | exact (hv.modDomain _ _).modDomain _ _
  have refs : ∀ (ws : List Stable) (v : State), Credits x v → Credits x (adjustRefs op ws v) := by
    intro ws v hv
    unfold adjustRefs
    split <;> first | exact hv | exact hv.modGroup _ _
  exact releaseReservation (refs _ _ (h.foldl (fun v e hv => held _ _ v hv) _)) _ _

theorem offerFenced (h : Credits x u) (c : CtxId) (w : Work) (run : Run) : Credits x (offerFenced c w run u) := by
  unfold Machine.offerFenced
  repeat' split
  all_goals first | exact h | exact h.offerNotice _

theorem doCommit (h : Credits x u) (c : CtxId) (b : Bool) : Credits x (doCommit c b u) := by
  unfold Machine.doCommit
  split
  · exact h
  · split
    · exact (((((h.adjustTables _ _ _ _).modWork _ _).redecideRun _ _ _).runWrite _).offerFenced _ _ _).endRun _
    · exact h

theorem stopContext (h : Credits x u) (c : CtxId) (w : Work) : Credits x (stopContext c w u) :=
  ((h.advanceSeq _).modWork _ _).releaseReservation _ _

theorem doRevert (h : Credits x u) (c : CtxId) : Credits x (doRevert c u) := by
  unfold Machine.doRevert
  split
  · exact h
  · split
    · exact h
    · exact ((h.redecideRun _ _ _).runWrite _).stopContext _ _

/-! ## Port events and frames -/

/-- A CHECK on an UP link takes a credit and joins the lane (R139). -/
theorem takeCheck (h : Credits [] u) (l : LinkId) (k : Check) (hk : k.link = l) (hup : (u.link l).state = .up) :
    Credits [] (takeCheck l k u) := by
  unfold Machine.takeCheck
  dsimp only
  split
  · exact h.leaveUpToRejoin _ _
  · split
    · exact h.leaveUpToRejoin _ _
    · rename_i hlt _
      have hlt : ¬ 32 ≤ (u.link l).accounting.length + (u.link l).withheld := hlt
      refine ⟨fun l' => ?_, h.entries⟩
      obtain ⟨h1, h2, h3, h4⟩ := h.link l'
      by_cases e : l' = l
      · subst e
        rw [link_modLink_same]
        refine ⟨by simp only [List.length_append, List.length_singleton]; omega, fun hu => absurd hup hu, ?_, ?_⟩
        · simp only [← List.append_assoc, List.map_append, List.map_cons, List.map_nil]
          simp only [List.map_append] at h3
          exact h3.append_right _
        · intro y hy
          rcases List.mem_append.1 hy with hy | hy
          · exact h4 y hy
          · rw [List.mem_singleton.1 hy]
            exact hk
      · rw [link_modLink_other _ u e]
        exact ⟨h1, h2, h3, h4⟩

/-- The oldest check of a lane leaves it. -/
theorem laneGranted {l : LinkId} {k : Check} (h : Credits [] u) (hk : (u.link l).lane.head? = some k) :
    Credits [k] (laneGranted l u) := by
  refine ⟨fun l' => ?_, h.entries⟩
  obtain ⟨h1, h2, h3, h4⟩ := h.link l'
  obtain ⟨rest, hrest⟩ : ∃ rest, (u.link l).lane = k :: rest := by
    cases hl : (u.link l).lane with
    | nil => rw [hl] at hk; cases hk
    | cons a rest => rw [hl] at hk; cases hk; exact ⟨rest, rfl⟩
  have hkl : k.link = l := (h.link l).2.2.2 k (by rw [hrest]; simp)
  have hw : (Machine.laneGranted l u).waitingChecks = u.waitingChecks := rfl
  rw [hw]
  unfold Machine.laneGranted
  by_cases e : l' = l
  · subst e
    rw [link_modLink_same]
    have hlane : (State.link { u with portPtr := Fin.ofNat 7 l'.val } l').lane = k :: rest := hrest
    have hacc : (State.link { u with portPtr := Fin.ofNat 7 l'.val } l') = u.link l' := rfl
    rw [hacc]
    refine ⟨h1, h2, ?_, ?_⟩
    · rw [hrest] at h3 ⊢
      refine List.Perm.trans ?_ h3
      simp only [List.nil_append, List.cons_append, List.filter_cons, hkl, beq_self_eq_true, if_true,
        List.drop_succ_cons, List.drop_zero, List.map_cons, List.map_append]
      exact List.perm_middle.symm
    · intro y hy
      exact h4 y (List.mem_of_mem_drop hy)
  · rw [link_modLink_other _ _ e, show State.link { u with portPtr := Fin.ofNat 7 l.val } l' = u.link l' from rfl]
    have : (k.link == l') = false := by rw [hkl]; simpa using fun x => e x.symm
    refine ⟨h1, h2, ?_, h4⟩
    simpa [List.filter_cons, this] using h3

theorem portCheck {k : Check} (h : Credits [k] u) : Credits [] (portCheck k u) := by
  unfold Machine.portCheck
  have look : Credits [] (lookUpCheck k u) := by
    unfold lookUpCheck
    split
    · exact ((h.decideResident _).touchResident _).countEvent _
    · dsimp only
      split
      · rename_i ht
        exact takeMiss (w := .check k) (h.countEvent _) ht
      · exact (h.countEvent _).answerRetry
  split
  · exact h.answerGrant _ _ _
  · exact h.answerDenial _ _
  · exact look
  · exact look

theorem lookUpContext (h : Credits [] u) (c : CtxId) : Credits [] (lookUpContext c u) := by
  unfold Machine.lookUpContext
  dsimp only
  split
  · exact ((h.serveContext _ _).touchResident _).countEvent _
  · split
    · rename_i ht
      exact (takeMiss (w := .context c) (h.countEvent _) ht).modWork _ _
    · exact h.countEvent _

theorem loseRecord (h : Credits x u) (g : Nat) (ws : List Waiter) : Credits x (loseRecord g ws u) :=
  (((h.issueWrite _ _).offerNotice _).countEvent _).presentToContexts _

theorem installSettled (h : Credits x u) (g : Nat) (ws : List Waiter) (y : Settled) :
    Credits x (installSettled g ws y u) := by
  unfold Machine.installSettled
  split
  · exact h.installRecord _ _
  · exact ((h.issueWrite _ _).countEvent _).installRecord _ _
  · exact ((h.loseRecord _ _).installRecord _ _).redecideGranule _

/-- The record installed is resident. -/
theorem resident_installRecord (g : Nat) (r : GranuleRecord) (s : State) : (Machine.installRecord g r s).resident g ≠ none := by
  unfold Machine.installRecord
  dsimp only
  rw [Serving.resident_iff, Serving.cacheSet_put, if_pos rfl]
  generalize s.cacheSet g = y
  have here : holdsGranule g (some { granule := g, record := r, dirty := false }) = true := by simp [holdsGranule]
  cases y.victim with
  | way0 => exact ⟨.way0, by simp [CacheSet.find, CacheSet.put, here]⟩
  | way1 =>
      cases h0 : holdsGranule g y.way0 with
      | true => exact ⟨.way0, by simp [CacheSet.find, CacheSet.put, h0]⟩
      | false => exact ⟨.way1, by simp [CacheSet.find, CacheSet.put, here, h0]⟩

theorem redecideGranule_serving (g : Nat) (s : State) : Serving s (Machine.redecideGranule g s) := by
  have h1 : Serving s { s with park := s.park.filter (fun k => !(k.granule == g)) } := (Serving.refl s).same rfl
  have h2 := h1.presentOccupancy s
  unfold Machine.redecideGranule
  generalize Machine.presentOccupancy s _ = v at h2 ⊢
  generalize s.park.filter (fun k => k.granule == g) = ks
  clear h1
  induction ks generalizing v with
  | nil => exact h2
  | cons k ks ih => exact ih _ (h2.decideResident _ _)

theorem resident_installSettled (g : Nat) (ws : List Waiter) (y : Settled) (s : State) :
    (Machine.installSettled g ws y s).resident g ≠ none := by
  unfold Machine.installSettled
  split
  · exact resident_installRecord _ _ _
  · exact resident_installRecord _ _ _
  · exact (redecideGranule_serving _ _).resident _ (resident_installRecord _ _ _)

theorem miss_installRecord (g : Nat) (r : GranuleRecord) (s : State) : (Machine.installRecord g r s).miss = s.miss := by
  unfold Machine.installRecord
  dsimp only
  show (Machine.writeBackVictim _ s).miss = s.miss
  unfold Machine.writeBackVictim
  split
  · split
    · simp [Machine.issueWrite]
    · rfl
  · rfl

/-- The entries lose no waiter while a record is installed, but for what a re-decision takes from none. -/
theorem installSettled_miss (g : Nat) (ws : List Waiter) (y : Settled) (s : State) :
    ∃ p : Waiter → Bool, (Machine.installSettled g ws y s).miss =
      s.miss.map (fun e => { e with waiters := e.waiters.filter p }) := by
  unfold Machine.installSettled
  split
  · exact ⟨fun _ => true, by rw [miss_installRecord]; exact Serving.keepAll _⟩
  · refine ⟨fun _ => true, ?_⟩
    rw [miss_installRecord, countEvent_miss]
    exact Serving.keepAll _
  · have h1 := (((Serving.refl s).same (t := Machine.issueWrite g replacementRecord s) rfl).offerNotice
      (.tagError g (firstWaiter ws) (anyCtx (Machine.issueWrite g replacementRecord s) (Work.holdsImage g)))).countEvent
        (.ofPart .tagErrors)
    have h2 := h1.presentToContexts (Work.loseRecord g)
    obtain ⟨p, hp⟩ := h2.miss
    obtain ⟨q, hq⟩ := (redecideGranule_serving g (Machine.installRecord g replacementRecord (Machine.loseRecord g ws s))).miss
    rw [miss_installRecord] at hq
    refine ⟨fun w => p w && q w, ?_⟩
    rw [hq, show (Machine.loseRecord g ws s).miss = _ from hp, List.map_map]
    refine List.map_congr_left (fun e _ => ?_)
    simp [Function.comp, List.filter_filter, Bool.and_comm]

/-- A waiter served leaves the Miss Queue with its verdict. -/
theorem serveWaiter {w : Waiter} (h : Credits ([w].filterMap Waiter.asCheck) u) (g : Nat) (hr : u.resident g ≠ none) :
    Credits [] (Machine.serveWaiter g w u) ∧ Serving u (Machine.serveWaiter g w u) := by
  unfold Machine.serveWaiter
  cases hg : u.resident g with
  | none => exact absurd hg hr
  | some r =>
      cases w with
      | check k => exact ⟨decideResident (x := []) h r, (Serving.refl u).decideResident k r⟩
      | context c => exact ⟨serveContext h c r, (Serving.refl u).serveContext c r⟩

/-- The entry of a granule after entries have lost waiters. -/
theorem missEntry_map {s t : State} {f : MissEntry → MissEntry} (hf : ∀ e, (f e).granule = e.granule)
    (h : t.miss = s.miss.map f) (g : Nat) : t.missEntry g = (s.missEntry g).map f := by
  unfold State.missEntry
  rw [h]
  induction s.miss with
  | nil => rfl
  | cons e es ih =>
      rw [List.map_cons, List.find?_cons, List.find?_cons, hf e]
      split
      · rfl
      · exact ih

/-- The first waiter of an entry leaves it to be served. -/
theorem takeWaiter {g : Nat} {e : MissEntry} {w : Waiter} {rest : List Waiter} (h : Credits [] u)
    (he : u.missEntry g = some e) (hw : e.waiters = w :: rest) :
    Credits ([w].filterMap Waiter.asCheck) (modEntry g (fun e => { e with waiters := rest }) u) := by
  have hm : (modEntry g (fun e => { e with waiters := rest }) u).miss.map MissEntry.granule =
      u.miss.map MissEntry.granule := by
    simp only [modEntry, List.map_map]
    refine List.map_congr_left (fun e _ => ?_)
    simp only [Function.comp]
    split <;> rfl
  refine h.reorder rfl ?_ (by rw [hm]; exact h.entries)
  have key : ∀ es : List MissEntry, (es.map MissEntry.granule).Nodup → es.find? (fun e => e.granule == g) = some e →
      ([w].filterMap Waiter.asCheck ++ (es.map (fun e => if e.granule = g then { e with waiters := rest } else e)).flatMap
        (fun e => e.waiters.filterMap Waiter.asCheck)).Perm (es.flatMap (fun e => e.waiters.filterMap Waiter.asCheck)) := by
    intro es hn hf
    induction es with
    | nil => simp at hf
    | cons a es ih =>
        simp only [List.map_cons, List.nodup_cons] at hn
        by_cases ha : a.granule = g
        · have hae : a = e := by simpa [List.find?_cons, ha] using hf
          have hrest : es.map (fun e => if e.granule = g then { e with waiters := rest } else e) = es := by
            refine map_of_no_entry (f := fun e => { e with waiters := rest }) ?_
            rw [List.find?_eq_none]
            intro y hy
            have : y.granule ≠ g := fun hyg => hn.1 (by rw [ha, ← hyg]; exact List.mem_map_of_mem hy)
            simpa using this
          subst hae
          simp only [List.map_cons, List.flatMap_cons, hrest, ha, if_true, hw]
          rw [← List.append_assoc, ← List.filterMap_append]
          exact List.Perm.refl _
        · have hf' : es.find? (fun e => e.granule == g) = some e := by simpa [List.find?_cons, ha] using hf
          simp only [List.map_cons, List.flatMap_cons, ha, if_false]
          exact (List.perm_append_comm_assoc _ _ _).trans ((ih hn.2 hf').append_left _)
  have hk := List.perm_iff_count.1 (key u.miss h.entries he)
  refine List.perm_iff_count.2 (fun a => ?_)
  have ha := hk a
  simp only [State.waitingChecks, modEntry, List.count_append, List.count_nil] at ha ⊢
  omega

/-- The waiters are served in turn, and none is left. -/
theorem serveWaiters (n g : Nat) (h : Credits [] u) (hr : u.resident g ≠ none)
    (hn : ∀ e, u.missEntry g = some e → e.waiters.length ≤ n) :
    Credits [] (Machine.serveWaiters n g u) ∧ ∀ e, (Machine.serveWaiters n g u).missEntry g = some e → e.waiters = [] := by
  induction n generalizing u with
  | zero => exact ⟨h, fun e he => List.eq_nil_of_length_eq_zero (Nat.le_zero.1 (hn e he))⟩
  | succ n ih =>
      unfold Machine.serveWaiters
      cases he : u.missEntry g with
      | none => exact ⟨h, fun e (he' : u.missEntry g = some e) => by rw [he] at he'; cases he'⟩
      | some e =>
          cases hw : e.waiters with
          | nil =>
              simp only [Option.map_some, hw]
              exact ⟨h, fun e' (he' : u.missEntry g = some e') => by rw [he] at he'; cases he'; exact hw⟩
          | cons w rest =>
              simp only [Option.map_some, hw]
              have h1 := h.takeWaiter he hw
              have hres : (modEntry g (fun e => { e with waiters := rest }) u).resident g ≠ none := hr
              obtain ⟨h2, h3⟩ := h1.serveWaiter g hres
              refine ih h2 (h3.resident g hres) (fun e' he' => ?_)
              obtain ⟨p, hp⟩ := h3.miss
              rw [missEntry_map (f := fun e => { e with waiters := e.waiters.filter p }) (fun _ => rfl) hp g,
                missEntry_map (s := u) (t := modEntry g (fun e => { e with waiters := rest }) u)
                  (f := fun x => if x.granule = g then { x with waiters := rest } else x) (fun _ => by split <;> rfl) rfl g,
                he] at he'
              have heg : e.granule = g := by
                have := List.find?_some he
                simpa using this
              simp only [Option.map_some, heg, if_true, Option.some.injEq] at he'
              subst he'
              have := hn e he
              rw [hw] at this
              simp only [List.length_cons] at this
              have := List.length_filter_le p rest
              dsimp only
              omega

/-- The entry that leaves holds no check. -/
theorem removeEntry (h : Credits x u) (g : Nat) (he : ∀ e, u.missEntry g = some e → e.waiters = []) :
    Credits x (removeEntry g u) := by
  have key : ∀ es : List MissEntry, (es.map MissEntry.granule).Nodup →
      (∀ e, es.find? (fun e => e.granule == g) = some e → e.waiters = []) →
      (es.filter (fun e => !(e.granule == g))).flatMap (fun e => e.waiters.filterMap Waiter.asCheck) =
        es.flatMap (fun e => e.waiters.filterMap Waiter.asCheck) := by
    intro es hn hf
    induction es with
    | nil => rfl
    | cons a es ih =>
        simp only [List.map_cons, List.nodup_cons] at hn
        by_cases ha : a.granule = g
        · have haw : a.waiters = [] := hf a (by simp [ha])
          have hrest : es.filter (fun e => !(e.granule == g)) = es := by
            rw [List.filter_eq_self]
            intro y hy
            have : y.granule ≠ g := fun hyg => hn.1 (by rw [ha, ← hyg]; exact List.mem_map_of_mem hy)
            simpa using this
          simp [ha, hrest, haw]
        · have := ih hn.2 (fun e he => hf e (by simpa [List.find?_cons, ha] using he))
          simp [ha, this]
  unfold Machine.removeEntry
  have h' : Credits x { u with miss := u.miss.filter (fun e => !(e.granule == g)) } := by
    refine h.reorder rfl ?_ ?_
    · simp only [State.waitingChecks]
      rw [key u.miss h.entries he]
    · exact List.Nodup.sublist (List.Sublist.map _ (List.filter_sublist)) h.entries
  exact h'.presentOccupancy u

/-- The fill of an entry. -/
theorem fillEntry {e : MissEntry} (h : Credits [] u) (he : u.missEntry e.granule = some e)
    (forwarded : Option (BitVec 64)) (dram : DramReturn) : Credits [] (fillEntry e forwarded dram u) := by
  unfold Machine.fillEntry
  dsimp only
  have h' : Credits [] { u with port := dropOldest e.granule u.port } := h.same rfl
  have h1 := h'.installSettled e.granule e.waiters (settle e forwarded (u.stored e.granule) dram)
  have h2 := resident_installSettled e.granule e.waiters (settle e forwarded (u.stored e.granule) dram)
    { u with port := dropOldest e.granule u.port }
  have h3 := installSettled_miss e.granule e.waiters (settle e forwarded (u.stored e.granule) dram)
    { u with port := dropOldest e.granule u.port }
  generalize Machine.installSettled e.granule e.waiters (settle e forwarded (u.stored e.granule) dram)
    { u with port := dropOldest e.granule u.port } = v at h1 h2 h3 ⊢
  have h4 := serveWaiters e.waiters.length e.granule h1 h2 (fun e' he' => by
    obtain ⟨p, hp⟩ := h3
    rw [missEntry_map (s := u) (f := fun e => { e with waiters := e.waiters.filter p }) (fun _ => rfl) hp e.granule,
      he] at he'
    cases he'
    exact List.length_filter_le _ _)
  exact h4.1.removeEntry _ h4.2

theorem storeImage (h : Credits x u) (g : Nat) (image : BitVec 64) (ecc : BitVec 8) :
    Credits x (storeImage g image ecc u) := h.same rfl

theorem completeWrite (h : Credits x u) (g : Nat) : Credits x (completeWrite g u) := by
  unfold Machine.completeWrite
  split
  · have h' : Credits x { u with port := dropOldest g u.port } := h.same rfl
    exact h'.storeImage _ _ _
  all_goals exact h

theorem completeFillWrite (h : Credits x u) (g : Nat) (f : FillWrites) : Credits x (completeFillWrite g f u) := by
  unfold Machine.completeFillWrite
  dsimp only
  have h' := h.storeImage g (encodeImage (fillRecord f.root g)) (Config.ecc (encodeImage (fillRecord f.root g)))
  generalize Machine.storeImage g _ _ u = v at h' ⊢
  split
  · have h'' : Credits x { v with fill := none } := h'.same rfl
    exact h''.presentToContexts _
  · exact h'.same rfl

theorem takeRecallAck (h : Credits x u) (l : LinkId) (c : CtxId) (q : BitVec 4) : Credits x (takeRecallAck l c q u) := by
  unfold Machine.takeRecallAck
  split
  · exact h.modWork _ _
  · exact h.countEvent _

theorem takeWipeDone (h : Credits x u) (l : LinkId) (c : CtxId) (q : BitVec 4) (b : Bool) :
    Credits x (takeWipeDone l c q b u) := by
  unfold Machine.takeWipeDone
  split
  · exact h.modWork _ _
  · exact h.countEvent _

theorem takeRejoinAck (h : Credits x u) (l : LinkId) (n : BitVec 4) : Credits x (takeRejoinAck l n u) := by
  unfold Machine.takeRejoinAck
  split
  · exact h.countEvent _
  · rename_i hs
    split
    · exact ((h.moveLink l _ (by rw [hs]; decide) ⟨rfl, .inr rfl, .inr rfl⟩).presentToContexts _).offerNotice _
    · exact h.countEvent _
  all_goals exact h

theorem expireRecall (h : Credits [] u) (c : CtxId) : Credits [] (expireRecall c u) := by
  refine foldl (fun v l hv => ?_) (h.modWork _ _) _
  unfold expireMark
  split
  · split
    · exact (hv.modWork _ _).askRejoin _ _
    · exact hv
  · exact hv

theorem expireRejoin (h : Credits x u) (l : LinkId) (hs : (u.link l).state = .rejoining) :
    Credits x (expireRejoin l u) := by
  unfold Machine.expireRejoin
  split
  · exact h.beginAttempt _ _
  · exact ((h.moveLink l _ (by rw [hs]; decide) ⟨rfl, .inl rfl, .inl rfl⟩).presentToContexts _).offerNotice _

/-! ## The Scheduler -/

theorem answer (h : Credits x u) (m : Message) (status : Status) (reason : Option Reason) :
    Credits x (answer m status reason u) := h.same rfl

theorem startFill (h : Credits x u) (size : Nat) (b n : Option Nat) : Credits x (startFill size b n u) := by
  unfold Machine.startFill
  dsimp only
  refine modDomain ?_ _ _
  exact h.same rfl

theorem reserve (h : Credits x u) (job : Job) : Credits x (reserve job u) := by
  unfold Machine.reserve
  split <;> first | exact h | exact h.modDomain _ _ | exact h.modGroup _ _ | exact h.startFill _ _ _

theorem issueJob (h : Credits x u) (m : Message) (job : Job) : Credits x (issueJob m job u) := by
  unfold Machine.issueJob
  split
  · exact h.answer _ _ _
  · split
    · exact h
    · exact (h.setWork _ _).reserve _

theorem withdraw (h : Credits x u) (c : CtxId) : Credits x (withdrawRequest c u) := by
  have key : ∀ ws : List Waiter, (ws.filter (fun w => !Waiter.ofCtx c w)).filterMap Waiter.asCheck =
      ws.filterMap Waiter.asCheck := by
    intro ws
    induction ws with
    | nil => rfl
    | cons w ws ih =>
        have ac : ∀ c, Waiter.asCheck (.context c) = none := fun _ => rfl
        have ak : ∀ k, Waiter.asCheck (.check k) = some k := fun _ => rfl
        have hk : ∀ k, Waiter.ofCtx c (.check k) = false := fun _ => rfl
        cases w with
        | check k => simp [hk, ak, ih]
        | context c' => cases hc : Waiter.ofCtx c (.context c') <;> simp [hc, ac, ih]
  have h' : Credits x (Machine.removeWaiters (Waiter.ofCtx c) u) := by
    refine h.of_links ?_ ?_ (fun _ => ⟨rfl, rfl, rfl, Nat.le_refl _⟩)
    · simp [State.waitingChecks, Machine.removeWaiters, List.flatMap_map, key]
    · simp [Machine.removeWaiters, Function.comp_def]
  exact h'.modWork _ _

end Credits
end Sys2Proof.Machine
end

