-- ==== Sys2Proof/Laws/Inner.lean ====
section
/-! SUPPORT. One lemma per shared operation: it leaves the Control Port side as it is, and keeps the queues within their
capacities, the Tag Store canonical, and the watermarks and pacing as the occupancies have them. Each says that the
relation Inner reaches one operation further. -/

namespace Sys2Proof.Machine

/-- What the work inside the part never changes within one event. -/
def State.kept (s : State) := (s.portSide, s.portPtr, s.enginePtr, s.msiSent)

/-- A later state of the work inside the part. -/
structure Inner (s t : State) : Prop where
  kept : t.kept = s.kept
  bounded : s.bounded → t.bounded
  shown : s.occupancyShown → t.occupancyShown

/-- The occupancies, their watermarks and pacing. -/
def State.occupancies (s : State) := (s.park.length, s.miss.length, s.parkMark, s.missMark, s.pacing)

/-- States that agree in the occupancies and the settings show them together. -/
theorem occupancyShown_congr {s t : State} (h : t.occupancies = s.occupancies) (hx : t.settings = s.settings) :
    t.occupancyShown ↔ s.occupancyShown := by
  simp only [State.occupancies, Prod.mk.injEq] at h
  unfold State.occupancyShown
  rw [h.1, h.2.1, h.2.2.1, h.2.2.2.1, h.2.2.2.2, hx]

/-- The settings are among the kept fields. -/
theorem settings_of_kept {s t : State} (h : t.kept = s.kept) : t.settings = s.settings := by
  simp only [State.kept, State.portSide, Prod.mk.injEq] at h
  exact h.1.2.2.2.2.2.2.2.2.2.2.2.2.2.2.2.2.1

/-- A watermark presented with an occupancy shows it. -/
theorem followOccupancy_shows (mode : WatermarkMode) (n : Nat) (x : Watermark) :
    (followOccupancy mode n x).shows mode n := by
  cases mode with
  | current => exact ⟨fun _ => rfl, Nat.le_refl n⟩
  | peak =>
      refine ⟨nofun, ?_⟩
      unfold followOccupancy
      dsimp only
      split
      · exact Nat.le_refl n
      · omega

/-- Pacing ended is off. -/
theorem endPacing_pacing (s : State) : (endPacing s).pacing = false := by simp [endPacing, allLinks]

/-- Pacing tested agrees with the occupancies (R150). -/
theorem testPacing_agrees (s : State) :
    ((testPacing s).pacing = false → s.miss.length < 44 ∧ s.park.length < 60) ∧
    ((testPacing s).pacing = true → 24 < s.miss.length ∨ 32 < s.park.length) := by
  unfold testPacing
  split
  · rename_i h
    simp only [Bool.and_eq_true, Bool.or_eq_true, decide_eq_true_eq] at h
    exact ⟨nofun, fun _ => by omega⟩
  · rename_i h
    split
    · rename_i k
      simp only [Bool.and_eq_true, decide_eq_true_eq] at k
      rw [endPacing_pacing]
      exact ⟨fun _ => by omega, nofun⟩
    · rename_i k
      cases hp : s.pacing <;> simp [hp] at h k ⊢ <;> omega

/-- Occupancies presented are shown, where they were shown before the change. -/
theorem presentOccupancy_shown {u v : State}
    (hm : (v.parkMark, v.missMark, v.pacing) = (u.parkMark, u.missMark, u.pacing)) (hx : v.settings = u.settings)
    (h : u.occupancyShown) : (presentOccupancy u v).occupancyShown := by
  unfold presentOccupancy
  split
  · rename_i hl
    simp only [Prod.mk.injEq] at hm
    refine (occupancyShown_congr (s := u) ?_ hx).mpr h
    simp only [State.occupancies, hl.1, hl.2, hm.1, hm.2.1, hm.2.2]
  · have a := testPacing_agrees { v with
      parkMark := followOccupancy v.settings.parkMode v.park.length v.parkMark
      missMark := followOccupancy v.settings.missMode v.miss.length v.missMark }
    unfold State.occupancyShown
    simp only [testPacing_parkMark, testPacing_missMark, testPacing_settings, testPacing_park, testPacing_miss]
    exact ⟨followOccupancy_shows _ _ _, followOccupancy_shows _ _ _, a⟩

namespace Inner

variable {s u : State}

theorem refl (s : State) : Inner s s := ⟨rfl, id, id⟩

theorem trans {a b c : State} (h : Inner a b) (k : Inner b c) : Inner a c :=
  ⟨k.kept.trans h.kept, fun x => k.bounded (h.bounded x), fun x => k.shown (h.shown x)⟩

/-- An update that leaves the kept fields, and keeps the queues bounded and the occupancies. -/
theorem advance (h : Inner s u) {t : State} (hk : t.kept = u.kept) (hb : u.bounded → t.bounded)
    (ho : t.occupancies = u.occupancies) : Inner s t :=
  h.trans ⟨hk, hb, (occupancyShown_congr ho (settings_of_kept hk)).mpr⟩

/-- An update that leaves the kept fields, the bounded queues, the Tag Store, the watermarks and pacing. -/
theorem same (h : Inner s u) {t : State} (hk : t.kept = u.kept)
    (hb : (t.notices, t.park, t.miss, t.store, t.parkMark, t.missMark, t.pacing) =
      (u.notices, u.park, u.miss, u.store, u.parkMark, u.missMark, u.pacing)) : Inner s t := by
  simp only [Prod.mk.injEq] at hb
  obtain ⟨h1, h2, h3, h4, h5, h6, h7⟩ := hb
  refine h.advance hk ?_ ?_
  · unfold State.bounded
    rw [h1, h2, h3, h4]
    exact id
  · simp only [State.occupancies, h2, h3, h5, h6, h7]

/-- A change of the Park Queue or the Miss Queue that is presented. -/
theorem presented (h : Inner s u) {v : State} (hk : v.kept = u.kept) (hb : u.bounded → v.bounded)
    (hm : (v.parkMark, v.missMark, v.pacing) = (u.parkMark, u.missMark, u.pacing)) :
    Inner s (presentOccupancy u v) := by
  refine h.trans ⟨?_, fun x => ?_, presentOccupancy_shown hm (settings_of_kept hk)⟩
  · rw [← hk]
    simp [State.kept, State.portSide]
  · have := hb x
    simpa [State.bounded] using this

/-! ## Links, contexts, tables -/

theorem modLink (h : Inner s u) (l : LinkId) (f : Link → Link) : Inner s (modLink l f u) := h.same rfl rfl

theorem placeFrame (h : Inner s u) (l : LinkId) (f : TxFrame) : Inner s (placeFrame l f u) := h.same rfl rfl

theorem setCtx (h : Inner s u) (c : CtxId) (x : Context) : Inner s (setCtx c x u) := h.same rfl rfl

theorem setWork (h : Inner s u) (c : CtxId) (w : Option Work) : Inner s (setWork c w u) := h.same rfl rfl

theorem modWork (h : Inner s u) (c : CtxId) (f : Work → Work) : Inner s (modWork c f u) := h.same rfl rfl

theorem advanceSeq (h : Inner s u) (c : CtxId) : Inner s (advanceSeq c u) := h.same rfl rfl

theorem modDomain (h : Inner s u) (d : Nat) (f : DomainRecord → DomainRecord) : Inner s (modDomain d f u) :=
  h.same rfl rfl

theorem modGroup (h : Inner s u) (g : Nat) (f : GroupRecord → GroupRecord) : Inner s (modGroup g f u) :=
  h.same rfl rfl

theorem setCounter (h : Inner s u) (n : CounterName) (x : Counter) : Inner s (setCounter n x u) := h.same rfl rfl

theorem putCacheSet (h : Inner s u) (g : Nat) (x : CacheSet) : Inner s (putCacheSet g x u) := h.same rfl rfl

theorem issueWrite (h : Inner s u) (g : Nat) (r : GranuleRecord) : Inner s (issueWrite g r u) := h.same rfl rfl

theorem issueRead (h : Inner s u) (g : Nat) : Inner s (issueRead g u) := h.same rfl rfl

theorem modEntry (h : Inner s u) (g : Nat) (f : MissEntry → MissEntry) : Inner s (modEntry g f u) := by
  refine h.advance rfl (fun hb => ?_) ?_
  · simpa [State.bounded, Machine.modEntry] using hb
  · simp [State.occupancies, Machine.modEntry]

theorem removeWaiters (h : Inner s u) (p : Waiter → Bool) : Inner s (removeWaiters p u) := by
  refine h.advance rfl (fun hb => ?_) ?_
  · simpa [State.bounded, Machine.removeWaiters] using hb
  · simp [State.occupancies, Machine.removeWaiters]

theorem storeImage (h : Inner s u) (g : Nat) (image : BitVec 64) (ecc : BitVec 8) :
    Inner s (storeImage g image ecc u) :=
  h.advance rfl (fun hb => ⟨hb.1, hb.2.1, hb.2.2.1, storeImage_wf g image ecc u hb.2.2.2⟩) rfl

/-- A fold of operations, each of which stays inside. -/
theorem foldl {α : Type} {f : State → α → State} (hf : ∀ v a, Inner v (f v a)) (h : Inner s u) (l : List α) :
    Inner s (l.foldl f u) := by
  induction l generalizing u with
  | nil => exact h
  | cons a l ih => exact ih (h.trans (hf u a))

theorem presentToContexts (h : Inner s u) (f : Work → Work) : Inner s (presentToContexts f u) :=
  h.foldl (fun v c => (refl v).modWork c f) _

theorem raiseHeld (h : Inner s u) (d n : Nat) : Inner s (raiseHeld d n u) := h.modDomain _ _

theorem lowerHeld (h : Inner s u) (d n : Nat) : Inner s (lowerHeld d n u) := h.modDomain _ _

theorem lowerIncoming (h : Inner s u) (d n : Nat) : Inner s (lowerIncoming d n u) := h.modDomain _ _

theorem raiseRefs (h : Inner s u) (g n : Nat) : Inner s (raiseRefs g n u) := h.modGroup _ _

theorem lowerRefs (h : Inner s u) (g n : Nat) : Inner s (lowerRefs g n u) := h.modGroup _ _

/-! ## Notices, counters -/

theorem offerNotice (h : Inner s u) (b : NoticeBody) : Inner s (offerNotice b u) := by
  unfold Machine.offerNotice
  split
  · rename_i hlt
    exact h.advance rfl (fun hb => ⟨by simp only [List.length_append, List.length_singleton]; omega, hb.2⟩) rfl
  · exact h.same rfl rfl

theorem countEvent (h : Inner s u) (n : CounterName) : Inner s (countEvent n u) := by
  unfold Machine.countEvent
  dsimp only
  split
  · exact (h.setCounter _ _).offerNotice _
  · exact h.setCounter _ _

/-! ## The Record Cache and the Miss Queue -/

theorem touchResident (h : Inner s u) (g : Nat) : Inner s (touchResident g u) := by
  unfold Machine.touchResident
  split
  · exact h.putCacheSet _ _
  · exact h

theorem writeResident (h : Inner s u) (g : Nat) (r : GranuleRecord) : Inner s (writeResident g r u) := by
  unfold Machine.writeResident
  split
  · exact h.putCacheSet _ _
  · exact h

theorem writeBackVictim (h : Inner s u) (v : Option Way) : Inner s (writeBackVictim v u) := by
  unfold Machine.writeBackVictim
  split
  · split
    · exact (h.issueWrite _ _).countEvent _
    · exact h
  · exact h

theorem installRecord (h : Inner s u) (g : Nat) (r : GranuleRecord) : Inner s (installRecord g r u) :=
  (h.writeBackVictim _).putCacheSet _ _

theorem takeMiss (h : Inner s u) {g : Nat} {w : Waiter} {t : State} (ht : takeMiss g w u = some t) : Inner s t := by
  unfold Machine.takeMiss at ht
  split at ht
  · split at ht
    · cases ht
      exact h.modEntry _ _
    · cases ht
  · split at ht
    · rename_i hlt
      cases ht
      refine h.presented rfl (fun hb => ⟨hb.1, hb.2.1, ?_, hb.2.2.2⟩) rfl
      simp only [Machine.issueRead, List.length_append, List.length_singleton]
      omega
    · cases ht

theorem runWriteRecord (h : Inner s u) (e : Nat × GranuleRecord) : Inner s (runWriteRecord u e) := by
  unfold Machine.runWriteRecord
  split
  · exact (h.writeResident _ _).touchResident _
  · exact (h.issueWrite _ _).modEntry _ _

theorem runWrite (h : Inner s u) (records : List (Nat × GranuleRecord)) : Inner s (runWrite records u) :=
  h.foldl (fun v e => (refl v).runWriteRecord e) _

/-! ## Links -/

theorem beginAttempt (h : Inner s u) (n : Nat) (l : LinkId) : Inner s (beginAttempt n l u) := h.modLink _ _

theorem startAttempts (h : Inner s u) (l : LinkId) : Inner s (startAttempts l u) := (h.beginAttempt _ _).countEvent _

theorem discardChecks (h : Inner s u) (l : LinkId) : Inner s (discardChecks l u) := by
  refine h.presented rfl (fun hb => ⟨hb.1, Nat.le_trans (List.length_filter_le _ _) hb.2.1, ?_, hb.2.2.2⟩) rfl
  simpa [Machine.removeWaiters] using hb.2.2.1

theorem leaveUpToRejoin (h : Inner s u) (l : LinkId) (cause : DownCause) : Inner s (leaveUpToRejoin l cause u) :=
  ((((h.modLink _ _).discardChecks _).presentToContexts _).offerNotice _).startAttempts _

theorem leaveUpToOff (h : Inner s u) (l : LinkId) : Inner s (leaveUpToOff l u) :=
  (((h.modLink _ _).discardChecks _).presentToContexts _).offerNotice _

theorem askRejoin (h : Inner s u) (l : LinkId) (cause : DownCause) : Inner s (askRejoin l cause u) := by
  unfold Machine.askRejoin
  split
  · exact h.leaveUpToRejoin _ _
  · exact h

theorem takeFrameEvent (h : Inner s u) (l : LinkId) : Inner s (takeFrameEvent l u) := h.modLink _ _

theorem protocolFault (h : Inner s u) (l : LinkId) (cause : DownCause) : Inner s (protocolFault l cause u) := by
  unfold Machine.protocolFault
  split
  · exact h.leaveUpToRejoin _ _
  · exact h

/-! ## Deciding a check -/

theorem queueVerdict (h : Inner s u) (k : Check) (v : Verdict) : Inner s (queueVerdict k v u) := h.modLink _ _

theorem advanceTally (h : Inner s u) (k : Check) (cls : FaultClass) : Inner s (advanceTally k cls u) := by
  unfold Machine.advanceTally
  split
  · exact h
  · split
    · exact h
    · split
      · exact (h.modDomain _ _).offerNotice _
      · exact h.modDomain _ _

theorem answerRetry (h : Inner s u) (k : Check) : Inner s (answerRetry k u) := (h.queueVerdict _ _).countEvent _

theorem answerGrant (h : Inner s u) (k : Check) (r : Rights) (g : BitVec 8) (b : Bool) :
    Inner s (answerGrant k r g b u) := (h.queueVerdict _ _).countEvent _

theorem answerDenial (h : Inner s u) (k : Check) (cls : FaultClass) (g : BitVec 8) :
    Inner s (answerDenial k cls g u) := by
  unfold Machine.answerDenial
  refine (Inner.advanceTally ?_ _ _).countEvent _
  split
  · exact (h.queueVerdict _ _).offerNotice _
  · exact h.queueVerdict _ _

theorem parkCheck (h : Inner s u) (k : Check) : Inner s (parkCheck k u) := by
  unfold Machine.parkCheck
  split
  · rename_i hlt
    refine (h.presented (v := { u with park := u.park ++ [k] }) rfl (fun hb => ⟨hb.1, ?_, hb.2.2⟩) rfl).countEvent _
    simp only [List.length_append, List.length_singleton]
    omega
  · exact h.answerRetry _

theorem decideCheck (h : Inner s u) (k : Check) (r : GranuleRecord) : Inner s (decideCheck k r u).1 := by
  unfold Machine.decideCheck
  split
  · exact h.answerGrant _ _ _ _
  · exact h.answerDenial _ _ _
  · exact h.parkCheck _

theorem decideResident (h : Inner s u) (k : Check) (r : GranuleRecord) : Inner s (decideResident k r u) := by
  unfold Machine.decideResident
  dsimp only
  split
  · exact h.decideCheck _ _
  · exact (h.decideCheck _ _).writeResident _ _

theorem decideParked (h : Inner s u) (ks : List Check) (records : List (Nat × GranuleRecord)) :
    Inner s (decideParked ks records u).1 := by
  induction ks generalizing u records with
  | nil => exact h
  | cons k ks ih => exact ih (h.decideCheck _ _) _

/-- Checks taken out of the Park Queue. -/
theorem parkLess (h : Inner s u) (p : Check → Bool) :
    Inner s (presentOccupancy u { u with park := u.park.filter p }) :=
  h.presented rfl (fun hb => ⟨hb.1, Nat.le_trans (List.length_filter_le _ _) hb.2.1, hb.2.2⟩) rfl

theorem redecideRun (h : Inner s u) (base count : Nat) (records : List (Nat × GranuleRecord)) :
    Inner s (redecideRun base count records u).1 := (h.parkLess _).decideParked _ _

theorem decideAllResident (h : Inner s u) (g : Nat) (ks : List Check) : Inner s (decideAllResident g ks u) := by
  induction ks generalizing u with
  | nil => exact h
  | cons k ks ih => exact ih (h.decideResident _ _)

theorem redecideGranule (h : Inner s u) (g : Nat) : Inner s (redecideGranule g u) :=
  (h.parkLess _).decideAllResident _ _

/-! ## The Change Engine -/

theorem releaseReservation (h : Inner s u) (job : Job) (n : Nat) : Inner s (releaseReservation job n u) := by
  unfold Machine.releaseReservation
  split
  · exact h.lowerIncoming _ _
  · exact h.lowerIncoming _ _
  · exact h.lowerRefs _ _
  all_goals exact h

theorem carveRun (h : Inner s u) (c : CtxId) : Inner s (carveRun c u) := h.modWork _ _

theorem carveSweepRun (h : Inner s u) (c : CtxId) : Inner s (carveSweepRun c u) := h.modWork _ _

theorem closeSweep (h : Inner s u) (c : CtxId) (d lost : Nat) : Inner s (closeSweep c d lost u) :=
  (h.modDomain _ _).modWork _ _

theorem tryTakeWindow (h : Inner s u) (c : CtxId) : Inner s (tryTakeWindow c u) := by
  unfold Machine.tryTakeWindow
  repeat' split
  all_goals first | exact h | exact h.closeSweep _ _ _ | exact h.setWork _ _

theorem offerWindows (h : Inner s u) : Inner s (offerWindows u) :=
  h.foldl (fun v _ => (refl v).tryTakeWindow _) _

theorem finishWindow (h : Inner s u) (c : CtxId) (d : Nat) : Inner s (finishWindow c d u) := by
  unfold Machine.finishWindow
  dsimp only
  refine Inner.offerWindows ?_
  repeat' split
  all_goals first | exact h.modWork _ _ | exact (h.modWork _ _).closeSweep _ _ _

theorem sweepRunEnded (h : Inner s u) (c : CtxId) (d : Nat) : Inner s (sweepRunEnded c d u) := by
  unfold Machine.sweepRunEnded
  split
  · exact (h.closeSweep _ _ _).offerWindows
  · split
    · split
      · exact h.finishWindow _ _
      · exact h.carveSweepRun _
    · exact h

theorem endRun (h : Inner s u) (c : CtxId) : Inner s (endRun c u) := by
  unfold Machine.endRun
  dsimp only
  have h' := fun (f : Work → Work) => (h.advanceSeq c).modWork c f
  repeat' split
  all_goals
    first
    | exact h
    | exact (h' _).sweepRunEnded _ _
    | exact ((h' _).modWork _ _).releaseReservation _ _
    | exact (h' _).carveRun _
    | exact (h' _).modWork _ _

theorem validateNext (h : Inner s u) (c : CtxId) (w : Work) (n : Nat) : Inner s (validateNext c w n u) := by
  unfold Machine.validateNext
  split
  · exact h.setWork _ _
  · exact (h.setWork _ _).carveRun _

theorem validateRecord (h : Inner s u) (c : CtxId) (w : Work) (base count : Nat) (expected : Option (BitVec 8))
    (op : RangeOp) (r : GranuleRecord) : Inner s (validateRecord c w base count expected op r u) := by
  unfold Machine.validateRecord
  split
  · exact (h.setWork _ _).releaseReservation _ _
  · exact h.validateNext _ _ _

theorem sweepRead (h : Inner s u) (c : CtxId) (w : Work) (d : Nat) (r : GranuleRecord) :
    Inner s (sweepRead c w d r u) := by
  unfold Machine.sweepRead Machine.sweepReadNext
  split
  · exact h.setWork _ _
  · split
    · exact (h.setWork _ _).finishWindow _ _
    · exact (h.setWork _ _).carveSweepRun _

theorem serveRead (h : Inner s u) (c : CtxId) (r : GranuleRecord) : Inner s (serveRead c r u) := by
  unfold Machine.serveRead
  split
  · exact h
  · dsimp only
    split
    · exact h.validateRecord _ _ _ _ _ _ _
    · exact h.sweepRead _ _ _ _
    · exact h.setWork _ _
    · exact h

theorem recallTo (h : Inner s u) (c : CtxId) (base order : Nat) (l : LinkId) :
    Inner s (recallTo c base order l u) := by
  unfold Machine.recallTo
  dsimp only
  split
  · split
    · exact ((h.placeFrame _ _).countEvent _).modWork _ _
    · exact (h.leaveUpToRejoin _ _).modWork _ _
  · exact h.modWork _ _
  · exact h.modWork _ _
  · exact h.modWork _ _

theorem recallFanOut (h : Inner s u) (c : CtxId) (base order : Nat) (union : LinkSet) :
    Inner s (recallFanOut c base order union u) :=
  (Inner.foldl (fun v l => (refl v).recallTo c base order l) (h.modWork _ _) _).modWork _ _

theorem endMark (h : Inner s u) (c : CtxId) : Inner s (endMark c u) := by
  unfold Machine.endMark
  dsimp only
  repeat' split
  all_goals
    first
    | exact h
    | exact (h.releaseReservation _ _).endRun _
    | exact (h.setWork _ _).recallFanOut _ _ _ _
    | exact h.setWork _ _

theorem markRecord (h : Inner s u) (c : CtxId) (w : Work) (op : RangeOp) (r : GranuleRecord) :
    Inner s (markRecord c w op r u) := by
  unfold Machine.markRecord
  split
  · exact h.setWork _ _
  · exact h.setWork _ _
  · exact (h.setWork _ _).writeResident _ _

theorem serveUpdate (h : Inner s u) (c : CtxId) (r : GranuleRecord) : Inner s (serveUpdate c r u) := by
  unfold Machine.serveUpdate
  dsimp only
  repeat' split
  all_goals
    first
    | exact h
    | exact (h.markRecord _ _ _ _).modWork _ _
    | exact (h.markRecord _ _ _ _).endMark _

theorem serveContext (h : Inner s u) (c : CtxId) (r : GranuleRecord) : Inner s (serveContext c r u) := by
  unfold Machine.serveContext
  split
  · exact h.serveRead _ _
  · exact h.serveUpdate _ _
  all_goals exact h

theorem sendWipe (h : Inner s u) (c : CtxId) (w : Work) (r : Run) (l : LinkId) : Inner s (sendWipe c w r l u) :=
  ((h.setWork _ _).runWrite _).placeFrame _ _

theorem doWipeStart (h : Inner s u) (c : CtxId) : Inner s (doWipeStart c u) := by
  unfold Machine.doWipeStart
  split
  · exact h
  · split
    · exact h
    · split
      · exact h.modWork _ _
      · split
        · split
          · exact h.sendWipe _ _ _ _
          · exact (h.leaveUpToRejoin _ _).modWork _ _
        · exact h.modWork _ _

theorem adjustHeld (h : Inner s u) (a b : Stable) : Inner s (adjustHeld a b u) := by
  unfold Machine.adjustHeld
  repeat' split
  all_goals
    first
    | exact h
    | exact (h.lowerHeld _ _).raiseHeld _ _
    | exact h.lowerHeld _ _
    | exact h.raiseHeld _ _

theorem adjustRefs (h : Inner s u) (op : RangeOp) (ws : List Stable) : Inner s (adjustRefs op ws u) := by
  unfold Machine.adjustRefs
  split
  · exact h.raiseRefs _ _
  · exact h.lowerRefs _ _
  all_goals exact h

theorem adjustTables (h : Inner s u) (job : Job) (op : RangeOp) (run : Run) (b : Bool) :
    Inner s (adjustTables job op run b u) :=
  ((h.foldl (fun v _ => (refl v).adjustHeld _ _) _).adjustRefs _ _).releaseReservation _ _

theorem offerFenced (h : Inner s u) (c : CtxId) (w : Work) (run : Run) : Inner s (offerFenced c w run u) := by
  unfold Machine.offerFenced
  repeat' split
  all_goals first | exact h | exact h.offerNotice _

theorem doCommit (h : Inner s u) (c : CtxId) (b : Bool) : Inner s (doCommit c b u) := by
  unfold Machine.doCommit
  dsimp only
  repeat' split
  all_goals
    first
    | exact h
    | exact (((((h.adjustTables _ _ _ _).modWork _ _).redecideRun _ _ _).runWrite _).offerFenced _ _ _).endRun _

theorem stopContext (h : Inner s u) (c : CtxId) (w : Work) : Inner s (stopContext c w u) :=
  ((h.advanceSeq _).modWork _ _).releaseReservation _ _

theorem doRevert (h : Inner s u) (c : CtxId) : Inner s (doRevert c u) := by
  unfold Machine.doRevert
  dsimp only
  repeat' split
  all_goals
    first
    | exact h
    | exact ((h.redecideRun _ _ _).runWrite _).stopContext _ _

/-! ## The port events and the fill -/

theorem takeCheck (h : Inner s u) (l : LinkId) (k : Check) : Inner s (takeCheck l k u) := by
  unfold Machine.takeCheck
  dsimp only
  repeat' split
  all_goals first | exact h.leaveUpToRejoin _ _ | exact h.modLink _ _

theorem lookUpCheck (h : Inner s u) (k : Check) : Inner s (lookUpCheck k u) := by
  unfold Machine.lookUpCheck
  split
  · exact ((h.decideResident _ _).touchResident _).countEvent _
  · dsimp only
    split
    · rename_i ht
      exact Inner.takeMiss (h.countEvent _) ht
    · exact (h.countEvent _).answerRetry _

theorem portCheck (h : Inner s u) (k : Check) : Inner s (portCheck k u) := by
  unfold Machine.portCheck
  split
  · exact h.answerGrant _ _ _ _
  · exact h.answerDenial _ _ _
  all_goals exact h.lookUpCheck _

theorem lookUpContext (h : Inner s u) (c : CtxId) : Inner s (lookUpContext c u) := by
  unfold Machine.lookUpContext
  dsimp only
  split
  · exact ((h.serveContext _ _).touchResident _).countEvent _
  · split
    · rename_i ht
      exact (Inner.takeMiss (h.countEvent _) ht).modWork _ _
    · exact h.countEvent _

theorem loseRecord (h : Inner s u) (g : Nat) (ws : List Waiter) : Inner s (loseRecord g ws u) :=
  (((h.issueWrite _ _).offerNotice _).countEvent _).presentToContexts _

theorem installSettled (h : Inner s u) (g : Nat) (ws : List Waiter) (x : Settled) :
    Inner s (installSettled g ws x u) := by
  unfold Machine.installSettled
  split
  · exact h.installRecord _ _
  · exact ((h.issueWrite _ _).countEvent _).installRecord _ _
  · exact ((h.loseRecord _ _).installRecord _ _).redecideGranule _

theorem serveWaiter (h : Inner s u) (g : Nat) (w : Waiter) : Inner s (serveWaiter g w u) := by
  unfold Machine.serveWaiter
  repeat' split
  all_goals first | exact h | exact h.decideResident _ _ | exact h.serveContext _ _

theorem serveWaiters (h : Inner s u) (n g : Nat) : Inner s (serveWaiters n g u) := by
  induction n generalizing u with
  | zero => exact h
  | succ n ih =>
    unfold Machine.serveWaiters
    split
    · exact ih ((h.modEntry _ _).serveWaiter _ _)
    all_goals exact h

theorem removeEntry (h : Inner s u) (g : Nat) : Inner s (removeEntry g u) :=
  h.presented rfl (fun hb => ⟨hb.1, hb.2.1, Nat.le_trans (List.length_filter_le _ _) hb.2.2.1, hb.2.2.2⟩) rfl

theorem fillEntry (h : Inner s u) (e : MissEntry) (f : Option (BitVec 64)) (d : DramReturn) :
    Inner s (fillEntry e f d u) := by
  unfold Machine.fillEntry
  refine (Inner.serveWaiters (Inner.installSettled ?_ _ _ _) _ _).removeEntry _
  exact h.same rfl rfl

theorem completeWrite (h : Inner s u) (g : Nat) : Inner s (completeWrite g u) := by
  unfold Machine.completeWrite
  split
  · refine Inner.storeImage (u := { u with port := dropOldest g u.port }) ?_ _ _ _
    exact h.same rfl rfl
  all_goals exact h

/-! ## Frames and expiries -/

theorem strayAnswer (h : Inner s u) (l : LinkId) : Inner s (strayAnswer l u) := h.countEvent _

theorem takeRecallAck (h : Inner s u) (l : LinkId) (c : CtxId) (q : BitVec 4) :
    Inner s (takeRecallAck l c q u) := by
  unfold Machine.takeRecallAck
  split
  · exact h.modWork _ _
  · exact h.strayAnswer _

theorem takeWipeDone (h : Inner s u) (l : LinkId) (c : CtxId) (q : BitVec 4) (b : Bool) :
    Inner s (takeWipeDone l c q b u) := by
  unfold Machine.takeWipeDone
  split
  · exact h.modWork _ _
  · exact h.strayAnswer _

theorem completeRejoin (h : Inner s u) (l : LinkId) : Inner s (completeRejoin l u) :=
  ((h.modLink _ _).presentToContexts _).offerNotice _

theorem takeRejoinAck (h : Inner s u) (l : LinkId) (n : BitVec 4) : Inner s (takeRejoinAck l n u) := by
  unfold Machine.takeRejoinAck
  repeat' split
  all_goals first | exact h | exact h.strayAnswer _ | exact h.completeRejoin _

theorem expireMark (h : Inner s u) (c : CtxId) (l : LinkId) : Inner s (expireMark c l u) := by
  unfold Machine.expireMark
  repeat' split
  all_goals first | exact h | exact (h.modWork _ _).askRejoin _ _

theorem expireRecall (h : Inner s u) (c : CtxId) : Inner s (expireRecall c u) :=
  Inner.foldl (fun v l => (refl v).expireMark c l) (h.modWork _ _) _

theorem expireWipe (h : Inner s u) (c : CtxId) : Inner s (expireWipe c u) := h.modWork _ _

theorem exhaustRejoin (h : Inner s u) (l : LinkId) : Inner s (exhaustRejoin l u) :=
  ((h.modLink _ _).presentToContexts _).offerNotice _

theorem expireRejoin (h : Inner s u) (l : LinkId) : Inner s (expireRejoin l u) := by
  unfold Machine.expireRejoin
  split
  · exact h.beginAttempt _ _
  · exact h.exhaustRejoin _

end Inner

end Sys2Proof.Machine
end

