-- ==== Sys2Proof/Laws/Receive.lean ====
section
/-! SUPPORT. How a receiver reads a frame, and what a step can do while no command waits. -/

namespace Sys2Proof.Machine

/-- A state in which a receiver has read a symbol: one receiver and the arrivals may differ from `s`. -/
def Reading (s u : State) : Prop :=
  ∃ (l : LinkId) (r : Receiver) (rest : List (LinkId × Byte)),
    u = modLink l (fun k => { k with receiver := r }) { s with arrivals := rest }

/-- A frame at the end of its CRC is a frame command. -/
theorem completeFrame_command (l : LinkId) (kind : Byte) (payload : List Byte) (crc : Nat) (x : BitVec 64) :
    completeFrame l kind payload crc ≠ .partReset x := by
  unfold completeFrame frameCommand
  repeat' split
  all_goals exact nofun

/-- A frame taken from symbols is a frame command. -/
theorem readSymbol_command {l : LinkId} {r : Receiver} {b : Byte} {c : Instr} (h : (readSymbol l r b).2 = some c)
    (x : BitVec 64) : c ≠ .partReset x := by
  unfold readSymbol at h
  repeat' split at h
  all_goals dsimp only at h
  all_goals try split at h
  all_goals first
    | (cases h; exact completeFrame_command _ _ _ _ x)
    | (cases h; exact nofun)
    | cases h

/-- Two bytes are a CRC where they are its two halves, the lower first. -/
theorem crc_eq_ofLeBytes (c : BitVec 16) (low high : Byte) :
    c.toNat = ofLeBytes [low, high] ↔ low = c.extractLsb' 0 8 ∧ high = c.extractLsb' 8 8 := by
  have hb : ofLeBytes [low, high] = low.toNat + 256 * high.toNat := by simp [ofLeBytes]
  have hl := low.isLt
  have hh := high.isLt
  have hc := c.isLt
  rw [hb]
  constructor
  · intro h
    constructor <;> apply BitVec.eq_of_toNat_eq <;>
      simp [BitVec.extractLsb'_toNat, Nat.shiftRight_eq_div_pow] <;> omega
  · rintro ⟨rfl, rfl⟩
    simp [BitVec.extractLsb'_toNat, Nat.shiftRight_eq_div_pow]
    omega

/-- In frame, symbols that do not reach the end of the CRC are read on, whatever they are. -/
theorem readFrame_reads_on (l : LinkId) {kind : Byte} {n : Nat} (hk : payloadLength kind = some n) (rest : List Byte) :
    ∀ more read : List Byte, read.length + more.length ≤ n + 1 →
      readFrame l (.inFrame (kind :: read)) (more ++ rest) = readFrame l (.inFrame (kind :: (read ++ more))) rest := by
  intro more
  induction more with
  | nil =>
      intro read _
      simp
  | cons b more ih =>
      intro read h
      simp only [List.length_cons] at h
      have hlt : read.length + 1 < n + 2 := by omega
      have hb : readSymbol l (.inFrame (kind :: read)) b = (.inFrame (kind :: (read ++ [b])), none) := by
        simp [readSymbol, hk, hlt]
      simp only [List.cons_append, readFrame, hb]
      rw [ih (read ++ [b]) (by simp; omega)]
      simp

/-- While no command waits, a step idles, moves a receiver on, or takes the frame that a symbol completes. -/
theorem idleStep_next {s t : State} (h : idleStep s = .next t) :
    t = s ∨ ∃ u, Reading s u ∧ (t = u ∨ ∃ c, exec c u = .next t ∧ ∀ x, c ≠ .partReset x) := by
  unfold idleStep at h
  split at h
  · cases h
    exact .inl rfl
  · rename_i l b rest _
    unfold receiveSymbol at h
    split at h
    · cases h
      exact .inr ⟨_, ⟨l, _, rest, rfl⟩, .inl rfl⟩
    · dsimp only at h
      split at h
      · rename_i c hc
        exact .inr ⟨_, ⟨l, _, rest, rfl⟩, .inr ⟨c, h, readSymbol_command hc⟩⟩
      · cases h
        exact .inr ⟨_, ⟨l, _, rest, rfl⟩, .inl rfl⟩

end Sys2Proof.Machine
end

