-- ==== Sys2Proof/Laws/Sound.lean ====
section
/-! SUPPORT. Soundness reads ten fields; what keeps it. -/

namespace Sys2Proof.Machine

/-- States that agree in the fields soundness reads are sound together. -/
theorem sound_congr {s t : State} (hi : t.intake = s.intake) (hr : t.responses = s.responses)
    (hn : t.notices = s.notices) (hp : t.park = s.park) (hm : t.miss = s.miss) (hs : t.store = s.store)
    (hx : t.settings = s.settings)
    (ho : (t.parkMark, t.missMark, t.pacing) = (s.parkMark, s.missMark, s.pacing)) : t.sound ↔ s.sound := by
  simp only [Prod.mk.injEq] at ho
  unfold State.sound State.withinCapacity State.occupancyShown
  rw [hi, hr, hn, hp, hm, hs, hx, ho.1, ho.2.1, ho.2.2]

/-- The end of an event keeps soundness. -/
theorem signalInterrupt_sound {a s : State} : (signalInterrupt a s).sound ↔ s.sound := by
  apply sound_congr <;> simp

/-- The work inside the part keeps soundness. -/
theorem Inner.sound {s t : State} (h : Inner s t) (hs : s.sound) : t.sound := by
  obtain ⟨⟨hintake, hresponses, hnotices, hpark, hmiss⟩, hstore, hsettings, hshown⟩ := hs
  obtain ⟨b1, b2, b3, b4⟩ := h.bounded ⟨hnotices, hpark, hmiss, hstore⟩
  have hk := h.kept
  simp only [State.kept, State.portSide, Prod.mk.injEq] at hk
  have e1 : t.intake = s.intake := hk.1.2.2.2.2.2.2.1
  have e2 : t.responses = s.responses := hk.1.2.2.2.2.2.2.2.2.2.1
  have e3 : t.settings = s.settings := settings_of_kept h.kept
  exact ⟨⟨by rw [e1]; exact hintake, by rw [e2]; exact hresponses, b1, b2, b3⟩, b4, by rw [e3]; exact hsettings,
    h.shown hshown⟩

/-- A placed response keeps soundness where a slot is free. -/
theorem placeResponse_sound {s : State} (r : Response) (hs : s.sound) (h : 0 < s.freeSlots) :
    (placeResponse r s).sound := by
  obtain ⟨⟨hintake, hresponses, hnotices, hpark, hmiss⟩, hstore, hsettings, hshown⟩ := hs
  refine ⟨⟨hintake, ?_, hnotices, hpark, hmiss⟩, hstore, hsettings, hshown⟩
  unfold State.freeSlots at h
  simp [placeResponse]
  omega

/-- An answered message keeps soundness where a slot is free. -/
theorem answer_sound {s : State} (m : Message) (status : Status) (reason : Option Reason) (hs : s.sound)
    (h : 0 < s.freeSlots) : (answer m status reason s).sound :=
  placeResponse_sound (s := schedulerServed s) _ hs h

/-- A message that leaves the intake keeps soundness. -/
theorem issued_sound {s : State} (i : Nat) (hs : s.sound) : (s.issued i).sound := by
  obtain ⟨⟨hintake, hresponses, hnotices, hpark, hmiss⟩, hstore, hsettings, hshown⟩ := hs
  exact ⟨⟨Nat.le_trans (List.length_eraseIdx_le _ _) hintake, hresponses, hnotices, hpark, hmiss⟩, hstore, hsettings,
    hshown⟩

/-- Settings that keep the watermark modes leave the occupancies shown. -/
theorem occupancyShown_settings {s : State} (x : Settings) (hp : x.parkMode = s.settings.parkMode)
    (hm : x.missMode = s.settings.missMode) (h : s.occupancyShown) : { s with settings := x }.occupancyShown := by
  unfold State.occupancyShown at h ⊢
  dsimp only
  rw [hp, hm]
  exact h

/-- A write of the watermark modes shows the occupancies as they stand (R162). -/
theorem writeWatermarkModes_shown {s : State} (v : Word) (h : s.occupancyShown) :
    (writeWatermarkModes v s).occupancyShown :=
  ⟨⟨fun _ => rfl, Nat.le_refl _⟩, ⟨fun _ => rfl, Nat.le_refl _⟩, h.2.2⟩

/-- A snapshot leaves the occupancies shown (R162). -/
theorem snapshotWatermark_shows {x : Watermark} {mode : WatermarkMode} {n : Nat} (h : x.shows mode n) :
    (snapshotWatermark mode n x).shows mode n := by
  cases mode with
  | current => exact h
  | peak => exact ⟨nofun, Nat.le_refl n⟩

theorem takeSnapshot_shown {s : State} (h : s.occupancyShown) : (takeSnapshot s).occupancyShown :=
  ⟨snapshotWatermark_shows h.1, snapshotWatermark_shows h.2.1, h.2.2⟩

end Sys2Proof.Machine
end

