-- ==== Sys2Proof/WellFormed.lean ====
section
/-! DEFINITION. When a command's operands are ones the spec gives its row. exec is total on ill-formed ones too. -/

namespace Sys2Proof

/-- A host write names a word-aligned offset (R172); an unknown kind byte is none of the ten codes of Table 11.1; a
granule lies below 2^26 (R1); an image returned as invalid is one R171 finds invalid. -/
def Instr.wellFormed : Instr → Bool
  | .windowWrite offset _ _ => offset.toNat % 4 == 0
  | .unknownKindFrame _ kind => kind.toNat == 0 || 10 < kind.toNat
  | .missQueueFill granule dram =>
      decide (granule < Config.granules) &&
        (match dram with
         | .invalid image => !imageValid image
         | .good | .singleBit | .uncorrectable => true)
  | .tagStoreWriteComplete granule => decide (granule < Config.granules)
  | .partReset _ | .intakeStagingLastWord _ | .snapshotModeWrite _ | .watermarkModeWrite _ | .interruptEnableWrite _
  | .clearIntakeOverrun _ | .clearNoticeLost _ | .portReset _ | .headSlotFirstWordRead _ | .headSlotLastWordRead _
  | .openDomain | .setDomain | .defineGroup | .dropGroup | .setHome | .setPolicy | .snapshot | .abort
  | .linkControlEnable | .linkControlDisable | .linkControlRejoin | .format | .query | .closeDomain | .assign
  | .reclaim | .transfer | .share | .unshare | .wipe | .releaseFence | .check _ _ | .checkPortEvent | .recordRead
  | .recordUpdate | .wipeStart | .commitRunWrite | .revert | .sweepWindowTake _ | .postResponse | .recallAck _ _
  | .wipeDone _ _ | .rejoinAck _ _ | .idle _ | .badCrcFrame _ | .partSentKindFrame _ _ | .frameSent _
  | .silenceExpiry _ | .recallDeadlineExpiry _ | .wipeDeadlineExpiry _ | .rejoinDeadlineExpiry _
  | .snapshotIntervalExpiry => true

end Sys2Proof
end

