-- ==== Sys2Proof/Tests/Slice0.lean ====
section
/-! SUPPORT. The model's own tests: well-formedness, layouts, and, for each statement with hypotheses, a concrete state
and operands that meet them. Each looks at one step of a small state. -/

namespace Sys2Proof.Tests
open Sys2Proof Sys2Proof.Machine
set_option Elab.async false

/-! ## Well-formedness: each check refuses an ill-formed command -/

theorem test_wellFormed_refuses_unaligned_write : (Instr.windowWrite 0x062 .word 0).wellFormed = false := by decide
theorem test_wellFormed_takes_aligned_write : (Instr.windowWrite 0x060 .word 0).wellFormed = true := by decide
theorem test_wellFormed_refuses_known_kind :
    (Instr.unknownKindFrame 0 0x01).wellFormed = false ∧ (Instr.unknownKindFrame 0 0x0A).wellFormed = false := by decide
theorem test_wellFormed_takes_unknown_kind :
    (Instr.unknownKindFrame 0 0x00).wellFormed = true ∧ (Instr.unknownKindFrame 0 0x0B).wellFormed = true := by decide
theorem test_wellFormed_refuses_large_granule :
    (Instr.missQueueFill 0x4000000 .good).wellFormed = false ∧
    (Instr.tagStoreWriteComplete 0x4000000).wellFormed = false := by decide
theorem test_wellFormed_refuses_valid_image_as_invalid :
    (Instr.missQueueFill 0 (.invalid 0)).wellFormed = false ∧
    (Instr.missQueueFill 0 (.invalid 7)).wellFormed = true := by decide +kernel

/-! ## Small states -/

/-- The state after a step, where there is one. -/
def next (o : Host.Outcome State Fault Refusal) : Option State :=
  match o with
  | .next s => some s
  | .fault _ | .refused _ => none

/-- An UP link with its silence timer running. -/
def upLink : Link := { Link.initial with state := .up, silenceTimer := some 16 }

/-- A REJOINING link in an attempt. -/
def rejoiningLink (attempt : Nat) : Link :=
  { Link.initial with state := .rejoining, attempt := attempt, rejoinNumber := 3, rejoinDeadline := some 100 }

/-- A serving part of 1024 granules with its six links UP; domains 0 and 1 are ACTIVE, domain 1 with quota 8 and two
granules; group 4 lists them; window 0 is granules 0 to 511 at CL1. -/
def serving : State :=
  { State.reset with
    part := .serving, tableSize := 1024, links := Vector.replicate 6 upLink
    domains := [(0, { DomainRecord.initial with state := .active, quota := 67108864, groupCount := 1 }),
      (1, { DomainRecord.initial with state := .active, quota := 8, held := 2, groupCount := 1 }),
      (2, { DomainRecord.initial with state := .active, quota := 8 })]
    groups := [(4, { GroupRecord.free with defined := true, members := [0, 1] })]
    homes := State.reset.homes.set 0 (some { base := 0, count := 512, link := 1 }) }

/-- A record HELD by domain 1 with {R, W}. -/
def heldRecord : GranuleRecord := { state := .stable (.held 1 3), generation := 5, holders := 4 }

/-- The same record under a change of context 0. -/
def movingRecord : GranuleRecord := { heldRecord with state := .moving 0 (.held 1 3) }

/-- A state with granule 16 resident. -/
def withResident (r : GranuleRecord) (s : State) : State :=
  { s with cache := [(16, { way0 := some { granule := 16, record := r, dirty := false }, way1 := none, lru := .way1 })] }

/-- A message of a kind with tag 7 and fields, each a value, first bit and width. -/
def message (kind : Nat) (fields : List (Nat × Nat × Nat)) : Message :=
  BitVec.ofNat 256 (packFields ([(7, 0, 16), (kind, 16, 8)] ++ fields))

/-- The state with one message in the intake. -/
def sent (m : Message) (s : State) : State := { s with intake := [m] }

/-- The only message of a state is the one that issues next, and it spells a command. -/
abbrev issues (m : Message) (c : Option Command) (s : State) : Prop :=
  (sent m s).selected = some (0, m) ∧ decodeCommand m = c

/-- A check of domain 1 on granule 16, from CL0. -/
def readCheck : Check := { link := 0, tag := 9, domain := 1, granule := 16, kind := 0, cacheWanted := true }

/-- The state with a check in its lane, its tag in the accounting. -/
def inLane (k : Check) (s : State) : State :=
  modLink k.link (fun x => { x with lane := [k], accounting := [k.tag] }) s

/-- A RECLAIM with wipe of granules 16 and 17 from domain 1, as its context works it. -/
def reclaimWork (phase : Phase) (request : Request) (run : Option Run) : Work :=
  { newWork 7 (.range 16 2 none (.reclaim 1 true)) phase request 16 with run := run }

/-- Its run, of both granules, with granule 16 marked. -/
def reclaimRun : Run := { freshRun 16 1 with image := [(16, movingRecord)], union := 4, needsWipe := true }

/-- The state with context 0 at a work. -/
def working (w : Work) (s : State) : State := setWork 0 (some w) s

/-- A sweep of domain 1 that waits for its first window. -/
def sweeping (s : State) : State := setWork 3 (some (newWork 8 (.closeDomain 1) .scan .noRequest 0)) s

/-- A state with every context in POST. -/
def fullContexts : State :=
  { serving with
    ctxs := Vector.replicate 16 { runSeq := 0, work := some (newWork 1 (.query 0) .post .noRequest 0) } }

/-! ## Layouts (chapter 11) -/

/-- The check value of the CRC: the ASCII digits 1 to 9 give 0x29B1. -/
theorem test_crc16_check_value : crc16 [0x31, 0x32, 0x33, 0x34, 0x35, 0x36, 0x37, 0x38, 0x39] = 0x29B1#16 := by
  decide +kernel

theorem test_idle_frame_is_taken : takeFrame 2 ([0x00] ++ TxFrame.idle.bytes ++ [0x55]) = some (.idle 2, [0x55]) := by
  decide +kernel

theorem test_bad_crc_frame : takeFrame 2 [0x7E, 0x0A, 0x00, 0x00] = some (.badCrcFrame 2, []) := by decide +kernel

theorem test_unknown_kind_frame : takeFrame 2 [0x7E, 0x0B, 0x7E] = some (.unknownKindFrame 2 0x0B, [0x7E]) := by
  decide +kernel

/-- A record HELD by domain 1: state code 2, owner 1 at bit 10, rights 3 at bit 28, generation 5, holders CL2. -/
theorem test_image_of_held_record : encodeImage heldRecord = 0x0000040530000402#64 := by decide +kernel

theorem test_image_is_read_back : decodeImage (encodeImage movingRecord) = some movingRecord := by decide +kernel

/-- Each field of the image at its largest value, in a WIPING and in a stable record. -/
theorem test_image_fields :
    let wiping : GranuleRecord := { state := .wiping 15 (.shared 1023 255 7), generation := 255, holders := 63 }
    encodeImage wiping = 0x00003FFF7FFFFFDD#64 ∧
    encodeImage { wiping with state := .moving 0 (.held 1023 0) } = 0x00003FFF000FFC14#64 ∧
    encodeImage { wiping with state := .stable .fenced } = 0x00003FFF00000006#64 ∧
    encodeImage { wiping with state := .moving 3 .wiped } = 0x00003FFF000000CC#64 ∧
    encodeImage replacementRecord = 0x00003F0000000006#64 := by decide +kernel

theorem test_record_image_hypotheses :
    heldRecord.content.ownerField < 1024 ∧ heldRecord.content.groupField < 256 ∧
    (Stable.shared 1023 255 7).ownerField < 1024 ∧ (Stable.shared 1023 255 7).groupField < 256 ∧
    imageValid 7 = false ∧ imageValid 0x24 = false ∧ imageValid 0x80000000 = false ∧
    imageValid 0x8000000000000000 = false := by decide +kernel

/-- The worked example of chapter 5: base 0x1003, count 0x205 under one home window. -/
theorem test_carving_example :
    let s := { State.reset with homes := State.reset.homes.set 0 (some { base := 0, count := 0x10000, link := 1 }) }
    [(0x1003, 517), (0x1004, 516), (0x1008, 512), (0x1010, 504), (0x1100, 264), (0x1200, 8)].map
      (fun e => carveOrder s e.1 e.2) = [0, 2, 3, 4, 8, 3] := by decide +kernel

/-- The same with a window boundary at 0x1180. -/
theorem test_carving_stops_at_window :
    let s := { State.reset with
      homes := (State.reset.homes.set 2 (some { base := 0x1000, count := 0x180, link := 1 })).set 3
        (some { base := 0x1180, count := 0x100, link := 1 }) }
    [(0x1100, 264), (0x1180, 136), (0x1200, 8)].map (fun e => carveOrder s e.1 e.2) = [7, 7, 3] := by decide +kernel

/-! ## The queue, the window and the interrupt -/

theorem test_step_runs_the_front :
    (next (step { State.reset with pending := [.idle 0, .snapshot] })).map (·.pending) = some [.snapshot] ∧
    next (step State.reset) = some State.reset := by decide +kernel

theorem test_interrupt_hypotheses :
    (next (exec (.rejoinAck 0 0x03) { serving with
      links := serving.links.set 0 (rejoiningLink 1), irqNotice := true })).map (·.msiSent) = some 1 := by decide +kernel

theorem test_intake_offer_hypotheses :
    ({ State.reset with intake := List.replicate 31 0 } : State).intake.length < 32 ∧
    32 ≤ ({ State.reset with intake := List.replicate 32 0 } : State).intake.length := by decide +kernel

theorem test_window_write_hypotheses :
    (next (exec (.windowWrite 0x060 .word 10) State.reset)).map (·.settings.recallDeadline) = some 10 ∧
    (next (exec (.windowWrite 0x060 .word 9) State.reset)).map (·.settings.recallDeadline) = some 500 ∧
    (0x024#12).toNat ∉ [0x000, 0x004, 0x008, 0x00C, 0x010, 0x014, 0x018, 0x01C, 0x050, 0x060, 0x064, 0x068, 0x06C, 0x070,
      0x074, 0x078, 0x07C] ∧ (0x018#12).toNat = 4 * 6 := by decide +kernel

theorem test_mode_write_hypotheses :
    (1#32).getLsbD 0 = true ∧ (0#32).getLsbD 0 = false ∧ State.reset.settings.snapshotMode = .manual ∧
    (next (exec (.snapshotModeWrite 1) State.reset)).map (fun s => (s.settings.snapshotMode, s.snapTimer)) =
      some (.auto, some 100) := by decide +kernel

theorem test_control_word_hypotheses :
    (3#32).getLsbD 16 = false ∧ (0x10003#32).getLsbD 16 = true ∧
    (next (exec (.portReset 0x10001) { serving with intake := [0], overrun := true })).map
      (fun s => (s.intake, s.overrun, s.irqResponse, s.irqNotice)) = some ([], false, true, false) := by decide +kernel

/-- A response with counts 1, 2 and 3. -/
def someResponse : Response := { tag := 7, kind := 0x02, status := .partly, reason := none, body := .counts 1 2 3 }

theorem test_head_slot_hypotheses :
    let s := { State.reset with responses := [someResponse], respLatch := some someResponse,
                                noticeLatch := some { body := .linkUp 2, lostBefore := false } }
    s.respLatch = some someResponse ∧ s.noticeLatch = some { body := .linkUp 2, lostBefore := false } ∧
    State.reset.respLatch = none ∧ someResponse.body = .counts 1 2 3 ∧
    (next (exec (.headSlotLastWordRead .response) s)).map (fun t => (t.responses, t.respLatch, t.readData)) =
      some ([], none, 3) := by decide +kernel

/-- A narrow read is of its whole word, also where that word is one of a head slot (R172). -/
theorem test_narrow_read_is_of_its_word :
    let s := { State.reset with responses := [someResponse] }
    readWindow s 0x041 = readWindow s 0x040 ∧ readWindow s 0x043 = readWindow s 0x040 ∧
    readWindow s 0x040 = 0x00012000 ∧ readWindow s 0x021 = readWindow s 0x020 ∧
    (afterRead 0x021 s).respLatch = some someResponse ∧
    ((afterRead 0x02F (afterRead 0x020 s)).responses, (afterRead 0x02F (afterRead 0x020 s)).readData) = ([], 3) := by
  decide +kernel

/-- A 64-bit access is two word accesses, the lower offset first (R172). -/
theorem test_double_access :
    (readDouble 0x048 State.reset).1 = (0x20000000, 0) ∧
    (readDouble 0x020 { State.reset with responses := [someResponse] }).1 =
      ((encodeResponse someResponse).extractLsb' 0 32, (encodeResponse someResponse).extractLsb' 32 32) ∧
    doubleWriteCommands 0x060 0x0000000A00000014 = [.windowWrite 0x060 .word 20, .windowWrite 0x064 .word 10] := by
  decide +kernel

/-- The status word with the queues at their capacities, and the watermark words at theirs. -/
theorem test_window_read_hypotheses :
    let n : Notice := { body := .linkUp 0, lostBefore := false }
    let full := { serving with intake := List.replicate 32 0, responses := List.replicate 32 someResponse,
                               notices := List.replicate 64 n, parkMark := { indicator := 64, copy := 63 },
                               missMark := { indicator := 48, copy := 47 } }
    full.intake.length ≤ 32 ∧ full.responses.length ≤ 32 ∧ full.notices.length ≤ 64 ∧
    readWindow full 0x040 = 0x40200002 ∧ readWindow full 0x084 = 0x3040 ∧ readWindow full 0x088 = 0x2F3F ∧
    readWindow full 0x1D4 = 0 ∧ readWindow full 0x08C = 0 ∧ readWindow full 0x0FC = 0 := by decide +kernel

/-- A DENIED notice with every field at the top of its width, and a LINK_DOWN. -/
theorem test_notice_layout_hypotheses :
    encodeNotice { body := .denied 5 31 65535 4294967295 7 .notReady true, lostBefore := true } =
      0x000000020707FFFFFFFFFFFF1F050101 ∧
    encodeNotice { body := .linkDown 3 .silence, lostBefore := false } = 0x02030005 := by decide +kernel

/-! ## Issue -/

/-- ASSIGN of granules 0 to 4 to domain 1 with {R, W, D}. -/
def assignMessage : Message := message 0x01 [(5, 64, 32), (1, 128, 16), (7, 168, 3)]

/-- ABORT of tag 7 and of tag 8. -/
def abortMessage (target : Nat) : Message := message 0x17 [(target, 32, 16)]

theorem test_next_issue_hypotheses :
    (judge serving (message 0x16 [])).canIssue serving.freeSlots = true ∧
    (let s := { serving with responses := List.replicate 31 someResponse, intake := [assignMessage, abortMessage 9],
                             ctxs := fullContexts.ctxs }
     (judge s assignMessage).canIssue s.freeSlots = false ∧ isUrgent assignMessage = false ∧
     isUrgent (abortMessage 9) = true ∧ s.nextIssue = some 1 ∧
     ({ s with intake := [assignMessage] } : State).nextIssue = none) := by decide +kernel

/-- How a message stands, at the ends of each waiting condition: context 0 holds granules 16 and 17, a sweep a window. -/
theorem test_judgement_hypotheses :
    let works := working (reclaimWork .validate .read none) serving
    let window := setWork 3 (some { newWork 8 (.closeDomain 2) .scan .read 512 with window := some 512 }) serving
    let taken := fullContexts
    let wipe := fun base count => message 0x06 [(9, 0, 16), (base, 32, 32), (count, 64, 32)]
    let close := message 0x0A [(1, 128, 16)]
    let alone := { serving with groups := [], domains := [(1, { DomainRecord.initial with state := .active })] }
    let queued := { serving with intake := [wipe 0 1] }
    judge serving (message 0x08 [(0xFFFFFFFF, 32, 32)]) = .answer 1 ∧
    judge serving (message 0x08 [(1024, 32, 32)]) = .answer 1 ∧ judge serving (message 0x16 []) = .answer 1 ∧
    judge taken (wipe 0 1) = .wait ∧ judge taken (message 0x08 [(3, 0, 16)]) = .wait ∧
    [(wipe 18 1), (wipe 15 1)].all (fun m => decide (judge works m = .take)) = true ∧
    [(wipe 17 1), (wipe 15 2)].all (fun m => decide (judge works m = .wait)) = true ∧
    judge window (wipe 511 1) = .take ∧ judge window (wipe 1023 1) = .wait ∧ judge window (wipe 512 1) = .wait ∧
    judge alone close = .take ∧
    judge (working { reclaimWork .validate .read none with tag := 1 } alone) close = .wait ∧
    judge (working (newWork 1 (.range 0 1 none .wipe) .validate .read 0) alone) close = .take ∧
    judge queued (abortMessage 9) = .answer 1 ∧ judge queued (abortMessage (msgTag (wipe 0 1)).toNat) = .answer 2 := by
  decide +kernel

/-- The selected message: a context command with the queue full, an immediate one only in the Scheduler's turn. -/
theorem test_selected_hypotheses :
    let full := List.replicate 32 someResponse
    let posting := setWork 0 (some ((newWork 1 (.query 3) .read .noRequest 3).enterPost .ok none (.counts 0 0 0))) serving
    ({ sent assignMessage serving with responses := full } : State).selected = some (0, assignMessage) ∧
    ({ sent (message 0x16 []) serving with responses := full } : State).selected = none ∧
    (sent (message 0x16 []) posting).selected = none ∧
    ({ sent (message 0x16 []) posting with respPtr := 15 } : State).selected = some (0, message 0x16 []) := by decide +kernel

/-- Command messages at the ends of their codings: spelt inside, not outside (Tables 11.4 and 11.5). -/
theorem test_message_coding_hypotheses :
    let spelt := fun kind fields => (decodeCommand (message kind fields)).isSome
    [(0x01, [(67108863, 32, 32), (65536, 64, 32), (1023, 128, 16), (1, 168, 3)]), (0x08, [(67108863, 32, 32)]),
      (0x06, [(2, 24, 8), (1, 64, 32), (255, 176, 8)]), (0x10, [(67108864, 96, 32), (3, 176, 8)]),
      (0x12, [(1023, 32, 16), (8, 184, 8), (1, 48, 16), (2, 64, 16), (3, 80, 16), (4, 96, 16), (5, 112, 16), (6, 128, 16)]),
      (0x14, [(3, 160, 8), (3, 176, 8)]), (0x15, [(15, 160, 8), (67108864, 64, 32), (5, 168, 3)]),
      (0x15, [(67108863, 32, 32), (1, 64, 32), (5, 168, 3)]), (0x15, [(67108864, 32, 32)]), (0x15, [(6, 168, 3)]),
      (0x18, [(5, 160, 8), (2, 168, 3)])].all (fun e => spelt e.1 e.2) = true ∧
    [(0x01, [(1, 64, 32), (0, 168, 3)]), (0x01, [(65537, 64, 32), (1, 168, 3)]), (0x08, [(67108864, 32, 32)]),
      (0x06, [(2, 24, 8), (2, 64, 32)]), (0x06, []), (0x0A, [(1024, 128, 16)]), (0x10, [(67108865, 96, 32)]),
      (0x11, [(4, 24, 8), (67108865, 96, 32)]), (0x12, [(1, 184, 8)]), (0x12, [(9, 184, 8)]), (0x12, [(2, 184, 8)]),
      (0x14, [(4, 160, 8)]), (0x15, [(16, 160, 8)]),
      (0x15, [(67108864, 32, 32), (1, 64, 32)]), (0x15, [(1, 64, 32), (6, 168, 3)]),
      (0x15, [(67108865, 64, 32)]), (0x18, [(3, 168, 3)]), (0x18, [(6, 160, 8)]), (0x0B, []), (0x19, [])].all
        (fun e => !spelt e.1 e.2) = true := by decide +kernel

theorem test_refused_at_issue_hypotheses :
    issues (message 0x08 [(1024, 32, 32)]) (some (.job (.query 1024))) serving ∧
    refusal serving 7 (.query 1024) = some .range ∧
    issues (message 0x08 [(0xFFFFFFFF, 32, 32)]) none serving := by decide +kernel

/-- A LINK_CONTROL out of its coding, by its link and by its action, and a message of an unknown kind: refused by the row
of its action, by any row of LINK_CONTROL, and by any row. -/
theorem test_refused_out_of_coding :
    let refused := fun (m : Message) (c : Instr) => decide ((next (exec c (sent m serving))).map
      (fun t => (t.intake, t.responses.map (fun r => (r.status, r.reason)))) = some ([], [(.refused, some .badField)]))
    let link := message 0x18 [(6, 160, 8), (1, 168, 3)]
    let action := message 0x18 [(2, 160, 8), (3, 168, 3)]
    issues link none serving ∧ issues action none serving ∧ issues (message 0x0B []) none serving ∧
    [(link, Instr.linkControlDisable), (action, .linkControlEnable), (action, .linkControlRejoin),
      (message 0x0B [], .snapshot), (message 0x0B [], .linkControlEnable), (message 0x0B [], .format),
      (message 0x19 [], .dropGroup)].all (fun e => refused e.1 e.2) = true := by decide +kernel

theorem test_context_command_hypotheses :
    issues assignMessage (some (.job (.range 0 5 none (.assign 1 7)))) serving ∧
    refusal serving 7 (.range 0 5 none (.assign 1 7)) = none ∧ freeCtx serving = some 0 := by decide +kernel

theorem test_free_context :
    freeCtx (working (reclaimWork .validate .read none) serving) = some 1 ∧ freeCtx (sweeping serving) = some 0 ∧
    freeCtx fullContexts = none := by decide +kernel

theorem test_query_and_format_hypotheses :
    issues (message 0x08 [(1023, 32, 32)]) (some (.job (.query 1023))) serving ∧
    refusal serving 7 (.query 1023) = none ∧
    issues (message 0x09 [(0x60, 24, 8), (16, 32, 32), (4, 64, 32), (512, 96, 32)])
      (some (.job (.format 512 (some 16) (some 4)))) State.reset ∧
    refusal State.reset 7 (.format 512 (some 16) (some 4)) = none := by decide +kernel

/-- A FORMAT whose root base has bit 26 set, and one whose root count has bit 27 set, are refused RANGE (log 37). -/
theorem test_format_bits_that_must_be_zero :
    decodeCommand (message 0x09 [(0x60, 24, 8), (0x4000010, 32, 32), (4, 64, 32), (512, 96, 32)]) =
      some (.job (.format 512 (some 0x4000010) (some 4))) ∧
    refusal State.reset 7 (.format 512 (some 0x4000010) (some 4)) = some .range ∧
    decodeCommand (message 0x09 [(0x60, 24, 8), (16, 32, 32), (0x8000004, 64, 32), (512, 96, 32)]) =
      some (.job (.format 512 (some 16) (some 0x8000004))) ∧
    refusal State.reset 7 (.format 512 (some 16) (some 0x8000004)) = some .range := by decide +kernel

/-- The message and the job of each range command on granules 16 and 17. -/
def rangeMessage (kind : Nat) (fields : List (Nat × Nat × Nat)) : Message :=
  message kind ([(16, 32, 32), (2, 64, 32)] ++ fields)

theorem test_range_commands_issue :
    issues (rangeMessage 0x02 [(1, 24, 1), (1, 128, 16)]) (some (.job (.range 16 2 none (.reclaim 1 true)))) serving ∧
    issues (rangeMessage 0x03 [(1, 24, 1), (1, 128, 16), (2, 144, 16), (3, 168, 3)])
      (some (.job (.range 16 2 none (.transfer 1 2 3 true)))) serving ∧
    issues (rangeMessage 0x04 [(1, 128, 16), (4, 160, 8)]) (some (.job (.range 16 2 none (.share 1 4)))) serving ∧
    issues (rangeMessage 0x05 [(4, 160, 8)]) (some (.job (.range 16 2 none (.unshare 4)))) serving ∧
    issues (rangeMessage 0x06 []) (some (.job (.range 16 2 none .wipe))) serving ∧
    issues (rangeMessage 0x07 []) (some (.job (.range 16 2 none .releaseFence))) serving := by decide +kernel

theorem test_range_commands_pass :
    refusal serving 7 (.range 16 2 none (.reclaim 1 true)) = none ∧
    refusal serving 7 (.range 16 2 none (.transfer 1 2 3 true)) = none ∧
    refusal serving 7 (.range 16 2 none (.share 1 4)) = none ∧
    refusal serving 7 (.range 16 2 none (.unshare 4)) = none ∧ refusal serving 7 (.range 16 2 none .wipe) = none ∧
    refusal serving 7 (.range 16 2 none .releaseFence) = none := by decide +kernel

/-- The first test that fails gives the reason (Table 4.3); domain 1 has 2 of its quota of 8. -/
theorem test_refusal_reasons :
    let busy := working (newWork 7 (.query 3) .read .read 3) serving
    let assign := fun count => Job.range 0 count none (.assign 1 7)
    refusal State.reset 7 (.query 0) = some .notReady ∧ refusal busy 7 (.query 1024) = some .dupTag ∧
    refusal serving 7 (.query 1024) = some .range ∧ refusal serving 7 (.query 1023) = none ∧
    refusal serving 7 (assign 6) = none ∧ refusal serving 7 (assign 7) = some .quota ∧
    refusal serving 7 (.range 0 1 none (.assign 3 7)) = some .domainState ∧
    refusal serving 7 (.range 0 1 none (.transfer 1 1 7 false)) = some .badField ∧
    refusal serving 7 (.range 0 1 none (.transfer 1 2 7 false)) = some .unwipedTransfer ∧
    refusal serving 7 (.range 0 1 none (.share 2 4)) = some .groupState ∧
    refusal serving 7 (.closeDomain 1) = some .inGroup ∧ refusal serving 7 (.format 512 none none) = some .badState ∧
    refusal State.reset 7 (.format 511 none none) = some .badField ∧
    refusal State.reset 7 (.format 512 (some 0) none) = some .badField ∧
    refusal State.reset 7 (.format 512 (some 511) (some 2)) = some .range := by decide +kernel

theorem test_reservation_of_an_assign :
    (next (exec .assign (sent assignMessage serving))).map (fun s => ((s.domain 1).incoming, s.intake)) = some (5, []) ∧
    next (exec .reclaim (sent assignMessage serving)) = some (sent assignMessage serving) := by decide +kernel

/-- CLOSE_DOMAIN of domain 2, which holds nothing, and of domain 1 without its group, where the first block is clear and
where context 0 holds granule 511 of it. -/
theorem test_close_domain_hypotheses :
    let holding := { serving with domains := [(1, { DomainRecord.initial with state := .active, quota := 8, held := 2 })] }
    let closes := fun d => message 0x0A [(d, 128, 16)]
    issues (closes 2) (some (.job (.closeDomain 2))) serving ∧ refusal serving 7 (.closeDomain 2) = none ∧
    (serving.domain 2).held = 0 ∧ freeCtx serving = some 0 ∧
    issues (closes 1) (some (.job (.closeDomain 1))) holding ∧ refusal holding 7 (.closeDomain 1) = none ∧
    0 < (holding.domain 1).held ∧ 0 < holding.tableSize ∧
    (let wipes := fun base => working (newWork 1 (.range base 1 none .wipe) .validate .read base) holding
     let begins := fun s => ((next (exec .closeDomain (sent (closes 1) s))).bind (fun t => t.work 1)).map
       (fun w => (w.phase, w.window, w.request))
     (newWork 1 (.range 511 1 none .wipe) .validate .read 511).holdsOver 0 512 = true ∧
     (newWork 1 (.range 512 1 none .wipe) .validate .read 512).holdsOver 0 512 = false ∧
     begins (wipes 511) = some (.scan, none, .noRequest) ∧ begins (wipes 512) = some (.scan, some 0, .read)) := by
  decide +kernel

/-- The response arbiter: the first ready producer after the pointer, among contexts 0 and 3 in POST and the Scheduler. -/
theorem test_response_arbiter :
    let post := some ((newWork 1 (.query 3) .read .noRequest 3).enterPost .ok none (.counts 0 0 0))
    let s := sent (message 0x16 []) (setWork 3 post (setWork 0 post serving))
    let served := fun (p : Fin 17) (n : Nat) =>
      ({ s with respPtr := p, responses := List.replicate n someResponse } : State).served
    (served 16 0, served 0 0, served 2 0, served 3 0, served 15 31, served 0 32) =
      (some 0, some 3, some 3, some 16, some 16, none) ∧ serving.served = none := by decide +kernel

theorem test_post_response_hypotheses :
    let w := (newWork 7 (.query 3) .read .noRequest 3).enterPost .ok none (.counts 0 0 0)
    let s := working w serving
    s.served = some 0 ∧ s.work 0 = some w ∧ w.result.isSome = true ∧
    (next (exec .postResponse s)).map (fun t => (t.responses.length, t.work 0)) = some (1, none) := by decide +kernel

/-! ## Immediate commands -/

theorem test_open_domain_hypotheses :
    let m := message 0x10 [(0x10, 24, 8), (64, 96, 32), (3, 128, 16), (1, 176, 8), (2, 192, 16)]
    issues m (some (.openDomain 3 64 1 (some 2))) serving ∧ (serving.domain 3).state = .closed ∧
    issues (message 0x10 []) (some (.openDomain 0 0 0 none)) serving ∧ (serving.domain 0).state ≠ .closed ∧
    (next (exec .openDomain (sent m serving))).map (fun s => s.domain 3) = some
      { DomainRecord.initial with state := .active, quota := 64, policySet := 1, tally := some 65534 } := by decide +kernel

theorem test_set_domain_hypotheses :
    issues (message 0x11 [(3, 128, 16)]) (some (.setDomain 3 none none none)) serving ∧
    (serving.domain 3).state ≠ .active ∧
    issues (message 0x11 [(0x04, 24, 8)]) (some (.setDomain 0 (some 0) none none)) serving ∧
    issues (message 0x11 [(0x04, 24, 8), (1, 96, 32), (1, 128, 16)]) (some (.setDomain 1 (some 1) none none)) serving ∧
    issues (message 0x11 [(0x04, 24, 8), (2, 96, 32), (1, 128, 16)]) (some (.setDomain 1 (some 2) none none)) serving ∧
    (serving.domain 1).state = .active ∧ (serving.domain 1).held + (serving.domain 1).incoming = 2 := by decide +kernel

theorem test_group_hypotheses :
    issues (message 0x12 [(1, 32, 16), (2, 48, 16), (9, 160, 8), (2, 184, 8)]) (some (.defineGroup 9 [1, 2])) serving ∧
    (serving.group 9).defined = false ∧ (serving.domain 1).state = .active ∧ (serving.domain 2).state = .active ∧
    issues (message 0x12 [(1, 32, 16), (3, 48, 16), (9, 160, 8), (2, 184, 8)]) (some (.defineGroup 9 [1, 3])) serving ∧
    (serving.domain 3).state ≠ .active ∧
    issues (message 0x12 [(1, 32, 16), (2, 48, 16), (4, 160, 8), (2, 184, 8)]) (some (.defineGroup 4 [1, 2])) serving ∧
    (serving.group 4).defined = true ∧
    issues (message 0x13 [(4, 160, 8)]) (some (.dropGroup 4)) serving ∧ (serving.group 4).refs = 0 ∧
    (serving.group 4).members.Nodup ∧ issues (message 0x13 [(9, 160, 8)]) (some (.dropGroup 9)) serving := by
  decide +kernel

theorem test_set_policy_hypotheses :
    issues (message 0x14 [(3, 160, 8), (6, 168, 3), (2, 176, 8)]) (some (.setPolicy 3 6 .poison)) serving ∧
    issues (message 0x14 [(3, 160, 8), (7, 168, 3), (2, 176, 8)]) (some (.setPolicy 3 7 .poison)) serving := by
  decide +kernel

theorem test_set_home_hypotheses :
    issues (message 0x15 [(512, 32, 32), (512, 64, 32), (1, 160, 8), (3, 168, 3)])
      (some (.setHome 1 512 512 3)) serving ∧
    issues (message 0x15 [(512, 32, 32), (512, 64, 32), (1, 160, 8), (4, 168, 3)])
      (some (.setHome 1 512 512 4)) serving ∧
    issues (message 0x15 [(511, 32, 32), (512, 64, 32), (1, 160, 8), (3, 168, 3)])
      (some (.setHome 1 511 512 3)) serving ∧
    issues (message 0x15 []) (some (.setHome 0 0 0 0)) serving ∧
    overlaps 511 512 0 512 = true ∧ overlaps 512 512 0 512 = false ∧
    serving.homes[0] = some { base := 0, count := 512, link := 1 } := by decide +kernel

theorem test_snapshot_hypotheses :
    issues (message 0x16 []) (some .snapshot) serving ∧
    ({ serving with snapTimer := some 100 } : State).snapTimer.isSome = true := by decide +kernel

/-- An ABORT of tag 7 behind a head with that tag, whose contexts are all taken. -/
theorem test_abort_of_queued_hypotheses :
    let s := { fullContexts with intake := [assignMessage, abortMessage 7], respPtr := 15 }
    s.selected = some (1, abortMessage 7) ∧ decodeCommand (abortMessage 7) = some (.abort 7) ∧
    queuedTarget 7 (s.issued 1).intake = some 0 ∧ (s.issued 1).intake[0]? = some assignMessage ∧
    msgKind assignMessage ≠ 0x09 ∧ msgKind assignMessage ≠ 0x0A := by decide +kernel

/-- An ABORT of tag 7 where context 0 carries it, in each phase. -/
theorem test_abort_of_context_hypotheses :
    let works := [newWork 7 (.query 3) .read .read 3, reclaimWork .validate .read none,
      reclaimWork .mark .update (some reclaimRun), reclaimWork .mark .update (some (freshRun 16 1)),
      reclaimWork .recall .noRequest (some reclaimRun), reclaimWork .wipe .wipeStart (some reclaimRun),
      reclaimWork .commit (.commit false) (some reclaimRun)]
    works.all (fun w => let s := sent (abortMessage 7) (working w serving)
      decide (s.selected = some (0, abortMessage 7)) && decide (queuedTarget 7 (s.issued 0).intake = none) &&
      decide (findCtx s (fun w => w.tag == 7) = some 0) && w.job.abortable && !w.abortMark) = true := by decide +kernel

/-- The target among queued messages, past an urgent one of the tag; and an ABORT in MARK of a run with an empty image,
whose waiting update leaves the Miss Queue. -/
theorem test_abort_target_hypotheses :
    let waits := { serving with
      miss := [{ granule := 16, waiters := [.context 0, .check readCheck], superseding := none }] }
    queuedTarget 7 [abortMessage 9, assignMessage, rangeMessage 0x06 []] = some 1 ∧
    queuedTarget 7 [abortMessage 9] = none ∧ queuedTarget 8 [assignMessage] = none ∧ msgTag (abortMessage 9) = 7 ∧
    (next (exec .abort (sent (abortMessage 7) (working (reclaimWork .mark .update (some (freshRun 16 1))) waits)))).map
      (fun t => (t.miss.map (·.waiters), (t.work 0).map (·.phase))) = some ([[.check readCheck]], some .post) := by
  decide +kernel

theorem test_abort_of_other_contexts_hypotheses :
    let posted := (newWork 7 (.query 3) .read .noRequest 3).enterPost .ok none (.counts 0 0 0)
    let works := [(posted, true), ({ reclaimWork .mark .update (some reclaimRun) with abortMark := true }, true),
      (newWork 7 (.format 512 none none) .fill .noRequest 0, false), (newWork 7 (.closeDomain 2) .scan .noRequest 0, false)]
    works.all (fun e => let s := { sent (abortMessage 7) (working e.1 serving) with respPtr := 15 }
      decide (s.selected = some (0, abortMessage 7)) && decide (findCtx s (fun w => w.tag == 7) = some 0) &&
      decide (e.1.job.abortable = e.2)) = true ∧
    findCtx serving (fun w => w.tag == 7) = none ∧ issues (abortMessage 7) (some (.abort 7)) serving := by decide +kernel

/-! ## Links, frames and expiries -/

/-- LINK_CONTROL on CL2 with CL2 in a state. -/
theorem test_link_control_hypotheses :
    let control := fun a => message 0x18 [(2, 160, 8), (a, 168, 3)]
    let links := [upLink, Link.initial, rejoiningLink 2, { Link.initial with state := .failed }]
    links.all (fun k => let s := { serving with links := serving.links.set 2 k }
      [(0, LinkAction.enable), (1, .disable), (2, .rejoin)].all (fun a =>
        decide ((sent (control a.1) s).selected = some (0, control a.1)) &&
        decide (decodeCommand (control a.1) = some (.linkControl 2 a.2)))) = true := by decide +kernel

theorem test_leaving_up_hypotheses :
    (serving.link 2).state = .up ∧ (serving.link 2).silenceTimer.isSome = true ∧
    32 ≤ ((modLink 2 (fun k => { k with withheld := 32 }) serving).link 2).accounting.length +
      ((modLink 2 (fun k => { k with withheld := 32 }) serving).link 2).withheld ∧
    (decodeCheck 2 9).tag ∈ ((modLink 2 (fun k => { k with accounting := [9] }) serving).link 2).accounting := by
  decide +kernel

theorem test_crc_fault_starts_a_rejoin :
    (next (exec (.badCrcFrame 2) serving)).map (fun s => ((s.link 2).state, (s.link 2).tx, s.notices)) =
      some (.rejoining, [.rejoin 1], [{ body := .linkDown 2 .crc, lostBefore := false }]) := by decide +kernel

/-- LINK_CONTROL on an UP link: DISABLE discards the waiting check, REJOIN answers OK and begins attempt 1. -/
theorem test_link_control_on_up :
    let control := fun a => message 0x18 [(2, 160, 8), (a, 168, 3)]
    let s := { serving with
      miss := [{ granule := 16, waiters := [.check { readCheck with link := 2 }, .context 0], superseding := none }] }
    (next (exec .linkControlDisable (sent (control 1) s))).map
      (fun t => ((t.link 2).state, t.miss.map (·.waiters), t.responses.length)) = some (.off, [[.context 0]], 1) ∧
    (next (exec .linkControlRejoin (sent (control 2) s))).map
      (fun t => ((t.link 2).attempt, t.responses.map (·.status))) = some (1, [.ok]) := by decide +kernel

/-- The receiver over ENABLE, DISABLE in the middle of a frame, and REJOIN of a FAILED link. -/
theorem test_link_control_and_receiver :
    let control := fun a => message 0x18 [(2, 160, 8), (a, 168, 3)]
    let on := fun (state : LinkState) => { serving with
      links := serving.links.set 2 { upLink with state := state, receiver := .inFrame [0x01] } }
    let after := fun row a state => (next (exec row (sent (control a) (on state)))).map
      (fun t => ((t.link 2).state, (t.link 2).receiver))
    after .linkControlEnable 0 .off = some (.rejoining, .hunting) ∧
    [LinkState.rejoining, .up, .failed].map (after .linkControlDisable 1) = List.replicate 3 (some (.off, .hunting)) ∧
    after .linkControlRejoin 2 .failed = some (.rejoining, .inFrame [0x01]) := by decide +kernel

theorem test_link_change_hypotheses :
    let marked := reclaimRun.setMark 2 .awaitingAck
    let both := marked.setMark 3 .awaitingRejoin
    let wiping := { reclaimRun with wipe := .outstanding 1 }
    marked.mark 2 = .awaitingAck ∧ marked.wipe ≠ .outstanding 2 ∧ (allLinks.all fun l =>
      decide (l = 2) || decide (marked.mark l = .noMark)) = true ∧ both.mark 3 ≠ .noMark ∧
    reclaimRun.mark 1 = .noMark ∧ wiping.wipe = .outstanding 1 ∧ wiping.outcome = .clean := by decide +kernel

/-- The receiver of CL2 on its symbols: hunting, kind, payload and CRC, and the frame taken in the last one's event. -/
theorem test_receiver_hypotheses :
    let on := fun (r : Receiver) => { serving with links := serving.links.set 2 { upLink with receiver := r } }
    let after := fun r b => (next (receiveSymbol 2 b (on r))).map (fun t => ((t.link 2).state, (t.link 2).receiver))
    let ack := crc16 [0x08, 0x01]
    (serving.link 2).state ≠ .off ∧ (on (.inFrame [0x08])).link 2 = { upLink with receiver := .inFrame [0x08] } ∧
    after .hunting 0x55 = some (.up, .hunting) ∧ after .hunting 0x7E = some (.up, .inFrame []) ∧
    payloadLength 0x0B = none ∧ after (.inFrame []) 0x0B = some (.rejoining, .hunting) ∧
    payloadLength 0x08 = some 1 ∧ after (.inFrame []) 0x08 = some (.up, .inFrame [0x08]) ∧
    after (.inFrame [0x08]) 0x7E = some (.up, .inFrame [0x08, 0x7E]) ∧
    after (.inFrame [0x08, 0x01]) 0x7E = some (.up, .inFrame [0x08, 0x01, 0x7E]) ∧
    after (.inFrame [0x08, 0x01, ack.extractLsb' 0 8]) (ack.extractLsb' 8 8) = some (.up, .hunting) ∧
    after (.inFrame [0x08, 0x01, 0x00]) 0x00 = some (.rejoining, .hunting) ∧
    payloadLength 0x0A = some ([] : List Byte).length ∧ (0x7E : Byte) ∉ ([0x00, 0x0A] : List Byte) := by decide +kernel

/-- A step on an empty command queue reads the front symbol: the last symbol of an IDLE frame on CL2 takes the frame, an
OFF CL3 passes its symbol over, and a waiting command comes first. -/
theorem test_step_reads_a_symbol :
    let crc := crc16 [0x0A]
    let k := { upLink with silenceTimer := some 3, receiver := .inFrame [0x0A, crc.extractLsb' 0 8] }
    let s := { serving with links := (serving.links.set 2 k).set 3 Link.initial }
    (next (step { s with arrivals := [(2, crc.extractLsb' 8 8), (3, 0x7E)] })).map (fun t => (t.link 2, t.arrivals)) =
      some (upLink, [(3, 0x7E)]) ∧
    next (step { s with arrivals := [(3, 0x7E)] }) = some s ∧
    (next (step { s with arrivals := [(2, 0x7E)], pending := [.frameSent 2] })).map (·.arrivals) = some [(2, 0x7E)] := by
  decide +kernel

theorem test_answers_are_dropped :
    let on := fun (state : LinkState) => modLink 2 (fun k => { k with state := state }) serving
    [LinkState.off, .failed].all (fun x => [Instr.recallAck 2 0, .wipeDone 2 0, .rejoinAck 2 0].all (fun c =>
      decide (next (exec c (on x)) = some (on x)))) = true := by decide +kernel

theorem test_check_and_idle_hypotheses :
    (State.reset.link 2).state ≠ .up ∧ (serving.link 2).state = .up ∧
    (let s := modLink 2 (fun k => { k with withheld := 31 }) serving
     (s.link 2).accounting.length + (s.link 2).withheld < 32 ∧ (decodeCheck 2 9).tag ∉ (s.link 2).accounting) := by
  decide +kernel

/-- A CHECK of tag 9, kind DMA_READ, domain 1, granule 16, cacheable verdict wanted. -/
theorem test_check_payload : decodeCheck 4 0x200000800149#48 =
    { link := 4, tag := 9, domain := 1, granule := 16, kind := 2, cacheWanted := true } := by decide +kernel

/-- A context in RECALL that awaits CL2, with a run and a further mark. -/
def recalling (more : Run → Run) : State :=
  working (reclaimWork .recall .noRequest
    (some (more { reclaimRun.setMark 2 .awaitingAck with deadline := some (.recall 500) }))) serving

theorem test_recall_ack_hypotheses :
    [(fun r => r), (fun r => r.setMark 3 .awaitingAck), (fun r => r.fence .linkFailed (some 3)),
      (fun r => { r with needsWipe := false })].all (fun more =>
        decide ((recalling more).runSeq 0 = (0x00#8).extractLsb' 4 4) &&
        match (recalling more).work 0 with
        | some w => decide (w.phase = .recall) && decide (w.markOf 2 = .awaitingAck)
        | none => false) = true ∧
    ((next (exec (.recallAck 2 0x00) (recalling id))).bind (fun s => s.work 0)).map (fun w => (w.phase, w.request)) =
      some (.wipe, .wipeStart) := by decide +kernel

/-- A context in WIPE whose wipe is outstanding with CL1. -/
def wiping : State :=
  working (reclaimWork .wipe .noRequest
    (some { reclaimRun with wipe := .outstanding 1, deadline := some (.wipe 20) })) serving

theorem test_wipe_done_hypotheses :
    wiping.runSeq 0 = (0x0100#16).extractLsb' 4 4 ∧ (0x0100#16).getLsbD 8 = true ∧ (0x0000#16).getLsbD 8 = false ∧
    (wiping.work 0).map (fun w => (w.phase, w.wipeOutstanding 1)) = some (.wipe, true) ∧
    ((next (exec (.wipeDone 1 0) wiping)).bind (fun s => s.work 0)).map (fun w => (w.phase, w.request)) =
      some (.commit, .commit false) := by decide +kernel

theorem test_stray_answer_hypotheses :
    (next (exec (.recallAck 2 0x10) (recalling id))).map (fun s => (s.counter (.ofLink 2 .strayAcks)).value) = some 1 ∧
    (next (exec (.wipeDone 2 0) wiping)).map (fun s => (s.counter (.ofLink 2 .strayAcks)).value) = some 1 ∧
    (next (exec (.rejoinAck 2 0) serving)).map (fun s => (s.counter (.ofLink 2 .strayAcks)).value) = some 1 ∧
    (rejoiningLink 1).rejoinNumber ≠ (0x04#8).extractLsb' 0 4 := by decide +kernel

theorem test_rejoin_ack_hypotheses :
    (rejoiningLink 1).state = .rejoining ∧ (rejoiningLink 1).rejoinNumber = (0xF3#8).extractLsb' 0 4 ∧
    (next (exec (.rejoinAck 2 0xF3) { serving with links := serving.links.set 2 (rejoiningLink 1) })).map
      (fun s => s.link 2) = some { upLink with rejoinNumber := 3 } := by decide +kernel

/-- A rejoin clears a mark: with another left the context stays in RECALL, with none left the phase ends. -/
theorem test_clear_mark :
    let one := reclaimRun.setMark 2 .awaitingRejoin
    let clears := fun r => Work.clearMark 2 (reclaimWork .recall .noRequest (some r))
    one.mark 2 = .awaitingRejoin ∧ (allLinks.all fun l => decide (l = 2) || decide (one.mark l = .noMark)) = true ∧
    ((clears one).phase, (clears one).markOf 2, (clears one).run.map (·.cleared)) = (.wipe, .noMark, some 4) ∧
    ((clears (one.setMark 3 .awaitingAck)).phase, (clears (one.setMark 3 .awaitingAck)).markOf 3) =
      (.recall, .awaitingAck) := by decide +kernel

theorem test_frame_sent_hypotheses :
    ({ upLink with tx := [.credit 3, .idle] } : Link).tx = .credit 3 :: [.idle] ∧ upLink.tx = [] ∧
    (rejoiningLink 1).state = .rejoining ∧ (State.reset.link 2).state = .off ∧
    (next (exec (.frameSent 2) { serving with links := serving.links.set 2 { upLink with tx := [.credit 3] } })).map
      (fun s => ((s.link 2).tx, (s.link 2).line)) = some ([], some (.credit 3)) := by decide +kernel

theorem test_rejoin_deadline_hypotheses :
    (rejoiningLink 2).rejoinDeadline.isSome = true ∧ (rejoiningLink 2).attempt < 3 ∧ 3 ≤ (rejoiningLink 3).attempt ∧
    (next (exec (.rejoinDeadlineExpiry 2) { serving with links := serving.links.set 2 (rejoiningLink 3) })).map
      (fun s => (s.link 2).state) = some .failed := by decide +kernel

theorem test_run_deadline_hypotheses :
    (recalling id).deadline 0 = some (.recall 500) ∧ wiping.deadline 0 = some (.wipe 20) ∧
    (next (exec (.recallDeadlineExpiry 0) (recalling id))).map (fun s => (s.link 2).state) = some .rejoining ∧
    ((next (exec (.wipeDeadlineExpiry 0) wiping)).bind (fun s => s.work 0)).map (fun w => w.phase) = some .commit := by
  decide +kernel

/-- At a recall expiry the awaited UP link leaves UP and the other contexts take it. -/
theorem test_recall_expiry_leaves_up :
    let s := setWork 3 (some (reclaimWork .wipe .noRequest (some { reclaimRun with wipe := .outstanding 2 }))) (recalling id)
    (recalling id).deadline 0 = some (.recall 500) ∧
    (next (exec (.recallDeadlineExpiry 0) s)).map (fun t => (t.notices.map (·.body), (t.work 3).map (·.phase))) =
      some ([.linkDown 2 .recallExpiry], some .commit) := by decide +kernel

/-! ## Deciding a check -/

/-- One check for each case of Table 2.4. -/
theorem test_order_of_cases :
    let k := readCheck
    let r := heldRecord
    decision State.reset { k with domain := 0 } r = .grant 7 0 false ∧
    decision State.reset k r = .deny .notReady 0 ∧
    decision serving { k with granule := 1024 } r = .deny .outOfRange 0 ∧
    decision serving { k with link := 4 } r = .deny .malformed 0 ∧
    decision serving { k with domain := 1024 } r = .deny .malformed 0 ∧
    decision serving { k with domain := 1023 } r = .deny .domainClosed 0 ∧
    decision serving k movingRecord = .park ∧
    decision serving k { r with state := .stable .fenced } = .deny .fencedGranule 5 ∧
    decision serving k { r with state := .stable .wiped } = .deny .unassigned 5 ∧
    decision serving { k with domain := 2 } r = .deny .notOwner 5 ∧
    decision serving { k with link := 5, kind := 2 } r = .deny .noRight 5 ∧
    decision serving k r = .grant 3 5 true ∧
    decision serving { k with domain := 0 } { r with state := .stable (.shared 1 4 3) } = .grant 3 5 true := by
  decide +kernel

theorem test_grant_law_hypotheses :
    decision serving readCheck { heldRecord with state := .stable (.shared 1 4 3) } = .grant 3 5 true ∧
    1 ∈ (serving.group 4).members := by decide +kernel

theorem test_denial_hypotheses :
    (serving.actionFor .notOwner 2).poisons = false ∧
    (({ serving with policies := Vector.replicate 4 (Vector.replicate 7 .poison) } : State).actionFor .notOwner 2).poisons
      = true ∧ FaultClass.malformed.code = 6 ∧
    ((modDomain 1 (fun r => { r with tally := some 65535 }) serving).domain 1).tally = some 65535 ∧
    ((modDomain 1 (fun r => { r with tally := some 65534 }) serving).domain 1).tally = some 65534 ∧
    (serving.domain 1).tally = none := by decide +kernel

/-- The DENIED notice comes first, and only where the action calls for it. -/
theorem test_denied_notice :
    let policy := fun a (s : State) => { s with policies := Vector.replicate 4 (Vector.replicate 7 a) }
    (answerDenial readCheck .notOwner 5 (policy .poisonNotify serving)).notices.map (·.body) =
      [.denied 0 9 1 16 0 .notOwner true] ∧ (answerDenial readCheck .notOwner 5 (policy .poison serving)).notices = [] ∧
    serving.actionFor .notOwner 1 = .notify := by decide +kernel

/-- The denial that takes a tally of 65535: DENIED, then TALLY_REACHED, then the COUNTER_WRAP of DENIALS (log 13). -/
theorem test_denial_reaches_tally :
    let s := setCounter (.ofLink 0 .denials) { value := BitVec.allOnes 32, wrapped := false }
      (modDomain 1 (fun r => { r with tally := some 65535 }) serving)
    let t := answerDenial readCheck .notOwner 5 s
    (s.domain 1).tally = some 65535 ∧ s.actionFor .notOwner 1 = .notify ∧ s.notices.length < 63 ∧
    s.actionFor .noRight 1 = .notify ∧ (t.domain 1).tally = none ∧
    t.notices.map (·.body) = [.denied 0 9 1 16 0 .notOwner false, .tallyReached 1 0 9 .notOwner,
      .counterWrap (.ofLink 0 .denials)] ∧
    t.counter (.ofLink 0 .denials) = { value := 0, wrapped := true } := by decide +kernel

/-- A counted denial advances the tally; a NOT_READY one, a GRANT and a RETRY leave every domain as it is. -/
theorem test_tally_of_each_verdict :
    let s := modDomain 1 (fun r => { r with tally := some 65534 }) serving
    ((answerDenial readCheck .notOwner 5 s).domain 1).tally = some 65535 ∧
    (answerDenial readCheck .notReady 0 s).domains = s.domains ∧
    (answerGrant readCheck 3 5 true s).domains = s.domains ∧ (answerRetry readCheck s).domains = s.domains := by
  decide +kernel

theorem test_notice_and_counter_hypotheses :
    let n : Notice := { body := .linkUp 0, lostBefore := false }
    let full := setCounter (.ofPart .cacheHits) { value := 0xFFFFFFFF, wrapped := false } serving
    (List.replicate 63 n).length < 64 ∧ 64 ≤ (List.replicate 64 n).length ∧
    (full.counter (.ofPart .cacheHits)).value = 0xFFFFFFFF ∧ (serving.counter (.ofPart .cacheHits)).value ≠ 0xFFFFFFFF := by
  decide +kernel

theorem test_port_event_without_record_hypotheses :
    let bare := { State.reset with links := serving.links }
    (inLane readCheck bare).nextGrant = some (.lane 0 readCheck) ∧ readCheck.domain ≠ 0 ∧
    (inLane { readCheck with domain := 0 } bare).nextGrant = some (.lane 0 { readCheck with domain := 0 }) ∧
    (inLane { readCheck with granule := 1024 } serving).nextGrant = some (.lane 0 { readCheck with granule := 1024 }) ∧
    decideWithoutRecord serving { readCheck with kind := 7 } = some (.deny .malformed 0) ∧
    serving.tableSize = 1024 := by decide +kernel

/-- The port arbiter and the Change Engine's round: lanes CL0 and CL2 and contexts 2 and 5 present. -/
theorem test_port_arbiter :
    let w := fun waits => some { newWork 7 (.query 3) .read .read 3 with waiting := waits }
    let s := inLane { readCheck with link := 2 } (inLane readCheck (setWork 5 (w false) (setWork 2 (w false) serving)))
    let granted := fun (p : Fin 7) (e : CtxId) => ({ s with portPtr := p, enginePtr := e } : State).nextGrant
    granted 6 15 = some (.lane 0 readCheck) ∧ granted 0 15 = some (.lane 2 { readCheck with link := 2 }) ∧
    granted 2 15 = some (.engine 2 .read) ∧ granted 5 2 = some (.engine 5 .read) ∧ granted 2 5 = some (.engine 2 .read) ∧
    (setWork 2 (w true) s).nextCtx = some 5 ∧ serving.nextGrant = none := by decide +kernel

theorem test_port_event_on_hit_hypotheses :
    let s := inLane readCheck (withResident heldRecord serving)
    s.nextGrant = some (.lane 0 readCheck) ∧ decideWithoutRecord s readCheck = none ∧
    s.resident readCheck.granule = some heldRecord ∧ decision s readCheck heldRecord = .grant 3 5 true ∧
    (next (exec .checkPortEvent s)).map (fun t => (t.resident 16, (t.link 0).tx)) = some
      (some { heldRecord with holders := 5 }, [.verdict ⟨9, .grant, some 3, true, 5, true, none⟩]) := by decide +kernel

theorem test_port_event_parks :
    let s := inLane readCheck (withResident movingRecord serving)
    let full := { s with park := List.replicate 64 { readCheck with link := 1 } }
    s.nextGrant = some (.lane 0 readCheck) ∧ decision s readCheck movingRecord = .park ∧ s.park.length < 64 ∧
    full.nextGrant = some (.lane 0 readCheck) ∧ 64 ≤ full.park.length ∧
    (next (exec .checkPortEvent s)).map (fun t => t.park) = some [readCheck] := by decide +kernel

/-- A hit that adds a holder makes its way dirty, a denial does not, and a full Park Queue answers RETRY. -/
theorem test_port_event_answers :
    let s := inLane readCheck (withResident heldRecord serving)
    let denied := inLane { readCheck with domain := 2 } (withResident heldRecord serving)
    let full := inLane readCheck { withResident movingRecord serving with park := List.replicate 64 { readCheck with link := 1 } }
    decision s { readCheck with domain := 2 } heldRecord = .deny .notOwner 5 ∧
    (next (exec .checkPortEvent s)).map (fun t => wayDirty (t.cacheSet 16).way0) = some true ∧
    (next (exec .checkPortEvent denied)).map (fun t => (wayDirty (t.cacheSet 16).way0, (t.link 0).tx)) =
      some (false, [.verdict ⟨9, .deny, none, false, 5, true, some .notOwner⟩]) ∧
    (next (exec .checkPortEvent full)).map (fun t => (t.park.length, (t.link 0).tx)) =
      some (64, [.verdict ⟨9, .retry, none, false, 0, true, none⟩]) := by decide +kernel

/-- Checks parked on granule 16, inside and outside a run of granules 16 and 17, decided again. -/
theorem test_redecision_hypotheses :
    let s := { withResident heldRecord serving with park := [readCheck, { readCheck with granule := 18 }] }
    let records := [(16, heldRecord), (17, heldRecord)]
    let written := redecideRun 16 2 records s
    (records.all fun e => decide (e.2.state = .stable (.held 1 3))) = true ∧ s.resident 16 = some heldRecord ∧
    written.1.park = [{ readCheck with granule := 18 }] ∧ written.2 = [(16, { heldRecord with holders := 5 }), (17, heldRecord)] ∧
    (redecideGranule 16 s).park = [{ readCheck with granule := 18 }] ∧
    (redecideGranule 16 s).resident 16 = some { heldRecord with holders := 5 } ∧
    decideCheck readCheck movingRecord s = (parkCheck readCheck s, movingRecord) ∧ s.park.length < 64 := by decide +kernel

/-- A Miss Queue entry for granule 16 with some waiters. -/
def entry (n : Nat) : MissEntry := { granule := 16, waiters := List.replicate n (.check readCheck), superseding := none }

theorem test_port_event_on_miss_hypotheses :
    let s := inLane readCheck serving
    s.nextGrant = some (.lane 0 readCheck) ∧ decideWithoutRecord s readCheck = none ∧ s.resident 16 = none ∧
    s.missEntry 16 = none ∧ s.miss.length < 48 ∧
    ({ s with miss := [entry 7] } : State).missEntry 16 = some (entry 7) ∧ (entry 7).waiters.length < 8 ∧
    ({ s with miss := [entry 8] } : State).missEntry 16 = some (entry 8) ∧ 8 ≤ (entry 8).waiters.length ∧
    48 ≤ ((List.range' 32 48).map (fun g => { entry 1 with granule := g })).length := by decide +kernel

theorem test_pacing_hypotheses :
    let paced := { serving with pacing := true, links := serving.links.set 2 { upLink with withheld := 3, tx := [.credit 2] } }
    paced.pacing = true ∧ (testPacing paced).pacing = false ∧ (paced.link 2).state = .up ∧ 0 < (paced.link 2).withheld ∧
    ((testPacing paced).link 2).tx = [.credit 5] ∧
    (testPacing { serving with miss := List.replicate 44 (entry 1) }).pacing = true ∧
    (testPacing { serving with miss := List.replicate 43 (entry 1) }).pacing = false := by decide +kernel

/-- Occupancies presented: to a CURRENT and to a PEAK watermark, as it rises and falls, and to pacing. -/
theorem test_occupancy_hypotheses :
    let on := fun mode n (x : Nat) => { serving with
      miss := List.replicate n (entry 1), missMark := { indicator := x, copy := 0 }
      settings := { serving.settings with missMode := mode } }
    let shown := fun mode x => ((presentOccupancy serving (on mode 3 x)).missMark).indicator
    (shown .current 5, shown .peak 5, shown .peak 2) = (3, 5, 3) ∧
    presentOccupancy (on .current 3 5) (on .current 3 5) = on .current 3 5 ∧
    (presentOccupancy serving (on .current 44 0)).pacing = true ∧ serving.missEntry 16 = none ∧
    serving.miss.length < 48 ∧
    (next (exec .checkPortEvent (inLane readCheck serving))).map (fun t => (t.missMark.indicator, t.parkMark.indicator)) =
      some (1, 0) := by decide +kernel

/-! ## The Tag Store and the Record Cache -/

theorem test_write_complete_hypotheses :
    let s := { serving with port := [.write 16 (encodeImage heldRecord) 0xA5] }
    s.fill = none ∧ s.oldestReq 16 = some (.write 16 (encodeImage heldRecord) 0xA5) ∧
    (next (exec (.tagStoreWriteComplete 16) s)).map (fun t => (t.store, t.port)) =
      some ([(16, { image := encodeImage heldRecord, ecc := some 0xA5 })], []) := by decide +kernel

theorem test_fill_write_hypotheses :
    let f : FillWrites := { root := some (16, 4), outstanding := [(19, 21)] }
    let s := working (newWork 7 (.format 512 (some 16) (some 4)) .fill .noRequest 0) { serving with fill := some f }
    inRanges 19 f.outstanding = true ∧ inRanges 20 f.outstanding = true ∧ inRanges 21 f.outstanding = false ∧
    removeGranule 19 f.outstanding ≠ [] ∧ removeGranule 20 [(20, 21)] = [] ∧
    (next (exec (.tagStoreWriteComplete 19) s)).map (fun t => decodeImage (t.stored 19)) =
      some (some { state := .stable (.held 0 7), generation := 0, holders := 0 }) ∧
    (next (exec (.tagStoreWriteComplete 20) s)).map (fun t => decodeImage (t.stored 20)) =
      some (some { state := .stable .vacant, generation := 0, holders := 0 }) := by decide +kernel

/-- A granule leaves every range that holds it, and no other granule does. -/
theorem test_remove_granule :
    removeGranule 5 [(0, 10), (5, 6), (3, 9), (7, 8)] = [(0, 5), (6, 10), (3, 5), (6, 9), (7, 8)] ∧
    inRanges 5 (removeGranule 5 [(0, 10), (3, 9)]) = false ∧ inRanges 4 (removeGranule 5 [(0, 10)]) = true := by
  decide +kernel

/-- A serving part with the read of granule 16 outstanding. -/
def reading (e : MissEntry) : State :=
  { serving with miss := [e], port := [.read 16 none], store := [(16, { image := encodeImage heldRecord, ecc := none })] }

theorem test_fill_hypotheses :
    let s := reading (entry 0)
    s.missEntry 16 = some (entry 0) ∧ s.oldestReq 16 = some (.read 16 none) ∧ s.resident 16 = none ∧
    settle (entry 0) none (s.stored 16) .good = .plain heldRecord ∧
    settle (entry 0) none (s.stored 16) .singleBit = .corrected heldRecord ∧
    settle (entry 0) none (s.stored 16) .uncorrectable = .lost ∧
    settle { entry 0 with superseding := some movingRecord } none (s.stored 16) .uncorrectable = .plain movingRecord ∧
    settle (entry 0) (some (encodeImage heldRecord)) 0 .uncorrectable = .plain heldRecord ∧
    imageValid 7 = false := by decide +kernel

theorem test_fill_serves_its_waiter :
    (next (exec (.missQueueFill 16 .good) (reading (entry 1)))).map (fun t => (t.miss, (t.link 0).tx)) =
      some ([], [.verdict ⟨9, .grant, some 3, true, 5, true, none⟩]) := by decide +kernel

/-- What is installed for each content settled, and the parked checks of a lost record. -/
theorem test_fill_installs :
    let s := { reading (entry 1) with park := [readCheck] }
    let lost := installSettled 16 [] .lost s
    s.resident 16 = none ∧ (installSettled 16 [] (.plain heldRecord) s).resident 16 = some heldRecord ∧
    (installSettled 16 [] (.corrected heldRecord) s).resident 16 = some heldRecord ∧
    lost.resident 16 = some replacementRecord ∧ lost.park = [] ∧
    (lost.link 0).tx = [.verdict ⟨9, .deny, none, false, 0, true, some .fencedGranule⟩] ∧
    (serveWaiters 1 16 lost).missEntry 16 = some { entry 1 with waiters := [] } := by decide +kernel

theorem test_lost_record_hypotheses :
    let s := working (reclaimWork .recall .noRequest (some reclaimRun)) serving
    ((loseRecord 16 [] s).work 0).map (fun w => (w.fenced, w.run.map (·.image))) = some (1, some []) ∧
    (16, movingRecord) ∈ reclaimRun.image := by decide +kernel

theorem test_cache_write_hypotheses :
    let dirty : Way := { granule := 16, record := heldRecord, dirty := true }
    let clean : Way := { granule := 4112, record := heldRecord, dirty := false }
    let x : CacheSet := { way0 := some dirty, way1 := some clean, lru := .way0 }
    x.way x.lru = some dirty ∧ x.way x.lru.other = some clean ∧ x.victim = .way1 ∧
    ({ x with way1 := none } : CacheSet).victim = .way1 ∧ CacheSet.initial.victim = .way0 ∧
    (withResident heldRecord serving).resident 16 ≠ none ∧ serving.resident 16 = none := by decide +kernel

/-- A write-back counts WRITEBACKS, with COUNTER_WRAP at its wrap; a run write of a resident record names the other way. -/
theorem test_cache_write_effects :
    let dirty : Way := { granule := 16, record := heldRecord, dirty := true }
    let s := { serving with cache := [(16, { way0 := some dirty, way1 := some { dirty with granule := 4112 }, lru := .way1 })] }
    let full := setCounter (.ofPart .writebacks) { value := BitVec.allOnes 32, wrapped := false } s
    (s.counter (.ofPart .writebacks)).value ≠ BitVec.allOnes 32 ∧
    ((installRecord 8208 heldRecord s).counter (.ofPart .writebacks)).value = 1 ∧
    (full.counter (.ofPart .writebacks)).value = BitVec.allOnes 32 ∧
    (installRecord 8208 heldRecord full).notices.map (·.body) = [.counterWrap (.ofPart .writebacks)] ∧
    Sys2Proof.Machine.setOf 17 ≠ Sys2Proof.Machine.setOf 8208 ∧
    ((runWriteRecord s (4112, movingRecord)).cacheSet 16).lru = .way0 ∧
    ((runWriteRecord s (16, movingRecord)).cacheSet 16).lru = .way1 := by decide +kernel

/-- A run write of two records takes them in order: the resident one in its way, the other through the Port. -/
theorem test_run_write_of_two_records :
    let t := runWrite [(16, movingRecord), (17, heldRecord), (17, movingRecord)] (withResident heldRecord serving)
    t.resident 16 = some movingRecord ∧
    t.port.map PortReq.granule = [17, 17] ∧ t.outstandingWrite 17 = some (encodeImage movingRecord) := by decide +kernel

/-! ## Changes -/

theorem test_run_order_hypotheses : 0 < 1 ∧ carveOrder serving 0 1024 = 9 ∧ carveOrder serving 511 1 = 0 := by
  decide +kernel

/-- A sweep's run stops at a gap in its reclaim list. -/
theorem test_sweep_order :
    [[16, 17, 18, 19], [16, 17, 18], [16, 18, 19]].map (sweepOrder serving 16) = [2, 1, 0] := by decide +kernel

theorem test_record_read_hypotheses :
    let works := [newWork 7 (.query 16) .read .read 16, reclaimWork .validate .read none,
      { reclaimWork .validate .read none with next := 17 }]
    works.all (fun w => let s := working w (withResident heldRecord serving)
      decide (s.nextGrant = some (.engine 0 .read)) &&
      (decide (w.next = 17) || decide (s.resident w.next = some heldRecord))) = true ∧
    validateTest serving (reclaimWork .validate .read none) (.reclaim 1 true) none 16 heldRecord = none ∧
    validateTest serving (reclaimWork .validate .read none) (.reclaim 2 true) none 16 heldRecord = some .sourceState := by
  decide +kernel

theorem test_record_read_of_a_query :
    ((next (exec .recordRead (working (newWork 7 (.query 16) .read .read 16) (withResident heldRecord serving)))).bind
      (fun s => s.work 0)).map (fun w => w.result) = some (some
        { tag := 7, kind := 0x08, status := .ok, reason := none, body := .image (encodeImage heldRecord) }) := by
  decide +kernel

/-- A record read and a record update that miss: taken while there is room, refused where there is none. -/
theorem test_context_miss_hypotheses :
    let waits := fun (s : State) command => ((next (exec command s)).bind (fun t => t.work 0)).map (·.waiting)
    let reads := working (newWork 7 (.query 16) .read .read 16) serving
    let updates := working (reclaimWork .mark .update (some (freshRun 16 1))) serving
    let full := (List.range' 32 48).map (fun g => { entry 1 with granule := g })
    reads.nextGrant = some (.engine 0 .read) ∧ updates.nextGrant = some (.engine 0 .update) ∧ reads.resident 16 = none ∧
    waits reads .recordRead = some true ∧ waits { updates with miss := [entry 7] } .recordUpdate = some true ∧
    waits { updates with miss := [entry 8] } .recordUpdate = some false ∧
    waits { reads with miss := full } .recordRead = some false ∧
    waits { reads with miss := full.tail } .recordRead = some true := by decide +kernel

theorem test_validate_hypotheses :
    let fencedRecord : GranuleRecord := { heldRecord with state := .stable .fenced }
    let s := { serving with links := serving.links.set 2 { Link.initial with state := .failed } }
    let w := reclaimWork .validate .read none
    heldRecord.state = .stable (.held 1 3) ∧
    validateTest s w (.reclaim 1 true) (some 4) 16 heldRecord = some .stale ∧
    validateTest s w (.reclaim 1 true) (some 5) 512 heldRecord = some .noHome ∧
    validateTest s w .releaseFence none 16 fencedRecord = some .linkFailed ∧
    validateTest serving w .releaseFence none 16 fencedRecord = none := by decide +kernel

/-- ASSIGN's mix of VACANT and HELD records (R100), and a record under change. -/
theorem test_validate_of_an_assign :
    let w := { newWork 7 (.range 16 2 none (.assign 1 7)) .validate .read 16 with sawVacant := true }
    validateTest serving w (.assign 1 7) none 17 heldRecord = some .sourceState ∧
    validateTest serving { w with sawVacant := false } (.assign 1 7) none 17 heldRecord = none ∧
    validateTest serving { w with sawHeld := true } (.assign 1 7) none 17 { heldRecord with state := .stable .vacant } =
      some .sourceState ∧
    validateTest serving w (.assign 1 7) none 17 movingRecord = some .sourceState := by decide +kernel

theorem test_committed_record_hypotheses :
    reclaimRun.outcome = .clean ∧ (reclaimRun.fence .linkFailed (some 2)).outcome = .fenced .linkFailed (some 2) ∧
    (Stable.held 1 3).owner = some 1 ∧ (Stable.shared 2 4 3).owner = some 2 ∧ Stable.wiped.owner = none ∧ (1 : Nat) ≠ 2 :=
  by decide +kernel

theorem test_record_update_hypotheses :
    let records := [heldRecord, { heldRecord with state := .stable .wiped }, { heldRecord with state := .stable .fenced }]
    records.all (fun r =>
      let s := working (reclaimWork .mark .update (some (freshRun 16 1))) (withResident r serving)
      decide (s.nextGrant = some (.engine 0 .update)) && decide (s.resident 16 = some r)) = true ∧
    16 + 1 < (freshRun 16 1).base + 2 ^ (freshRun 16 1).order ∧ RangeOp.unchanged (.reclaim 1 true) .wiped = true := by
  decide +kernel

/-- A record marked makes its way dirty and the mark name the other way; an unchanged one leaves its way clean. -/
theorem test_record_update_way :
    let after := fun (r : GranuleRecord) =>
      (next (exec .recordUpdate (working (reclaimWork .mark .update (some (freshRun 16 1))) (withResident r serving)))).map
        (fun t => ((t.cacheSet 16).way0.map (fun y => (y.record, y.dirty)), (t.cacheSet 16).lru,
          (t.counter (.ofPart .cacheHits)).value))
    let wiped : GranuleRecord := { heldRecord with state := .stable .wiped }
    after heldRecord = some (some (movingRecord, true), .way1, 1) ∧
    after wiped = some (some (wiped, false), .way1, 1) := by decide +kernel

/-- What context 0 is about after the request it waits with is served at a fill of a record HELD by domain 1. -/
def servedAtFill (w : Work) : Option (Phase × Request × Bool × Nat) :=
  ((serveContext 0 heldRecord (working { w with waiting := true } serving)).work 0).map
    (fun w => (w.phase, w.request, w.waiting, w.next))

/-- An update short of the run's last granule and at it, and a context with no record request. -/
theorem test_update_served_at_a_fill :
    let mark := reclaimWork .mark .update (some (freshRun 16 1))
    servedAtFill mark = some (.mark, .update, false, 17) ∧
    servedAtFill { mark with next := 17 } = some (.recall, .noRequest, false, 17) ∧
    servedAtFill (reclaimWork .recall .noRequest none) = some (.recall, .noRequest, true, 16) := by decide +kernel

/-- A read of VALIDATE that passes, passes at the last granule, and fails its tests; and one of a QUERY. -/
theorem test_read_served_at_a_fill :
    let validate := reclaimWork .validate .read none
    let other := { validate with job := .range 16 2 none (.reclaim 2 true) }
    servedAtFill validate = some (.validate, .read, false, 17) ∧
    servedAtFill { validate with next := 17 } = some (.mark, .update, false, 16) ∧
    servedAtFill other = some (.post, .noRequest, false, 16) ∧
    servedAtFill (newWork 7 (.query 16) .read .read 16) = some (.post, .noRequest, false, 16) := by decide +kernel

/-- The four ends of MARK (R89). -/
theorem test_end_of_mark :
    let ends := fun (op : RangeOp) (run : Run) =>
      ((endMark 0 (working { newWork 7 (.range 16 2 none op) .mark .update 17 with run := some run } serving)).work 0).map
        (fun w => (w.phase, w.request))
    ends (.reclaim 1 true) (freshRun 16 1) = some (.post, .noRequest) ∧
    ends (.reclaim 1 true) reclaimRun = some (.recall, .noRequest) ∧
    ends (.reclaim 1 true) { reclaimRun with union := 0 } = some (.wipe, .wipeStart) ∧
    ends (.share 1 4) reclaimRun = some (.commit, .commit false) ∧
    reclaimRun.base + 2 ^ reclaimRun.order ≤ 17 + 1 := by decide +kernel

theorem test_recall_fan_out_hypotheses :
    let w := reclaimWork .recall .noRequest (some reclaimRun)
    let place := fun (k : Link) => working w { serving with links := serving.links.set 2 k }
    (place upLink).work 0 = some w ∧
    ((place { upLink with tx := List.replicate 37 (.wipe 0 0 0 0) }).link 2).state = .up ∧
    orderCount ((place { upLink with tx := List.replicate 37 (.wipe 0 0 0 0) }).link 2) < 38 ∧
    ((place (rejoiningLink 1)).link 2).state = .rejoining ∧
    ((place { Link.initial with state := .failed }).link 2).state = .failed ∧ ((place Link.initial).link 2).state = .off :=
  by decide +kernel

/-- The fan-out with CL2 at its 38 places, and with CL2 OFF, when the recall phase ends at once. -/
theorem test_recall_fan_out :
    let w := reclaimWork .mark .update (some reclaimRun)
    let fans := fun (k : Link) => recallFanOut 0 16 1 4 (working w { serving with links := serving.links.set 2 k })
    let full : Link := { upLink with tx := List.replicate 38 (.wipe 0 0 0 0) }
    38 ≤ orderCount full ∧ ((fans full).link 2).state = .rejoining ∧
    ((fans full).work 0).map (fun w => (w.phase, w.markOf 2)) = some (.recall, .awaitingRejoin) ∧
    ((fans upLink).work 0).map (fun w => (w.phase, w.markOf 2)) = some (.recall, .awaitingAck) ∧
    ((fans Link.initial).work 0).map (fun w => (w.phase, w.run.map (·.outcome))) =
      some (.commit, some (.fenced .linkOff (some 2))) := by decide +kernel

/-- The four ends of the recall phase (Table 5.5b). -/
theorem test_end_of_recall :
    let ends := fun (aborted : Bool) (run : Run) =>
      let w := { reclaimWork .recall .noRequest (some run) with abortMark := aborted }.endRecall
      (w.phase, w.request)
    ends true (reclaimRun.fence .linkFailed (some 2)) = (.commit, .commit false) ∧
    ends true reclaimRun = (.recall, .revert) ∧ ends false reclaimRun = (.wipe, .wipeStart) ∧
    ends false { reclaimRun with needsWipe := false } = (.commit, .commit false) := by decide +kernel

theorem test_wipe_start_hypotheses :
    let w := reclaimWork .wipe .wipeStart (some reclaimRun)
    let s := working w (withResident movingRecord serving)
    let down := { s with links := s.links.set 1 (rejoiningLink 1) }
    s.nextGrant = some (.engine 0 .wipeStart) ∧ reclaimRun.outcome = .clean ∧ s.homeLink reclaimRun.base = some 1 ∧
    (s.link 1).state = .up ∧ orderCount (s.link 1) < 38 ∧ down.nextGrant = some (.engine 0 .wipeStart) ∧
    (down.link 1).state ≠ .up := by decide +kernel

/-- A wipe start whose home link has no place for the order. -/
theorem test_wipe_start_without_place :
    let full : Link := { upLink with tx := List.replicate 38 (.wipe 0 0 0 0) }
    let s := { working (reclaimWork .wipe .wipeStart (some reclaimRun)) serving with links := serving.links.set 1 full }
    s.nextGrant = some (.engine 0 .wipeStart) ∧ 38 ≤ orderCount (s.link 1) ∧ reclaimRun.mark 1 ≠ .awaitingAck ∧
    reclaimRun.wipe ≠ .outstanding 1 ∧
    (next (exec .wipeStart s)).map (fun t => ((t.link 1).state, (t.work 0).map (·.phase))) =
      some (.rejoining, some .commit) := by decide +kernel

/-- A context with a run write ready. -/
def writing (request : Request) (w : Work → Work) : State :=
  working (w (reclaimWork .commit request (some reclaimRun))) (withResident movingRecord serving)

theorem test_commit_hypotheses :
    (writing (.commit false) id).nextGrant = some (.engine 0 (.commit false)) ∧
    (writing (.commit true) (fun w => { w with abortMark := true })).nextGrant = some (.engine 0 (.commit true)) ∧
    (writing (.commit false) id).park = [] ∧ 16 + 2 ≤ reclaimRun.base + 2 ^ reclaimRun.order ∧
    (writing (.commit false) (fun w => { w with job := .range 16 3 none (.reclaim 1 true) })).nextGrant =
      some (.engine 0 (.commit false)) := by decide +kernel

theorem test_commit_writes_the_result :
    (next (exec .commitRunWrite (writing (.commit false) id))).map
      (fun s => (s.resident 16, (s.domain 1).held, s.runSeq 0, (s.work 0).map (·.phase))) =
      some (some { state := .stable .wiped, generation := 6, holders := 4 }, 1, 1, some .post) := by decide +kernel

/-- A fenced commit: the owner's held count falls and FENCED is offered. -/
theorem test_fenced_commit :
    let run := reclaimRun.fence .linkFailed (some 2)
    let s := working (reclaimWork .commit (.commit false) (some run)) (withResident movingRecord serving)
    run.outcome = .fenced .linkFailed (some 2) ∧ run.image ≠ [] ∧ movingRecord.content.owner = some 1 ∧
    1 ≤ (s.domain 1).held ∧
    (next (exec .commitRunWrite s)).map (fun t => ((t.domain 1).held, t.notices.map (·.body))) =
      some (1, [.fenced 7 0x02 0 16 1 1 .linkFailed (some 2)]) := by decide +kernel

/-- The tables of a SHARE, an UNSHARE and an ASSIGN at a commit. -/
theorem test_commit_tables :
    let counted := { modGroup 4 (fun r => { r with refs := 5 }) serving with pacing := false }
    let promised := modDomain 2 (fun r => { r with incoming := 2 }) serving
    let run := { reclaimRun with image := [(16, movingRecord)] }
    ((adjustTables (.range 16 2 none (.share 1 4)) (.share 1 4) run false counted).group 4).refs = 4 ∧
    ((adjustTables (.range 16 2 none (.unshare 4)) (.unshare 4) run false counted).group 4).refs = 4 ∧
    ((adjustTables (.range 16 2 none (.transfer 1 2 7 true)) (.transfer 1 2 7 true) run false promised).domain 2) =
      { DomainRecord.initial with state := .active, quota := 8, held := 1, incoming := 0 } := by decide +kernel

/-- The tables and the counts of a sweep's run at its commit, clean and fenced (Table 7.3). -/
theorem test_sweep_commit :
    let commit := fun (run : Run) => next (exec .commitRunWrite (setWork 0
      (some { newWork 8 (.closeDomain 1) .commit (.commit false) 0 with
        window := some 0, reclaim := [20], run := some run }) (withResident movingRecord serving)))
    let fenced := reclaimRun.fence .linkFailed (some 2)
    (commit reclaimRun).map (fun t => ((t.domain 1).held, (t.work 0).map (fun w => (w.changed, w.fenced)))) =
      some (1, some (1, 0)) ∧
    (commit fenced).map (fun t => ((t.domain 1).held, (t.work 0).map (fun w => (w.changed, w.fenced)))) =
      some (1, some (0, 1)) ∧
    (commit reclaimRun).map (·.resident 16) = some (some { state := .stable .wiped, generation := 6, holders := 4 }) ∧
    (commit fenced).map (·.resident 16) = some (some { state := .stable .fenced, generation := 6, holders := 4 }) := by
  decide +kernel

/-- The three ends of a range command's run (R98). -/
theorem test_end_of_run :
    let ends := fun count aborted => (endRun 0 (working { newWork 7 (.range 16 count none .wipe) .commit .noRequest 16 with
      run := some reclaimRun, abortMark := aborted } serving)).work 0
    (ends 2 false).map (fun w => (w.phase, w.result.map (·.status))) = some (.post, some .ok) ∧
    (ends 3 false).map (fun w => (w.phase, w.cursor)) = some (.mark, 18) ∧
    (ends 3 true).map (fun w => (w.phase, w.result.map (·.status))) = some (.post, some .aborted) := by decide +kernel

theorem test_revert_hypotheses :
    (writing .revert id).nextGrant = some (.engine 0 .revert) ∧ (writing .revert id).park = [] ∧
    (next (exec .revert (writing .revert id))).map (fun s => (s.resident 16, (s.domain 1).held)) =
      some (some heldRecord, 2) := by decide +kernel

theorem test_sweep_window_hypotheses :
    0 < ((sweeping serving).domain 1).held ∧
    (reclaimWork .validate .read none).holdsOver 0 512 = true ∧ (newWork 7 (.query 3) .read .read 3).holdsOver 0 512 = false ∧
    ((modDomain 1 (fun r => { r with held := 0 }) (sweeping serving)).domain 1).held = 0 ∧
    next (exec (.sweepWindowTake 3) (sweeping (working (reclaimWork .validate .read none) serving))) =
      some (sweeping (working (reclaimWork .validate .read none) serving)) ∧
    ((next (exec (.sweepWindowTake 3) (sweeping serving))).bind (fun s => s.work 3)).map (fun w => (w.window, w.request)) =
      some (some 0, .read) := by decide +kernel

/-- The sweep at a record of its read pass, at a run's end and at a window's end. -/
theorem test_sweep_hypotheses :
    let held := { newWork 8 (.closeDomain 1) .scan .read 0 with window := some 0 }
    let reads := fun (n : Nat) (list : List Nat) =>
      (serveContext 3 heldRecord (setWork 3 (some { held with next := n, reclaim := list }) serving)).work 3
    let ends := fun n list => (endRun 3 (setWork 3 (some { held with run := some reclaimRun, reclaim := list })
      (modDomain 1 (fun r => { r with held := n }) serving))).work 3
    (reads 510 []).map (fun w => (w.next, w.reclaim)) = some (511, [510]) ∧
    (reads 511 [510]).map (fun w => (w.phase, w.run.map (·.order), w.reclaim)) = some (.mark, some 1, []) ∧
    ((serveContext 3 replacementRecord (setWork 3 (some { held with next := 511 }) serving)).work 3).map
      (fun w => (w.cursor, w.window)) = some (512, some 512) ∧
    (ends 0 []).map (·.phase) = some .post ∧ (ends 2 [20]).map (·.next) = some 20 ∧ (ends 2 []).map (·.cursor) = some 512 ∧
    ((finishWindow 3 1 (setWork 3 (some { held with cursor := 512, window := some 512 }) serving)).work 3).map (·.result) =
      some (some { tag := 8, kind := 0x0A, status := .ok, reason := none, body := .counts 0 2 0 }) ∧
    ((finishWindow 3 1 (setWork 3 (some { held with cursor := 512, window := some 512 }) serving)).domain 1).state = .closed := by
  decide +kernel

/-- The windows of contexts 3 and 5 once context `c`, with window 0, gives it up beside the other, which waits at 512. -/
def windowsAfter (c other : CtxId) (s : State) : Option (Option Nat) × Option (Option Nat) :=
  let held := { newWork 8 (.closeDomain 1) .scan .read 0 with window := some 0 }
  let waits := { newWork 9 (.closeDomain 2) .scan .noRequest 0 with cursor := 512 }
  let t := finishWindow c 1 (setWork other (some waits) (setWork c (some held)
    (modDomain 2 (fun r => { r with held := 1 }) s)))
  ((t.work 3).map (·.window), (t.work 5).map (·.window))

/-- The lower context takes the block both would take next, and a context that holds it keeps both waiting. -/
theorem test_windows_are_offered :
    windowsAfter 3 5 serving = (some (some 512), some none) ∧ windowsAfter 5 3 serving = (some (some 512), some none) ∧
    windowsAfter 3 5 (working (newWork 7 (.range 1023 1 none .wipe) .validate .read 1023) serving) =
      (some none, some none) := by decide +kernel

/-! ## The whole part -/

theorem test_inner_command_hypotheses :
    Instr.checkPortEvent ∈ [Instr.checkPortEvent, .recordRead, .recordUpdate, .wipeStart, .commitRunWrite, .revert] ∧
    (next (exec .checkPortEvent State.reset)).isSome = true := by decide +kernel

theorem test_soundness_hypotheses : serving.sound ∧ (next (step { serving with pending := [.idle 2] })).isSome = true := by
  refine ⟨⟨?_, by decide +kernel, ?_, ?_⟩, by decide +kernel⟩
  · refine ⟨?_, ?_, ?_, ?_, ?_⟩ <;> decide
  · refine ⟨?_, ?_, ?_, ?_, ?_⟩ <;> decide
  · refine ⟨⟨?_, ?_⟩, ⟨?_, ?_⟩, ?_, ?_⟩ <;> decide

/-! ## The laws -/

/-- Context 0 in RECALL of granules 16 and 17, and a check of CL0 in its lane: a state that meets the four laws. -/
def lawful : State := inLane readCheck (working (reclaimWork .recall .noRequest (some reclaimRun)) serving)

theorem lawful_work_other : ∀ c : CtxId, c ≠ 0 → lawful.work c = none := by decide +kernel

theorem lawful_domain_other (d : Nat) (h0 : d ≠ 0) (h1 : d ≠ 1) (h2 : d ≠ 2) :
    lawful.domain d = DomainRecord.initial := by
  have e : lawful.domain d = tableGet DomainRecord.initial serving.domains d := rfl
  rw [e]
  simp [serving, tableGet, Ne.symm h0, Ne.symm h1, Ne.symm h2]

theorem lawful_group_other (g : Nat) (h : g ≠ 4) : lawful.group g = GroupRecord.free := by
  have e : lawful.group g = tableGet GroupRecord.free serving.groups g := rfl
  rw [e]
  simp [serving, tableGet, Ne.symm h]

theorem test_credits_hypotheses :
    lawful.creditsKept ∧ (next (step { lawful with pending := [.checkPortEvent] })).isSome = true := by
  refine ⟨⟨fun l => ⟨?_, ?_, ?_, ?_⟩, by decide +kernel⟩, by decide +kernel⟩
  · revert l; decide +kernel
  · revert l; decide +kernel
  · revert l; decide +kernel
  · revert l; decide +kernel

theorem test_contexts_hypotheses : lawful.contextsKept := by
  have only : ∀ c w, lawful.work c = some w → c = 0 ∧ w = reclaimWork .recall .noRequest (some reclaimRun) := by
    intro c w h
    by_cases hc : c = 0
    · subst hc
      exact ⟨rfl, (Option.some.inj h).symm⟩
    · rw [lawful_work_other c hc] at h
      cases h
  refine ⟨?_, ?_⟩
  · intro c w h
    obtain ⟨rfl, rfl⟩ := only c w h
    refine ⟨by decide, ?_, ?_, ?_⟩
    · intro base count expected op h
      cases h
      refine ⟨by decide, by decide, by decide, by decide, by decide, ?_⟩
      intro r h
      cases h
      decide
    · intro d h
      cases h
    · intro r h
      cases h
      refine ⟨rfl, by decide, by decide, ?_⟩
      intro e h
      simp only [reclaimRun, List.mem_singleton] at h
      subst h
      exact ⟨by decide, by decide, .held 1 3, .inl rfl⟩
  · intro c c' w w' _ _ _ _ hne h h' _ _
    exact absurd ((only c w h).1.trans (only c' w' h').1.symm) hne

theorem test_quota_hypotheses : lawful.quotaKept := by
  have none_else : ∀ c w, lawful.work c = some w → w.job = .range 16 2 none (.reclaim 1 true) := by
    intro c w h
    by_cases hc : c = 0
    · subst hc
      rw [← Option.some.inj h]
      rfl
    · rw [lawful_work_other c hc] at h
      cases h
  have promised : ∀ d, lawful.promisedTo d = 0 := by
    intro d
    have e : ∀ c, ((lawful.work c).map (fun w => if w.job.receiver = some d then w.promised else 0)).getD 0 = 0 := by
      intro c
      cases h : lawful.work c with
      | none => rfl
      | some w => simp [none_else c w h, Job.receiver]
    simp [State.promisedTo, State.sumOver, e, allCtxs]
  refine ⟨?_, ?_, ?_, ?_⟩
  · intro d h0
    by_cases h1 : d = 1
    · subst h1; decide +kernel
    · by_cases h2 : d = 2
      · subst h2; decide +kernel
      · rw [lawful_domain_other d h0 h1 h2]; decide
  · intro d
    rw [promised]
    by_cases h0 : d = 0
    · subst h0; decide +kernel
    · by_cases h1 : d = 1
      · subst h1; decide +kernel
      · by_cases h2 : d = 2
        · subst h2; decide +kernel
        · rw [lawful_domain_other d h0 h1 h2]; rfl
  · intro d h0 h
    by_cases h1 : d = 1
    · subst h1
      exact absurd h (by decide +kernel)
    · by_cases h2 : d = 2
      · subst h2; decide +kernel
      · rw [lawful_domain_other d h0 h1 h2]; rfl
  · intro c w h _
    refine ⟨?_, ?_⟩ <;> intro d hd <;> rw [none_else c w h] at hd <;> cases hd

theorem test_shares_hypotheses : lawful.sharesKept := by
  refine ⟨?_, ?_, ?_⟩
  · intro g h
    by_cases hg : g = 4
    · subst hg; decide +kernel
    · rw [lawful_group_other g hg] at h
      exact absurd h (by decide)
  · intro g h
    by_cases hg : g = 4
    · subst hg; decide +kernel
    · rw [lawful_group_other g hg] at h
      exact absurd h (by decide)
  · intro d
    by_cases h0 : d = 0
    · subst h0; decide +kernel
    · by_cases h1 : d = 1
      · subst h1; decide +kernel
      · have none_lists : lawful.groupsListing d = 0 := by
          simp only [State.groupsListing, List.length_eq_zero_iff, List.filter_eq_nil_iff]
          intro g _ h
          by_cases hg : g = 4
          · subst hg
            have m : (lawful.group 4).members = [0, 1] := by decide +kernel
            simp [m, h0, h1] at h
          · rw [lawful_group_other g hg] at h
            simp [GroupRecord.free] at h
        rw [none_lists]
        by_cases h2 : d = 2
        · subst h2; decide +kernel
        · rw [lawful_domain_other d h0 h1 h2]; rfl

end Sys2Proof.Tests
end

/-! The domain and share group commands (R13 to R17): what each meaning does, once, and the statements OpenDomain,
SetDomain and ShareGroups put together from that. -/

namespace Sys2Proof.Machine

/-! ## An immediate command in its issue event -/

/-- The row of the selected message's command takes its effect on the state without the message (R62, R68). -/
theorem exec_row_selected {s : State} {i : Nat} {m : Message} {c : Command} {instr : Instr}
    {effect : Message → State → State} (hrow : exec instr s = issueEvent (rowKind c.kindCode) effect s)
    (hs : s.selected = some (i, m)) (hm : decodeCommand m = some c) :
    exec instr s = .next (signalInterrupt s (effect m (s.issued i))) :=
  hrow.trans (issueEvent_selected effect hs (rowKind_of_code (decodeCommand_kind hm)))

section
variable {s : State} {i : Nat} {m : Message}

theorem exec_openDomain_selected {d quota : Nat} {policySet : Fin 4} {threshold : Option Nat}
    (hs : s.selected = some (i, m)) (hm : decodeCommand m = some (.openDomain d quota policySet threshold)) :
    exec .openDomain s = .next (signalInterrupt s (openDomain m d quota policySet threshold (s.issued i))) := by
  rw [exec_row_selected rfl hs hm]
  simp only [openDomainEffect, hm]

theorem exec_setDomain_selected {d : Nat} {quota : Option Nat} {policySet : Option (Fin 4)} {threshold : Option Nat}
    (hs : s.selected = some (i, m)) (hm : decodeCommand m = some (.setDomain d quota policySet threshold)) :
    exec .setDomain s = .next (signalInterrupt s (setDomain m d quota policySet threshold (s.issued i))) := by
  rw [exec_row_selected rfl hs hm]
  simp only [setDomainEffect, hm]

theorem exec_defineGroup_selected {g : Nat} {members : List Nat} (hs : s.selected = some (i, m))
    (hm : decodeCommand m = some (.defineGroup g members)) :
    exec .defineGroup s = .next (signalInterrupt s (defineGroup m g members (s.issued i))) := by
  rw [exec_row_selected rfl hs hm]
  simp only [defineGroupEffect, hm]

theorem exec_dropGroup_selected {g : Nat} (hs : s.selected = some (i, m))
    (hm : decodeCommand m = some (.dropGroup g)) :
    exec .dropGroup s = .next (signalInterrupt s (dropGroup m g (s.issued i))) := by
  rw [exec_row_selected rfl hs hm]
  simp only [dropGroupEffect, hm]

end

/-! ## The tables after an answered command -/

/-- The response and the interrupt leave the Domain Table as the command has written it. -/
@[simp] theorem domain_answered (s u : State) (m : Message) (status : Status) (reason : Option Reason) (d : Nat) :
    (signalInterrupt s (answer m status reason u)).domain d = u.domain d := by
  unfold State.domain
  rw [signalInterrupt_domains]
  rfl

/-- The response and the interrupt leave the Share Group Table as the command has written it. -/
@[simp] theorem group_answered (s u : State) (m : Message) (status : Status) (reason : Option Reason) (g : Nat) :
    (signalInterrupt s (answer m status reason u)).group g = u.group g := by
  unfold State.group
  rw [signalInterrupt_groups]
  rfl

/-- A command answered after a change of one domain record changes that record beside what the answer changes. -/
theorem answered_modDomain (s v : State) (m : Message) (d : Nat) (f : DomainRecord → DomainRecord) :
    let t := signalInterrupt s (answer m .ok none (modDomain d f v))
    t = signalInterrupt s { answer m .ok none v with domains := t.domains } ∧
    (∀ d', d' ≠ d → t.domain d' = v.domain d') ∧ t.domain d = f (v.domain d) := by
  refine ⟨?_, fun d' hd' => ?_, ?_⟩
  · rw [signalInterrupt_domains]
    rfl
  · rw [domain_answered, domain_modDomain_other f v hd']
  · rw [domain_answered, domain_modDomain_same]

/-- A command answered after a change of the two tables changes the tables beside what the answer changes. -/
theorem answered_tables {u v : State} (hu : u = { v with domains := u.domains, groups := u.groups }) (s : State)
    (m : Message) :
    let t := signalInterrupt s (answer m .ok none u)
    t = signalInterrupt s { answer m .ok none v with domains := t.domains, groups := t.groups } := by
  dsimp only
  rw [signalInterrupt_domains, signalInterrupt_groups]
  exact congrArg (fun x => signalInterrupt s (answer m .ok none x)) hu

/-! ## Domains (R13, R14) -/

@[simp] theorem tallyOf_zero : tallyOf 0 = none := rfl

@[simp] theorem tallyOf_succ (n : Nat) : tallyOf (n + 1) = some (65536 - (n + 1)) := rfl

theorem openDomain_of_closed {s : State} {d : Nat} (h : (s.domain d).state = .closed) (m : Message) (quota : Nat)
    (policySet : Fin 4) (threshold : Option Nat) :
    openDomain m d quota policySet threshold s = answer m .ok none (modDomain d (fun r =>
      { r with state := .active, quota := quota, policySet := policySet, tally := threshold.bind tallyOf }) s) :=
  if_pos h

theorem openDomain_of_not_closed {s : State} {d : Nat} (h : (s.domain d).state ≠ .closed) (m : Message) (quota : Nat)
    (policySet : Fin 4) (threshold : Option Nat) :
    openDomain m d quota policySet threshold s = answer m .refused (some .domainState) s :=
  if_neg h

theorem firstFails_nil : FirstFails (firstFailure []) [] := rfl

/-- A test in front, which decides a condition, gives its reason where the condition holds; else the rest decide. -/
theorem firstFails_cons {test : Bool} {fails : Prop} (reason : Reason) (htest : test = true ↔ fails)
    {tests : List (Bool × Reason)} {conditions : List (Prop × Reason)}
    (hrest : FirstFails (firstFailure tests) conditions) :
    FirstFails (firstFailure ((test, reason) :: tests)) ((fails, reason) :: conditions) := by
  refine ⟨fun hfails => ?_, fun hpasses => ?_⟩
  · rw [htest.mpr hfails]
    rfl
  · have hfalse : test = false := Bool.eq_false_iff.mpr (mt htest.mp hpasses)
    rw [hfalse]
    exact hrest

/-- The tests of R14 as conditions on the domain's record. -/
theorem firstFails_setDomainTests (s : State) (d : Nat) (quota : Option Nat) :
    FirstFails (firstFailure (setDomainTests s d quota))
      [(¬(s.domain d).state = .active, .domainState), (quota.isSome = true ∧ d = 0, .badField),
       (¬∀ q, quota = some q → (s.domain d).held + (s.domain d).incoming ≤ q, .quota)] := by
  refine firstFails_cons _ ?_ (firstFails_cons _ ?_ (firstFails_cons _ ?_ firstFails_nil))
  · simp only [State.isActive, Bool.not_eq_true', decide_eq_false_iff_not]
  · simp only [Bool.and_eq_true, decide_eq_true_eq]
  · cases quota with
    | none => exact iff_of_false Bool.false_ne_true (not_not_intro nofun)
    | some q => simp only [Option.any_some, decide_eq_true_eq, Option.some.injEq, forall_eq', Nat.not_le]

theorem setDomain_of_failure {s : State} {d : Nat} {quota : Option Nat} {reason : Reason}
    (h : firstFailure (setDomainTests s d quota) = some reason) (m : Message) (policySet : Option (Fin 4))
    (threshold : Option Nat) :
    setDomain m d quota policySet threshold s = answer m .refused (some reason) s := by
  simp only [setDomain, h, refuse]

theorem setDomain_of_pass {s : State} {d : Nat} {quota : Option Nat}
    (h : firstFailure (setDomainTests s d quota) = none) (m : Message) (policySet : Option (Fin 4))
    (threshold : Option Nat) :
    setDomain m d quota policySet threshold s =
      answer m .ok none (modDomain d (DomainRecord.replace quota policySet threshold) s) := by
  simp only [setDomain, h]

/-! ## Share groups (R16, R17) -/

/-- The change of the group counts writes the Domain Table alone. -/
theorem modGroupCounts_writes_domains (f : Nat → Nat) (members : List Nat) (s : State) :
    modGroupCounts f members s = { s with domains := (modGroupCounts f members s).domains } := by
  unfold modGroupCounts
  induction members generalizing s with
  | nil => rfl
  | cons d members ih =>
      rw [List.foldl_cons]
      exact ih (modDomain d (fun r => { r with groupCount := f r.groupCount }) s)

@[simp] theorem group_modGroupCounts (f : Nat → Nat) (members : List Nat) (s : State) (g : Nat) :
    (modGroupCounts f members s).group g = s.group g := by
  rw [modGroupCounts_writes_domains]
  rfl

/-- DEFINE_GROUP's writes: the group's record, then the group count of each member. -/
def defineGroupTables (g : Nat) (members : List Nat) (s : State) : State :=
  modGroupCounts (fun n => n + 1) members (modGroup g (fun r => { r with defined := true, members := members }) s)

/-- DROP_GROUP's writes: the group count of each member, then the group's record. -/
def dropGroupTables (g : Nat) (s : State) : State :=
  modGroup g (fun r => { r with defined := false, members := [] })
    (modGroupCounts (fun n => n - 1) (s.group g).members s)

theorem defineGroupTables_writes_tables (g : Nat) (members : List Nat) (s : State) :
    defineGroupTables g members s =
      { s with domains := (defineGroupTables g members s).domains, groups := (defineGroupTables g members s).groups } := by
  unfold defineGroupTables
  rw [modGroupCounts_writes_domains]
  rfl

theorem dropGroupTables_writes_tables (g : Nat) (s : State) :
    dropGroupTables g s =
      { s with domains := (dropGroupTables g s).domains, groups := (dropGroupTables g s).groups } := by
  unfold dropGroupTables
  rw [modGroupCounts_writes_domains]
  rfl

@[simp] theorem group_defineGroupTables_same (g : Nat) (members : List Nat) (s : State) :
    (defineGroupTables g members s).group g = { s.group g with defined := true, members := members } := by
  rw [defineGroupTables, group_modGroupCounts, group_modGroup_same]

theorem group_defineGroupTables_other {g g' : Nat} (members : List Nat) (s : State) (h : g' ≠ g) :
    (defineGroupTables g members s).group g' = s.group g' := by
  rw [defineGroupTables, group_modGroupCounts, group_modGroup_other _ s h]

theorem domain_defineGroupTables (g : Nat) {members : List Nat} (hnodup : members.Nodup) (s : State) (d : Nat) :
    (defineGroupTables g members s).domain d =
      if d ∈ members then { s.domain d with groupCount := (s.domain d).groupCount + 1 } else s.domain d :=
  modGroupCounts_domain _ members hnodup (modGroup g _ s) d

@[simp] theorem group_dropGroupTables_same (g : Nat) (s : State) :
    (dropGroupTables g s).group g = { s.group g with defined := false, members := [] } := by
  rw [dropGroupTables, group_modGroup_same, group_modGroupCounts]

theorem group_dropGroupTables_other {g g' : Nat} (s : State) (h : g' ≠ g) :
    (dropGroupTables g s).group g' = s.group g' := by
  rw [dropGroupTables, group_modGroup_other _ _ h, group_modGroupCounts]

theorem domain_dropGroupTables {g : Nat} {s : State} (hnodup : (s.group g).members.Nodup) (d : Nat) :
    (dropGroupTables g s).domain d =
      if d ∈ (s.group g).members then { s.domain d with groupCount := (s.domain d).groupCount - 1 } else s.domain d :=
  modGroupCounts_domain _ (s.group g).members hnodup s d

section
variable {s : State} {g : Nat} {members : List Nat} (m : Message)

theorem all_isActive_iff : members.all s.isActive = true ↔ ∀ d ∈ members, (s.domain d).state = .active := by
  simp only [List.all_eq_true, State.isActive, decide_eq_true_eq]

theorem defineGroup_of_defined (h : (s.group g).defined = true) :
    defineGroup m g members s = answer m .refused (some .groupState) s :=
  if_pos h

theorem defineGroup_of_inactive (hfree : (s.group g).defined = false)
    (h : ¬∀ d ∈ members, (s.domain d).state = .active) :
    defineGroup m g members s = answer m .refused (some .domainState) s := by
  have hall : members.all s.isActive = false := Bool.eq_false_iff.mpr (mt all_isActive_iff.mp h)
  simp only [defineGroup, hfree, hall, Bool.false_eq_true, if_false, Bool.not_false, if_true, refuse]

theorem defineGroup_of_active (hfree : (s.group g).defined = false)
    (h : ∀ d ∈ members, (s.domain d).state = .active) :
    defineGroup m g members s = answer m .ok none (defineGroupTables g members s) := by
  have hall : members.all s.isActive = true := all_isActive_iff.mpr h
  simp only [defineGroup, hfree, hall, Bool.false_eq_true, if_false, Bool.not_true, defineGroupTables]

theorem dropGroup_of_free_or_referenced (h : (s.group g).defined = false ∨ 0 < (s.group g).refs) :
    dropGroup m g s = answer m .refused (some .groupState) s :=
  if_pos (by simpa only [Bool.or_eq_true, Bool.not_eq_true', decide_eq_true_eq] using h)

theorem dropGroup_of_unreferenced (hdef : (s.group g).defined = true) (hrefs : (s.group g).refs = 0) :
    dropGroup m g s = answer m .ok none (dropGroupTables g s) :=
  if_neg (by simp only [hdef, hrefs, Bool.not_true, Nat.lt_irrefl, decide_false, Bool.or_false, Bool.false_eq_true,
    not_false_eq_true])

end

end Sys2Proof.Machine

namespace Sys2Proof.Proofs
open Sys2Proof.Machine

/-! ## The statements -/

/-- Settles O17: the row runs `openDomain`, whose one test is the domain's state. -/
theorem openDomain : Obligations.OpenDomain := by
  unfold Obligations.OpenDomain
  intro s i m d quota policySet threshold hs hm
  have hexec := exec_openDomain_selected hs hm
  refine ⟨fun hopen => ?_, fun hclosed => ⟨_, hexec, ?_⟩⟩
  · rw [hexec, openDomain_of_not_closed (s := s.issued i) hopen]
  · rw [openDomain_of_closed (s := s.issued i) hclosed]
    obtain ⟨heq, hother, hd⟩ := answered_modDomain s (s.issued i) m d (fun r =>
      { r with state := .active, quota := quota, policySet := policySet, tally := threshold.bind tallyOf })
    refine ⟨heq, hother, hd.trans ?_⟩
    rcases threshold with _ | _ | n <;> rfl

/-- Settles O18: the row runs `setDomain`, which answers with the first failing test of R14, or writes the record. -/
theorem setDomain : Obligations.SetDomain := by
  unfold Obligations.SetDomain
  intro s i m d quota policySet threshold hs hm refused active rootQuota fits
  have hexec := exec_setDomain_selected hs hm
  have hrefused : ∀ reason, firstFailure (setDomainTests s d quota) = some reason → refused reason := by
    intro reason h
    show exec .setDomain s = _
    rw [hexec, setDomain_of_failure (s := s.issued i) h]
  obtain ⟨hdomainState, hofActive⟩ := firstFails_setDomainTests s d quota
  have hactive : active → _ := fun ha => hofActive (not_not_intro ha)
  refine ⟨fun ha => hrefused _ (hdomainState ha), fun ha hroot => ?_, fun ha hroot hfits => ?_,
    fun ha hroot hfits => ⟨_, hexec, ?_⟩⟩
  · obtain ⟨hbadField, -⟩ := hactive ha
    exact hrefused _ (hbadField hroot)
  · obtain ⟨-, hnotRoot⟩ := hactive ha
    obtain ⟨hquota, -⟩ := hnotRoot hroot
    exact hrefused _ (hquota hfits)
  · obtain ⟨-, hnotRoot⟩ := hactive ha
    obtain ⟨-, hpass⟩ := hnotRoot hroot
    rw [setDomain_of_pass (s := s.issued i) (hpass (not_not_intro hfits))]
    obtain ⟨heq, hother, hd⟩ := answered_modDomain s (s.issued i) m d (DomainRecord.replace quota policySet threshold)
    refine ⟨heq, hother, hd.trans ?_⟩
    rcases threshold with _ | _ | n <;> rfl

/-- Settles O19: each row tests the group's record, then writes the two tables; the members of a DEFINE_GROUP are
distinct by its coding (R170). -/
theorem shareGroups : Obligations.ShareGroups := by
  unfold Obligations.ShareGroups
  refine ⟨fun s i m g members hs hm => ?_, fun s i m g hs hm => ?_⟩
  · have hexec := exec_defineGroup_selected hs hm
    refine ⟨fun hdef => ?_, fun hfree hinactive => ?_, fun hfree hactive => ⟨_, hexec, ?_⟩⟩
    · rw [hexec, defineGroup_of_defined (s := s.issued i) m hdef]
    · rw [hexec, defineGroup_of_inactive (s := s.issued i) m hfree hinactive]
    · rw [defineGroup_of_active (s := s.issued i) m hfree hactive]
      refine ⟨answered_tables (defineGroupTables_writes_tables g members (s.issued i)) s m, ?_, fun g' hg' => ?_,
        fun d => ?_⟩
      · exact (group_answered ..).trans (group_defineGroupTables_same ..)
      · exact (group_answered ..).trans (group_defineGroupTables_other members (s.issued i) hg')
      · exact (domain_answered ..).trans
          (domain_defineGroupTables g (decodeCommand_defineGroup hm).2 (s.issued i) d)
  · have hexec := exec_dropGroup_selected hs hm
    refine ⟨fun h => ?_, fun hdef hrefs hnodup => ⟨_, hexec, ?_⟩⟩
    · rw [hexec, dropGroup_of_free_or_referenced (s := s.issued i) m h]
    · rw [dropGroup_of_unreferenced (s := s.issued i) m hdef hrefs]
      refine ⟨answered_tables (dropGroupTables_writes_tables g (s.issued i)) s m, ?_, fun g' hg' => ?_, fun d => ?_⟩
      · exact (group_answered ..).trans (group_dropGroupTables_same ..)
      · exact (group_answered ..).trans (group_dropGroupTables_other (s.issued i) hg')
      · exact (domain_answered ..).trans (domain_dropGroupTables (s := s.issued i) hnodup d)

end Sys2Proof.Proofs

/-! The policy command (R32): what its meaning does, once, and the statement SetPolicy put together from that. -/

namespace Sys2Proof.Machine

/-! ## Policy Sets (R32) -/

theorem exec_setPolicy_selected {s : State} {i : Nat} {m : Message} {set : Fin 4} {cls : Fin 8} {action : PolicyAction}
    (hs : s.selected = some (i, m)) (hm : decodeCommand m = some (.setPolicy set cls action)) :
    exec .setPolicy s = .next (signalInterrupt s (setPolicy m set cls action (s.issued i))) := by
  rw [exec_row_selected rfl hs hm]
  simp only [setPolicyEffect, hm]

/-- SET_POLICY's write: one entry of one Policy Set. -/
def writePolicy (set : Fin 4) (cls : Fin 7) (action : PolicyAction) (s : State) : State :=
  { s with policies := s.policies.set set.val (s.policies[set.val].set cls.val action cls.isLt) set.isLt }

/-- Class 7, NOT_READY, has no entry to write. -/
theorem setPolicy_notReady (m : Message) (set : Fin 4) (action : PolicyAction) (s : State) :
    setPolicy m set 7 action s = answer m .refused (some .badField) s :=
  dif_neg (Nat.lt_irrefl 7)

theorem setPolicy_of_lt {cls : Fin 8} (h : cls.val < 7) (m : Message) (set : Fin 4) (action : PolicyAction)
    (s : State) : setPolicy m set cls action s = answer m .ok none (writePolicy set ⟨cls.val, h⟩ action s) :=
  dif_pos h

/-- An entry after the write: the action at the named set and class, the old entry at another set or class. -/
theorem policies_writePolicy (set set' : Fin 4) (cls cls' : Fin 7) (action : PolicyAction) (s : State) :
    ((writePolicy set cls action s).policies[set'.val])[cls'.val] =
      if set' = set ∧ cls' = cls then action else (s.policies[set'.val])[cls'.val] := by
  unfold writePolicy
  by_cases hset : set' = set
  · subst hset
    rw [Vector.getElem_set_self]
    by_cases hcls : cls' = cls
    · subst hcls
      rw [Vector.getElem_set_self, if_pos ⟨rfl, rfl⟩]
    · rw [Vector.getElem_set_ne _ _ (Fin.val_ne_of_ne (Ne.symm hcls)), if_neg fun h => hcls h.2]
  · rw [Vector.getElem_set_ne _ _ (Fin.val_ne_of_ne (Ne.symm hset)), if_neg fun h => hset h.1]

/-- The response and the interrupt leave the Policy Sets as the command has written them. -/
@[simp] theorem policies_answered (s u : State) (m : Message) (status : Status) (reason : Option Reason) :
    (signalInterrupt s (answer m status reason u)).policies = u.policies :=
  signalInterrupt_policies s _

/-- A command answered after the write of a policy entry changes the Policy Sets beside what the answer changes. -/
theorem answered_writePolicy (s v : State) (m : Message) (set : Fin 4) (cls : Fin 7) (action : PolicyAction) :
    let t := signalInterrupt s (answer m .ok none (writePolicy set cls action v))
    t = signalInterrupt s { answer m .ok none v with policies := t.policies } := by
  dsimp only
  rw [policies_answered]
  rfl

end Sys2Proof.Machine

namespace Sys2Proof.Proofs
open Sys2Proof.Machine

/-- Settles O20: the row runs `setPolicy`, whose one test is that the class has an entry. -/
theorem setPolicy : Obligations.SetPolicy := by
  unfold Obligations.SetPolicy
  intro s i m set cls action hs hm
  have hexec := exec_setPolicy_selected hs hm
  refine ⟨fun hnotReady => ?_, fun hentry => ⟨_, hexec, ?_⟩⟩
  · rw [hexec, hnotReady, setPolicy_notReady]
  · have hlt : cls.val < 7 := Fin.val_lt_last hentry
    rw [setPolicy_of_lt hlt]
    refine ⟨answered_writePolicy s (s.issued i) m set _ action, fun set' cls' => ?_⟩
    simp only [policies_answered, policies_writePolicy, Fin.ext_iff]
    rfl

end Sys2Proof.Proofs

/-! The cache writes (Table 3.5, R45, R47, R52): what a way's new content does to its set, which way a fill takes, what
a run write of one record does, and the statement CacheWrites put together from that. -/

namespace Sys2Proof.Machine

/-! ## One set -/

/-- A way takes a record and the LRU mark names the other way: what a fill does to its set, and a write with its use. -/
def CacheSet.takeWay (x : CacheSet) (n : WayName) (w : Way) : CacheSet := { x.put n (some w) with lru := n.other }

@[simp] theorem CacheSet.way_takeWay_same (x : CacheSet) (n : WayName) (w : Way) : (x.takeWay n w).way n = some w := by
  cases n <;> rfl

@[simp] theorem CacheSet.way_takeWay_other (x : CacheSet) (n : WayName) (w : Way) :
    (x.takeWay n w).way n.other = x.way n.other := by
  cases n <;> rfl

@[simp] theorem CacheSet.lru_takeWay (x : CacheSet) (n : WayName) (w : Way) : (x.takeWay n w).lru = n.other := rfl

/-- A granule written in the way where it is found is found there again, wherever the LRU mark is. -/
theorem CacheSet.find_put_self {x : CacheSet} {g : Nat} {n : WayName} {w : Way} (h : x.find g = some n)
    (hw : w.granule = g) : (x.put n (some w)).find g = some n := by
  have hholds : holdsGranule g (some w) = true := beq_iff_eq.mpr hw
  unfold CacheSet.find at h
  split at h
  · obtain rfl := Option.some.inj h
    exact if_pos hholds
  · rename_i h0
    split at h
    · obtain rfl := Option.some.inj h
      exact (if_neg h0).trans (if_pos hholds)
    · cases h

theorem CacheSet.find_takeWay_self {x : CacheSet} {g : Nat} {n : WayName} {w : Way} (h : x.find g = some n)
    (hw : w.granule = g) : (x.takeWay n w).find g = some n :=
  find_put_self h hw

/-! ## The way a fill takes (Table 3.5) -/

theorem CacheSet.victim_of_way0_invalid {x : CacheSet} (h : x.way0 = none) : x.victim = .way0 := by
  unfold CacheSet.victim
  rw [h]
  rfl

theorem CacheSet.victim_of_way1_invalid {x : CacheSet} (h0 : x.way0 ≠ none) (h1 : x.way1 = none) :
    x.victim = .way1 := by
  obtain ⟨w, hw⟩ := Option.ne_none_iff_exists'.mp h0
  unfold CacheSet.victim
  rw [hw, h1]
  rfl

theorem CacheSet.victim_of_both_valid {x : CacheSet} {w v : Way} (hlru : x.way x.lru = some w)
    (hother : x.way x.lru.other = some v) :
    x.victim = if w.dirty && !v.dirty then x.lru.other else x.lru := by
  have hvalid : x.way0.isNone = false ∧ x.way1.isNone = false := by
    have isNone_eq_false {way : Option Way} {y : Way} (h : way = some y) : way.isNone = false :=
      congrArg Option.isNone h
    cases hmark : x.lru <;> rw [hmark] at hlru hother
    · exact ⟨isNone_eq_false hlru, isNone_eq_false hother⟩
    · exact ⟨isNone_eq_false hother, isNone_eq_false hlru⟩
  obtain ⟨h0, h1⟩ := hvalid
  unfold CacheSet.victim
  rw [h0, h1, hlru, hother]
  rfl

theorem CacheSet.victim_eq_lru {x : CacheSet} {w v : Way} (hlru : x.way x.lru = some w)
    (hother : x.way x.lru.other = some v) (h : w.dirty = false ∨ v.dirty = true) : x.victim = x.lru := by
  rw [victim_of_both_valid hlru hother]
  rcases h with h | h <;> simp [h]

theorem CacheSet.victim_eq_other {x : CacheSet} {w v : Way} (hlru : x.way x.lru = some w)
    (hother : x.way x.lru.other = some v) (hw : w.dirty = true) (hv : v.dirty = false) :
    x.victim = x.lru.other := by
  rw [victim_of_both_valid hlru hother, hw, hv]
  rfl

/-! ## The write-back of a dirty victim (R52) and its count (R159) -/

theorem countEvent_of_wrap {n : CounterName} {s : State} (h : (s.counter n).value = BitVec.allOnes 32) :
    countEvent n s = offerNotice (.counterWrap n) (setCounter n { value := 0, wrapped := true } s) :=
  if_pos h

theorem countEvent_of_no_wrap {n : CounterName} {s : State} (h : (s.counter n).value ≠ BitVec.allOnes 32) :
    countEvent n s = setCounter n { s.counter n with value := (s.counter n).value + 1 } s :=
  if_neg h

theorem notices_countEvent_of_wrap {n : CounterName} {s : State} (h : (s.counter n).value = BitVec.allOnes 32)
    (hroom : s.notices.length < 64) :
    (countEvent n s).notices = s.notices ++ [{ body := .counterWrap n, lostBefore := s.noticeLost }] := by
  rw [countEvent_of_wrap h, offerNotice_placed (s := setCounter n { value := 0, wrapped := true } s) _ hroom]
  rfl

theorem notices_countEvent_of_no_wrap {n : CounterName} {s : State}
    (h : (s.counter n).value ≠ BitVec.allOnes 32) :
    (countEvent n s).notices = s.notices ∧ (countEvent n s).noticeLost = s.noticeLost := by
  rw [countEvent_of_no_wrap h]
  exact ⟨rfl, rfl⟩

theorem writeBackVictim_dirty {w : Way} (h : w.dirty = true) (s : State) :
    writeBackVictim (some w) s = countEvent (.ofPart .writebacks) (issueWrite w.granule w.record s) :=
  if_pos h

/-- An invalid victim and a clean one are not written back. -/
theorem writeBackVictim_clean {victim : Option Way} (h : ∀ w, victim = some w → w.dirty = false) (s : State) :
    writeBackVictim victim s = s := by
  cases victim with
  | none => rfl
  | some w => exact if_neg (Bool.eq_false_iff.mp (h w rfl))

theorem writeBackVictim_cache (victim : Option Way) (s : State) : (writeBackVictim victim s).cache = s.cache := by
  unfold writeBackVictim
  split
  · split
    · rw [countEvent_cache, issueWrite_cache]
    · rfl
  · rfl

/-! ## The sets after a cache write -/

theorem cacheSet_putCacheSet_same (g : Nat) (x : CacheSet) (s : State) : (putCacheSet g x s).cacheSet g = x :=
  (Serving.cacheSet_put g g x s).trans (if_pos rfl)

theorem cacheSet_putCacheSet_other {g g' : Nat} (h : setOf g' ≠ setOf g) (x : CacheSet) (s : State) :
    (putCacheSet g x s).cacheSet g' = s.cacheSet g' :=
  (Serving.cacheSet_put g g' x s).trans (if_neg h)

theorem resident_of_find {s : State} {g : Nat} {n : WayName} {w : Way} (hfind : (s.cacheSet g).find g = some n)
    (hway : (s.cacheSet g).way n = some w) : s.resident g = some w.record := by
  unfold State.resident
  rw [hfind]
  exact congrArg (Option.map Way.record) hway

/-! ## A fill -/

/-- A fill writes the victim back, then the way it leaves takes the record, clean. -/
theorem installRecord_of_victim {s : State} {g : Nat} {n : WayName} (h : (s.cacheSet g).victim = n)
    (r : GranuleRecord) : installRecord g r s =
      putCacheSet g ((s.cacheSet g).takeWay n { granule := g, record := r, dirty := false })
        (writeBackVictim ((s.cacheSet g).way n) s) := by
  rw [← h]
  rfl

/-- Beside the Record Cache a fill changes what the write-back changes. -/
theorem installRecord_frame {s : State} {g : Nat} {n : WayName} (h : (s.cacheSet g).victim = n) (r : GranuleRecord) :
    let t := installRecord g r s
    t = { writeBackVictim ((s.cacheSet g).way n) s with cache := t.cache } := by
  dsimp only
  rw [installRecord_of_victim h]
  rfl

theorem cacheSet_installRecord_same {s : State} {g : Nat} {n : WayName} (h : (s.cacheSet g).victim = n)
    (r : GranuleRecord) : (installRecord g r s).cacheSet g =
      (s.cacheSet g).takeWay n { granule := g, record := r, dirty := false } := by
  rw [installRecord_of_victim h, cacheSet_putCacheSet_same]

theorem cacheSet_installRecord_other {g g' : Nat} (h : setOf g' ≠ setOf g) (r : GranuleRecord) (s : State) :
    (installRecord g r s).cacheSet g' = s.cacheSet g' := by
  rw [installRecord_of_victim rfl, cacheSet_putCacheSet_other h]
  unfold State.cacheSet
  rw [writeBackVictim_cache]

/-! ## A run write of one record (R47) -/

theorem runWriteRecord_of_absent {s : State} {g : Nat} (h : s.resident g = none) (r : GranuleRecord) :
    runWriteRecord s (g, r) = modEntry g (fun x => { x with superseding := some r }) (issueWrite g r s) := by
  unfold runWriteRecord
  rw [h]

/-- A resident granule's way takes the record, dirty: R45's write of the way, then its use. -/
theorem runWriteRecord_of_find {s : State} {g : Nat} {n : WayName} (h : (s.cacheSet g).find g = some n)
    (r : GranuleRecord) :
    let w : Way := { granule := g, record := r, dirty := true }
    runWriteRecord s (g, r) =
      putCacheSet g ((s.cacheSet g).takeWay n w) (putCacheSet g ((s.cacheSet g).put n (some w)) s) := by
  intro w
  obtain ⟨old, hold⟩ := Option.ne_none_iff_exists'.mp ((Serving.resident_iff s g).mpr ⟨n, h⟩)
  have hwrite : writeResident g r s = putCacheSet g ((s.cacheSet g).put n (some w)) s := by
    unfold writeResident
    rw [h]
  have hfind : ((s.cacheSet g).put n (some w)).find g = some n := CacheSet.find_put_self h rfl
  unfold runWriteRecord
  rw [hold]
  show touchResident g (writeResident g r s) = _
  rw [hwrite]
  unfold touchResident
  rw [cacheSet_putCacheSet_same, hfind]
  rfl

theorem cacheSet_runWriteRecord_same {s : State} {g : Nat} {n : WayName} (h : (s.cacheSet g).find g = some n)
    (r : GranuleRecord) : (runWriteRecord s (g, r)).cacheSet g =
      (s.cacheSet g).takeWay n { granule := g, record := r, dirty := true } := by
  rw [runWriteRecord_of_find h, cacheSet_putCacheSet_same]

/-- The record a run write has written in a way is the resident copy. -/
theorem resident_runWriteRecord {s : State} {g : Nat} {n : WayName} (h : (s.cacheSet g).find g = some n)
    (r : GranuleRecord) : (runWriteRecord s (g, r)).resident g = some r := by
  have hset := cacheSet_runWriteRecord_same h r
  exact resident_of_find (by rw [hset]; exact CacheSet.find_takeWay_self h rfl)
    (by rw [hset]; exact CacheSet.way_takeWay_same _ _ _)

theorem cacheSet_runWriteRecord_other {g g' : Nat} (h : setOf g' ≠ setOf g) (r : GranuleRecord) (s : State) :
    (runWriteRecord s (g, r)).cacheSet g' = s.cacheSet g' := by
  by_cases hres : s.resident g = none
  · rw [runWriteRecord_of_absent hres]
    rfl
  · obtain ⟨n, hfind⟩ := (Serving.resident_iff s g).mp hres
    rw [runWriteRecord_of_find hfind, cacheSet_putCacheSet_other h, cacheSet_putCacheSet_other h]

/-- A run write changes the Record Cache, the Tag Store Port and the Miss Queue only. -/
theorem runWriteRecord_frame (s : State) (g : Nat) (r : GranuleRecord) :
    let t := runWriteRecord s (g, r)
    t = { s with cache := t.cache, port := t.port, miss := t.miss } := by
  dsimp only
  by_cases hres : s.resident g = none
  · rw [runWriteRecord_of_absent hres]
    rfl
  · obtain ⟨n, hfind⟩ := (Serving.resident_iff s g).mp hres
    rw [runWriteRecord_of_find hfind]
    rfl

end Sys2Proof.Machine

namespace Sys2Proof.Proofs
open Sys2Proof.Machine

/-- Settles O43: a fill into the way Table 3.5 chooses has one effect, whichever way that is; a run write of one record
is a write with its use where the record is resident, and a write-through where it is not. -/
theorem cacheWrites : Obligations.CacheWrites := by
  unfold Obligations.CacheWrites
  refine ⟨fun s g r => ?_, fun s g r => ?_, fun s => rfl, fun e rest s => rfl⟩
  · intro x t installed
    have hinstalled : ∀ n victim, x.victim = n → x.way n = victim → installed n victim := by
      rintro n _ hn rfl
      have hset : t.cacheSet g = x.takeWay n { granule := g, record := r, dirty := false } :=
        cacheSet_installRecord_same hn r
      have ht : t = { writeBackVictim (x.way n) s with cache := t.cache } := installRecord_frame hn r
      refine ⟨?_, ?_, ?_, fun g' hg' => cacheSet_installRecord_other hg' r s, fun w hw hdirty => ?_,
        fun hclean => ?_⟩
      · rw [hset, CacheSet.way_takeWay_same]
      · rw [hset, CacheSet.way_takeWay_other]
      · rw [hset, CacheSet.lru_takeWay]
      · rw [hw, writeBackVictim_dirty hdirty] at ht
        refine ⟨ht, ?_, fun hvalue => ?_, fun hvalue hroom => ?_⟩
        · rw [ht]
          exact countEvent_value (.ofPart .writebacks) (issueWrite w.granule w.record s)
        · rw [ht]
          exact notices_countEvent_of_no_wrap (s := issueWrite w.granule w.record s) hvalue
        · rw [ht]
          exact notices_countEvent_of_wrap (s := issueWrite w.granule w.record s) hvalue hroom
      · rwa [writeBackVictim_clean hclean] at ht
    refine ⟨fun h0 => ?_, fun h0 h1 => ?_, fun w v hw hv => ⟨fun hkeep => ?_, fun hdirty hclean => ?_⟩⟩
    · exact hinstalled _ _ (CacheSet.victim_of_way0_invalid h0) h0
    · exact hinstalled _ _ (CacheSet.victim_of_way1_invalid h0 h1) h1
    · exact hinstalled _ _ (CacheSet.victim_eq_lru hw hv hkeep) hw
    · exact hinstalled _ _ (CacheSet.victim_eq_other hw hv hdirty hclean) hv
  · refine ⟨fun hres => ?_, fun g' hg' => cacheSet_runWriteRecord_other hg' r s, fun habsent => ?_,
      runWriteRecord_frame s g r⟩
    · obtain ⟨n, hfind⟩ := (Serving.resident_iff s g).mp hres
      have hset := cacheSet_runWriteRecord_same hfind r
      refine ⟨resident_runWriteRecord hfind r, ?_, ?_, n, hfind, ?_, ?_, ?_⟩
      · rw [runWriteRecord_of_find hfind, putCacheSet_port, putCacheSet_port]
      · rw [runWriteRecord_of_find hfind, putCacheSet_miss, putCacheSet_miss]
      · rw [hset, CacheSet.way_takeWay_same]
      · rw [hset, CacheSet.way_takeWay_other]
      · rw [hset, CacheSet.lru_takeWay]
    · rw [runWriteRecord_of_absent habsent]
      exact ⟨rfl, rfl, rfl⟩

end Sys2Proof.Proofs

/-! What one event of the part does, once for every row of the table, and the induction over steps that the laws use. -/

namespace Sys2Proof.Machine

/-! ## What one event does -/

/-- The work inside the part that one event carries out, with what its arbiter or its row has tested. -/
inductive InnerWork (s : State) : State → Prop where
  | rest : InnerWork s s
  | portCheck {l : LinkId} {k : Check} (h : s.nextGrant = some (.lane l k)) : InnerWork s (portCheck k (laneGranted l s))
  | lookUp {c : CtxId} {r : Request} (h : s.nextGrant = some (.engine c r)) :
      InnerWork s (lookUpContext c (engineGranted c s))
  | wipeStart {c : CtxId} (h : s.nextGrant = some (.engine c .wipeStart)) :
      InnerWork s (doWipeStart c (engineGranted c s))
  | commit {c : CtxId} {b : Bool} (h : s.nextGrant = some (.engine c (.commit b))) :
      InnerWork s (doCommit c b (engineGranted c s))
  | revert {c : CtxId} (h : s.nextGrant = some (.engine c .revert)) : InnerWork s (doRevert c (engineGranted c s))
  | sweepWindow (c : CtxId) : InnerWork s (tryTakeWindow c s)
  | fill {e : MissEntry} (forwarded : Option (BitVec 64)) (dram : DramReturn) (h : s.missEntry e.granule = some e) :
      InnerWork s (fillEntry e forwarded dram s)
  | write (g : Nat) : InnerWork s (completeWrite g s)
  | frame (l : LinkId) : InnerWork s (takeFrameEvent l s)
  | faultyFrame (l : LinkId) (cause : DownCause) : InnerWork s (protocolFault l cause (takeFrameEvent l s))
  | check {l : LinkId} {k : Check} (hk : k.link = l) (h : ((takeFrameEvent l s).link l).state = .up) :
      InnerWork s (takeCheck l k (takeFrameEvent l s))
  | recallAck (l : LinkId) (c : CtxId) (q : BitVec 4) : InnerWork s (takeRecallAck l c q (takeFrameEvent l s))
  | wipeDone (l : LinkId) (c : CtxId) (q : BitVec 4) (failed : Bool) :
      InnerWork s (takeWipeDone l c q failed (takeFrameEvent l s))
  | rejoinAck (l : LinkId) (n : BitVec 4) : InnerWork s (takeRejoinAck l n (takeFrameEvent l s))
  | sent (l : LinkId) : InnerWork s (modLink l sendHead s)
  | silence (l : LinkId) : InnerWork s (leaveUpToRejoin l .silence s)
  | recallExpiry (c : CtxId) : InnerWork s (expireRecall c s)
  | wipeExpiry {c : CtxId} {d : Deadline} (h : s.deadline c = some d) : InnerWork s (expireWipe c s)
  | rejoinExpiry {l : LinkId} (h : (s.link l).state = .rejoining) : InnerWork s (expireRejoin l s)

/-- What a LINK_CONTROL does with its action. -/
def LinkAction.take : LinkAction → Message → LinkId → State → State
  | .enable => enableLink
  | .disable => disableLink
  | .rejoin => rejoinLink

/-- What a message's command does in its issue event, but for the start of a sweep. -/
def carryOut (m : Message) (s : State) : Command → State
  | .job j => issueJob m j s
  | .openDomain d quota policySet threshold => openDomain m d quota policySet threshold s
  | .setDomain d quota policySet threshold => setDomain m d quota policySet threshold s
  | .defineGroup g members => defineGroup m g members s
  | .dropGroup g => dropGroup m g s
  | .setPolicy set cls action => setPolicy m set cls action s
  | .setHome n base count link => setHome m n base count link s
  | .snapshot => answer m .ok none (takeSnapshot s)
  | .abort target => abortTarget m target s
  | .linkControl l action => action.take m l s

/-- What one event of the part does, before its interrupt. -/
inductive Effect (s : State) : State → Prop where
  | inner {t : State} (h : InnerWork s t) : Effect s t
  | written (offset : Nat) (value : Word) : Effect s (writeWord offset value s)
  | readFirst (slot : HeadSlot) : Effect s (readFirstWord slot s)
  | readLast (slot : HeadSlot) : Effect s (readLastWord slot s)
  | refused {i : Nat} {m : Message} (hs : s.selected = some (i, m)) (hm : decodeCommand m = none) :
      Effect s (refuse m .badField (s.issued i))
  | issued {i : Nat} {m : Message} {c : Command} (hs : s.selected = some (i, m)) (hm : decodeCommand m = some c) :
      Effect s (carryOut m (s.issued i) c)
  | sweepStarted {i d : Nat} {m : Message} {c : CtxId} (hs : s.selected = some (i, m))
      (hm : decodeCommand m = some (.job (.closeDomain d)))
      (hr : refusal (s.issued i) (msgTag m) (.closeDomain d) = none) (hc : freeCtx (s.issued i) = some c) :
      Effect s (startSweep c d (issueJob m (.closeDomain d) (s.issued i)))
  | posted {c : CtxId} (h : s.served = some c.val) : Effect s (postResponse c s)
  | fillWrite (g : Nat) (f : FillWrites) : Effect s (completeFillWrite g f s)
  | snapshot : Effect s (takeSnapshot s)

/-- An event is its effect and its interrupt. -/
theorem event_next {f : State → State} {s t : State} (h : event f s = .next t) : t = signalInterrupt s (f s) := by
  cases h
  rfl

/-- A message that spells a command is of a known kind. -/
theorem knownKind_of_command {m : Message} {c : Command} (hm : decodeCommand m = some c) : knownKind m = true := by
  unfold knownKind
  rw [decodeCommand_kind hm]
  cases c with
  | job job =>
      cases job with
      | range base count expected op => cases op <;> rfl
      | _ => rfl
  | _ => rfl

theorem job_kindCode_lt (j : Job) : (Command.job j).kindCode < 0x10 := by
  cases j with
  | range base count expected op => cases op <;> exact Nat.le_of_ble_eq_true rfl
  | _ => exact Nat.le_of_ble_eq_true rfl

/-- The command of kind 0x18 is LINK_CONTROL. -/
theorem linkControl_of_kindCode {c : Command} (h : c.kindCode = 0x18) : ∃ l a, c = .linkControl l a := by
  cases c with
  | linkControl l a => exact ⟨l, a, rfl⟩
  | job j => exact absurd (job_kindCode_lt j) (by omega)
  | _ => cases h

/-- The action of a LINK_CONTROL is the one its byte 21 codes. -/
theorem linkAction_of_command {m : Message} {l : LinkId} {a : LinkAction}
    (hm : decodeCommand m = some (.linkControl l a)) : decodeLinkAction (msgByte21 m) = some a := by
  have hk : (msgKind m).toNat = 0x18 := decodeCommand_kind hm
  simp only [decodeCommand, hk] at hm
  split at hm
  · rename_i a' ha
    obtain ⟨_, hc⟩ := coded_some hm
    cases hc
    exact ha
  · cases hm

/-- A row takes the messages of its kind, and those that spell no command. -/
theorem kindCode_of_rowKind {m : Message} {code : Nat} {c : Command} (hr : rowKind code m = true)
    (hm : decodeCommand m = some c) : c.kindCode = code := by
  have hk := decodeCommand_kind hm
  simp only [rowKind, knownKind_of_command hm, Bool.not_true, Bool.or_false, decide_eq_true_eq] at hr
  omega

/-- An issue event does nothing, or takes its row's effect on the selected message. -/
theorem issueEvent_next {row : Message → Bool} {effect : Message → State → State} {s t : State}
    (h : issueEvent row effect s = .next t) : t = s ∨
      ∃ i m, s.selected = some (i, m) ∧ row m = true ∧ t = signalInterrupt s (effect m (s.issued i)) := by
  by_cases hs : ∃ i m, s.selected = some (i, m) ∧ row m = true
  · obtain ⟨i, m, hs, hr⟩ := hs
    rw [issueEvent_selected effect hs hr] at h
    cases h
    exact .inr ⟨i, m, hs, hr, rfl⟩
  · rw [issueEvent_idle effect (fun i m hm => by
      cases hr : row m with
      | false => rfl
      | true => exact absurd ⟨i, m, hm, hr⟩ hs)] at h
    cases h
    exact .inl rfl

/-- The interrupt of an event that changes nothing. -/
theorem signalInterrupt_self (s : State) : signalInterrupt s s = s := signalInterrupt_same rfl rfl rfl rfl

section
variable {s : State} {i code : Nat} {m : Message}

/-- A row's effect on a message that it takes: a message that spells no command is refused, and one that spells a command
of the row's kind is carried out. -/
theorem Effect.of_row {effect : Message → State → State} (hs : s.selected = some (i, m)) (hr : rowKind code m = true)
    (hnone : ∀ u, decodeCommand m = none → effect m u = refuse m .badField u)
    (hsome : ∀ u c, decodeCommand m = some c → c.kindCode = code → effect m u = carryOut m u c) :
    Effect s (effect m (s.issued i)) := by
  cases hm : decodeCommand m with
  | none =>
      rw [hnone _ hm]
      exact .refused hs hm
  | some c =>
      rw [hsome _ c hm (kindCode_of_rowKind hr hm)]
      exact .issued hs hm

theorem jobEffect_effect (hs : s.selected = some (i, m)) (hr : rowKind code m = true) (hc : code < 0x10) :
    Effect s (jobEffect m (s.issued i)) := by
  refine .of_row hs hr (fun u hm => by simp only [jobEffect, hm]) (fun u c hm hk => ?_)
  cases c with
  | job j => simp only [jobEffect, hm, carryOut]
  | _ => simp only [Command.kindCode] at hk; omega

theorem closeDomainEffect_effect (hs : s.selected = some (i, m)) (hr : rowKind 0x0A m = true) :
    Effect s (closeDomainEffect m (s.issued i)) := by
  by_cases hd : ∃ d, decodeCommand m = some (.job (.closeDomain d))
  · obtain ⟨d, hm⟩ := hd
    have hissue := Effect.issued hs hm
    simp only [carryOut, issueJob] at hissue
    simp only [closeDomainEffect, hm]
    cases href : refusal (s.issued i) (msgTag m) (.closeDomain d) with
    | some reason => simpa only [href] using hissue
    | none =>
        cases hc : freeCtx (s.issued i) with
        | none => simpa only [href, hc] using hissue
        | some c => exact .sweepStarted hs hm href hc
  · have hjob : closeDomainEffect m (s.issued i) = jobEffect m (s.issued i) := by
      unfold closeDomainEffect
      split
      · rename_i d hm
        exact absurd ⟨d, hm⟩ hd
      · rfl
      · rfl
    rw [hjob]
    exact jobEffect_effect hs hr (by decide)

/-- An immediate command's row. -/
theorem Effect.of_immediate {effect : Message → State → State} (hs : s.selected = some (i, m))
    (hr : rowKind code m = true) (hcode : 0x10 ≤ code)
    (hnone : ∀ u, decodeCommand m = none → effect m u = refuse m .badField u)
    (hsome : ∀ u c, decodeCommand m = some c → c.kindCode = code → (∀ j, c ≠ .job j) → effect m u = carryOut m u c) :
    Effect s (effect m (s.issued i)) := by
  refine .of_row hs hr hnone (fun u c hm hk => hsome u c hm hk ?_)
  rintro j rfl
  have := job_kindCode_lt j
  omega

theorem openDomainEffect_effect (hs : s.selected = some (i, m)) (hr : rowKind 0x10 m = true) :
    Effect s (openDomainEffect m (s.issued i)) := by
  refine .of_immediate hs hr (by decide) (fun u hm => by simp only [openDomainEffect, hm]) (fun u c hm hk hj => ?_)
  cases c with
  | openDomain => simp only [openDomainEffect, hm, carryOut]
  | job j => exact absurd rfl (hj j)
  | _ => cases hk

theorem setDomainEffect_effect (hs : s.selected = some (i, m)) (hr : rowKind 0x11 m = true) :
    Effect s (setDomainEffect m (s.issued i)) := by
  refine .of_immediate hs hr (by decide) (fun u hm => by simp only [setDomainEffect, hm]) (fun u c hm hk hj => ?_)
  cases c with
  | setDomain => simp only [setDomainEffect, hm, carryOut]
  | job j => exact absurd rfl (hj j)
  | _ => cases hk

theorem defineGroupEffect_effect (hs : s.selected = some (i, m)) (hr : rowKind 0x12 m = true) :
    Effect s (defineGroupEffect m (s.issued i)) := by
  refine .of_immediate hs hr (by decide) (fun u hm => by simp only [defineGroupEffect, hm]) (fun u c hm hk hj => ?_)
  cases c with
  | defineGroup => simp only [defineGroupEffect, hm, carryOut]
  | job j => exact absurd rfl (hj j)
  | _ => cases hk

theorem dropGroupEffect_effect (hs : s.selected = some (i, m)) (hr : rowKind 0x13 m = true) :
    Effect s (dropGroupEffect m (s.issued i)) := by
  refine .of_immediate hs hr (by decide) (fun u hm => by simp only [dropGroupEffect, hm]) (fun u c hm hk hj => ?_)
  cases c with
  | dropGroup => simp only [dropGroupEffect, hm, carryOut]
  | job j => exact absurd rfl (hj j)
  | _ => cases hk

theorem setPolicyEffect_effect (hs : s.selected = some (i, m)) (hr : rowKind 0x14 m = true) :
    Effect s (setPolicyEffect m (s.issued i)) := by
  refine .of_immediate hs hr (by decide) (fun u hm => by simp only [setPolicyEffect, hm]) (fun u c hm hk hj => ?_)
  cases c with
  | setPolicy => simp only [setPolicyEffect, hm, carryOut]
  | job j => exact absurd rfl (hj j)
  | _ => cases hk

theorem setHomeEffect_effect (hs : s.selected = some (i, m)) (hr : rowKind 0x15 m = true) :
    Effect s (setHomeEffect m (s.issued i)) := by
  refine .of_immediate hs hr (by decide) (fun u hm => by simp only [setHomeEffect, hm]) (fun u c hm hk hj => ?_)
  cases c with
  | setHome => simp only [setHomeEffect, hm, carryOut]
  | job j => exact absurd rfl (hj j)
  | _ => cases hk

theorem snapshotEffect_effect (hs : s.selected = some (i, m)) (hr : rowKind 0x16 m = true) :
    Effect s (snapshotEffect m (s.issued i)) := by
  refine .of_immediate hs hr (by decide) (fun u hm => by simp only [snapshotEffect, hm]) (fun u c hm hk hj => ?_)
  cases c with
  | snapshot => simp only [snapshotEffect, hm, carryOut]
  | job j => exact absurd rfl (hj j)
  | _ => cases hk

theorem abortEffect_effect (hs : s.selected = some (i, m)) (hr : rowKind 0x17 m = true) :
    Effect s (abortEffect m (s.issued i)) := by
  refine .of_immediate hs hr (by decide) (fun u hm => by simp only [abortEffect, hm]) (fun u c hm hk hj => ?_)
  cases c with
  | abort => simp only [abortEffect, hm, carryOut]
  | job j => exact absurd rfl (hj j)
  | _ => cases hk

/-- A row of LINK_CONTROL takes the messages of its action, and those that spell no command. -/
theorem linkEffect_effect {action : LinkAction} (hs : s.selected = some (i, m)) (hr : linkRow action m = true) :
    Effect s (linkEffect action action.take m (s.issued i)) := by
  cases hm : decodeCommand m with
  | none =>
      simp only [linkEffect, hm]
      exact .refused hs hm
  | some c =>
      simp only [linkRow, knownKind_of_command hm, Bool.not_true, Bool.false_or, Bool.and_eq_true, beq_iff_eq] at hr
      have hk : c.kindCode = 0x18 := by rw [← decodeCommand_kind hm, hr.1]; rfl
      obtain ⟨l, a, rfl⟩ := linkControl_of_kindCode hk
      simp only [linkAction_of_command hm, decide_eq_true_eq] at hr
      rw [hr.2] at hm
      simp only [linkEffect, hm, if_true]
      exact .issued hs hm

end

/-! ## Every row's event -/

/-- The commands whose event is work inside the part. -/
def Instr.inner : Instr → Bool
  | .checkPortEvent | .recordRead | .recordUpdate | .wipeStart | .commitRunWrite | .revert | .sweepWindowTake _
  | .recallDeadlineExpiry _ | .wipeDeadlineExpiry _ | .missQueueFill _ _ | .idle _ | .badCrcFrame _ | .frameSent _
  | .silenceExpiry _ | .rejoinDeadlineExpiry _ | .check _ _ | .recallAck _ _ | .wipeDone _ _ | .rejoinAck _ _
  | .unknownKindFrame _ _ | .partSentKindFrame _ _ => true
  | _ => false

/-- A state that an event of the work inside the part leads to. -/
def InnerEvent (s t : State) : Prop := ∃ u, InnerWork s u ∧ t = signalInterrupt s u

/-- A state that an event of the part leads to. -/
def EffectEvent (s t : State) : Prop := ∃ u, Effect s u ∧ t = signalInterrupt s u

section
variable {s t : State}

theorem InnerEvent.of {f : State → State} (h : event f s = .next t) (hf : InnerWork s (f s)) : InnerEvent s t :=
  ⟨_, hf, event_next h⟩

theorem EffectEvent.of {f : State → State} (h : event f s = .next t) (hf : Effect s (f s)) : EffectEvent s t :=
  ⟨_, hf, event_next h⟩

/-- A frame that is taken on an UP or REJOINING link only. -/
theorem InnerWork.of_frame (l : LinkId) {f : State → State} (h : InnerWork s (f (takeFrameEvent l s))) :
    InnerWork s (match ((takeFrameEvent l s).link l).state with
      | .up | .rejoining => f (takeFrameEvent l s)
      | .off | .failed => takeFrameEvent l s) := by
  split <;> first | exact h | exact .frame l

theorem execCheckPortEvent_inner (h : execCheckPortEvent s = .next t) : InnerEvent s t := by
  refine .of h ?_
  split
  · exact .portCheck ‹_›
  all_goals exact .rest

theorem execRecordRead_inner (h : execRecordRead s = .next t) : InnerEvent s t := by
  refine .of h ?_
  split
  · exact .lookUp ‹_›
  all_goals exact .rest

theorem execRecordUpdate_inner (h : execRecordUpdate s = .next t) : InnerEvent s t := by
  refine .of h ?_
  split
  · exact .lookUp ‹_›
  all_goals exact .rest

theorem execWipeStart_inner (h : execWipeStart s = .next t) : InnerEvent s t := by
  refine .of h ?_
  split
  · exact .wipeStart ‹_›
  all_goals exact .rest

theorem execCommitRunWrite_inner (h : execCommitRunWrite s = .next t) : InnerEvent s t := by
  refine .of h ?_
  split
  · exact .commit ‹_›
  all_goals exact .rest

theorem execRevert_inner (h : execRevert s = .next t) : InnerEvent s t := by
  refine .of h ?_
  split
  · exact .revert ‹_›
  all_goals exact .rest

/-- The entry of a granule is of that granule. -/
theorem missEntry_granule {g : Nat} {e : MissEntry} (h : s.missEntry g = some e) : e.granule = g := by
  unfold State.missEntry at h
  simpa using List.find?_some h

theorem execMissQueueFill_inner {g : Nat} {dram : DramReturn} (h : execMissQueueFill g dram s = .next t) :
    InnerEvent s t := by
  refine .of h ?_
  split
  · rename_i e _ forwarded he _
    obtain rfl := missEntry_granule he
    exact .fill forwarded dram he
  · exact .rest

theorem execCheck_inner {l : LinkId} {payload : BitVec 48} (h : execCheck l payload s = .next t) :
    InnerEvent s t := by
  refine .of h ?_
  dsimp only
  split
  · exact .check rfl ‹_›
  all_goals exact .frame l

theorem execFrameSent_inner {l : LinkId} (h : execFrameSent l s = .next t) : InnerEvent s t := by
  refine .of h ?_
  split
  · exact .sent l
  · exact .sent l
  all_goals exact .rest

theorem execSilenceExpiry_inner {l : LinkId} (h : execSilenceExpiry l s = .next t) : InnerEvent s t := by
  refine .of h ?_
  split
  · exact .silence l
  · exact .rest

theorem execRecallDeadlineExpiry_inner {c : CtxId} (h : execRecallDeadlineExpiry c s = .next t) :
    InnerEvent s t := by
  refine .of h ?_
  split
  · exact .recallExpiry c
  all_goals exact .rest

theorem execWipeDeadlineExpiry_inner {c : CtxId} (h : execWipeDeadlineExpiry c s = .next t) :
    InnerEvent s t := by
  refine .of h ?_
  split
  · exact .wipeExpiry ‹_›
  all_goals exact .rest

theorem execRejoinDeadlineExpiry_inner {l : LinkId} (h : execRejoinDeadlineExpiry l s = .next t) :
    InnerEvent s t := by
  refine .of h ?_
  split
  · rename_i hl
    exact .rejoinExpiry hl.1
  · exact .rest

theorem execTagStoreWriteComplete_effect {g : Nat} (h : execTagStoreWriteComplete g s = .next t) :
    EffectEvent s t := by
  refine .of h ?_
  split
  · split
    · exact .fillWrite g _
    · exact .inner (.write g)
  · exact .inner (.write g)

theorem execSnapshotIntervalExpiry_effect (h : execSnapshotIntervalExpiry s = .next t) : EffectEvent s t := by
  refine .of h ?_
  split
  · exact .snapshot
  · exact .inner .rest

theorem execPostResponse_effect (h : execPostResponse s = .next t) : EffectEvent s t := by
  refine .of h ?_
  split
  · rename_i i hi
    split
    · rename_i hlt
      refine .posted ?_
      rw [hi]
      simp [Nat.mod_eq_of_lt hlt]
    · exact .inner .rest
  · exact .inner .rest

theorem execWindowWrite_effect {offset : BitVec 12} {size : AccessSize} {v : Word}
    (h : execWindowWrite offset size v s = .next t) : EffectEvent s t := by
  refine .of h ?_
  cases size with
  | word => exact .written _ v
  | narrow => exact .inner .rest

/-- What a row does, where the row's effect on a message it takes is known. -/
theorem EffectEvent.of_issue {row : Message → Bool} {effect : Message → State → State}
    (h : issueEvent row effect s = .next t)
    (heff : ∀ i m, s.selected = some (i, m) → row m = true → Effect s (effect m (s.issued i))) : EffectEvent s t := by
  rcases issueEvent_next h with rfl | ⟨i, m, hs, hr, rfl⟩
  · exact ⟨t, .inner .rest, (signalInterrupt_self t).symm⟩
  · exact ⟨_, heff i m hs hr, rfl⟩

theorem EffectEvent.of_job {code : Nat} (hcode : code < 0x10) (h : issueEvent (rowKind code) jobEffect s = .next t) :
    EffectEvent s t := .of_issue h (fun _ _ hs hr => jobEffect_effect hs hr hcode)

/-- The event of a command of the work inside the part. -/
theorem exec_inner {c : Instr} (hc : Instr.inner c = true) (h : exec c s = .next t) : InnerEvent s t := by
  cases c
  case checkPortEvent => exact execCheckPortEvent_inner h
  case recordRead => exact execRecordRead_inner h
  case recordUpdate => exact execRecordUpdate_inner h
  case wipeStart => exact execWipeStart_inner h
  case commitRunWrite => exact execCommitRunWrite_inner h
  case revert => exact execRevert_inner h
  case sweepWindowTake c => exact .of (f := tryTakeWindow c) h (.sweepWindow c)
  case missQueueFill g dram => exact execMissQueueFill_inner h
  case check l payload => exact execCheck_inner h
  case recallAck l payload =>
    have h : execRecallAck l payload s = .next t := h
    exact .of h (.of_frame l (.recallAck l _ _))
  case wipeDone l payload =>
    have h : execWipeDone l payload s = .next t := h
    exact .of h (.of_frame l (.wipeDone l _ _ _))
  case rejoinAck l payload =>
    have h : execRejoinAck l payload s = .next t := h
    exact .of h (.rejoinAck l _)
  case idle l => exact .of (f := takeFrameEvent l) h (.frame l)
  case badCrcFrame l =>
    have h : execBadCrcFrame l s = .next t := h
    exact .of h (.faultyFrame l _)
  case unknownKindFrame l k =>
    have h : execUnknownKindFrame l k s = .next t := h
    exact .of h (.faultyFrame l _)
  case partSentKindFrame l k =>
    have h : execPartSentKindFrame l k s = .next t := h
    exact .of h (.faultyFrame l _)
  case frameSent l => exact execFrameSent_inner h
  case silenceExpiry l => exact execSilenceExpiry_inner h
  case recallDeadlineExpiry c => exact execRecallDeadlineExpiry_inner h
  case wipeDeadlineExpiry c => exact execWipeDeadlineExpiry_inner h
  case rejoinDeadlineExpiry l => exact execRejoinDeadlineExpiry_inner h
  all_goals cases hc

/-- The event of a command that is no part reset. -/
theorem exec_effect {c : Instr} (hc : ∀ x, c ≠ .partReset x) (h : exec c s = .next t) : EffectEvent s t := by
  by_cases hin : Instr.inner c = true
  · obtain ⟨u, hu, rfl⟩ := exec_inner hin h
    exact ⟨u, .inner hu, rfl⟩
  cases c
  case partReset x => exact absurd rfl (hc x)
  case intakeStagingLastWord v => exact .of (f := writeLastWord v) h (.written 0x01C v)
  case windowWrite offset size v => exact execWindowWrite_effect h
  case snapshotModeWrite v => exact .of (f := writeSnapshotMode v) h (.written 0x074 v)
  case watermarkModeWrite v => exact .of (f := writeWatermarkModes v) h (.written 0x07C v)
  case interruptEnableWrite v => exact .of (f := writeControl v) h (.written 0x050 v)
  case clearIntakeOverrun v => exact .of (f := writeControl _) h (.written 0x050 _)
  case clearNoticeLost v => exact .of (f := writeControl _) h (.written 0x050 _)
  case portReset v => exact .of (f := writeControl _) h (.written 0x050 _)
  case headSlotFirstWordRead slot => exact .of (f := readFirstWord slot) h (.readFirst slot)
  case headSlotLastWordRead slot => exact .of (f := readLastWord slot) h (.readLast slot)
  case openDomain => exact .of_issue h (fun _ _ => openDomainEffect_effect)
  case setDomain => exact .of_issue h (fun _ _ => setDomainEffect_effect)
  case defineGroup => exact .of_issue h (fun _ _ => defineGroupEffect_effect)
  case dropGroup => exact .of_issue h (fun _ _ => dropGroupEffect_effect)
  case setPolicy => exact .of_issue h (fun _ _ => setPolicyEffect_effect)
  case setHome => exact .of_issue h (fun _ _ => setHomeEffect_effect)
  case snapshot => exact .of_issue h (fun _ _ => snapshotEffect_effect)
  case abort => exact .of_issue h (fun _ _ => abortEffect_effect)
  case linkControlEnable => exact .of_issue h (fun _ _ => linkEffect_effect)
  case linkControlDisable => exact .of_issue h (fun _ _ => linkEffect_effect)
  case linkControlRejoin => exact .of_issue h (fun _ _ => linkEffect_effect)
  case assign => exact .of_job (code := 0x01) (by decide) h
  case reclaim => exact .of_job (code := 0x02) (by decide) h
  case transfer => exact .of_job (code := 0x03) (by decide) h
  case share => exact .of_job (code := 0x04) (by decide) h
  case unshare => exact .of_job (code := 0x05) (by decide) h
  case wipe => exact .of_job (code := 0x06) (by decide) h
  case releaseFence => exact .of_job (code := 0x07) (by decide) h
  case query => exact .of_job (code := 0x08) (by decide) h
  case format => exact .of_job (code := 0x09) (by decide) h
  case closeDomain => exact .of_issue h (fun _ _ => closeDomainEffect_effect)
  case postResponse => exact execPostResponse_effect h
  case tagStoreWriteComplete g => exact execTagStoreWriteComplete_effect h
  case snapshotIntervalExpiry => exact execSnapshotIntervalExpiry_effect h
  all_goals exact absurd rfl hin

end

/-- An invariant that a change of what waits outside, a receiver's reading, the part reset and every effect keep is kept by
every step. -/
theorem step_keeps {P : State → Prop}
    (hqueue : ∀ s pending, P s → P { s with pending := pending })
    (hread : ∀ s u, Reading s u → P s → P u)
    (hreset : ∀ s x t, execPartReset x s = .next t → P t)
    (heffect : ∀ s u, Effect s u → P s → P u)
    (hsignal : ∀ s u, P u → P (signalInterrupt s u)) {s t : State} (hs : P s) (h : step s = .next t) : P t := by
  have hexec : ∀ (c : Instr) (s : State), P s → exec c s = .next t → P t := by
    intro c s hs h
    by_cases hc : ∃ x, c = .partReset x
    · obtain ⟨x, rfl⟩ := hc
      exact hreset s x t h
    · obtain ⟨u, hu, rfl⟩ := exec_effect (fun x hx => hc ⟨x, hx⟩) h
      exact hsignal s u (heffect s u hu hs)
  unfold step at h
  split at h
  · rcases idleStep_next h with rfl | ⟨u, hu, rfl | ⟨c, hc, -⟩⟩
    · exact hs
    · exact hread _ _ hu hs
    · exact hexec c u (hread _ _ hu hs) hc
  · exact hexec _ _ (hqueue _ _ hs) h

/-! ## A write of the window -/

theorem writeSnapshotMode_frame (value : Word) (s : State) : writeSnapshotMode value s =
    { s with
      settings := (writeSnapshotMode value s).settings
      snapTimer := (writeSnapshotMode value s).snapTimer } := by
  unfold writeSnapshotMode
  split
  · split <;> rfl
  · rfl

/-- What a write of the window can change: the port's own words and the settings. -/
theorem writeWord_frame (offset : Nat) (value : Word) (s : State) : writeWord offset value s =
    { s with
      intake := (writeWord offset value s).intake
      responses := (writeWord offset value s).responses
      notices := (writeWord offset value s).notices
      overrun := (writeWord offset value s).overrun
      noticeLost := (writeWord offset value s).noticeLost
      staging := (writeWord offset value s).staging
      respLatch := (writeWord offset value s).respLatch
      noticeLatch := (writeWord offset value s).noticeLatch
      irqResponse := (writeWord offset value s).irqResponse
      irqNotice := (writeWord offset value s).irqNotice
      settings := (writeWord offset value s).settings
      snapTimer := (writeWord offset value s).snapTimer
      parkMark := (writeWord offset value s).parkMark
      missMark := (writeWord offset value s).missMark } := by
  unfold writeWord
  split
  case h_8 => unfold writeLastWord offerMessage; split <;> rfl
  case h_9 => unfold writeControl portReset; dsimp only; split <;> rfl
  case h_10 =>
    have hframe := writeSnapshotMode_frame value s
    generalize writeSnapshotMode value s = t at hframe ⊢
    rw [hframe]
  all_goals rfl

end Sys2Proof.Machine

/-! Laws L7, L8 and L10: every event is a chain of moves on the books; the statements EveryStepKeepsContexts,
EveryStepKeepsQuotas and EveryStepKeepsShares. -/

namespace Sys2Proof.Machine

/-! ## What a selected message can count on -/

section
variable {s : State} {i : Nat} {m : Message}

/-- A context command that is selected and not refused can take a context. -/
theorem canTake_of_selected {job : Job} (hs : s.selected = some (i, m)) (hm : decodeCommand m = some (.job job))
    (hr : refusal (s.issued i) (msgTag m) job = none) : canTake (s.issued i) job = true := by
  obtain ⟨-, hcan⟩ := selected_some hs
  have hr : refusal s (msgTag m) job = none := hr
  cases hct : canTake s job with
  | true => exact hct
  | false => simp [judge, hm, hr, hct, Judgement.canIssue] at hcan

/-- A selected message that is answered finds a free slot. -/
theorem freeSlots_of_selected (hs : s.selected = some (i, m))
    (hm : ∀ job, decodeCommand m = some (.job job) → refusal (s.issued i) (msgTag m) job ≠ none) :
    0 < s.freeSlots := by
  obtain ⟨-, hcan⟩ := selected_some hs
  unfold judge at hcan
  split at hcan
  case h_2 job hd =>
    split at hcan
    · simpa [Judgement.canIssue, Nat.succ_le_iff] using hcan
    · rename_i hr
      exact absurd hr (hm job hd)
  case h_3 =>
    split at hcan
    · have : 2 ≤ s.freeSlots := by simpa [Judgement.canIssue, Nat.succ_le_iff] using hcan
      omega
    · simpa [Judgement.canIssue, Nat.succ_le_iff] using hcan
  all_goals simpa [Judgement.canIssue, Nat.succ_le_iff] using hcan

/-- An element that fails a test is passed over by a search, whether it stands in the list or has left it. -/
theorem findIdx?_eraseIdx_isSome {α : Type} {p : α → Bool} {l : List α} {i : Nat} {x : α} (hx : l[i]? = some x)
    (hp : p x = false) : ((l.eraseIdx i).findIdx? p).isSome = (l.findIdx? p).isSome := by
  simp only [List.findIdx?_isSome]
  induction l generalizing i with
  | nil => rfl
  | cons y l ih =>
      cases i with
      | zero =>
          simp only [List.getElem?_cons_zero, Option.some.injEq] at hx
          simp [hx, hp]
      | succ i => simp only [List.eraseIdx_cons_succ, List.any_cons, ih (List.getElem?_cons_succ ▸ hx)]

/-- An ABORT whose target stands in the intake finds two free slots (R62). -/
theorem freeSlots_of_queuedTarget {target : BitVec 16} {j : Nat} (hs : s.selected = some (i, m))
    (hm : decodeCommand m = some (.abort target)) (hj : queuedTarget target (s.issued i).intake = some j) :
    2 ≤ s.freeSlots := by
  obtain ⟨hi, hcan⟩ := selected_some hs
  have hk : msgKind m = 0x17 := BitVec.eq_of_toNat_eq (decodeCommand_kind hm)
  have hsome : (queuedTarget target s.intake).isSome = true := by
    unfold queuedTarget at hj ⊢
    rw [← findIdx?_eraseIdx_isSome hi (by simp [isUrgent, hk])]
    exact Option.isSome_of_eq_some hj
  simpa [judge, hm, hsome, Judgement.canIssue] using hcan

end

/-! ## The laws of the books (L7, L8, L10) -/

namespace Books

variable {s u : State}

/-- An update that leaves the contexts, the domains and the groups. -/
theorem same (h : Books s u) {t : State} (hk : (t.ctxs, t.domains, t.groups) = (u.ctxs, u.domains, u.groups)) :
    Books s t := h.keeps ((Keeps.refl u).same hk)

/-- The work inside the part makes moves on the books. -/
theorem of_innerWork (h : InnerWork s u) : Books s u := by
  have hr : Books s s := .refl s
  have hframe : ∀ l, Books s (takeFrameEvent l s) := fun l => hr.keeps ((Keeps.refl s).takeFrameEvent l)
  have hengine : ∀ c, Books s (engineGranted c s) := fun c => hr.same rfl
  cases h with
  | rest => exact hr
  | @portCheck l k _ => exact (hr.same (t := laneGranted l s) rfl).portCheck k
  | lookUp _ => exact (hengine _).lookUpContext _
  | wipeStart _ => exact (hengine _).doWipeStart _
  | commit hg =>
      refine (hengine _).doCommit _ _ (fun w hw => ?_)
      obtain ⟨w', hw', hq⟩ := nextGrant_engine hg
      obtain rfl : w' = w := Option.some.inj (hw'.symm.trans hw)
      exact hq
  | revert _ => exact (hengine _).doRevert _
  | sweepWindow c => exact hr.tryTakeWindow c
  | fill forwarded dram _ => exact hr.fillEntry _ _ _
  | write g => exact hr.keeps ((Keeps.refl s).completeWrite g)
  | frame l => exact hframe l
  | faultyFrame l cause => exact (hframe l).protocolFault l cause
  | check _ _ => exact (hframe _).takeCheck _ _
  | recallAck l c q => exact (hframe l).takeRecallAck l c q
  | wipeDone l c q failed => exact (hframe l).takeWipeDone l c q failed
  | rejoinAck l n => exact (hframe l).takeRejoinAck l n
  | sent l => exact hr.keeps ((Keeps.refl s).modLink l _)
  | silence l => exact hr.leaveUpToRejoin l _
  | recallExpiry c => exact hr.expireRecall c
  | wipeExpiry hd => exact hr.expireWipe _ ⟨_, hd⟩
  | rejoinExpiry _ => exact hr.expireRejoin _

/-- A command that is carried out makes moves on the books. -/
theorem of_carryOut {i : Nat} {m : Message} {c : Command} (hs : s.selected = some (i, m))
    (hm : decodeCommand m = some c) : Books s (carryOut m (s.issued i) c) := by
  have hi : Books s (s.issued i) := (Books.refl s).keeps ((Keeps.refl s).same rfl)
  cases c with
  | job j => exact hi.issueJob m hm (canTake_of_selected hs hm)
  | openDomain d quota policySet threshold => exact hi.openDomain m d quota policySet threshold
  | setDomain d quota policySet threshold => exact hi.setDomain m d quota policySet threshold
  | defineGroup g members =>
      obtain ⟨hg, hnodup⟩ := decodeCommand_defineGroup hm
      exact hi.defineGroup m hg hnodup
  | dropGroup g => exact hi.dropGroup m g
  | setPolicy set cls action =>
      simp only [carryOut, setPolicy]
      split
      · refine Books.answer ?_ m _ _
        exact hi.same rfl
      · exact hi.refuse m _
  | setHome n base count link =>
      simp only [carryOut, setHome]
      split
      · exact hi.refuse m _
      · refine Books.answer ?_ m _ _
        exact hi.same rfl
  | snapshot => exact hi.takeSnapshot.answer m _ _
  | abort target => exact hi.abortTarget m target
  | linkControl l action =>
      cases action with
      | enable => exact hi.enableLink m l
      | disable => exact hi.disableLink m l
      | rejoin => exact hi.rejoinLink m l

/-- A write of the window leaves the books as they are. -/
theorem writeWord_keeps (offset : Nat) (value : Word) (s : State) : Keeps s (writeWord offset value s) := by
  refine (Keeps.refl s).same ?_
  rw [writeWord_frame]

/-- Every effect makes moves on the books. -/
theorem of_effect (h : Effect s u) : Books s u := by
  have hr : Books s s := .refl s
  cases h with
  | inner h => exact .of_innerWork h
  | written offset value => exact hr.keeps (writeWord_keeps offset value s)
  | readFirst slot => exact hr.same (by cases slot <;> rfl)
  | readLast slot => exact hr.same (by cases slot <;> rfl)
  | @refused i m _ _ => exact (hr.same (t := s.issued i) rfl).refuse m _
  | issued hs hm => exact .of_carryOut hs hm
  | sweepStarted hs hm href hc =>
      refine (of_carryOut hs hm).startSweep (work_issueJob href hc) ?_ ?_
      · exact (firstWork_facts _ _).1
      · exact (firstWork_facts _ _).2.2.2.2
  | @posted c h =>
      refine hr.postResponse ?_
      obtain ⟨-, hready, -⟩ := served_some h
      have hne : c.val ≠ 16 := by omega
      simpa [State.producerReady, hne] using hready
  | fillWrite g f => exact hr.completeFillWrite g f
  | snapshot => exact hr.takeSnapshot

end Books

/-! ## What waits outside -/

/-- A receiver's reading leaves the contexts, the domains and the groups. -/
theorem Reading.keeps {s u : State} (h : Reading s u) : Keeps s u := by
  obtain ⟨l, r, rest, rfl⟩ := h
  exact ((Keeps.refl s).same (t := { s with arrivals := rest }) rfl).modLink l _

theorem signalInterrupt_keeps (s u : State) : Keeps u (signalInterrupt s u) :=
  (Keeps.refl u).same (by simp)

/-! ## The state after part reset -/

theorem reset_work (c : CtxId) : State.reset.work c = none := by
  revert c
  decide

theorem reset_sumOver (f : Work → Nat) : State.reset.sumOver f = 0 :=
  sumOver_zero (fun c w h => by simp [reset_work] at h)

theorem reset_domain (d : Nat) : State.reset.domain d =
    if d = 0 then { DomainRecord.initial with state := .active, quota := Config.granules } else .initial := by
  unfold State.domain
  by_cases h : d = 0
  · subst h
    rfl
  · simp [State.reset, tableGet, h, Ne.symm h]

theorem reset_group (g : Nat) : State.reset.group g = GroupRecord.free := rfl

theorem reset_contextsKept : State.reset.contextsKept :=
  ⟨fun c w h => by simp [reset_work] at h, fun c c' w w' b n b' n' _ h => by simp [reset_work] at h⟩

theorem reset_quotaKept : State.reset.quotaKept := by
  refine ⟨fun d hd => ?_, fun d => ?_, fun d hd _ => ?_, fun c w h => by simp [reset_work] at h⟩
  · simp [reset_domain, hd, DomainRecord.initial]
  · rw [State.promisedTo, reset_sumOver, reset_domain]
    split <;> rfl
  · simp [reset_domain, hd, DomainRecord.initial]

theorem reset_sharesKept : State.reset.sharesKept := by
  refine ⟨fun g h => ?_, fun g h => ?_, fun d => ?_⟩
  · simp [reset_group, GroupRecord.free] at h
  · simp [reset_group, GroupRecord.free] at h
  · have hlist : State.reset.groupsListing d = 0 := by
      simp [State.groupsListing, reset_group, GroupRecord.free]
    rw [hlist, reset_domain]
    split <;> rfl

/-- A law that every move of the books keeps, and that holds after part reset, is kept by every step. -/
theorem step_books {P : State → Prop} (hbooks : ∀ s t, Books s t → P s → P t) (hreset : P State.reset) {s t : State}
    (hs : P s) (h : step s = .next t) : P t :=
  step_keeps (fun s _ hs => hbooks s _ ((Books.refl s).same rfl) hs)
    (fun s u hu hs => hbooks s u ((Books.refl s).keeps hu.keeps) hs)
    (fun s x t ht => hbooks State.reset t ((Books.refl _).same (by cases ht; rfl)) hreset)
    (fun s u hu hs => hbooks s u (.of_effect hu) hs)
    (fun s u hu => hbooks u _ ((Books.refl u).keeps (signalInterrupt_keeps s u)) hu) hs h

end Sys2Proof.Machine

namespace Sys2Proof.Proofs
open Sys2Proof.Machine

/-- Settles O57: every event is a chain of moves on the books, and each move keeps the contexts in order. -/
theorem everyStepKeepsContexts : Obligations.EveryStepKeepsContexts := fun _ _ hs h =>
  step_books (P := State.contextsKept) (fun _ _ hb hs => (hb hs).contexts hs) reset_contextsKept hs h

/-- Settles O58: each move of an event keeps the quotas, where the contexts are in order. -/
theorem everyStepKeepsQuotas : Obligations.EveryStepKeepsQuotas := fun _ _ hc hq h =>
  (step_books (P := fun s => s.contextsKept ∧ s.quotaKept)
    (fun _ _ hb hs => ⟨(hb hs.1).contexts hs.1, (hb hs.1).quota hs.2⟩)
    ⟨reset_contextsKept, reset_quotaKept⟩ ⟨hc, hq⟩ h).2

/-- Settles O59: each move of an event keeps the share groups, where the contexts are in order and the quotas kept. -/
theorem everyStepKeepsShares : Obligations.EveryStepKeepsShares := fun _ _ hc hq hg h =>
  (step_books (P := fun s => s.contextsKept ∧ s.quotaKept ∧ s.sharesKept)
    (fun _ _ hb hs => ⟨(hb hs.1).contexts hs.1, (hb hs.1).quota hs.2.1, (hb hs.1).shares hs.2.1 hs.2.2⟩)
    ⟨reset_contextsKept, reset_quotaKept, reset_sharesKept⟩ ⟨hc, hq, hg⟩ h).2.2

end Sys2Proof.Proofs

/-! Law L9: every event keeps the credits; the statement EveryStepKeepsCredits. -/

namespace Sys2Proof.Machine

/-! ## Law L9 -/

namespace Credits

variable {s u : State}

/-- The work inside the part keeps the credits. -/
theorem of_innerWork (hs : Credits [] s) (h : InnerWork s u) : Credits [] u := by
  have hframe : ∀ l, Credits [] (Machine.takeFrameEvent l s) := fun l => hs.takeFrameEvent l
  have hengine : ∀ c, Credits [] (engineGranted c s) := fun c => hs.same rfl
  cases h with
  | rest => exact hs
  | portCheck hg => exact (hs.laneGranted (nextGrant_lane hg)).portCheck
  | lookUp _ => exact (hengine _).lookUpContext _
  | wipeStart _ => exact (hengine _).doWipeStart _
  | commit _ => exact (hengine _).doCommit _ _
  | revert _ => exact (hengine _).doRevert _
  | sweepWindow c => exact hs.tryTakeWindow c
  | fill forwarded dram he => exact hs.fillEntry he forwarded dram
  | write g => exact hs.completeWrite g
  | frame l => exact hframe l
  | faultyFrame l cause => exact (hframe l).protocolFault l cause
  | check hk hup => exact (hframe _).takeCheck _ _ hk hup
  | recallAck l c q => exact (hframe l).takeRecallAck l c q
  | wipeDone l c q failed => exact (hframe l).takeWipeDone l c q failed
  | rejoinAck l n => exact (hframe l).takeRejoinAck l n
  | sent l =>
      refine hs.modLink l _ ?_
      unfold sendHead
      split <;> exact ⟨rfl, rfl, rfl, Nat.le_refl _⟩
  | silence l => exact hs.leaveUpToRejoin l _
  | recallExpiry c => exact hs.expireRecall c
  | wipeExpiry _ => exact hs.modWork _ _
  | rejoinExpiry hl => exact hs.expireRejoin _ hl

theorem takeSnapshot (h : Credits [] s) : Credits [] (takeSnapshot s) := h.same rfl

theorem modGroupCounts (h : Credits [] s) (f : Nat → Nat) (members : List Nat) :
    Credits [] (modGroupCounts f members s) := foldl (fun _ _ h => h.modDomain _ _) h members

theorem stopRejoin (h : Credits [] s) {l : LinkId} (hl : (s.link l).state ≠ .up) : Credits [] (stopRejoin l s) :=
  (h.moveLink l _ hl ⟨rfl, .inl rfl, .inl rfl⟩).presentToContexts _

theorem startRejoin (h : Credits [] s) {l : LinkId} (hl : (s.link l).state ≠ .up) : Credits [] (startRejoin l s) :=
  (h.moveLink l _ hl ⟨rfl, .inl rfl, .inl rfl⟩).startAttempts l

/-- A LINK_CONTROL keeps the credits. -/
theorem linkAction (h : Credits [] s) (action : LinkAction) (m : Message) (l : LinkId) :
    Credits [] (action.take m l s) := by
  cases action with
  | enable =>
      simp only [LinkAction.take, enableLink]
      split
      · rename_i hl
        exact ((h.huntAgain l).startRejoin (by simp [Machine.huntAgain, hl])).answer m _ _
      all_goals exact h.answer m _ _
  | disable =>
      simp only [LinkAction.take, disableLink]
      refine Credits.answer ?_ m _ _
      split
      · exact h
      · rename_i hl
        exact h.stopRejoin (by simp [hl])
      · exact h.leaveUpToOff l
      · rename_i hl
        exact h.moveLink l _ (by simp [hl]) ⟨rfl, .inl rfl, .inl rfl⟩
  | rejoin =>
      simp only [LinkAction.take, rejoinLink]
      split
      · exact h.answer m _ _
      · exact h.answer m _ _
      · exact (h.leaveUpToRejoin l _).answer m _ _
      · rename_i hl
        exact (h.startRejoin (by simp [hl])).answer m _ _

/-- An ABORT keeps the credits: a withdrawn request is a context's. -/
theorem abortContext (h : Credits [] s) (m : Message) (c : CtxId) (w : Work) : Credits [] (abortContext m c w s) := by
  unfold Machine.abortContext
  split
  · exact h.answer m _ _
  split
  · exact h.answer m _ _
  refine Credits.answer ?_ m _ _
  split
  · exact ((h.withdraw c).modWork _ _).releaseReservation _ _
  · exact ((h.withdraw c).modWork _ _).releaseReservation _ _
  · unfold Machine.abortMarking
    dsimp only
    split
    · exact ((h.withdraw c).modWork _ _).modWork _ _
    · exact ((h.withdraw c).modWork _ _).stopContext _ _
  · exact h.modWork _ _
  · exact h.modWork _ _
  · exact h.modWork _ _
  all_goals exact h

theorem abortActive (h : Credits [] s) (m : Message) (target : BitVec 16) : Credits [] (abortActive m target s) := by
  unfold Machine.abortActive
  split
  · exact h.answer m _ _
  · split
    · exact h.answer m _ _
    · split
      · exact h.abortContext m _ _
      · exact h.answer m _ _

theorem abortTarget (h : Credits [] s) (m : Message) (target : BitVec 16) : Credits [] (abortTarget m target s) := by
  unfold Machine.abortTarget
  split
  · exact h.abortActive m target
  · split
    · unfold abortQueued
      split
      · exact h.answer m _ _
      · refine Credits.answer ?_ m _ _
        exact h.same rfl
    · exact h.abortActive m target

/-- A command that is carried out keeps the credits. -/
theorem of_carryOut (h : Credits [] s) (m : Message) (c : Command) : Credits [] (carryOut m s c) := by
  cases c with
  | job j => exact h.issueJob m j
  | openDomain d quota policySet threshold =>
      simp only [carryOut, openDomain]
      split
      · exact (h.modDomain _ _).answer m _ _
      · exact h.answer m _ _
  | setDomain d quota policySet threshold =>
      simp only [carryOut, setDomain]
      split
      · exact h.answer m _ _
      · exact (h.modDomain _ _).answer m _ _
  | defineGroup g members =>
      simp only [carryOut, defineGroup]
      split
      · exact h.answer m _ _
      · split
        · exact h.answer m _ _
        · exact ((h.modGroup _ _).modGroupCounts _ _).answer m _ _
  | dropGroup g =>
      simp only [carryOut, dropGroup]
      split
      · exact h.answer m _ _
      · exact ((h.modGroupCounts _ _).modGroup _ _).answer m _ _
  | setPolicy set cls action =>
      simp only [carryOut, setPolicy]
      split <;> exact h.same rfl
  | setHome n base count link =>
      simp only [carryOut, setHome]
      split <;> exact h.same rfl
  | snapshot => exact h.takeSnapshot.answer m _ _
  | abort target => exact h.abortTarget m target
  | linkControl l action => exact h.linkAction action m l

theorem postResponse (h : Credits [] s) (c : CtxId) : Credits [] (postResponse c s) := by
  unfold Machine.postResponse
  split
  · exact h
  · split
    · exact h
    · refine offerWindows ?_
      unfold servingIfFormat
      split <;> exact h.same rfl

/-- The checks, the Miss Queue and the links after a write of the window. -/
theorem writeWord_links (offset : Nat) (value : Word) (s : State) :
    ((writeWord offset value s).links, (writeWord offset value s).park, (writeWord offset value s).miss) =
      (s.links, s.park, s.miss) := by
  rw [writeWord_frame]

/-- Every effect keeps the credits. -/
theorem of_effect (hs : Credits [] s) (h : Effect s u) : Credits [] u := by
  cases h with
  | inner h => exact hs.of_innerWork h
  | written offset value => exact hs.same (writeWord_links offset value s)
  | readFirst slot => exact hs.same (by cases slot <;> rfl)
  | readLast slot => exact hs.same (by cases slot <;> rfl)
  | @refused i _ _ _ => exact (hs.same (t := s.issued i) rfl).answer _ _ _
  | @issued i _ _ _ _ => exact (hs.same (t := s.issued i) rfl).of_carryOut _ _
  | @sweepStarted i d m c _ _ _ _ => exact ((hs.same (t := s.issued i) rfl).issueJob m _).startSweep c d
  | posted _ => exact hs.postResponse _
  | fillWrite g f => exact hs.completeFillWrite g f
  | snapshot => exact hs.takeSnapshot

end Credits

/-- A link after part reset has no check, and nothing withheld. -/
theorem reset_link (l : LinkId) : State.reset.link l = Link.initial := by
  revert l
  decide

theorem reset_creditsKept : State.reset.creditsKept := by
  have hwait : State.reset.waitingChecks = [] := rfl
  refine ⟨fun l => ?_, List.nodup_nil⟩
  simp [State.checksHeld, hwait, reset_link, Link.initial]

end Sys2Proof.Machine

namespace Sys2Proof.Proofs
open Sys2Proof.Machine

/-- Settles O56: each effect of an event keeps the credits with the checks in their places. -/
theorem everyStepKeepsCredits : Obligations.EveryStepKeepsCredits := by
  intro s t hs h
  rw [← credits_iff] at hs ⊢
  refine step_keeps (P := Credits []) (fun s _ hs => hs.same rfl) (fun s u hu hs => ?_) (fun s x t ht => ?_)
    (fun s u hu hs => hs.of_effect hu) (fun s u hu => hu.same (by simp)) hs h
  · obtain ⟨l, r, rest, rfl⟩ := hu
    exact (hs.same (t := { s with arrivals := rest }) rfl).modLink l _ ⟨rfl, rfl, rfl, Nat.le_refl _⟩
  · refine ((credits_iff State.reset).mpr reset_creditsKept).same ?_
    cases ht
    rfl

end Sys2Proof.Proofs

/-! Soundness of the part, and the Control Port side; the statements EveryStepKeepsThePartSound,
InnerCommandsLeaveThePort and ResetIsSound. -/

namespace Sys2Proof.Machine

/-! ## Soundness -/

section
variable {s u : State}

/-- The work inside the part is done after at most a move of the arbiters' pointers. -/
theorem InnerWork.inner (h : InnerWork s u) :
    ∃ portPtr enginePtr, Inner { s with portPtr := portPtr, enginePtr := enginePtr } u := by
  have hframe : ∀ l, Inner s (takeFrameEvent l s) := fun l => (Inner.refl s).takeFrameEvent l
  have same : ∀ {u}, Inner s u → ∃ portPtr enginePtr, Inner { s with portPtr := portPtr, enginePtr := enginePtr } u :=
    fun h => ⟨s.portPtr, s.enginePtr, h⟩
  cases h with
  | rest => exact same (.refl s)
  | @portCheck l k _ =>
      exact ⟨Fin.ofNat 7 l.val, s.enginePtr, ((Inner.refl { s with portPtr := Fin.ofNat 7 l.val }).modLink l _).portCheck k⟩
  | @lookUp c _ _ => exact ⟨6, c, (Inner.refl _).lookUpContext c⟩
  | @wipeStart c _ => exact ⟨6, c, (Inner.refl _).doWipeStart c⟩
  | @commit c b _ => exact ⟨6, c, (Inner.refl _).doCommit c b⟩
  | @revert c _ => exact ⟨6, c, (Inner.refl _).doRevert c⟩
  | sweepWindow c => exact same ((Inner.refl s).tryTakeWindow c)
  | fill forwarded dram _ => exact same ((Inner.refl s).fillEntry _ _ _)
  | write g => exact same ((Inner.refl s).completeWrite g)
  | frame l => exact same (hframe l)
  | faultyFrame l cause => exact same ((hframe l).protocolFault l cause)
  | check _ _ => exact same ((hframe _).takeCheck _ _)
  | recallAck l c q => exact same ((hframe l).takeRecallAck l c q)
  | wipeDone l c q failed => exact same ((hframe l).takeWipeDone l c q failed)
  | rejoinAck l n => exact same ((hframe l).takeRejoinAck l n)
  | sent l => exact same ((Inner.refl s).modLink l _)
  | silence l => exact same ((Inner.refl s).leaveUpToRejoin l _)
  | recallExpiry c => exact same ((Inner.refl s).expireRecall c)
  | wipeExpiry _ => exact same ((Inner.refl s).expireWipe _)
  | rejoinExpiry _ => exact same ((Inner.refl s).expireRejoin _)

/-- The work inside the part leaves the Control Port side and the interrupts sent. -/
theorem InnerWork.portSide (h : InnerWork s u) : u.portSide = s.portSide ∧ u.msiSent = s.msiSent := by
  obtain ⟨_, _, hi⟩ := h.inner
  have hk := hi.kept
  simp only [State.kept, Prod.mk.injEq] at hk
  exact ⟨hk.1, hk.2.2.2⟩

/-- The interrupt of an event leaves the Control Port side. -/
theorem signalInterrupt_portSide (a b : State) : (signalInterrupt a b).portSide = b.portSide := by
  simp [State.portSide]

theorem InnerWork.sound (h : InnerWork s u) (hs : s.sound) : u.sound := by
  obtain ⟨portPtr, enginePtr, hi⟩ := h.inner
  exact hi.sound (s := { s with portPtr := portPtr, enginePtr := enginePtr }) hs

/-- Settings in range, with their watermark modes kept, keep soundness. -/
theorem sound_settings {x : Settings} (hs : s.sound) (hx : x.inRange) (hp : x.parkMode = s.settings.parkMode)
    (hm : x.missMode = s.settings.missMode) : { s with settings := x }.sound :=
  ⟨hs.1, hs.2.1, hx, occupancyShown_settings x hp hm hs.2.2.2⟩

/-- A written value is in range where the old one is. -/
theorem inRangeOr_inRange {lo hi old : Nat} (value : Word) (h : lo ≤ old ∧ old ≤ hi) :
    lo ≤ inRangeOr lo hi old value ∧ inRangeOr lo hi old value ≤ hi := by
  unfold inRangeOr
  split
  · assumption
  · exact h

/-- A write of a plain setting keeps the settings in range, and the watermark modes. -/
theorem writeSetting_inRange (offset : Nat) (value : Word) {x : Settings} (hx : x.inRange) :
    (writeSetting offset value x).inRange ∧ (writeSetting offset value x).parkMode = x.parkMode ∧
      (writeSetting offset value x).missMode = x.missMode := by
  obtain ⟨h1, h2, h3, h4, h5⟩ := hx
  unfold writeSetting
  split
  · exact ⟨⟨inRangeOr_inRange value h1, h2, h3, h4, h5⟩, rfl, rfl⟩
  · exact ⟨⟨h1, inRangeOr_inRange value h2, h3, h4, h5⟩, rfl, rfl⟩
  · exact ⟨⟨h1, h2, inRangeOr_inRange value h3, h4, h5⟩, rfl, rfl⟩
  · exact ⟨⟨h1, h2, h3, inRangeOr_inRange value h4, h5⟩, rfl, rfl⟩
  · exact ⟨⟨h1, h2, h3, h4, h5⟩, rfl, rfl⟩
  · exact ⟨⟨h1, h2, h3, h4, inRangeOr_inRange value h5⟩, rfl, rfl⟩
  · exact ⟨⟨h1, h2, h3, h4, h5⟩, rfl, rfl⟩

/-- Queues that become no longer keep soundness, where all else that it reads stays. -/
theorem sound_shorter {t : State} (hs : s.sound) (hi : t.intake.length ≤ Config.intakeSize)
    (hr : t.responses.length ≤ s.responses.length) (hn : t.notices.length ≤ s.notices.length)
    (hrest : (t.park, t.miss, t.store, t.settings, t.parkMark, t.missMark, t.pacing) =
      (s.park, s.miss, s.store, s.settings, s.parkMark, s.missMark, s.pacing)) : t.sound := by
  obtain ⟨⟨_, hresponses, hnotices, hpark, hmiss⟩, hstore, hsettings, hshown⟩ := hs
  simp only [Prod.mk.injEq] at hrest
  obtain ⟨e1, e2, e3, e4, e5, e6, e7⟩ := hrest
  refine ⟨⟨hi, Nat.le_trans hr hresponses, Nat.le_trans hn hnotices, e1 ▸ hpark, e2 ▸ hmiss⟩, e3 ▸ hstore, e4 ▸ hsettings, ?_⟩
  exact (occupancyShown_congr (by simp only [State.occupancies, e1, e2, e5, e6, e7]) e4).mpr hshown

theorem writeControl_sound (value : Word) (hs : s.sound) : (writeControl value s).sound := by
  obtain ⟨⟨hintake, _, _, _, _⟩, _⟩ := id hs
  unfold writeControl portReset
  dsimp only
  split
  · exact sound_shorter hs (Nat.zero_le _) (Nat.zero_le _) (Nat.zero_le _) rfl
  · exact sound_shorter hs hintake (Nat.le_refl _) (Nat.le_refl _) rfl

theorem writeLastWord_sound (value : Word) (hs : s.sound) : (writeLastWord value s).sound := by
  obtain ⟨⟨hintake, _, _, _, _⟩, _⟩ := id hs
  unfold writeLastWord offerMessage
  split
  · rename_i hlt
    refine sound_shorter hs ?_ (Nat.le_refl _) (Nat.le_refl _) rfl
    simp only [List.length_append, List.length_singleton]
    exact hlt
  · exact sound_shorter hs hintake (Nat.le_refl _) (Nat.le_refl _) rfl

theorem writeSnapshotMode_sound (value : Word) (hs : s.sound) : (writeSnapshotMode value s).sound := by
  have hx := hs.2.2.1
  unfold writeSnapshotMode
  split
  · split
    · exact hs
    · exact sound_settings (x := { s.settings with snapshotMode := .auto }) hs hx rfl rfl
  · exact sound_settings (x := { s.settings with snapshotMode := .manual }) hs hx rfl rfl

theorem writeWord_sound (offset : Nat) (value : Word) (hs : s.sound) : (writeWord offset value s).sound := by
  have hstaging : ∀ i, (storeStaging i value s).sound := fun i => hs
  unfold writeWord
  split
  case h_8 => exact writeLastWord_sound value hs
  case h_9 => exact writeControl_sound value hs
  case h_10 => exact writeSnapshotMode_sound value hs
  case h_11 => exact ⟨hs.1, hs.2.1, hs.2.2.1, writeWatermarkModes_shown value hs.2.2.2⟩
  case h_12 =>
    obtain ⟨hx, hp, hm⟩ := writeSetting_inRange offset value hs.2.2.1
    exact sound_settings hs hx hp hm
  all_goals exact hstaging _

theorem length_removeLatched {α : Type} (latch : Option α) (queue : List α) :
    (removeLatched latch queue).length ≤ queue.length := by
  unfold removeLatched
  split
  · simp
  · exact Nat.le_refl _

theorem readLastWord_sound (slot : HeadSlot) (hs : s.sound) : (readLastWord slot s).sound := by
  obtain ⟨⟨hintake, _, _, _, _⟩, _⟩ := id hs
  cases slot with
  | response =>
      refine sound_shorter hs ?_ (length_removeLatched s.respLatch s.responses) ?_ rfl
      · exact hintake
      · exact Nat.le_refl s.notices.length
  | notice =>
      refine sound_shorter hs ?_ ?_ (length_removeLatched s.noticeLatch s.notices) rfl
      · exact hintake
      · exact Nat.le_refl s.responses.length

theorem takeSnapshot_sound (hs : s.sound) : (takeSnapshot s).sound :=
  ⟨hs.1, hs.2.1, hs.2.2.1, takeSnapshot_shown hs.2.2.2⟩

/-- The end of FILL and of one of its writes keep soundness. -/
theorem completeFillWrite_sound (g : Nat) (f : FillWrites) (hs : s.sound) : (completeFillWrite g f s).sound := by
  have hstore : ∀ image ecc x, { storeImage g image ecc s with fill := x }.sound := fun image ecc _ =>
    (sound_congr rfl rfl rfl rfl rfl rfl rfl rfl).mpr (((Inner.refl s).storeImage g image ecc).sound hs)
  unfold completeFillWrite
  generalize encodeImage (fillRecord f.root g) = image
  dsimp only
  split
  · exact ((Inner.refl _).presentToContexts _).sound (hstore image (Config.ecc image) none)
  · exact hstore image (Config.ecc image) _

/-! ## A command in its issue event -/

/-- The work of a command before its answer is placed: it keeps soundness, and leaves the responses and the interrupts
sent. -/
structure Answerable (s u : State) : Prop where
  sound : s.sound → u.sound
  responses : u.responses = s.responses
  msiSent : u.msiSent = s.msiSent

theorem Answerable.refl (s : State) : Answerable s s := ⟨id, rfl, rfl⟩

theorem Answerable.of_inner (h : Inner s u) : Answerable s u := by
  have hk := h.kept
  simp only [State.kept, State.portSide, Prod.mk.injEq] at hk
  obtain ⟨⟨_, _, _, _, _, _, _, _, _, hresponses, _⟩, _, _, hmsi⟩ := hk
  exact ⟨h.sound, hresponses, hmsi⟩

theorem Answerable.freeSlots (h : Answerable s u) : u.freeSlots = s.freeSlots := by
  unfold State.freeSlots
  rw [h.responses]

/-- What a command that is carried out comes to: its answer after its work, a context taken, or an ABORT's two responses
for a message that leaves the intake. -/
inductive CarriedOut (m : Message) (s : State) : Command → State → Prop where
  | answered {c : Command} {u : State} (h : Answerable s u) (status : Status) (reason : Option Reason)
      (hjob : ∀ job, c = .job job → refusal s (msgTag m) job ≠ none) : CarriedOut m s c (answer m status reason u)
  | taken {job : Job} {u : State} (h : Answerable s u) (hr : refusal s (msgTag m) job = none) :
      CarriedOut m s (.job job) u
  | abortedQueued {target : BitVec 16} {j : Nat} (r : Response) (hj : queuedTarget target s.intake = some j) :
      CarriedOut m s (.abort target) (answer m .ok none (placeResponse r (s.issued j)))

/-- A command other than a context command is answered after its work. -/
theorem CarriedOut.immediate {m : Message} {c : Command} (h : Inner s u) (hc : ∀ job, c ≠ .job job) (status : Status)
    (reason : Option Reason) : CarriedOut m s c (answer m status reason u) :=
  .answered (.of_inner h) status reason (fun job hj => absurd hj (hc job))

theorem modGroupCounts_inner (f : Nat → Nat) (members : List Nat) (h : Inner s u) :
    Inner s (modGroupCounts f members u) := Inner.foldl (fun _ _ => (Inner.refl _).modDomain _ _) h members

theorem startRejoin_inner (l : LinkId) (s : State) : Inner s (startRejoin l s) :=
  ((Inner.refl s).modLink l _).startAttempts l

theorem reserve_answerable (job : Job) (h : Inner s u) : Answerable s (reserve job u) := by
  have hu := Answerable.of_inner h
  unfold reserve
  split
  · exact .of_inner (h.modDomain _ _)
  · exact .of_inner (h.modDomain _ _)
  · exact .of_inner (h.modGroup _ _)
  · exact .of_inner (h.modDomain _ _)
  · rename_i size rootBase rootCount
    have hfill : ∀ x, Inner { u with part := .formatting, tableSize := size, cache := [], fill := x }
        (modDomain 0 (fun r => { r with held := rootCount.getD 0 })
          { u with part := .formatting, tableSize := size, cache := [], fill := x }) :=
      fun x => (Inner.refl _).modDomain 0 _
    exact ⟨fun hs => (hfill _).sound (hu.sound hs), hu.responses, hu.msiSent⟩
  all_goals exact hu

theorem issueJob_cases (m : Message) (job : Job) (s : State) : CarriedOut m s (.job job) (issueJob m job s) := by
  unfold issueJob
  split
  · rename_i reason hr
    exact .answered (.refl s) _ _ (fun j hj => by cases hj; simp [hr])
  · rename_i hr
    split
    · exact .taken (.refl s) hr
    · exact .taken (reserve_answerable job ((Inner.refl s).setWork _ _)) hr

section
variable (m : Message) {c : Command}

theorem abortContext_cases (hc : ∀ job, c ≠ .job job) (x : CtxId) (w : Work) (s : State) :
    CarriedOut m s c (abortContext m x w s) := by
  have hwithdraw : Inner s (withdrawRequest x s) := ((Inner.refl s).removeWaiters _).modWork x _
  have hr : Inner s s := .refl s
  unfold abortContext
  split
  · exact .immediate hr hc _ _
  split
  · exact .immediate hr hc _ _
  refine .immediate ?_ hc _ _
  split
  · exact (hwithdraw.modWork x _).releaseReservation _ _
  · exact (hwithdraw.modWork x _).releaseReservation _ _
  · unfold abortMarking
    dsimp only
    split
    · exact (hwithdraw.modWork x _).modWork x _
    · exact (hwithdraw.modWork x _).stopContext x w
  · exact hr.modWork x _
  · exact hr.modWork x _
  · exact hr.modWork x _
  all_goals exact hr

theorem abortActive_cases (hc : ∀ job, c ≠ .job job) (target : BitVec 16) (s : State) :
    CarriedOut m s c (abortActive m target s) := by
  unfold abortActive
  split
  · exact .immediate (.refl s) hc _ _
  · split
    · exact .immediate (.refl s) hc _ _
    · split
      · exact abortContext_cases m hc _ _ s
      · exact .immediate (.refl s) hc _ _

theorem abortTarget_cases (target : BitVec 16) (s : State) :
    CarriedOut m s (.abort target) (abortTarget m target s) := by
  unfold abortTarget
  split
  · exact abortActive_cases m (by simp) target s
  · rename_i j hj
    split
    · unfold abortQueued
      split
      · exact .immediate (.refl s) (by simp) _ _
      · exact .abortedQueued _ hj
    · exact abortActive_cases m (by simp) target s

theorem linkAction_cases (action : LinkAction) (hc : ∀ job, c ≠ .job job) (l : LinkId) (s : State) :
    CarriedOut m s c (action.take m l s) := by
  have hr : Inner s s := .refl s
  cases action with
  | enable =>
      simp only [LinkAction.take, enableLink]
      split
      · exact .immediate ((hr.modLink l _).trans (startRejoin_inner l (huntAgain l s))) hc _ _
      all_goals exact .immediate hr hc _ _
  | disable =>
      simp only [LinkAction.take, disableLink]
      refine .immediate ?_ hc _ _
      split
      · exact hr
      · exact (hr.modLink l _).presentToContexts _
      · exact hr.leaveUpToOff l
      · exact hr.modLink l _
  | rejoin =>
      simp only [LinkAction.take, rejoinLink]
      split
      · exact .immediate hr hc _ _
      · exact .immediate hr hc _ _
      · exact .immediate (hr.leaveUpToRejoin l _) hc _ _
      · exact .immediate (startRejoin_inner l s) hc _ _

/-- What each command comes to. -/
theorem carryOut_cases (s : State) (c : Command) : CarriedOut m s c (carryOut m s c) := by
  have hr : Inner s s := .refl s
  cases c with
  | job j => exact issueJob_cases m j s
  | openDomain d quota policySet threshold =>
      simp only [carryOut, openDomain]
      split
      · exact .immediate (hr.modDomain _ _) (by simp) _ _
      · exact .immediate hr (by simp) _ _
  | setDomain d quota policySet threshold =>
      simp only [carryOut, setDomain]
      split
      · exact .immediate hr (by simp) _ _
      · exact .immediate (hr.modDomain _ _) (by simp) _ _
  | defineGroup g members =>
      simp only [carryOut, defineGroup]
      split
      · exact .immediate hr (by simp) _ _
      · split
        · exact .immediate hr (by simp) _ _
        · exact .immediate (modGroupCounts_inner _ _ (hr.modGroup _ _)) (by simp) _ _
  | dropGroup g =>
      simp only [carryOut, dropGroup]
      split
      · exact .immediate hr (by simp) _ _
      · exact .immediate ((modGroupCounts_inner _ _ hr).modGroup _ _) (by simp) _ _
  | setPolicy set cls action =>
      simp only [carryOut, setPolicy]
      split
      · refine .answered ?_ _ _ (by simp)
        exact ⟨id, rfl, rfl⟩
      · exact .immediate hr (by simp) _ _
  | setHome n base count link =>
      simp only [carryOut, setHome]
      split
      · exact .immediate hr (by simp) _ _
      · refine .answered ?_ _ _ (by simp)
        exact ⟨id, rfl, rfl⟩
  | snapshot => exact .answered ⟨takeSnapshot_sound, rfl, rfl⟩ _ _ (by simp)
  | abort target => exact abortTarget_cases m target s
  | linkControl l action => exact linkAction_cases m action (by simp) l s

end

/-- A command that is carried out keeps soundness: it has been selected with the slots its answers take. -/
theorem CarriedOut.sound {i : Nat} {m : Message} {c : Command} (h : CarriedOut m (s.issued i) c u)
    (hsel : s.selected = some (i, m)) (hm : decodeCommand m = some c) (hs : s.sound) : u.sound := by
  have hi : (s.issued i).sound := issued_sound i hs
  cases h with
  | answered h status reason hjob =>
      refine answer_sound m status reason (h.sound hi) ?_
      rw [h.freeSlots]
      show 0 < s.freeSlots
      exact freeSlots_of_selected hsel (fun job hj => hjob job (Option.some.inj (hm.symm.trans hj)))
  | taken h _ => exact h.sound hi
  | @abortedQueued target j r hj =>
      have htwo : 2 ≤ s.freeSlots := freeSlots_of_queuedTarget hsel hm hj
      have hone : 0 < s.freeSlots := by omega
      refine answer_sound m _ _ (placeResponse_sound r (issued_sound j hi) hone) ?_
      simp only [State.freeSlots, State.issued, placeResponse, List.length_append, List.length_singleton] at htwo ⊢
      omega

theorem CarriedOut.msiSent {m : Message} {c : Command} (h : CarriedOut m s c u) : u.msiSent = s.msiSent := by
  cases h with
  | answered h _ _ _ => exact h.msiSent
  | taken h _ => exact h.msiSent
  | abortedQueued _ _ => rfl

theorem startSweep_inner (c : CtxId) (d : Nat) (s : State) : Inner s (startSweep c d s) := by
  unfold startSweep
  split
  · exact (Inner.refl s).closeSweep c d 0
  · exact (Inner.refl s).tryTakeWindow c

theorem postResponse_sound (c : CtxId) (hs : s.sound) (hf : 0 < s.freeSlots) : (postResponse c s).sound := by
  unfold postResponse
  split
  · exact hs
  · split
    · exact hs
    · rename_i w _ r _
      refine ((Inner.refl _).offerWindows).sound ?_
      have hplaced : (placeResponse r { s with respPtr := Fin.ofNat 17 c.val }).sound :=
        placeResponse_sound (s := { s with respPtr := Fin.ofNat 17 c.val }) r hs hf
      unfold servingIfFormat
      split <;> exact hplaced

theorem Effect.sound (h : Effect s u) (hs : s.sound) : u.sound := by
  cases h with
  | inner h => exact h.sound hs
  | written offset value => exact writeWord_sound offset value hs
  | readFirst slot => cases slot <;> exact hs
  | readLast slot => exact readLastWord_sound slot hs
  | @refused i m hsel hm =>
      refine answer_sound m _ _ (issued_sound i hs) (show 0 < s.freeSlots from ?_)
      exact freeSlots_of_selected hsel (fun job hj => by rw [hm] at hj; cases hj)
  | issued hsel hm => exact (carryOut_cases _ _ _).sound hsel hm hs
  | sweepStarted hsel hm _ _ =>
      exact (startSweep_inner _ _ _).sound ((issueJob_cases _ _ _).sound hsel hm hs)
  | posted h => exact postResponse_sound _ hs (served_some h).1
  | fillWrite g f => exact completeFillWrite_sound g f hs
  | snapshot => exact takeSnapshot_sound hs

/-! ## The interrupts sent -/

theorem writeWord_msiSent (offset : Nat) (value : Word) (s : State) :
    (writeWord offset value s).msiSent = s.msiSent := by
  rw [writeWord_frame]

theorem postResponse_msiSent (c : CtxId) (s : State) : (postResponse c s).msiSent = s.msiSent := by
  unfold postResponse
  split
  · rfl
  · split
    · rfl
    · refine (Answerable.of_inner (Inner.offerWindows (.refl _))).msiSent.trans ?_
      unfold servingIfFormat
      split <;> rfl

theorem completeFillWrite_msiSent (g : Nat) (f : FillWrites) (s : State) :
    (completeFillWrite g f s).msiSent = s.msiSent := by
  have hstore : ∀ image ecc x, { storeImage g image ecc s with fill := x }.msiSent = s.msiSent := fun _ _ _ => rfl
  unfold completeFillWrite
  generalize encodeImage (fillRecord f.root g) = image
  dsimp only
  split
  · exact (presentToContexts_msiSent _ _).trans (hstore image (Config.ecc image) none)
  · exact hstore image (Config.ecc image) _

/-- Of an event, the interrupt alone changes the count of those sent. -/
theorem Effect.msiSent (h : Effect s u) : u.msiSent = s.msiSent := by
  cases h with
  | inner h => exact h.portSide.2
  | written offset value => exact writeWord_msiSent offset value s
  | readFirst slot => cases slot <;> rfl
  | readLast slot => cases slot <;> rfl
  | refused _ _ => rfl
  | issued _ _ => exact (carryOut_cases _ _ _).msiSent
  | sweepStarted _ _ _ _ =>
      exact (Answerable.of_inner (startSweep_inner _ _ _)).msiSent.trans (issueJob_cases _ _ _).msiSent
  | posted _ => exact postResponse_msiSent _ s
  | fillWrite g f => exact completeFillWrite_msiSent g f s
  | snapshot => rfl

end

theorem reset_sound : State.reset.sound := by
  refine ⟨by simp [State.withinCapacity, State.reset], reset_wf, ?_, ?_⟩
  · simp [Settings.inRange, State.reset, Settings.initial]
  · exact ⟨⟨fun _ => rfl, Nat.le_refl _⟩, ⟨fun _ => rfl, Nat.le_refl _⟩, fun _ => by decide, nofun⟩

end Sys2Proof.Machine

namespace Sys2Proof.Proofs
open Sys2Proof.Machine

/-- Settles O55: every effect of an event keeps the part sound; a message that is answered has been selected with the
slots it takes. -/
theorem everyStepKeepsThePartSound : Obligations.EveryStepKeepsThePartSound := fun _ _ hs h =>
  step_keeps (P := State.sound) (fun _ _ hs => hs) (fun _ _ ⟨_, _, _, hu⟩ hs => hu ▸ hs)
    (fun _ _ _ ht => by cases ht; exact reset_sound) (fun _ _ hu hs => hu.sound hs)
    (fun _ _ hu => signalInterrupt_sound.mpr hu) hs h

/-- Settles O54: the commands of the work inside the part leave the Control Port side. -/
theorem innerCommandsLeaveThePort : Obligations.InnerCommandsLeaveThePort := by
  intro command s t hc h
  have hin : Instr.inner command = true := by
    rcases hc with hc | ⟨c, hc⟩ | ⟨g, d, rfl⟩ | ⟨l, hc⟩ | ⟨l, p, rfl⟩ | ⟨l, p, rfl⟩ | ⟨l, p, rfl⟩ | ⟨l, p, rfl⟩ |
      ⟨l, k, rfl⟩ | ⟨l, k, rfl⟩
    · simp only [List.mem_cons, List.not_mem_nil, or_false] at hc
      rcases hc with rfl | rfl | rfl | rfl | rfl | rfl <;> rfl
    · simp only [List.mem_cons, List.not_mem_nil, or_false] at hc
      rcases hc with rfl | rfl | rfl <;> rfl
    · rfl
    · simp only [List.mem_cons, List.not_mem_nil, or_false] at hc
      rcases hc with rfl | rfl | rfl | rfl | rfl <;> rfl
    all_goals rfl
  obtain ⟨u, hu, rfl⟩ := exec_inner hin h
  exact (signalInterrupt_portSide s u).trans hu.portSide.1

/-- Settles O3: of an event the interrupt alone counts an interrupt, and it leaves the condition as it stands. -/
theorem interruptIsSentAtRise : Obligations.InterruptIsSentAtRise := by
  refine ⟨fun s => ?_, fun c s t hc h => ?_⟩
  · simp only [State.interruptCondition, Bool.or_eq_true, Bool.and_eq_true, Bool.not_eq_true', List.isEmpty_eq_false_iff]
    rw [And.comm (a := s.irqResponse = true), And.comm (a := s.irqNotice = true)]
  · obtain ⟨u, hu, rfl⟩ := exec_effect hc h
    have hcond : (signalInterrupt s u).interruptCondition = u.interruptCondition :=
      interruptCondition_congr (by simp) (by simp) (by simp) (by simp)
    rw [hcond, signalInterrupt_msiSent, hu.msiSent]

/-- Settles O60. -/
theorem resetIsSound : Obligations.ResetIsSound :=
  ⟨reset_sound, reset_creditsKept, reset_contextsKept, reset_quotaKept, reset_sharesKept⟩

end Sys2Proof.Proofs

/-! Numbers built of fields: what stands at a field's place, and 0 where no field stands. -/

namespace Sys2Proof.Machine

/-! ## Fields -/

/-- Two places, each a first bit and a width, share no bit. -/
def placesApart (lo width lo' width' : Nat) : Bool := decide (lo + width ≤ lo') || decide (lo' + width' ≤ lo)

/-- A place shares no bit with any field. -/
def placeFree (lo width : Nat) (fields : List (Nat × Nat × Nat)) : Bool :=
  fields.all (fun f => placesApart lo width f.2.1 f.2.2)

/-- No two fields share a bit; their values are not looked at. -/
def fieldsApart : List (Nat × Nat × Nat) → Bool
  | [] => true
  | (_, lo, width) :: rest => placeFree lo width rest && fieldsApart rest

/-- Numbers without a common bit add up to their union. -/
theorem add_eq_or_of_testBit {a b : Nat} (h : ∀ i, a.testBit i = true → b.testBit i = false) : a + b = a ||| b := by
  have ha : a < 2 ^ (a + b) := Nat.lt_of_lt_of_le Nat.lt_two_pow_self (Nat.pow_le_pow_right (by decide) (by omega))
  have hb : b < 2 ^ (a + b) := Nat.lt_of_lt_of_le Nat.lt_two_pow_self (Nat.pow_le_pow_right (by decide) (by omega))
  have hand : BitVec.ofNat (a + b) a &&& BitVec.ofNat (a + b) b = 0#(a + b) := by
    apply BitVec.eq_of_getLsbD_eq
    intro i _
    cases hi : a.testBit i with
    | false => simp [BitVec.getLsbD_ofNat, hi]
    | true => simp [BitVec.getLsbD_ofNat, h i hi]
  have hsum := BitVec.toNat_add_of_and_eq_zero hand
  rw [BitVec.add_eq_or_of_and_eq_zero _ _ hand] at hsum
  simpa [BitVec.toNat_or, Nat.mod_eq_of_lt ha, Nat.mod_eq_of_lt hb] using hsum.symm

/-- A field's bits. -/
def fieldBit (f : Nat × Nat × Nat) (i : Nat) : Bool :=
  decide (f.2.1 ≤ i) && decide (i < f.2.1 + f.2.2) && f.1.testBit (i - f.2.1)

theorem testBit_field (v lo width i : Nat) :
    (v % 2 ^ width * 2 ^ lo).testBit i = fieldBit (v, lo, width) i := by
  rw [Nat.testBit_mul_two_pow, Nat.testBit_mod_two_pow]
  unfold fieldBit
  by_cases h : lo ≤ i
  · have : decide (i - lo < width) = decide (i < lo + width) := by simp only [decide_eq_decide]; omega
    simp [h, this]
  · simp [h]

/-- A bit of a place that no field shares. -/
theorem fieldBit_of_placeFree {lo width i : Nat} {fields : List (Nat × Nat × Nat)} (h : placeFree lo width fields = true)
    (hi : lo ≤ i ∧ i < lo + width) : ∀ f ∈ fields, fieldBit f i = false := by
  intro f hf
  have hapart := List.all_eq_true.mp h f hf
  simp only [placesApart, Bool.or_eq_true, decide_eq_true_eq] at hapart
  cases hbit : fieldBit f i with
  | false => rfl
  | true =>
      simp only [fieldBit, Bool.and_eq_true, decide_eq_true_eq] at hbit
      omega

/-- The bits of a number built of fields are its fields' bits. -/
theorem testBit_packFields {fields : List (Nat × Nat × Nat)} (h : fieldsApart fields = true) :
    ∀ i, (packFields fields).testBit i = fields.any (fun f => fieldBit f i) := by
  induction fields with
  | nil => simp [packFields]
  | cons f rest ih =>
      obtain ⟨v, lo, width⟩ := f
      simp only [fieldsApart, Bool.and_eq_true] at h
      have hrest := ih h.2
      intro i
      have hsum : packFields ((v, lo, width) :: rest) = v % 2 ^ width * 2 ^ lo ||| packFields rest := by
        refine add_eq_or_of_testBit (fun j hj => ?_)
        rw [testBit_field] at hj
        have hj' := hj
        simp only [fieldBit, Bool.and_eq_true, decide_eq_true_eq] at hj'
        rw [hrest, List.any_eq_false]
        intro f hf
        simp [fieldBit_of_placeFree h.1 hj'.1 f hf]
      rw [hsum, Nat.testBit_or, testBit_field, hrest, List.any_cons]

/-- Where a number built of fields has no field, it has 0. -/
theorem testBit_packFields_of_free {fields : List (Nat × Nat × Nat)} {lo width i : Nat} (h : fieldsApart fields = true)
    (hfree : placeFree lo width fields = true) (hi : lo ≤ i ∧ i < lo + width) :
    (packFields fields).testBit i = false := by
  rw [testBit_packFields h, List.any_eq_false]
  intro f hf
  simp [fieldBit_of_placeFree hfree hi f hf]

/-- At a field's place stands its value. -/
theorem testBit_packFields_of_mem {fields : List (Nat × Nat × Nat)} {v lo width i : Nat} (h : fieldsApart fields = true)
    (hmem : (v, lo, width) ∈ fields) (hi : i < width) : (packFields fields).testBit (lo + i) = v.testBit i := by
  induction fields with
  | nil => cases hmem
  | cons f rest ih =>
      have hall := testBit_packFields h (lo + i)
      obtain ⟨hfree, hrest⟩ := Bool.and_eq_true_iff.mp (show (placeFree f.2.1 f.2.2 rest && fieldsApart rest) = true from h)
      rw [List.any_cons] at hall
      rcases List.mem_cons.mp hmem with rfl | hmem
      · have hr : rest.any (fun f => fieldBit f (lo + i)) = false := by
          rw [List.any_eq_false]
          intro f hf
          simp [fieldBit_of_placeFree hfree ⟨Nat.le_add_right lo i, Nat.add_lt_add_left hi lo⟩ f hf]
        rw [hall, hr]
        simp [fieldBit, hi]
      · have hf : fieldBit f (lo + i) = false := by
          have hapart := List.all_eq_true.mp hfree _ hmem
          simp only [placesApart, Bool.or_eq_true, decide_eq_true_eq] at hapart
          cases hbit : fieldBit f (lo + i) with
          | false => rfl
          | true =>
              simp only [fieldBit, Bool.and_eq_true, decide_eq_true_eq] at hbit
              omega
        rw [hall, hf, Bool.false_or, ← testBit_packFields hrest, ih hrest hmem]

/-! ## Words built of fields -/

section
variable {n v lo width : Nat} {fields : List (Nat × Nat × Nat)}

/-- A field read back out of a word. -/
theorem extract_packFields (hmem : (v, lo, width) ∈ fields) (h : fieldsApart fields = true) (hn : lo + width ≤ n) :
    (BitVec.ofNat n (packFields fields)).extractLsb' lo width = BitVec.ofNat width v := by
  apply BitVec.eq_of_getLsbD_eq
  intro i hi
  have hlt : lo + i < n := by omega
  rw [BitVec.getLsbD_extractLsb', BitVec.getLsbD_ofNat, BitVec.getLsbD_ofNat, testBit_packFields_of_mem h hmem hi]
  simp [hi, hlt]

/-- A field within its width, as a number. -/
theorem extract_packFields_toNat (hmem : (v, lo, width) ∈ fields) (hv : v < 2 ^ width)
    (h : fieldsApart fields = true) (hn : lo + width ≤ n) :
    ((BitVec.ofNat n (packFields fields)).extractLsb' lo width).toNat = v := by
  rw [extract_packFields hmem h hn, BitVec.toNat_ofNat, Nat.mod_eq_of_lt hv]

/-- A place that no field shares reads as 0. -/
theorem extract_packFields_free (h : fieldsApart fields = true) (hfree : placeFree lo width fields = true) :
    (BitVec.ofNat n (packFields fields)).extractLsb' lo width = 0#width := by
  apply BitVec.eq_of_getLsbD_eq
  intro i hi
  have := testBit_packFields_of_free h hfree ⟨Nat.le_add_right lo i, Nat.add_lt_add_left hi lo⟩
  rw [BitVec.getLsbD_extractLsb', BitVec.getLsbD_ofNat, this]
  simp

/-- A one-bit field. -/
theorem getLsbD_packFields (hmem : (v, lo, 1) ∈ fields) (h : fieldsApart fields = true) (hn : lo < n) :
    (BitVec.ofNat n (packFields fields)).getLsbD lo = v.testBit 0 := by
  have := testBit_packFields_of_mem h hmem (i := 0) (by decide)
  rw [Nat.add_zero] at this
  rw [BitVec.getLsbD_ofNat, this]
  simp [hn]

/-- A bit that no field has. -/
theorem getLsbD_packFields_free {i : Nat} (h : fieldsApart fields = true) (hfree : placeFree lo width fields = true)
    (hi : lo ≤ i ∧ i < lo + width) : (BitVec.ofNat n (packFields fields)).getLsbD i = false := by
  rw [BitVec.getLsbD_ofNat, testBit_packFields_of_free h hfree hi, Bool.and_false]

end

theorem testBit_zero_toNat (b : Bool) : b.toNat.testBit 0 = b := by cases b <;> rfl

theorem testBit_zero_ite (b : Bool) : (if b = true then 1 else 0 : Nat).testBit 0 = b := by cases b <;> rfl

end Sys2Proof.Machine

/-! The machine and its window: steps, part reset, the staging slot, the control word and the settings; the statements
StepRunsFrontCommand, ResetValues, LastStagingWordOffersMessage, WindowWrites and ControlWordWrites. -/

namespace Sys2Proof.Machine

/-! ## Events whose interrupt is quiet -/

/-- An event that leaves the enables and the two queues sends no interrupt. -/
theorem event_quiet {f : State → State} {s u : State} (hf : f s = u) (hr : u.irqResponse = s.irqResponse)
    (hn : u.irqNotice = s.irqNotice) (hq : u.responses = s.responses) (hm : u.notices = s.notices) :
    event f s = .next u := by
  subst hf
  unfold event
  rw [signalInterrupt_same hr hn hq hm]

/-- An event after which both queues are empty sends no interrupt. -/
theorem event_empty {f : State → State} {s u : State} (hf : f s = u) (hq : u.responses = []) (hm : u.notices = []) :
    event f s = .next u := by
  subst hf
  unfold event
  rw [signalInterrupt_quiet (.inr (by simp [State.interruptCondition, hq, hm]))]

/-! ## The staging slot -/

/-- A word of the message that the staging slot spells. -/
theorem stagedMessage_word (staging : Vector Word 8) (i : Fin 8) :
    (stagedMessage staging).extractLsb' (32 * i.val) 32 = staging[i.val] := by
  have hmem : (staging[i.val].toNat, 32 * i.val, 32) ∈
      (List.finRange 8).map (fun i : Fin 8 => (staging[i.val].toNat, 32 * i.val, 32)) :=
    List.mem_map.mpr ⟨i, List.mem_finRange i, rfl⟩
  have hi := i.isLt
  rw [stagedMessage, extract_packFields hmem rfl (by omega), BitVec.ofNat_toNat, BitVec.setWidth_eq]

theorem writeLastWord_placed (v : Word) {s : State} (h : s.intake.length < 32) : writeLastWord v s =
    { s with staging := s.staging.set 7 v, intake := s.intake ++ [stagedMessage (s.staging.set 7 v)] } := by
  have h : (storeStaging 7 v s).intake.length < Config.intakeSize := h
  unfold writeLastWord offerMessage
  rw [if_pos h]
  rfl

theorem writeLastWord_dropped (v : Word) {s : State} (h : 32 ≤ s.intake.length) : writeLastWord v s =
    { s with staging := s.staging.set 7 v, overrun := true } := by
  have h : ¬(storeStaging 7 v s).intake.length < Config.intakeSize := Nat.not_lt.mpr h
  unfold writeLastWord offerMessage
  rw [if_neg h]
  rfl

/-! ## The control word -/

/-- A control word without bit 16: the enables and the clears. -/
theorem writeControl_clears {v : Word} (h : v.getLsbD 16 = false) (s : State) : writeControl v s = { s with
    irqResponse := v.getLsbD 0, irqNotice := v.getLsbD 1
    overrun := s.overrun && !v.getLsbD 8, noticeLost := s.noticeLost && !v.getLsbD 9 } := by
  simp only [writeControl, h]
  cases v.getLsbD 8 <;> cases v.getLsbD 9 <;> simp

/-- A control word with bit 16: the enables and a Port Reset. -/
theorem writeControl_portReset {v : Word} (h : v.getLsbD 16 = true) (s : State) : writeControl v s = { s with
    irqResponse := v.getLsbD 0, irqNotice := v.getLsbD 1, intake := [], responses := [], notices := []
    overrun := false, noticeLost := false, staging := Vector.replicate 8 0, respLatch := none
    noticeLatch := none } := by
  simp only [writeControl, h, if_true, portReset]

theorem event_portReset {v : Word} (h : v.getLsbD 16 = true) (s : State) : event (writeControl v) s = .next { s with
    irqResponse := v.getLsbD 0, irqNotice := v.getLsbD 1, intake := [], responses := [], notices := []
    overrun := false, noticeLost := false, staging := Vector.replicate 8 0, respLatch := none
    noticeLatch := none } := event_empty (writeControl_portReset h s) rfl rfl

/-! ## Settings -/

theorem event_writeSetting (offset : Nat) (v : Word) (s : State) :
    event (fun s => { s with settings := writeSetting offset v s.settings }) s =
      .next { s with settings := writeSetting offset v s.settings } := event_quiet rfl rfl rfl rfl rfl

/-- An offset that is none of the plain settings' changes no setting. -/
theorem writeSetting_other {offset : Nat} (v : Word) (x : Settings)
    (h : offset ∉ [0x060, 0x064, 0x068, 0x06C, 0x070, 0x078]) : writeSetting offset v x = x := by
  simp only [List.mem_cons, List.not_mem_nil, or_false, not_or] at h
  obtain ⟨h1, h2, h3, h4, h5, h6⟩ := h
  unfold writeSetting
  split <;> first | contradiction | rfl

/-- A word write of an offset that names no word to write changes nothing. -/
theorem writeWord_other {offset : Nat} (v : Word) (s : State)
    (h : offset ∉ [0x000, 0x004, 0x008, 0x00C, 0x010, 0x014, 0x018, 0x01C, 0x050, 0x060, 0x064, 0x068, 0x06C, 0x070,
      0x074, 0x078, 0x07C]) : writeWord offset v s = s := by
  have hset : offset ∉ [0x060, 0x064, 0x068, 0x06C, 0x070, 0x078] := by
    simp only [List.mem_cons, List.not_mem_nil, or_false, not_or] at h ⊢
    omega
  simp only [List.mem_cons, List.not_mem_nil, or_false, not_or] at h
  unfold writeWord
  split
  case h_12 => rw [writeSetting_other v s.settings hset]
  all_goals omega

/-- A word write of staging word 0 to 6. -/
theorem writeWord_staging {i : Fin 8} (hi : i.val < 7) (v : Word) (s : State) :
    writeWord (4 * i.val) v s = { s with staging := s.staging.set i.val v } := by
  match i with
  | 0 | 1 | 2 | 3 | 4 | 5 | 6 => rfl
  | 7 => exact absurd hi (Nat.lt_irrefl 7)

end Sys2Proof.Machine

namespace Sys2Proof.Proofs
open Sys2Proof.Machine

/-- Settles O1. -/
theorem stepRunsFrontCommand : Obligations.StepRunsFrontCommand := by
  refine ⟨fun c rest s h => ?_, fun s hp => ⟨fun l b rest h => ?_, fun h => ?_⟩⟩
  · simp only [step, h]
  · simp only [step, hp, idleStep, h]
  · simp only [step, hp, idleStep, h]

/-- Settles O2: the sparse tables read as their defaults, but for domain 0. -/
theorem resetValues : Obligations.ResetValues := by
  refine ⟨⟨?_, fun d => ?_, reset_group, by decide, by decide, fun g => rfl, by decide, fun l => ?_, by decide,
    by decide, fun n => ?_, by decide, rfl⟩, fun capacity s => rfl⟩
  · simp [State.reset]
  · rw [reset_domain]
    split <;> rfl
  · simp [reset_link, Link.initial]
  · simp [State.reset, State.counter, Counter.zero]

/-- Settles O4: the message is offered at the boundary of 32; its words are the slot's. -/
theorem lastStagingWordOffersMessage : Obligations.LastStagingWordOffersMessage :=
  ⟨fun v _ => ⟨fun h => event_quiet (writeLastWord_placed v h) rfl rfl rfl rfl,
    fun h => event_quiet (writeLastWord_dropped v h) rfl rfl rfl rfl⟩, stagedMessage_word⟩

/-- Settles O5: each offset is one setting, one staging word, or the row of its own. -/
theorem windowWrites : Obligations.WindowWrites := by
  refine ⟨fun v s => ⟨?_, ?_, ?_, ?_, ?_, ?_⟩, fun offset v s => ⟨?_, fun h => ?_, fun i hi h => ?_, rfl, rfl, rfl, rfl⟩,
    fun v s => ⟨fun hv hm => ?_, fun hv hm => ?_, fun hv => ?_⟩, fun v s => ?_⟩
  · exact event_writeSetting 0x060 v s
  · exact event_writeSetting 0x064 v s
  · exact event_writeSetting 0x068 v s
  · exact event_writeSetting 0x06C v s
  · exact event_writeSetting 0x078 v s
  · refine ⟨_, event_writeSetting 0x070 v s, rfl, fun l => ?_⟩
    have hl := l.isLt
    simp [writeSetting, hl]
  · exact event_quiet (f := fun s => s) (u := s) rfl rfl rfl rfl rfl
  · exact event_quiet (writeWord_other v s h) rfl rfl rfl rfl
  · refine event_quiet (u := { s with staging := s.staging.set i.val v }) ?_ rfl rfl rfl rfl
    simp only [h, writeWord_staging hi]
  · exact event_quiet (by simp only [writeSnapshotMode, hv, hm, if_true]) rfl rfl rfl rfl
  · exact event_quiet (by simp only [writeSnapshotMode, hv, hm, if_true]) rfl rfl rfl rfl
  · exact event_quiet (by simp only [writeSnapshotMode, hv, Bool.false_eq_true, if_false]) rfl rfl rfl rfl
  · exact event_quiet rfl rfl rfl rfl rfl

/-- Settles O7: a row that names an action sets its bit in the word written. -/
theorem controlWordWrites : Obligations.ControlWordWrites := by
  refine ⟨fun v s h => ⟨?_, ?_, ?_⟩, fun v s => ⟨?_, fun h => ⟨?_, ?_, ?_⟩⟩⟩
  · exact congrArg (fun u => Host.Outcome.next (signalInterrupt s u)) (writeControl_clears h s)
  · have hbit : (v ||| 0x100#32).getLsbD 16 = false := by rw [BitVec.getLsbD_or, h]; rfl
    refine congrArg (fun u => Host.Outcome.next (signalInterrupt s u)) ((writeControl_clears hbit s).trans ?_)
    simp
  · have hbit : (v ||| 0x200#32).getLsbD 16 = false := by rw [BitVec.getLsbD_or, h]; rfl
    refine congrArg (fun u => Host.Outcome.next (signalInterrupt s u)) ((writeControl_clears hbit s).trans ?_)
    simp
  · refine (event_portReset (v := v ||| 0x10000#32) (by simp) s).trans ?_
    simp
  · refine (event_portReset h s).trans ((event_portReset (v := v ||| 0x10000#32) (by simp) s).trans ?_).symm
    simp
  · refine (event_portReset (v := v ||| 0x100#32) (by simp [h]) s).trans
      ((event_portReset (v := v ||| 0x10000#32) (by simp) s).trans ?_).symm
    simp
  · refine (event_portReset (v := v ||| 0x200#32) (by simp [h]) s).trans
      ((event_portReset (v := v ||| 0x10000#32) (by simp) s).trans ?_).symm
    simp

end Sys2Proof.Proofs

/-! Reads of the window: its words, the head slots and their layouts; the statements WindowReads and HeadSlotReads. -/

namespace Sys2Proof.Machine

/-! ## Words -/

/-- A part of a word as a number built of its bits. -/
theorem ofNat_bitField {n : Nat} (x : BitVec n) (lo width : Nat) :
    BitVec.ofNat width (bitField x.toNat lo width) = x.extractLsb' lo width := by
  apply BitVec.eq_of_toNat_eq
  simp [bitField, BitVec.extractLsb'_toNat, Nat.shiftRight_eq_div_pow]

theorem slotWord_some {α : Type} (encode : α → BitVec 128) (x : α) (i : Nat) :
    slotWord encode (some x) i = (encode x).extractLsb' (32 * i) 32 := ofNat_bitField _ _ _

/-- The bits of a word from a place on that no field shares. -/
theorem getLsbD_packFields_from {n lo i : Nat} {fields : List (Nat × Nat × Nat)} (h : fieldsApart fields = true)
    (hfree : placeFree lo (n - lo) fields = true) (hi : lo ≤ i) : (BitVec.ofNat n (packFields fields)).getLsbD i = false := by
  by_cases hn : i < n
  · exact getLsbD_packFields_free h hfree ⟨hi, by omega⟩
  · exact BitVec.getLsbD_of_ge _ _ (by omega)

/-! ## The snapshot words -/

/-- The snapshot copy of a counter, at its place of the bank. -/
theorem readWindow_copy (s : State) {i : Nat} (hi : i < 53) : readWindow s (0x100 + 4 * i) = s.copies[i].value := by
  have hw : wordOffset (0x100 + 4 * i) = 0x100 + 4 * i := by unfold wordOffset; omega
  unfold readWindow readWord
  rw [hw, if_neg (by omega), if_neg (by omega), if_neg (by omega), if_neg (by omega), if_neg (by omega),
    if_pos (by omega)]
  simp [State.copyAt, hi]

theorem readWindow_staging (s : State) (i : Fin 8) : readWindow s (4 * i.val) = s.staging[i.val] := by
  have hi := i.isLt
  have hw : wordOffset (4 * i.val) = 4 * i.val := by unfold wordOffset; omega
  unfold readWindow readWord
  rw [hw, if_pos (by omega)]
  simp

/-- One-bit fields at different bits. -/
theorem fieldsApart_bits (f : Nat → Nat) (from_ n : Nat) :
    fieldsApart ((List.range' from_ n).map (fun i => (f i, i, 1))) = true := by
  induction n generalizing from_ with
  | zero => rfl
  | succ n ih =>
      simp only [List.range'_succ, List.map_cons, fieldsApart, ih, Bool.and_true]
      refine List.all_eq_true.mpr (fun x hx => ?_)
      obtain ⟨j, hj, rfl⟩ := List.mem_map.mp hx
      have := List.mem_range'_1.mp hj
      simp only [placesApart, Bool.or_eq_true, decide_eq_true_eq]
      omega

/-- The wrap mark of a copy. -/
theorem getLsbD_wrapMarks (s : State) {first n i : Nat} (hi : i < n) (hn : n ≤ 32) (hb : first + i < 53) :
    (s.wrapMarks first n).getLsbD i = s.copies[first + i].wrapped := by
  unfold State.wrapMarks wordOf
  rw [List.range_eq_range']
  refine (getLsbD_packFields (List.mem_map.mpr ⟨i, ?_, rfl⟩) (fieldsApart_bits _ 0 n) (by omega)).trans ?_
  · exact List.mem_range'_1.mpr (by omega)
  · simp only [Vector.getElem?_eq_getElem hb, Option.map_some, Option.getD_some]
    exact testBit_zero_ite _

/-- There is no wrap mark beyond the copies of a word. -/
theorem getLsbD_wrapMarks_beyond (s : State) {first n i : Nat} (hi : n ≤ i) :
    (s.wrapMarks first n).getLsbD i = false := by
  unfold State.wrapMarks wordOf
  rw [List.range_eq_range']
  refine getLsbD_packFields_from (fieldsApart_bits _ 0 n) ?_ hi
  refine List.all_eq_true.mpr (fun x hx => ?_)
  obtain ⟨j, hj, rfl⟩ := List.mem_map.mp hx
  have := List.mem_range'_1.mp hj
  simp only [placesApart, Bool.or_eq_true, decide_eq_true_eq]
  omega

/-! ## Unlisted offsets -/

theorem readPlain_unlisted (s : State) {offset : Nat} (h : offset ∉ [0x040, 0x044, 0x048, 0x04C, 0x050, 0x060, 0x064,
    0x068, 0x06C, 0x070, 0x074, 0x078, 0x07C, 0x080, 0x084, 0x088, 0x1E0, 0x1E4, 0x1E8]) : readPlain s offset = 0 := by
  simp only [List.mem_cons, List.not_mem_nil, or_false, not_or] at h
  unfold readPlain
  split
  case h_20 => rfl
  all_goals omega

/-- An aligned offset that is no slot's and no copy's. -/
theorem readWindow_plain (s : State) {offset : Nat} (hmod : offset % 4 = 0) (h : 0x040 ≤ offset)
    (hcopies : offset < 0x100 ∨ 0x1D4 ≤ offset) : readWindow s offset = readPlain s offset := by
  have hw : wordOffset offset = offset := by unfold wordOffset; omega
  unfold readWindow readWord
  rw [hw, if_neg (by omega), if_neg (by omega), if_neg (by omega), if_neg (by omega), if_neg (by omega),
    if_neg (by omega)]

/-! ## The events of reads -/

/-- The four reads that have rows of their own. -/
theorem afterRead_readData (s : State) {offset : Nat} (h : offset / 4 * 4 ∈ [0x020, 0x02C, 0x030, 0x03C]) :
    (afterRead offset s).readData = readWindow s offset := by
  simp only [List.mem_cons, List.not_mem_nil, or_false] at h
  unfold afterRead readWindow wordOffset
  rcases h with h | h | h | h <;> rw [h] <;> exact signalInterrupt_readData _ _

theorem afterRead_other (s : State) {offset : Nat} (h : offset / 4 * 4 ∉ [0x020, 0x02C, 0x030, 0x03C]) :
    afterRead offset s = s := by
  simp only [List.mem_cons, List.not_mem_nil, or_false, not_or] at h
  obtain ⟨h1, h2, h3, h4⟩ := h
  unfold afterRead wordOffset
  split <;> first | contradiction | rfl

theorem wordOffset_idem (offset : Nat) : wordOffset (offset / 4 * 4) = wordOffset offset := by
  unfold wordOffset
  omega

end Sys2Proof.Machine

namespace Sys2Proof.Proofs
open Sys2Proof.Machine

/-- Settles O6: each word is its fields, at their bits. -/
theorem windowReads : Obligations.WindowReads := by
  refine ⟨fun s => ⟨readWindow_staging s, rfl, rfl, fun i hi => ?_, fun r n i => ?_⟩, fun s => ?_, fun s => ?_,
    fun s l c p => ?_, fun s offset h => ?_, fun s offset => ⟨?_, ?_, afterRead_other s, ?_⟩,
    fun s => ⟨rfl, rfl, rfl, rfl, fun _ => afterRead_readData s⟩, fun _ _ => rfl⟩
  · match i, hi with
    | 1, _ => exact ⟨rfl, rfl⟩
    | 2, _ => exact ⟨rfl, rfl⟩
    | 3, _ => exact ⟨rfl, rfl⟩
  · exact ⟨slotWord_some _ r _, slotWord_some _ n _, rfl, rfl⟩
  · refine ⟨?_, fun h => ?_, fun h => ?_, fun h => ?_, fun i hi => ?_, ?_, ?_, ?_, fun i hi => ?_, rfl, rfl, ?_, ?_,
      fun i hi => ?_⟩
    · exact (extract_packFields_toNat (.head _) (by cases s.part <;> decide) rfl (by decide)).trans
        (by cases s.part <;> rfl)
    · exact extract_packFields_toNat (.tail _ (.head _)) (by omega) rfl (by decide)
    · exact extract_packFields_toNat (.tail _ (.tail _ (.head _))) (by omega) rfl (by decide)
    · exact extract_packFields_toNat (.tail _ (.tail _ (.tail _ (.head _)))) (by omega) rfl (by decide)
    · simp only [List.mem_cons, List.not_mem_nil, or_false] at hi
      have hplace : (2 ≤ i ∧ i < 2 + 6) ∨ (14 ≤ i ∧ i < 14 + 2) ∨ (22 ≤ i ∧ i < 22 + 2) ∨ (31 ≤ i ∧ i < 31 + 1) := by
        omega
      rcases hplace with h | h | h | h <;> exact getLsbD_packFields_free rfl rfl h
    · exact (getLsbD_packFields (.head _) rfl (by decide)).trans (testBit_zero_toNat _)
    · exact (getLsbD_packFields (.tail _ (.head _)) rfl (by decide)).trans (testBit_zero_toNat _)
    · exact (getLsbD_packFields (.tail _ (.tail _ (.head _))) rfl (by decide)).trans (testBit_zero_toNat _)
    · exact getLsbD_packFields_from rfl rfl hi
    · exact (getLsbD_packFields (.head _) rfl (by decide)).trans (testBit_zero_toNat _)
    · exact (getLsbD_packFields (.tail _ (.head _)) rfl (by decide)).trans (testBit_zero_toNat _)
    · exact getLsbD_packFields_from rfl rfl hi
  · refine ⟨rfl, rfl, rfl, rfl, fun i => ?_, ?_, rfl, ?_, ?_, fun i hi => ?_, rfl, fun h => ?_, fun h => ?_, fun h => ?_,
      fun h => ?_, fun i hi => ?_⟩
    · have hw : readWindow s 0x070 = s.settings.caching.setWidth 32 := rfl
      rw [hw, BitVec.getLsbD_setWidth]
      by_cases hi : i < 32
      · simp [hi]
      · simp [hi, BitVec.getLsbD_of_ge s.settings.caching i (by omega)]
    · have hw : readWindow s 0x074 = BitVec.ofNat 32 s.settings.snapshotMode.code := rfl
      rw [hw]
      cases s.settings.snapshotMode <;> rfl
    · refine (getLsbD_packFields (.head _) rfl (by decide)).trans ?_
      cases s.settings.parkMode <;> rfl
    · refine (getLsbD_packFields (.tail _ (.head _)) rfl (by decide)).trans ?_
      cases s.settings.missMode <;> rfl
    · exact getLsbD_packFields_from rfl rfl hi
    · exact extract_packFields_toNat (.head _) (by omega) rfl (by decide)
    · exact extract_packFields_toNat (.tail _ (.head _)) (by omega) rfl (by decide)
    · exact extract_packFields_toNat (.head _) (by omega) rfl (by decide)
    · exact extract_packFields_toNat (.tail _ (.head _)) (by omega) rfl (by decide)
    · rcases hi with rfl | hi
      · exact ⟨getLsbD_packFields_free (lo := 7) (width := 1) rfl rfl ⟨Nat.le_refl _, by decide⟩,
          getLsbD_packFields_free (lo := 7) (width := 1) rfl rfl ⟨Nat.le_refl _, by decide⟩⟩
      · exact ⟨getLsbD_packFields_from rfl rfl hi, getLsbD_packFields_from rfl rfl hi⟩
  · have hl := l.isLt
    have hc : c.code < 8 := by cases c <;> decide
    have hp : 8 ≤ p.code ∧ p.code < 13 := by cases p <;> decide
    have hlink : (CounterName.ofLink l c).index.val = 8 * l.val + c.code := Nat.mod_eq_of_lt (by omega)
    have hpart : (CounterName.ofPart p).index.val = 40 + p.code := Nat.mod_eq_of_lt (by omega)
    refine ⟨?_, ?_, fun h => ?_, fun h => ?_, ?_, fun i hi => getLsbD_wrapMarks_beyond s hi,
      fun i hi => getLsbD_wrapMarks_beyond s hi⟩
    · have := readWindow_copy s (i := 8 * l.val + c.code) (by omega)
      simp only [hlink, ← this]
      congr 1
      omega
    · have := readWindow_copy s (i := 40 + p.code) (by omega)
      simp only [hpart, ← this]
      congr 1
      omega
    · simp only [hlink]
      exact (getLsbD_wrapMarks s (first := 0) (by omega) (by decide) (by omega)).trans (by simp)
    · simp only [hlink]
      refine (getLsbD_wrapMarks s (first := 32) (by omega) (by decide) (by omega)).trans ?_
      congr 2
      omega
    · simp only [hpart]
      refine (getLsbD_wrapMarks s (first := 48) (by omega) (by decide) (by omega)).trans ?_
      congr 2
      omega
  · simp only [List.mem_cons, List.not_mem_nil, or_false, not_or] at h
    rw [readWindow_plain s (by omega) (by omega) (by omega)]
    refine readPlain_unlisted s ?_
    simp only [List.mem_cons, List.not_mem_nil, or_false, not_or]
    omega
  · unfold readWindow
    rw [wordOffset_idem]
  · unfold afterRead
    rw [wordOffset_idem]
  · have hread : readWindow s (wordOffset offset) = readWindow s offset := by
      unfold readWindow
      exact congrArg (readWord s) (wordOffset_idem offset)
    have hafter : afterRead (wordOffset offset) s = afterRead offset s := by
      unfold afterRead
      rw [show wordOffset (wordOffset offset) = wordOffset offset from wordOffset_idem offset]
    simp only [readDouble, hread, hafter]
    rfl

end Sys2Proof.Proofs

/-! The head slots: reads, and the layouts of responses and notices; the statement HeadSlotReads. -/

namespace Sys2Proof.Machine

/-- The fields of a notice, the lost-before mark among them. -/
def Notice.fields (n : Notice) : List (Nat × Nat × Nat) := (if n.lostBefore then 1 else 0, 8, 1) :: n.body.fields

theorem encodeNotice_eq (n : Notice) : encodeNotice n = BitVec.ofNat 128 (packFields n.fields) := rfl

/-- Every notice's fields are apart from each other and from the lost-before mark. -/
theorem notice_fieldsApart (n : Notice) : fieldsApart n.fields = true := by
  obtain ⟨body, lost⟩ := n
  cases body with
  | tagError g first change => cases first <;> rfl
  | counterWrap c => cases c <;> rfl
  | _ => rfl

/-- No notice uses the bits beside the lost-before mark. -/
theorem notice_markByte (n : Notice) : placeFree 9 7 n.fields = true := by
  obtain ⟨body, lost⟩ := n
  cases body with
  | tagError g first change => cases first <;> rfl
  | counterWrap c => cases c <;> rfl
  | _ => rfl

section
variable {n : Notice} {v lo width : Nat}

/-- A field of a notice, found by its bits. -/
theorem notice_field (v : Nat) (hmem : (v, lo, width) ∈ n.body.fields := by simp [NoticeBody.fields])
    (hn : lo + width ≤ 128 := by decide) : (encodeNotice n).extractLsb' lo width = BitVec.ofNat width v :=
  extract_packFields (.tail _ hmem) (notice_fieldsApart n) hn

theorem notice_field_toNat (hv : v < 2 ^ width) (hmem : (v, lo, width) ∈ n.body.fields := by simp [NoticeBody.fields])
    (hn : lo + width ≤ 128 := by decide) : ((encodeNotice n).extractLsb' lo width).toNat = v :=
  extract_packFields_toNat (.tail _ hmem) hv (notice_fieldsApart n) hn

theorem notice_free (hfree : placeFree lo width n.fields = true) : (encodeNotice n).extractLsb' lo width = 0#width :=
  extract_packFields_free (notice_fieldsApart n) hfree

theorem notice_setWidth {k : Nat} (x : BitVec k)
    (hmem : (x.toNat, lo, width) ∈ n.body.fields := by simp [NoticeBody.fields]) (hn : lo + width ≤ 128 := by decide) :
    (encodeNotice n).extractLsb' lo width = x.setWidth width := by
  rw [notice_field x.toNat hmem hn, BitVec.ofNat_toNat]

theorem notice_link (l : LinkId) (hmem : (l.val, 16, 8) ∈ n.body.fields := by simp [NoticeBody.fields]) :
    ((encodeNotice n).extractLsb' 16 8).toNat = l.val :=
  notice_field_toNat (by omega) hmem

end

/-! ## Codes within their widths -/

theorem FaultClass.code_lt (c : FaultClass) : c.code < 8 := by cases c <;> decide

theorem FenceCause.code_lt (c : FenceCause) : c.code < 5 := by cases c <;> decide

theorem DownCause.code_lt (c : DownCause) : c.code < 5 := by cases c <;> decide

theorem LinkCounter.code_lt (c : LinkCounter) : c.code < 8 := by cases c <;> decide

theorem PartCounter.code_lt (c : PartCounter) : c.code < 13 := by cases c <;> decide

theorem linkField_eq (l : Option LinkId) : linkField l = (l.map Fin.val).getD 7 := by cases l <;> rfl

theorem linkField_lt (l : Option LinkId) : linkField l < 8 := by
  cases l with
  | none => decide
  | some l => have := l.isLt; simp only [linkField]; omega

/-! ## Reads of the last word -/

theorem removeLatched_some {α : Type} (x : α) (queue : List α) : removeLatched (some x) queue = queue.tail :=
  List.drop_one

section
variable {s : State}

theorem exec_lastWord_response {r : Response} (h : s.respLatch = some r) :
    exec (.headSlotLastWordRead .response) s = .next (signalInterrupt s { s with
      responses := s.responses.tail, respLatch := none, readData := (encodeResponse r).extractLsb' 96 32 }) := by
  refine congrArg (fun u => Host.Outcome.next (signalInterrupt s u)) ?_
  simp only [readLastWord, h, removeLatched_some, slotWord_some]

theorem exec_lastWord_notice {n : Notice} (h : s.noticeLatch = some n) :
    exec (.headSlotLastWordRead .notice) s = .next (signalInterrupt s { s with
      notices := s.notices.tail, noticeLatch := none, readData := (encodeNotice n).extractLsb' 96 32 }) := by
  refine congrArg (fun u => Host.Outcome.next (signalInterrupt s u)) ?_
  simp only [readLastWord, h, removeLatched_some, slotWord_some]

theorem exec_lastWord_response_none (h : s.respLatch = none) :
    exec (.headSlotLastWordRead .response) s = .next { s with readData := 0 } := by
  refine event_quiet (f := readLastWord .response) ?_ rfl rfl rfl rfl
  simp only [readLastWord, h, removeLatched, slotWord]

theorem exec_lastWord_notice_none (h : s.noticeLatch = none) :
    exec (.headSlotLastWordRead .notice) s = .next { s with readData := 0 } := by
  refine event_quiet (f := readLastWord .notice) ?_ rfl rfl rfl rfl
  simp only [readLastWord, h, removeLatched, slotWord]

end

/-! ## The bytes of a response (Table 11.6) -/

/-- The fields of a response. -/
def Response.fields (r : Response) : List (Nat × Nat × Nat) :=
  [(r.tag.toNat, 0, 16), (r.kind.toNat, 16, 8), (r.status.code, 24, 3), ((r.reason.map Reason.code).getD 0, 27, 5)] ++
    match r.body with
    | .counts a b c => [(a, 32, 32), (b, 64, 32), (c, 96, 32)]
    | .image i => [(i.toNat, 32, 64)]

theorem encodeResponse_eq (r : Response) : encodeResponse r = BitVec.ofNat 128 (packFields r.fields) := by
  obtain ⟨tag, kind, status, reason, body⟩ := r
  cases reason <;> cases body <;> rfl

theorem response_fieldsApart (r : Response) : fieldsApart r.fields = true := by
  obtain ⟨tag, kind, status, reason, body⟩ := r
  cases body <;> rfl

theorem Reason.code_lt (r : Option Reason) : (r.map Reason.code).getD 0 < 2 ^ 5 := by
  cases r with
  | none => decide
  | some r => cases r <;> decide

end Sys2Proof.Machine

namespace Sys2Proof.Proofs
open Sys2Proof.Machine

section
variable (r : Response)

theorem response_layout :
    (encodeResponse r).extractLsb' 0 16 = r.tag ∧ (encodeResponse r).extractLsb' 16 8 = r.kind ∧
    ((encodeResponse r).extractLsb' 24 3).toNat = r.status.code ∧
    ((encodeResponse r).extractLsb' 27 5).toNat = (r.reason.map Reason.code).getD 0 := by
  have hapart := response_fieldsApart r
  rw [encodeResponse_eq]
  refine ⟨?_, ?_, ?_, ?_⟩
  · rw [extract_packFields (v := r.tag.toNat) (by simp [Response.fields]) hapart (by decide), BitVec.ofNat_toNat,
      BitVec.setWidth_eq]
  · rw [extract_packFields (v := r.kind.toNat) (by simp [Response.fields]) hapart (by decide), BitVec.ofNat_toNat,
      BitVec.setWidth_eq]
  · exact extract_packFields_toNat (by simp [Response.fields]) (by cases r.status <;> decide) hapart (by decide)
  · exact extract_packFields_toNat (by simp [Response.fields]) (Reason.code_lt _) hapart (by decide)

theorem response_counts {a b c : Nat} (h : r.body = .counts a b c) :
    (encodeResponse r).extractLsb' 32 32 = BitVec.ofNat 32 a ∧
    (encodeResponse r).extractLsb' 64 32 = BitVec.ofNat 32 b ∧
    (encodeResponse r).extractLsb' 96 32 = BitVec.ofNat 32 c := by
  have hapart := response_fieldsApart r
  rw [encodeResponse_eq]
  exact ⟨extract_packFields (by simp [Response.fields, h]) hapart (by decide),
    extract_packFields (by simp [Response.fields, h]) hapart (by decide),
    extract_packFields (by simp [Response.fields, h]) hapart (by decide)⟩

theorem response_image {image : BitVec 64} (h : r.body = .image image) :
    (encodeResponse r).extractLsb' 32 64 = image ∧ (encodeResponse r).extractLsb' 96 32 = 0#32 := by
  have hapart := response_fieldsApart r
  rw [encodeResponse_eq]
  refine ⟨?_, extract_packFields_free hapart (by simp [Response.fields, h, placeFree, placesApart])⟩
  rw [extract_packFields (v := image.toNat) (by simp [Response.fields, h]) hapart (by decide), BitVec.ofNat_toNat,
    BitVec.setWidth_eq]

end

/-- Settles O8: each layout is its fields, at their bits, and 0 between them. -/
theorem headSlotReads : Obligations.HeadSlotReads := by
  refine ⟨fun s => ⟨?_, ?_⟩, fun s => ⟨fun r => exec_lastWord_response, exec_lastWord_response_none,
      fun n => exec_lastWord_notice, exec_lastWord_notice_none⟩, fun r => ?_, fun n => ?_, rfl, rfl,
    fun _ _ _ _ _ _ _ _ => rfl, fun _ _ _ _ _ => rfl, rfl, rfl, rfl, rfl, rfl⟩
  · exact event_quiet (f := readFirstWord .response) rfl rfl rfl rfl rfl
  · exact event_quiet (f := readFirstWord .notice) rfl rfl rfl rfl rfl
  · obtain ⟨htag, hkind, hstatus, hreason⟩ := response_layout r
    exact ⟨htag, hkind, hstatus, hreason, fun a b c => response_counts r, fun image => response_image r⟩
  · obtain ⟨body, lost⟩ := n
    refine ⟨?_, notice_free (notice_markByte _), ?_, ?_, ?_, ?_, ?_, ?_, ?_, ?_, ?_⟩
    · exact (getLsbD_packFields (.head _) (notice_fieldsApart _) (by decide)).trans (testBit_zero_ite lost)
    · rintro l tag d g kind cls poison rfl hd hg
      have hcls := cls.code_lt
      refine ⟨notice_field 1, notice_link l, notice_setWidth tag, notice_field_toNat hd, notice_field_toNat hg,
        notice_setWidth kind, notice_field_toNat (by omega), ?_, notice_free rfl⟩
      refine (notice_field (if poison then 2 else 1)).trans ?_
      cases poison <;> rfl
    · rintro d l tag cls rfl hd
      have hcls := cls.code_lt
      exact ⟨notice_field 2, notice_link l, notice_setWidth tag, notice_field_toNat hd, notice_free rfl,
        notice_field_toNat (by omega), notice_free rfl⟩
    · rintro g first change rfl hg
      have hchange : fieldsApart (Notice.fields ⟨.tagError g first change, lost⟩) = true := notice_fieldsApart _
      refine ⟨?_, ?_, ?_, ?_, ?_, ?_, ?_, ?_, ?_, ?_, ?_⟩
      · cases first <;> exact notice_field 3
      · cases first <;> exact notice_free rfl
      · cases first <;> exact notice_field_toNat hg
      · cases first <;> exact notice_free rfl
      · cases first <;> exact notice_free rfl
      · refine (getLsbD_packFields (v := if change then 1 else 0) ?_ hchange (by decide)).trans (testBit_zero_ite change)
        cases first <;> simp [Notice.fields, NoticeBody.fields]
      · cases first <;> exact notice_free rfl
      · cases first <;> exact notice_free rfl
      · rintro rfl
        exact ⟨notice_free rfl, notice_field 0, notice_free rfl⟩
      · rintro l tag rfl
        exact ⟨notice_link l, notice_setWidth tag, notice_field 1, notice_free rfl⟩
      · rintro c rfl
        exact ⟨notice_free rfl, notice_field 2, notice_field_toNat c.isLt⟩
    · rintro tag kind c base order records cause l rfl hbase horder hrecords
      have hcause := cause.code_lt
      have hlink := linkField_lt l
      refine ⟨notice_field 4, (notice_field_toNat (v := linkField l) (by omega)).trans (linkField_eq l),
        notice_field_toNat (by omega), ?_, notice_field_toNat hbase, notice_field_toNat horder, ?_,
        notice_field_toNat hrecords, notice_field_toNat (by omega), notice_free rfl⟩
      · exact (notice_setWidth tag).trans (BitVec.setWidth_eq tag)
      · exact (notice_setWidth kind).trans (BitVec.setWidth_eq kind)
    · rintro l cause rfl
      have hcause := cause.code_lt
      exact ⟨notice_field 5, notice_link l, notice_field_toNat (by omega), notice_free rfl⟩
    · rintro l rfl
      exact ⟨notice_field 6, notice_link l, notice_free rfl⟩
    · rintro l rfl
      exact ⟨notice_field 7, notice_link l, notice_free rfl⟩
    · rintro l c rfl
      have hc := c.code_lt
      exact ⟨notice_field 8, notice_link l, notice_field_toNat (by omega), notice_free rfl⟩
    · rintro p rfl
      have hp := p.code_lt
      exact ⟨notice_field 8, notice_field 7, notice_field_toNat (by omega), notice_free rfl⟩

end Sys2Proof.Proofs

/-! The command message: its fields by their bits, and what each kind spells; the statement CommandMessageCoding. -/

namespace Sys2Proof.Machine

/-! ## Fields of a message -/

section
variable (m : Message)

theorem bitField_toNat {n : Nat} (x : BitVec n) (lo width : Nat) :
    bitField x.toNat lo width = (x.extractLsb' lo width).toNat := by
  simp [bitField, BitVec.extractLsb'_toNat, Nat.shiftRight_eq_div_pow]

theorem msgBytes_eq (lo n : Nat) : msgBytes m lo n = (m.extractLsb' (8 * lo) (8 * n)).toNat := bitField_toNat _ _ _

theorem msgFlag_eq (i : Nat) : msgFlag m i = m.getLsbD (24 + i) := by
  unfold msgFlag bitAt bitField
  rw [BitVec.getLsbD, Nat.testBit_eq_decide_div_mod_eq]
  rfl

theorem msgTag_eq : msgTag m = m.extractLsb' 0 16 := by
  rw [msgTag, msgBytes_eq, BitVec.ofNat_toNat, BitVec.setWidth_eq]

theorem msgKind_eq : msgKind m = m.extractLsb' 16 8 := by
  rw [msgKind, msgBytes_eq, BitVec.ofNat_toNat, BitVec.setWidth_eq]

theorem msgTarget_eq : msgTarget m = m.extractLsb' 32 16 := by
  rw [msgTarget, msgBytes_eq, BitVec.ofNat_toNat, BitVec.setWidth_eq]

theorem msgBase_eq : msgBase m = (m.extractLsb' 32 32).toNat := msgBytes_eq m 4 4

theorem msgCount_eq : msgCount m = (m.extractLsb' 64 32).toNat := msgBytes_eq m 8 4

theorem msgQuota_eq : msgQuota m = (m.extractLsb' 96 32).toNat := msgBytes_eq m 12 4

theorem msgDomain_eq : msgDomain m = (m.extractLsb' 128 16).toNat := msgBytes_eq m 16 2

theorem msgDomain2_eq : msgDomain2 m = (m.extractLsb' 144 16).toNat := msgBytes_eq m 18 2

theorem msgByte20_eq : msgByte20 m = (m.extractLsb' 160 8).toNat := msgBytes_eq m 20 1

theorem msgByte21_eq : msgByte21 m = (m.extractLsb' 168 3).toNat := bitField_toNat _ _ _

theorem msgByte22_eq : msgByte22 m = (m.extractLsb' 176 8).toNat := msgBytes_eq m 22 1

theorem msgMemberCount_eq : msgMemberCount m = (m.extractLsb' 184 8).toNat := msgBytes_eq m 23 1

theorem msgThreshold_eq : msgThreshold m = (m.extractLsb' 192 16).toNat := msgBytes_eq m 24 2

theorem msgRights_eq : msgRights m = m.extractLsb' 168 3 := by
  rw [msgRights, msgByte21_eq, BitVec.ofNat_toNat, BitVec.setWidth_eq]

/-- The members used, where there are no more than the message has places for. -/
theorem usedMembers_eq (h : msgMemberCount m ≤ 8) : usedMembers m =
    (List.range (m.extractLsb' 184 8).toNat).map (fun i => (m.extractLsb' (32 + 16 * i) 16).toNat) := by
  rw [usedMembers, msgMembers, ← List.map_take, List.take_range, Nat.min_eq_left h, msgMemberCount_eq]
  refine List.map_congr_left (fun i _ => ?_)
  rw [msgBytes_eq]
  congr 2
  omega

/-! ## Coding tests -/

/-- What a coded command comes to, by its test. -/
theorem coded_spells {α : Type} {test : Bool} {P : Prop} (h : test = true ↔ P) (x : α) :
    (P → coded test x = some x) ∧ (¬P → coded test x = none) := by
  constructor
  · intro hp
    rw [coded, if_pos (h.mpr hp)]
  · intro hp
    rw [coded, if_neg (fun ht => hp (h.mp ht))]

theorem domainCoded_iff (d : Nat) : domainCoded d = true ↔ d < 1024 := by simp [domainCoded]

theorem baseCoded_iff (b : Nat) : baseCoded b = true ↔ b < 67108864 := by simp [baseCoded]

/-- The tests common to the range commands. -/
theorem rangeCoded_iff : rangeCoded m = true ↔ (m.extractLsb' 32 32).toNat < 67108864 ∧
    1 ≤ (m.extractLsb' 64 32).toNat ∧ (m.extractLsb' 64 32).toNat ≤ 65536 ∧
    (m.getLsbD (24 + 1) = true → (m.extractLsb' 64 32).toNat = 1) := by
  simp only [rangeCoded, msgBase_eq, msgCount_eq, msgFlag_eq, Bool.and_eq_true, baseCoded_iff, decide_eq_true_eq,
    Bool.or_eq_true, Bool.not_eq_true', beq_iff_eq, and_assoc]
  cases m.getLsbD (24 + 1) <;> simp

/-- A range command by its tests. -/
theorem decodeRange_spells {test : Bool} {P : Prop} (h : rangeCoded m = true ∧ test = true ↔ P) (op : RangeOp) :
    let c := Command.job (.range (m.extractLsb' 32 32).toNat (m.extractLsb' 64 32).toNat
      (if m.getLsbD (24 + 1) then some (m.extractLsb' 176 8) else none) op)
    (P → decodeRange m test op = some c) ∧ (¬P → decodeRange m test op = none) := by
  intro c
  have hc : decodeRange m test op = coded (rangeCoded m && test) c := by
    simp only [decodeRange, msgBase_eq, msgCount_eq, msgFlag_eq, msgByte22_eq, BitVec.ofNat_toNat, BitVec.setWidth_eq,
      present]
    rfl
  rw [hc]
  exact coded_spells (by rw [Bool.and_eq_true]; exact h) c

/-- An action byte codes an action up to 3. -/
theorem decodeAction_spells (x : BitVec 8) : decodeAction x.toNat = if x.toNat ≤ 3 then
    some (if x = 0 then .quiet else if x = 1 then .notify else if x = 2 then .poison else .poisonNotify) else none := by
  revert x
  decide

/-- An action field of LINK_CONTROL codes an action up to 2. -/
theorem decodeLinkAction_spells (x : BitVec 3) : decodeLinkAction x.toNat = if x.toNat ≤ 2 then
    some (if x = 0 then .enable else if x = 1 then .disable else .rejoin) else none := by
  revert x
  decide

/-- The tests of DEFINE_GROUP. -/
theorem membersCoded_iff (members : List Nat) (h : msgMemberCount m ≤ 8 → usedMembers m = members) :
    membersCoded m = true ↔ 2 ≤ msgMemberCount m ∧ msgMemberCount m ≤ 8 ∧ (∀ d ∈ members, d < 1024) ∧ members.Nodup := by
  simp only [membersCoded, Bool.and_eq_true, decide_eq_true_eq, List.all_eq_true, domainCoded_iff, and_assoc]
  constructor
  · rintro ⟨h1, h2, h3, h4⟩
    rw [h h2] at h3 h4
    exact ⟨h1, h2, h3, h4⟩
  · rintro ⟨h1, h2, h3, h4⟩
    rw [h h2]
    exact ⟨h1, h2, h3, h4⟩

end

end Sys2Proof.Machine

namespace Sys2Proof.Proofs
open Sys2Proof.Machine

/-- Settles O9: each kind's tests, and the command of its fields. -/
theorem commandMessageCoding : Obligations.CommandMessageCoding := by
  intro m
  have hrange := rangeCoded_iff m
  have hcode : ∀ {code : BitVec 8}, m.extractLsb' 16 8 = code → (msgKind m).toNat = code.toNat :=
    fun h => by rw [msgKind_eq, h]
  have hnonzero : (msgByte21 m != 0) = true ↔ m.extractLsb' 168 3 ≠ 0#3 := by
    rw [msgByte21_eq, bne_iff_ne, ne_eq, ne_eq]
    exact not_congr ⟨fun h => BitVec.eq_of_toNat_eq h, fun h => by rw [h]; rfl⟩
  refine ⟨msgTag_eq m, msgKind_eq m, fun h => ?_, fun h => ?_, fun h => ?_, fun h => ?_, fun h => ?_, fun h => ?_,
    fun h => ?_, fun h => ?_, fun h => ?_, fun h => ?_, fun h => ?_, fun h => ?_, fun h => ?_, fun h => ?_, fun h => ?_,
    fun h => ?_, fun h => ?_, fun h => ?_, fun h => ?_, fun h1 h2 => ?_⟩
  all_goals try simp only [decodeCommand, hcode h, BitVec.ofNat_eq_ofNat, BitVec.reduceToNat, msgBase_eq, msgCount_eq, msgQuota_eq, msgDomain_eq, msgDomain2_eq,
    msgByte20_eq, msgByte22_eq, msgThreshold_eq, msgTarget_eq, msgRights_eq, msgFlag_eq]
  · refine decodeRange_spells m ?_ _
    rw [hrange, Bool.and_eq_true, domainCoded_iff, hnonzero]
  · refine decodeRange_spells m ?_ _
    rw [hrange, domainCoded_iff]
  · refine decodeRange_spells m ?_ _
    rw [hrange, Bool.and_eq_true, Bool.and_eq_true, domainCoded_iff, domainCoded_iff, hnonzero, and_assoc (a := _ < 1024)]
  · refine decodeRange_spells m ?_ _
    rw [hrange, domainCoded_iff]
  · exact decodeRange_spells m (by rw [hrange]; exact and_iff_left rfl) _
  · exact decodeRange_spells m (by rw [hrange]; exact and_iff_left rfl) _
  · exact decodeRange_spells m (by rw [hrange]; exact and_iff_left rfl) _
  · exact coded_spells (baseCoded_iff _) _
  · exact ⟨fun _ => rfl, fun h => absurd trivial h⟩
  · exact coded_spells (domainCoded_iff _) _
  · refine coded_spells ?_ _
    simp only [Bool.and_eq_true, domainCoded_iff, decide_eq_true_eq, and_assoc, Nat.lt_succ_iff]
  · refine coded_spells ?_ _
    simp only [Bool.and_eq_true, domainCoded_iff, decide_eq_true_eq, and_assoc, Bool.or_eq_true, Bool.not_eq_true',
      Nat.lt_succ_iff]
    cases m.getLsbD (24 + 2) <;> cases m.getLsbD (24 + 3) <;> simp
  · by_cases hn : msgMemberCount m ≤ 8
    · rw [usedMembers_eq m hn]
      refine coded_spells ?_ _
      rw [membersCoded_iff m _ (fun _ => usedMembers_eq m hn), msgMemberCount_eq]
    · have htest : membersCoded m = false := by
        simp only [membersCoded, hn, decide_false, Bool.and_false, Bool.false_and]
      rw [htest]
      refine ⟨fun ⟨_, hle, _⟩ => absurd ?_ hn, fun _ => rfl⟩
      rwa [msgMemberCount_eq]
  · exact ⟨fun _ => trivial, fun h => absurd trivial h⟩
  · rw [decodeAction_spells]
    by_cases ha : (m.extractLsb' 176 8).toNat ≤ 3
    · simp only [ha, and_true, msgByte21_eq]
      exact coded_spells (by rw [decide_eq_true_eq, Nat.lt_succ_iff]) _
    · simp only [ha, and_false]
      exact ⟨False.elim, fun _ => rfl⟩
  · simp only [msgByte21_eq]
    refine coded_spells ?_ _
    simp only [homeCoded, msgBase_eq, msgCount_eq, msgByte21_eq, Bool.and_eq_true, Bool.or_eq_true, decide_eq_true_eq,
      beq_iff_eq, baseCoded_iff, and_assoc, Nat.lt_succ_iff]
  · exact ⟨fun _ => trivial, fun h => absurd trivial h⟩
  · exact ⟨fun _ => trivial, fun h => absurd trivial h⟩
  · simp only [msgByte21_eq, decodeLinkAction_spells]
    by_cases ha : (m.extractLsb' 168 3).toNat ≤ 2
    · simp only [ha, and_true]
      exact coded_spells (by rw [decide_eq_true_eq, Nat.lt_succ_iff]) _
    · simp only [ha, and_false]
      exact ⟨False.elim, fun _ => rfl⟩
  · rw [← msgKind_eq] at h1 h2
    cases hd : decodeCommand m with
    | none => rfl
    | some c =>
        have hk := knownKind_of_command hd
        simp only [knownKind, Bool.or_eq_true, Bool.and_eq_true, decide_eq_true_eq] at hk
        omega

end Sys2Proof.Proofs

/-! The choice of the next message and the refusal tests; the statements RefusalTestsPass and
HeadIssuesFirstThenOldestUrgent. -/

namespace Sys2Proof.Machine

/-! ## Tests over the contexts -/

theorem anyCtx_iff {s : State} {p : Work → Bool} : anyCtx s p = true ↔ ∃ c w, s.work c = some w ∧ p w = true := by
  rw [anyCtx, findCtx, List.find?_isSome]
  constructor
  · rintro ⟨c, -, h⟩
    cases hw : s.work c with
    | none => simp [hw] at h
    | some w => exact ⟨c, w, hw, by simpa [hw] using h⟩
  · rintro ⟨c, w, hw, h⟩
    exact ⟨c, mem_allCtxs c, by simpa [hw] using h⟩

theorem anyCtx_false_iff {s : State} {p : Work → Bool} :
    anyCtx s p = false ↔ ∀ c w, s.work c = some w → p w = false := by
  rw [← Bool.not_eq_true, anyCtx_iff]
  simp only [not_exists, not_and, Bool.not_eq_true]

theorem tagHeld_iff {s : State} {tag : BitVec 16} :
    s.tagHeld tag = true ↔ ∃ c w, s.work c = some w ∧ w.tag = tag := by
  simp only [State.tagHeld, anyCtx_iff, beq_iff_eq]

theorem freeCtx_isSome_iff {s : State} : (freeCtx s).isSome = true ↔ ∃ c, s.work c = none := by
  simp only [freeCtx, List.find?_isSome, mem_allCtxs, true_and, Option.isNone_iff_eq_none]

theorem overlaps_false_iff {base count b n : Nat} :
    overlaps base count b n = false ↔ base + count ≤ b ∨ b + n ≤ base := by
  simp only [overlaps, Bool.and_eq_false_iff, decide_eq_false_iff_not, Nat.not_lt]
  exact Or.comm

/-- What a context holds misses a range where its own range and its sweep's window do. -/
theorem holdsOver_false_iff {base count : Nat} {w : Work} : w.holdsOver base count = false ↔
    (∀ b n e op, w.job = .range b n e op → base + count ≤ b ∨ b + n ≤ base) ∧
    (∀ d b, w.job = .closeDomain d → w.window = some b → base + count ≤ b ∨ b + 512 ≤ base) := by
  unfold Work.holdsOver Work.heldRange
  cases w.job with
  | range b n e op =>
    rw [overlaps_false_iff, and_iff_left nofun]
    constructor
    · rintro h b' n' e' op' ⟨⟩
      exact h
    · exact fun h => h b n e op rfl
  | query g => simp
  | format size b n => simp
  | closeDomain d => cases w.window <;> simp [overlaps_false_iff]

/-- A job names a domain as ASSIGN, RECLAIM, SHARE and, for either end, TRANSFER do. -/
theorem names_false_iff {d : Nat} {j : Job} : j.names d = false ↔ ∀ b n e,
    (∀ r, j ≠ .range b n e (.assign d r)) ∧ (∀ wipe, j ≠ .range b n e (.reclaim d wipe)) ∧
    (∀ g, j ≠ .range b n e (.share d g)) ∧
    ∀ x r wipe, j ≠ .range b n e (.transfer d x r wipe) ∧ j ≠ .range b n e (.transfer x d r wipe) := by
  cases j with
  | query g => simp [Job.names]
  | format size b n => simp [Job.names]
  | closeDomain d' => simp [Job.names]
  | range base count e op =>
    cases op with
    | assign d' r =>
      rw [Job.names, beq_eq_false_iff_ne]
      constructor
      · rintro hne b n e'
        refine ⟨fun r' => ?_, nofun, nofun, fun x r' w' => ⟨nofun, nofun⟩⟩
        rintro ⟨⟩
        exact hne rfl
      · rintro h rfl
        exact (h base count e).1 r rfl
    | reclaim d' wipe =>
      rw [Job.names, beq_eq_false_iff_ne]
      constructor
      · rintro hne b n e'
        refine ⟨nofun, fun wipe' => ?_, nofun, fun x r' w' => ⟨nofun, nofun⟩⟩
        rintro ⟨⟩
        exact hne rfl
      · rintro h rfl
        exact (h base count e).2.1 wipe rfl
    | share d' g =>
      rw [Job.names, beq_eq_false_iff_ne]
      constructor
      · rintro hne b n e'
        refine ⟨nofun, nofun, fun g' => ?_, fun x r' w' => ⟨nofun, nofun⟩⟩
        rintro ⟨⟩
        exact hne rfl
      · rintro h rfl
        exact (h base count e).2.2.1 g rfl
    | unshare g => simp [Job.names]
    | wipe => simp [Job.names]
    | releaseFence => simp [Job.names]
    | transfer giver taker r wipe =>
      simp only [Job.names, Bool.or_eq_false_iff, beq_eq_false_iff_ne]
      constructor
      · rintro ⟨hgiver, htaker⟩ b n e'
        refine ⟨nofun, nofun, nofun, fun x r' w' => ⟨?_, ?_⟩⟩
        · rintro ⟨⟩
          exact hgiver rfl
        · rintro ⟨⟩
          exact htaker rfl
      · intro h
        obtain ⟨-, -, -, hends⟩ := h base count e
        refine ⟨?_, ?_⟩
        · rintro rfl
          exact (hends taker r wipe).1 rfl
        · rintro rfl
          exact (hends giver r wipe).2 rfl

/-! ## The refusal tests as conditions -/

/-- No refusal where no condition holds. -/
theorem FirstFails.none_iff {result : Option Reason} {conditions : List (Prop × Reason)}
    (h : FirstFails result conditions) : result = none ↔ ∀ x ∈ conditions, ¬x.1 := by
  induction conditions with
  | nil => exact iff_of_true h nofun
  | cons x rest ih =>
      obtain ⟨hfails, hrest⟩ := h
      rw [List.forall_mem_cons]
      by_cases hx : x.1
      · rw [hfails hx]
        exact iff_of_false nofun (fun hall => hall.1 hx)
      · rw [ih (hrest hx)]
        exact (and_iff_right hx).symm

/-- A test in front, where the tests behind it decide their conditions once it has passed. -/
theorem firstFails_cons_of_passed {test : Bool} {fails : Prop} (reason : Reason) (htest : test = true ↔ fails)
    {tests : List (Bool × Reason)} {conditions : List (Prop × Reason)}
    (hrest : ¬fails → FirstFails (firstFailure tests) conditions) :
    FirstFails (firstFailure ((test, reason) :: tests)) ((fails, reason) :: conditions) := by
  by_cases hf : fails
  · exact ⟨fun _ => by rw [htest.mpr hf]; rfl, fun h => absurd hf h⟩
  · exact firstFails_cons reason htest (hrest hf)

section
variable (s : State) (tag : BitVec 16)

/-- The tests every context command but FORMAT begins with. -/
def commonConditions : List (Prop × Reason) :=
  [(s.part ≠ .serving, .notReady), (∃ c w, s.work c = some w ∧ w.tag = tag, .dupTag)]

/-- The common tests pass on a SERVING part where the tag is free. -/
theorem commonConditions_fail : (∀ x ∈ commonConditions s tag, ¬x.1) ↔
    s.part = .serving ∧ ∀ c w, s.work c = some w → w.tag ≠ tag := by
  simp only [commonConditions, List.forall_mem_cons, ne_eq, Classical.not_not, not_exists, not_and, List.not_mem_nil, false_imp_iff,
    implies_true, and_true]

theorem firstFails_common {tests : List (Bool × Reason)} {conditions : List (Prop × Reason)}
    (h : FirstFails (firstFailure tests) conditions) :
    FirstFails (firstFailure ([(decide (s.part ≠ .serving), Reason.notReady), (s.tagHeld tag, .dupTag)] ++ tests))
      (commonConditions s tag ++ conditions) :=
  firstFails_cons _ decide_eq_true_iff (firstFails_cons _ tagHeld_iff h)

theorem notActive_iff (d : Nat) : (!s.isActive d) = true ↔ ¬(s.domain d).state = .active := by
  simp only [State.isActive, Bool.not_eq_true', decide_eq_false_iff_not]

/-- The conditions of a range command's own tests, with its quota test as written in Table 4.3. -/
def rangeOpConditions (count : Nat) : RangeOp → List (Prop × Reason)
  | .assign d _ => [(¬(s.domain d).state = .active, .domainState),
      ((s.domain d).quota < (s.domain d).held + (s.domain d).incoming + count, .quota)]
  | .reclaim d _ => [(¬(s.domain d).state = .active, .domainState)]
  | .transfer giver taker _ wipe => [(¬(s.domain giver).state = .active ∨ ¬(s.domain taker).state = .active, .domainState),
      (giver = taker, .badField), (wipe = false ∧ giver ≠ 0 ∧ taker ≠ 0, .unwipedTransfer),
      ((s.domain taker).quota < (s.domain taker).held + (s.domain taker).incoming + count, .quota)]
  | .share owner group => [(¬(s.domain owner).state = .active, .domainState),
      ((s.group group).defined = false ∨ owner ∉ (s.group group).members, .groupState)]
  | .unshare group => [((s.group group).defined = false, .groupState)]
  | .wipe | .releaseFence => []

theorem firstFails_rangeOpTests (count : Nat) (op : RangeOp) :
    FirstFails (firstFailure (rangeOpTests s count op)) (rangeOpConditions s count op) := by
  cases op with
  | assign d r => exact firstFails_cons _ (notActive_iff s d) (firstFails_cons _ decide_eq_true_iff firstFails_nil)
  | reclaim d wipe => exact firstFails_cons _ (notActive_iff s d) firstFails_nil
  | transfer giver taker r wipe =>
    refine firstFails_cons _ ?_ (firstFails_cons _ beq_iff_eq (firstFails_cons _ ?_
      (firstFails_cons _ decide_eq_true_iff firstFails_nil)))
    · rw [Bool.or_eq_true, notActive_iff, notActive_iff]
    · simp only [Bool.and_eq_true, Bool.not_eq_true', beq_eq_false_iff_ne, and_assoc]
  | share owner group =>
    refine firstFails_cons _ (notActive_iff s owner) (firstFails_cons _ ?_ firstFails_nil)
    simp only [Bool.or_eq_true, Bool.not_eq_true', decide_eq_false_iff_not]
  | unshare group => exact firstFails_cons _ (by rw [Bool.not_eq_true']) firstFails_nil
  | wipe => exact firstFails_nil
  | releaseFence => exact firstFails_nil

theorem firstFails_range (base count : Nat) (expected : Option (BitVec 8)) (op : RangeOp) :
    FirstFails (refusal s tag (.range base count expected op))
      (commonConditions s tag ++ (s.tableSize < base + count, .range) :: rangeOpConditions s count op) :=
  firstFails_common s tag (firstFails_cons _ decide_eq_true_iff (firstFails_rangeOpTests s count op))

theorem firstFails_query (g : Nat) : FirstFails (refusal s tag (.query g))
    (commonConditions s tag ++ [(s.tableSize ≤ g, .range)]) :=
  firstFails_common s tag (firstFails_cons _ decide_eq_true_iff firstFails_nil)

theorem firstFails_closeDomain (d : Nat) : FirstFails (refusal s tag (.closeDomain d)) (commonConditions s tag ++
    [(d = 0 ∨ ¬(s.domain d).state = .active, .domainState), (0 < (s.domain d).groupCount, .inGroup)]) := by
  refine firstFails_common s tag (firstFails_cons _ ?_ (firstFails_cons _ decide_eq_true_iff firstFails_nil))
  rw [Bool.or_eq_true, notActive_iff, decide_eq_true_iff]

theorem firstFails_format (size : Nat) (b n : Option Nat) : FirstFails (refusal s tag (.format size b n))
    [(s.part ≠ .unformatted, .badState), (¬(size % 512 = 0 ∧ 512 ≤ size ∧ size ≤ 67108864), .badField),
      (b.isSome ≠ n.isSome, .badField), (n = some 0, .badField), (s.capacity.toNat < size * 8, .range),
      (∃ b' n', b = some b' ∧ n = some n' ∧ size < b' + n', .range)] := by
  refine firstFails_cons _ decide_eq_true_iff (firstFails_cons _ ?_ (firstFails_cons_of_passed _ bne_iff_ne fun hboth =>
    firstFails_cons _ beq_iff_eq (firstFails_cons _ decide_eq_true_iff (firstFails_cons _ ?_ firstFails_nil))))
  · simp only [Bool.not_eq_true', Bool.and_eq_false_iff, decide_eq_false_iff_not, Config.granules]
    omega
  · cases b with
    | none => exact iff_of_false nofun (fun ⟨_, _, hb, _⟩ => nomatch hb)
    | some b' =>
      cases n with
      | none => exact absurd nofun hboth
      | some n' => simp

end

/-- A range command is refused where one of the tests common to all fails, its range passes T, or a test of its own
fails. -/
theorem refusal_range_none {s : State} {tag : BitVec 16} {base count : Nat} {expected : Option (BitVec 8)} {op : RangeOp} :
    refusal s tag (.range base count expected op) = none ↔
      (s.part = .serving ∧ ∀ c w, s.work c = some w → w.tag ≠ tag) ∧ base + count ≤ s.tableSize ∧
        ∀ x ∈ rangeOpConditions s count op, ¬x.1 := by
  rw [(firstFails_range s tag base count expected op).none_iff, List.forall_mem_append, commonConditions_fail,
    List.forall_mem_cons, Nat.not_lt]

end Sys2Proof.Machine

namespace Sys2Proof.Proofs
open Sys2Proof.Machine

/-- Settles O15: each job's tests as conditions in their order; it passes where none of them holds. -/
theorem refusalTestsPass : Obligations.RefusalTestsPass := by
  refine ⟨fun s tag => ?_, fun s tag => ⟨?_, ?_, ?_, ?_, ?_, ?_, ?_, ?_, ?_⟩⟩
  · refine ⟨?_, ?_, ?_, ?_, ?_, ?_, ?_, ?_, ?_⟩
    · intro base count expected d rights
      simp only [refusal_range_none, rangeOpConditions, List.forall_mem_cons, Classical.not_not, Nat.not_lt, List.not_mem_nil,
        false_imp_iff, implies_true, and_true]
    · intro base count expected d wipe
      simp only [refusal_range_none, rangeOpConditions, List.forall_mem_cons, Classical.not_not, List.not_mem_nil,
        false_imp_iff, implies_true, and_true]
    · intro base count expected giver taker rights wipe
      simp only [refusal_range_none, rangeOpConditions, List.forall_mem_cons, Classical.not_not, Nat.not_lt, List.not_mem_nil,
        false_imp_iff, implies_true, and_true, not_or, not_and, ne_eq, and_assoc]
      grind
    · intro base count expected owner group
      simp only [refusal_range_none, rangeOpConditions, List.forall_mem_cons, Classical.not_not, List.not_mem_nil,
        false_imp_iff, implies_true, and_true, not_or, Bool.not_eq_false]
    · intro base count expected group
      simp only [refusal_range_none, rangeOpConditions, List.forall_mem_cons, List.not_mem_nil,
        false_imp_iff, implies_true, and_true, Bool.not_eq_false]
    · rintro base count expected op (rfl | rfl)
      all_goals simp only [refusal_range_none, rangeOpConditions, List.not_mem_nil, false_imp_iff, implies_true, and_true]
    · intro g
      rw [(firstFails_query s tag g).none_iff, List.forall_mem_append, commonConditions_fail, List.forall_mem_singleton,
        Nat.not_le]
    · intro d
      rw [(firstFails_closeDomain s tag d).none_iff, List.forall_mem_append, commonConditions_fail, List.forall_mem_cons,
        List.forall_mem_singleton, not_or, Classical.not_not, Nat.not_lt, Nat.le_zero, and_assoc (a := ¬d = 0)]
    · intro size b n
      rw [(firstFails_format s tag size b n).none_iff]
      simp only [List.forall_mem_cons, Classical.not_not, Nat.not_lt, List.not_mem_nil, false_imp_iff, implies_true, and_true, ne_eq]
      refine and_congr_right fun _ => ?_
      cases b <;> cases n <;> simp [and_assoc, Nat.one_le_iff_ne_zero]
      grind
  · exact fun base count expected d rights => firstFails_range s tag base count expected (.assign d rights)
  · exact fun base count expected d wipe => firstFails_range s tag base count expected (.reclaim d wipe)
  · exact fun base count expected giver taker rights wipe =>
      firstFails_range s tag base count expected (.transfer giver taker rights wipe)
  · exact fun base count expected owner group => firstFails_range s tag base count expected (.share owner group)
  · exact fun base count expected group => firstFails_range s tag base count expected (.unshare group)
  · rintro base count expected op (rfl | rfl)
    · exact firstFails_range s tag base count expected .wipe
    · exact firstFails_range s tag base count expected .releaseFence
  · exact firstFails_query s tag
  · exact firstFails_closeDomain s tag
  · exact firstFails_format s tag

end Sys2Proof.Proofs

/-! The choice of the next message and the judgement of each; the statement HeadIssuesFirstThenOldestUrgent. -/

namespace Sys2Proof.Machine

section
variable {s : State} {m : Message}

theorem isUrgent_iff : isUrgent m = true ↔ msgKind m = 0x17 ∨ msgKind m = 0x18 := by
  simp only [isUrgent, Bool.or_eq_true, beq_iff_eq]

/-! ## How a message stands -/

theorem judge_of_uncoded (h : decodeCommand m = none) : judge s m = .answer 1 := by
  simp only [judge, h]

theorem judge_of_refused {job : Job} {reason : Reason} (hm : decodeCommand m = some (.job job))
    (hr : refusal s (msgTag m) job = some reason) : judge s m = .answer 1 := by
  simp only [judge, hm, hr]

theorem judge_of_passed {job : Job} (hm : decodeCommand m = some (.job job)) (hr : refusal s (msgTag m) job = none) :
    judge s m = if canTake s job then .take else .wait := by
  simp only [judge, hm, hr]

theorem judge_abort {target : BitVec 16} (hm : decodeCommand m = some (.abort target)) :
    judge s m = if (queuedTarget target s.intake).isSome then .answer 2 else .answer 1 := by
  simp only [judge, hm]

theorem judge_of_immediate {c : Command} (hm : decodeCommand m = some c) (hj : ∀ job, c ≠ .job job)
    (ha : ∀ tag, c ≠ .abort tag) : judge s m = .answer 1 := by
  cases c with
  | job job => exact absurd rfl (hj job)
  | abort tag => exact absurd rfl (ha tag)
  | openDomain | setDomain | defineGroup | dropGroup | setPolicy | setHome | snapshot | linkControl =>
    simp only [judge, hm]

/-- An ABORT's target is queued where a message other than an ABORT or a LINK_CONTROL carries the tag (R75). -/
theorem queuedTarget_isSome {target : BitVec 16} {intake : List Message} :
    (queuedTarget target intake).isSome = true ↔ ∃ x ∈ intake, isUrgent x = false ∧ msgTag x = target := by
  simp only [queuedTarget, List.findIdx?_isSome, List.any_eq_true, Bool.and_eq_true, Bool.not_eq_true', beq_iff_eq]

/-! ## The waiting conditions (R66) -/

/-- No active context stands in a job's way. -/
def State.clearFor (s : State) : Job → Prop
  | .range base count _ _ => ∀ c w, s.work c = some w → w.holdsOver base count = false
  | .closeDomain d => ∀ c w, s.work c = some w → w.job.names d = false
  | .query _ | .format _ _ _ => True

theorem canTake_iff {job : Job} : canTake s job = true ↔ (∃ c, s.work c = none) ∧ s.clearFor job := by
  unfold canTake
  rw [Bool.and_eq_true, freeCtx_isSome_iff]
  refine and_congr_right fun _ => ?_
  cases job with
  | range base count e op => simp only [State.clearFor, Bool.not_eq_true', anyCtx_false_iff]
  | closeDomain d => simp only [State.clearFor, Bool.not_eq_true', anyCtx_false_iff]
  | query g => exact iff_of_true rfl trivial
  | format size b n => exact iff_of_true rfl trivial

/-! ## The choice -/

theorem issuable_of_message {i : Nat} (h : s.intake[i]? = some m) :
    s.issuable i = if (judge s m).canIssue s.freeSlots then some i else none := by
  simp only [State.issuable, State.message, h]

theorem nextIssue_of_head (h : s.intake[0]? = some m) (hi : (judge s m).canIssue s.freeSlots = true) :
    s.nextIssue = some 0 := by
  simp only [State.nextIssue, issuable_of_message h, hi, if_true]

/-- While the head waits, the oldest urgent message is looked at. -/
theorem nextIssue_of_waiting (h : s.intake[0]? = some m) (hi : (judge s m).canIssue s.freeSlots = false) :
    s.nextIssue = (s.intake.findIdx? isUrgent).bind s.issuable := by
  rw [State.nextIssue, issuable_of_message h, hi]
  rfl

theorem nextIssue_of_empty (h : s.intake = []) : s.nextIssue = none := by
  simp [State.nextIssue, State.issuable, State.message, h]

/-- The first place of a list that meets a test. -/
theorem findIdx?_of_first {α : Type} {p : α → Bool} {l : List α} {j : Nat} {x : α} (hx : l[j]? = some x) (hp : p x = true)
    (hfirst : ∀ k, k < j → ∀ y, l[k]? = some y → p y = false) : l.findIdx? p = some j := by
  obtain ⟨hj, rfl⟩ := List.getElem?_eq_some_iff.mp hx
  refine List.findIdx?_eq_some_iff_getElem.mpr ⟨hj, hp, fun k hk => ?_⟩
  rw [hfirst k hk _ (List.getElem?_eq_getElem (Nat.lt_trans hk hj))]
  exact Bool.false_ne_true

/-- A judged message that can issue takes a context, or needs a slot. -/
theorem needsSlot_iff {j : Judgement} {free : Nat} (h : j.canIssue free = true) : j.needsSlot = false ↔ j = .take := by
  cases j with
  | take => exact iff_of_true rfl rfl
  | answer n => exact iff_of_false nofun nofun
  | wait => exact nomatch h

theorem nextIssue_canIssue {i : Nat} (h : s.nextIssue = some i) (hm : s.intake[i]? = some m) :
    (judge s m).canIssue s.freeSlots = true := by
  have hissue : ∀ {j k : Nat}, s.issuable j = some k → k = j ∧ ∀ x, s.intake[j]? = some x →
      (judge s x).canIssue s.freeSlots = true := by
    intro j k hk
    cases hx : s.message j with
    | none => simp [State.issuable, hx] at hk
    | some x =>
      simp only [State.issuable, hx, Option.ite_none_right_eq_some] at hk
      obtain ⟨hc, hjk⟩ := hk
      refine ⟨(Option.some.inj hjk).symm, fun y hy => ?_⟩
      cases hx.symm.trans hy
      exact hc
  unfold State.nextIssue at h
  split at h
  · next k hk =>
    cases h
    obtain ⟨rfl, hc⟩ := hissue hk
    exact hc m hm
  · obtain ⟨j, -, hj⟩ := Option.bind_eq_some_iff.mp h
    obtain ⟨rfl, hc⟩ := hissue hj
    exact hc m hm

/-- The message of the next issue event: the next to issue, where it takes a context or the arbiter serves the Scheduler. -/
theorem selected_iff {i : Nat} : s.selected = some (i, m) ↔
    s.nextIssue = some i ∧ s.intake[i]? = some m ∧ (judge s m = .take ∨ s.served = some 16) := by
  unfold State.selected
  cases hi : s.nextIssue with
  | none => exact iff_of_false nofun (fun h => nomatch h.1)
  | some k =>
    cases hx : s.message k with
    | none =>
      simp only
      refine iff_of_false (by simp [hx]) ?_
      rintro ⟨⟨⟩, hm, -⟩
      cases hx.symm.trans hm
    | some x =>
      have hslot := needsSlot_iff (nextIssue_canIssue hi hx)
      simp only [hx, Bool.or_eq_true, Bool.not_eq_true', decide_eq_true_eq, hslot, Option.ite_none_right_eq_some,
        Option.some.injEq, Prod.mk.injEq]
      constructor
      · rintro ⟨hc, rfl, rfl⟩
        exact ⟨rfl, hx, hc⟩
      · rintro ⟨rfl, hm, hc⟩
        cases hx.symm.trans hm
        exact ⟨hc, rfl, rfl⟩

end

end Sys2Proof.Machine

namespace Sys2Proof.Proofs
open Sys2Proof.Machine

/-- Settles O10: the choice of the next message, and how each message stands. -/
theorem headIssuesFirstThenOldestUrgent : Obligations.HeadIssuesFirstThenOldestUrgent := by
  refine ⟨fun s => ⟨fun m => nextIssue_of_head, fun m j u hm hwait hu hurgent hfirst => ?_, fun m hm hwait hnone => ?_,
    nextIssue_of_empty⟩, fun s m => ⟨isUrgent_iff, judge_of_uncoded, fun job reason => judge_of_refused,
    fun job hm hr => ?_, fun target hm => ⟨fun h => ?_, fun h => ?_⟩, fun c => judge_of_immediate,
    fun free n => ⟨rfl, rfl, decide_eq_true_iff⟩, rfl⟩, fun s i m => selected_iff⟩
  · rw [nextIssue_of_waiting hm hwait, findIdx?_of_first hu hurgent hfirst, Option.bind_some, issuable_of_message hu]
  · rw [nextIssue_of_waiting hm hwait, List.findIdx?_eq_none_iff.mpr hnone, Option.bind_none]
  · rw [judge_of_passed hm hr]
    have key : ∀ {P : Prop}, (canTake s job = true ↔ P) →
        (P → (if canTake s job then Judgement.take else .wait) = .take) ∧
        (¬P → (if canTake s job then Judgement.take else .wait) = .wait) := fun h =>
      ⟨fun hp => if_pos (h.mpr hp), fun hp => if_neg (fun ht => hp (h.mp ht))⟩
    refine key (canTake_iff.trans (and_congr_right fun _ => ?_))
    cases job with
    | range base count e op => simp only [State.clearFor, holdsOver_false_iff]
    | closeDomain d =>
      simp only [State.clearFor, names_false_iff]
      exact ⟨fun h c w b n e hw => h c w hw b n e, fun h c w hw b n e => h c w b n e hw⟩
    | query g => exact Iff.rfl
    | format size b n => exact Iff.rfl
  · rw [judge_abort hm, if_pos (queuedTarget_isSome.mpr h)]
  · rw [judge_abort hm, if_neg]
    rw [queuedTarget_isSome]
    rintro ⟨x, hx, hu, ht⟩
    exact (h x hx).elim (fun h' => Bool.false_ne_true (hu.symm.trans h')) (fun h' => h' ht)

end Sys2Proof.Proofs

/-! The retire sweep: the taking of a window, the offers in the event that releases granules, the read pass, the end of
a run and of a window; the statement SweepTakesWindow. -/

namespace Sys2Proof.Machine

section
variable {s : State} {c : CtxId} {w : Work}

/-! ## What a context holds, by its work -/

theorem modWork_of_work (f : Work → Work) (hw : s.work c = some w) : modWork c f s = setWork c (some (f w)) s := by
  rw [modWork, hw, Option.map_some]

theorem modWork_of_free (f : Work → Work) (hw : s.work c = none) : modWork c f s = setWork c none s := by
  rw [modWork, hw, Option.map_none]

@[simp] theorem setWork_setWork (c : CtxId) (w w' : Option Work) (s : State) :
    setWork c w (setWork c w' s) = setWork c w s := by
  simp [setWork, setCtx]

theorem setWork_work (hw : s.work c = some w) : setWork c (some w) s = s := by
  have hc : ({ s.ctxs[c.val] with work := some w } : Context) = s.ctxs[c.val] := by
    rw [← hw]
    rfl
  simp only [setWork, setCtx, hc, Vector.set_getElem_self]

/-! ## The end of a sweep (R131) -/

/-- A domain record as the end of its sweep leaves it. -/
def DomainRecord.close (r : DomainRecord) : DomainRecord :=
  { r with state := .closed, quota := 0, held := 0, incoming := 0, policySet := 0, tally := none }

/-- What a context holds at the end of its sweep, with a lost figure. -/
def Work.endSweep (lost : Nat) (w : Work) : Work :=
  { w with lost := lost }.enterPost w.finalStatus none (.counts w.changed lost w.fenced)

theorem closeSweep_eq (hw : s.work c = some w) (d lost : Nat) :
    closeSweep c d lost s = setWork c (some (w.endSweep lost)) (modDomain d DomainRecord.close s) :=
  modWork_of_work (s := modDomain d DomainRecord.close s) _ hw

/-! ## The taking of a window (R127) -/

/-- A sweep of a domain in SCAN with no window and its cursor below T. -/
structure Work.Waits (w : Work) (d tableSize : Nat) : Prop where
  job : w.job = .closeDomain d
  phase : w.phase = .scan
  window : w.window = none
  cursor : w.cursor < tableSize

/-- The work of a sweep that takes the window at its cursor. -/
def Work.takeWindow (w : Work) : Work := { w with window := some w.cursor, request := .read, next := w.cursor }

theorem otherHolds_iff {base count : Nat} : otherHolds s c base count = true ↔
    ∃ c' w', c' ≠ c ∧ s.work c' = some w' ∧ w'.holdsOver base count = true := by
  simp only [otherHolds, List.any_eq_true, mem_allCtxs, true_and, Bool.and_eq_true, Bool.not_eq_true',
    beq_eq_false_iff_ne]
  constructor
  · rintro ⟨c', hne, h⟩
    cases hw : s.work c' with
    | none => simp [hw] at h
    | some w' => exact ⟨c', w', hne, hw, by simpa [hw] using h⟩
  · rintro ⟨c', w', hne, hw, h⟩
    exact ⟨c', hne, by simpa [hw] using h⟩

/-- A waiting sweep ends, waits on, or takes its window. -/
theorem tryTakeWindow_of_waits {d : Nat} (hw : s.work c = some w) (h : w.Waits d s.tableSize) : tryTakeWindow c s =
    if (s.domain d).held = 0 then closeSweep c d 0 s
    else if otherHolds s c w.cursor 512 then s else setWork c (some w.takeWindow) s := by
  simp only [tryTakeWindow, hw, h.job]
  rw [if_pos (And.intro h.phase (And.intro h.window h.cursor))]
  simp only [Work.takeWindow, h.job]

theorem tryTakeWindow_of_not_waits (h : ∀ w d, s.work c = some w → ¬w.Waits d s.tableSize) : tryTakeWindow c s = s := by
  unfold tryTakeWindow
  split
  · rfl
  · next w hw =>
    split
    · next d hj => exact if_neg (fun ⟨hp, hwin, hcur⟩ => h w d hw ⟨hj, hp, hwin, hcur⟩)
    all_goals rfl

/-- What the try of a window comes to. -/
inductive WindowTry (c : CtxId) (s : State) : State → Prop where
  | stay : WindowTry c s s
  | close (w : Work) (d : Nat) : s.work c = some w → w.Waits d s.tableSize →
      WindowTry c s (setWork c (some (w.endSweep 0)) (modDomain d DomainRecord.close s))
  | take (w : Work) (d : Nat) : s.work c = some w → w.Waits d s.tableSize →
      WindowTry c s (setWork c (some w.takeWindow) s)

theorem tryTakeWindow_cases (c : CtxId) (s : State) : WindowTry c s (tryTakeWindow c s) := by
  by_cases h : ∃ w d, s.work c = some w ∧ w.Waits d s.tableSize
  · obtain ⟨w, d, hw, hd⟩ := h
    rw [tryTakeWindow_of_waits hw hd]
    split
    · rw [closeSweep_eq hw]
      exact .close w d hw hd
    · split
      · exact .stay
      · exact .take w d hw hd
  · rw [tryTakeWindow_of_not_waits (fun w d hw hd => h ⟨w, d, hw, hd⟩)]
    exact .stay

/-- The try of a window changes its context and the Domain Table alone. -/
theorem tryTakeWindow_frame (c : CtxId) (s : State) : tryTakeWindow c s =
    { s with ctxs := (tryTakeWindow c s).ctxs, domains := (tryTakeWindow c s).domains } := by
  generalize h : tryTakeWindow c s = t
  have := h ▸ tryTakeWindow_cases c s
  cases this <;> rfl

theorem signalInterrupt_tryTakeWindow (c : CtxId) (s : State) :
    signalInterrupt s (tryTakeWindow c s) = tryTakeWindow c s := by
  rw [tryTakeWindow_frame]
  exact signalInterrupt_same rfl rfl rfl rfl

theorem work_tryTakeWindow_other {c' : CtxId} (h : c' ≠ c) : (tryTakeWindow c s).work c' = s.work c' := by
  generalize ht : tryTakeWindow c s = t
  have hcases := ht ▸ tryTakeWindow_cases c s
  cases hcases with
  | stay => rfl
  | close w d hw hd => exact work_setWork_other _ _ h
  | take w d hw hd => exact work_setWork_other _ _ h

@[simp] theorem runSeq_tryTakeWindow (c c' : CtxId) (s : State) : (tryTakeWindow c s).runSeq c' = s.runSeq c' := by
  generalize ht : tryTakeWindow c s = t
  have hcases := ht ▸ tryTakeWindow_cases c s
  cases hcases with
  | stay => rfl
  | close w d hw hd => exact runSeq_setWork c c' _ (modDomain d DomainRecord.close s)
  | take w d hw hd => exact runSeq_setWork c c' _ s

/-- A try gives no granule up. -/
theorem holdsOver_tryTakeWindow {c' : CtxId} {base count : Nat} (hw : s.work c' = some w)
    (h : w.holdsOver base count = true) :
    ∃ w', (tryTakeWindow c s).work c' = some w' ∧ w'.holdsOver base count = true := by
  by_cases hc : c' = c
  · subst hc
    have hnone : ∀ d, ¬w.Waits d s.tableSize := fun d hd => by
      rw [Work.holdsOver, Work.heldRange, hd.job, hd.window] at h
      exact nomatch h
    rw [tryTakeWindow_of_not_waits (fun w' d hw' hd => hnone d (by cases hw.symm.trans hw'; exact hd))]
    exact ⟨w, hw, h⟩
  · exact ⟨w, (work_tryTakeWindow_other hc).trans hw, h⟩

/-- A sweep that still waits after its try finds its block held by another context. -/
theorem waits_after_try {d : Nat} (hw : (tryTakeWindow c s).work c = some w) (h : w.Waits d s.tableSize) :
    ∃ c' w', c' ≠ c ∧ s.work c' = some w' ∧ w'.holdsOver w.cursor 512 = true := by
  by_cases hx : ∃ x d', s.work c = some x ∧ x.Waits d' s.tableSize
  · obtain ⟨x, d', hx, hd'⟩ := hx
    rw [tryTakeWindow_of_waits hx hd'] at hw
    split at hw
    · rw [closeSweep_eq hx, work_setWork_same] at hw
      cases hw
      exact nomatch h.phase
    · split at hw
      · next hother =>
        cases hx.symm.trans hw
        exact otherHolds_iff.mp hother
      · rw [work_setWork_same] at hw
        cases hw
        exact nomatch h.window
  · rw [tryTakeWindow_of_not_waits (fun w d hw hd => hx ⟨w, d, hw, hd⟩)] at hw
    exact absurd ⟨w, d, hw, h⟩ hx

/-! ## The offers (R127, R130) -/

/-- The offers to some contexts, in turn. -/
def offerTo (L : List CtxId) (s : State) : State := L.foldl (fun s x => tryTakeWindow x s) s

theorem offerWindows_eq (s : State) : offerWindows s = offerTo allCtxs s := rfl

theorem offerTo_cons (x : CtxId) (L : List CtxId) (s : State) : offerTo (x :: L) s = offerTo L (tryTakeWindow x s) := rfl

theorem offerTo_frame (L : List CtxId) (s : State) :
    offerTo L s = { s with ctxs := (offerTo L s).ctxs, domains := (offerTo L s).domains } := by
  induction L generalizing s with
  | nil => rfl
  | cons x L ih =>
    rw [offerTo_cons]
    have h := ih (tryTakeWindow x s)
    generalize offerTo L (tryTakeWindow x s) = t at h ⊢
    rw [h, tryTakeWindow_frame x s]

theorem tableSize_offerTo (L : List CtxId) (s : State) : (offerTo L s).tableSize = s.tableSize := by
  rw [offerTo_frame]

theorem tableSize_tryTakeWindow (c : CtxId) (s : State) : (tryTakeWindow c s).tableSize = s.tableSize := by
  rw [tryTakeWindow_frame]

theorem work_offerTo_of_not_mem {L : List CtxId} (h : c ∉ L) : (offerTo L s).work c = s.work c := by
  induction L generalizing s with
  | nil => rfl
  | cons x L ih =>
    rw [offerTo_cons, ih (List.not_mem_of_not_mem_cons h), work_tryTakeWindow_other (List.ne_of_not_mem_cons h)]

theorem runSeq_offerTo (L : List CtxId) (c : CtxId) (s : State) : (offerTo L s).runSeq c = s.runSeq c := by
  induction L generalizing s with
  | nil => rfl
  | cons x L ih => rw [offerTo_cons, ih, runSeq_tryTakeWindow]

/-- A FREE context stays FREE. -/
theorem work_offerTo_of_free {L : List CtxId} (h : s.work c = none) : (offerTo L s).work c = none := by
  induction L generalizing s with
  | nil => exact h
  | cons x L ih =>
    have hfree : (tryTakeWindow x s).work c = none := ?_
    · exact ih hfree
    by_cases hx : c = x
    · subst hx
      rw [tryTakeWindow_of_not_waits (fun w d hw => nomatch h.symm.trans hw), h]
    · rw [work_tryTakeWindow_other hx, h]

theorem holdsOver_offerTo {L : List CtxId} {base count : Nat} (hw : s.work c = some w)
    (h : w.holdsOver base count = true) : ∃ w', (offerTo L s).work c = some w' ∧ w'.holdsOver base count = true := by
  induction L generalizing s w with
  | nil => exact ⟨w, hw, h⟩
  | cons x L ih =>
    obtain ⟨w', hw', h'⟩ := holdsOver_tryTakeWindow (c := x) hw h
    exact ih hw' h'

/-- Where no sweep waits, the offers change nothing. -/
theorem offerTo_of_none {L : List CtxId} (h : ∀ c w d, s.work c = some w → ¬w.Waits d s.tableSize) :
    offerTo L s = s := by
  induction L with
  | nil => rfl
  | cons x L ih => rw [offerTo_cons, tryTakeWindow_of_not_waits (h x), ih]

/-- After its offer, a sweep waits only for a block that another context holds. -/
theorem waits_after_offerTo {L : List CtxId} {d : Nat} (hn : L.Nodup) (hc : c ∈ L) (hw : (offerTo L s).work c = some w)
    (h : w.Waits d s.tableSize) :
    ∃ c' w', c' ≠ c ∧ (offerTo L s).work c' = some w' ∧ w'.holdsOver w.cursor 512 = true := by
  induction L generalizing s with
  | nil => exact nomatch hc
  | cons x L ih =>
    obtain ⟨hx, hn⟩ := List.nodup_cons.mp hn
    rw [offerTo_cons] at hw ⊢
    rcases List.mem_cons.mp hc with rfl | hc
    · rw [work_offerTo_of_not_mem hx] at hw
      obtain ⟨c', w', hne, hw', hover⟩ := waits_after_try hw h
      rw [← work_tryTakeWindow_other hne] at hw'
      obtain ⟨w'', hw'', hover'⟩ := holdsOver_offerTo (L := L) hw' hover
      exact ⟨c', w'', hne, hw'', hover'⟩
    · exact ih hn hc hw (by rwa [tableSize_tryTakeWindow])

/-! ## The read pass, the end of a run and of a window -/

/-- The work of a sweep whose window is finished. -/
def Work.giveWindow (w : Work) : Work :=
  { w with window := none, cursor := w.cursor + 512, phase := .scan, request := .noRequest, run := none }

theorem finishWindow_eq (hw : s.work c = some w) (d : Nat) : finishWindow c d s =
    if s.tableSize ≤ w.cursor + 512 then offerWindows (closeSweep c d (s.domain d).held (setWork c (some w.giveWindow) s))
    else offerWindows (setWork c (some w.giveWindow) s) := by
  unfold finishWindow
  rw [modWork_of_work _ hw]
  simp only [work_setWork_same, setWork_tableSize]
  exact apply_ite offerWindows _ _ _

/-- The run carved at the first granule of a reclaim list. -/
theorem carveSweepRun_eq {p : Nat} {rest : List Nat} (hw : s.work c = some w) (hr : w.reclaim = p :: rest) :
    carveSweepRun c s = setWork c (some { w.startRun p (sweepOrder s p w.reclaim) with
      reclaim := w.reclaim.drop (2 ^ sweepOrder s p w.reclaim) }) s := by
  rw [carveSweepRun, modWork_of_work _ hw]
  simp only [hr]

theorem serveRead_sweep {d : Nat} (hw : s.work c = some w) (hj : w.job = .closeDomain d) (r : GranuleRecord) :
    serveRead c r s = sweepRead c { w with waiting := false } d r s := by
  simp only [serveRead, hw, hj]

theorem serveContext_read (hw : s.work c = some w) (hr : w.request = .read) (r : GranuleRecord) :
    serveContext c r s = serveRead c r s := by
  simp only [serveContext, hw, hr, Option.map_some]

theorem noteHeld_eq (w : Work) (d : Nat) (r : GranuleRecord) :
    w.noteHeld d r = { w with reclaim := if r.state.heldBy = some d then w.reclaim ++ [w.next] else w.reclaim } := by
  unfold Work.noteHeld
  split <;> rfl

theorem sweepReadNext_of_more (d : Nat) (h : w.next + 1 < w.cursor + 512) :
    sweepReadNext c w d s = setWork c (some { w with next := w.next + 1 }) s := if_pos h

theorem sweepReadNext_of_empty (d : Nat) (h : w.cursor + 512 ≤ w.next + 1) (hr : w.reclaim = []) :
    sweepReadNext c w d s = finishWindow c d (setWork c (some w) s) := by
  rw [sweepReadNext, if_neg (Nat.not_lt.mpr h), hr]
  rfl

theorem sweepReadNext_of_reclaim {p : Nat} {rest : List Nat} (d : Nat) (h : w.cursor + 512 ≤ w.next + 1)
    (hr : w.reclaim = p :: rest) : sweepReadNext c w d s = setWork c (some { w.startRun p (sweepOrder s p w.reclaim) with
      reclaim := w.reclaim.drop (2 ^ sweepOrder s p w.reclaim) }) s := by
  have hcarve := carveSweepRun_eq (work_setWork_same c (some w) s) hr
  rw [setWork_setWork] at hcarve
  rw [sweepReadNext, if_neg (Nat.not_lt.mpr h), hr]
  rw [hr] at hcarve
  exact hcarve

/-- The end of a run of a sweep (R130). -/
theorem endRun_sweep {run : Run} {d : Nat} (hw : s.work c = some w) (hr : w.run = some run) (hj : w.job = .closeDomain d) :
    endRun c s = sweepRunEnded c d (setWork c (some { w with run := none }) (advanceSeq c s)) := by
  have hadv : (advanceSeq c s).work c = some w := (work_advanceSeq c c s).trans hw
  rw [← modWork_of_work (fun w => { w with run := none }) hadv]
  simp only [endRun, hw, hr, hj]

theorem sweepRunEnded_of_none {d : Nat} (h : (s.domain d).held = 0) :
    sweepRunEnded c d s = offerWindows (closeSweep c d 0 s) := if_pos h

theorem sweepRunEnded_of_empty {d : Nat} (h : 0 < (s.domain d).held) (hw : s.work c = some w) (hr : w.reclaim = []) :
    sweepRunEnded c d s = finishWindow c d s := by
  simp [sweepRunEnded, Nat.ne_of_gt h, hw, hr]

theorem sweepRunEnded_of_reclaim {d p : Nat} {rest : List Nat} (h : 0 < (s.domain d).held) (hw : s.work c = some w)
    (hr : w.reclaim = p :: rest) : sweepRunEnded c d s = carveSweepRun c s := by
  simp [sweepRunEnded, Nat.ne_of_gt h, hw, hr]

end

end Sys2Proof.Machine

namespace Sys2Proof.Proofs
open Sys2Proof.Machine

/-- Settles O53: the try of a window, the read pass, and the ends of runs, windows and sweeps. -/
theorem sweepTakesWindow : Obligations.SweepTakesWindow := by
  have hexec : ∀ (s : State) (c : CtxId),
      exec (.sweepWindowTake c) s = .next (signalInterrupt s (tryTakeWindow c s)) := fun _ _ => rfl
  have hquiet : ∀ (s : State) (c : CtxId), exec (.sweepWindowTake c) s = .next (tryTakeWindow c s) := fun s c => by
    rw [hexec, signalInterrupt_tryTakeWindow]
  refine ⟨fun s c w d hw hj hp hwin hcur => ?_, fun s c w d r hw hj hreq => ?_, fun s c w run d hw hrun hj => ?_,
    fun s c w d lost hw => ⟨fun h => ?_, fun h => ?_, rfl, hexec s c, closeSweep_eq hw d lost⟩,
    fun s c w d hw hj hp hwin hcur => ?_⟩
  · have htry := tryTakeWindow_of_waits (d := d) hw ⟨hj, hp, hwin, hcur⟩
    rw [hquiet, htry]
    refine ⟨fun h => ?_, fun h hother => ?_, fun h hclear => ?_⟩
    · rw [if_pos h, closeSweep_eq hw]
      refine ⟨_, _, rfl, work_setWork_same _ _ _, rfl, rfl, ?_, domain_modDomain_same d _ s,
        fun d' hd' => domain_modDomain_other _ s hd', fun c' hc' => work_setWork_other _ _ hc', rfl⟩
      simp only [Work.endSweep, Work.enterPost, hj]
      rfl
    · rw [if_neg (Nat.ne_of_gt h), if_pos (otherHolds_iff.mpr hother)]
    · rw [if_neg (Nat.ne_of_gt h), if_neg]
      · rfl
      rw [otherHolds_iff]
      rintro ⟨c', w', hne, hw', hover⟩
      exact Bool.false_ne_true ((hclear c' w' hne hw').symm.trans hover)
  · intro reclaim taken
    have hserve : serveContext c r s = sweepReadNext c taken d s := by
      rw [serveContext_read hw hreq, serveRead_sweep hw hj, sweepRead, noteHeld_eq]
    rw [hserve]
    exact ⟨sweepReadNext_of_more (w := taken) d, sweepReadNext_of_empty (w := taken) d,
      fun p rest => sweepReadNext_of_reclaim (w := taken) d⟩
  · intro ended moved
    have hmoved : moved.work c = some ended := work_setWork_same _ _ _
    rw [endRun_sweep hw hrun hj]
    refine ⟨sweepRunEnded_of_none (s := moved), fun h hr => sweepRunEnded_of_empty (s := moved) h hmoved hr,
      fun p rest h hr => ?_⟩
    refine (sweepRunEnded_of_reclaim (s := moved) h hmoved hr).trans ((carveSweepRun_eq hmoved hr).trans ?_)
    exact setWork_setWork _ _ _ _
  · rw [finishWindow_eq hw, if_neg (Nat.not_le.mpr h)]
    rfl
  · rw [finishWindow_eq hw, if_pos h]
    rfl
  · exact waits_after_offerTo (by decide) (mem_allCtxs c) hw
      ⟨hj, hp, hwin, hcur⟩

end Sys2Proof.Proofs

/-! The issue of a context command and the posting of its response; the statements RefusedAtIssue,
ContextCommandTakesContext, ReservationsAtIssue, CloseDomainStartsSweep and PostingFreesTheContext. -/

namespace Sys2Proof.Machine

section
variable {s : State} {i : Nat} {m : Message} {job : Job} {c : CtxId}

/-! ## The lowest-numbered FREE context (R67) -/

theorem freeCtx_eq_some_iff : freeCtx s = some c ↔ s.work c = none ∧ ∀ c' : CtxId, c'.val < c.val → s.work c' ≠ none := by
  have hlist : allCtxs = List.finRange 16 := by decide
  simp only [freeCtx, hlist, List.find?_eq_some_iff_getElem, Option.isNone_iff_eq_none, List.getElem_finRange,
    List.length_finRange]
  refine and_congr_right fun _ => ?_
  constructor
  · rintro ⟨j, hj, rfl, hfirst⟩ c' hc'
    simpa [← Option.isSome_iff_ne_none] using hfirst c'.val hc'
  · intro h
    refine ⟨c.val, c.isLt, rfl, fun j hj => ?_⟩
    simpa [← Option.isSome_iff_ne_none] using h ⟨j, Nat.lt_trans hj c.isLt⟩ hj

theorem freeCtx_eq_none_iff : freeCtx s = none ↔ ∀ c, s.work c ≠ none := by
  simp only [freeCtx, List.find?_eq_none, mem_allCtxs, true_imp_iff, Option.isNone_iff_eq_none, ne_eq]

/-! ## The issue event of a context command -/

theorem exec_job_row (hj : ∀ d, job ≠ .closeDomain d) :
    exec job.command s = issueEvent (rowKind (Command.job job).kindCode) jobEffect s := by
  cases job with
  | range base count e op => cases op <;> rfl
  | query g => rfl
  | format size b n => rfl
  | closeDomain d => exact absurd rfl (hj d)

/-- Every context command but CLOSE_DOMAIN issues by the tests and the taking of a context alone. -/
theorem exec_job_selected (hs : s.selected = some (i, m)) (hm : decodeCommand m = some (.job job))
    (hj : ∀ d, job ≠ .closeDomain d) :
    exec job.command s = .next (signalInterrupt s (issueJob m job (s.issued i))) := by
  rw [exec_row_selected (exec_job_row hj) hs hm]
  simp only [jobEffect, hm]

/-- A context command that fails its tests. -/
theorem exec_job_refused {reason : Reason} (hs : s.selected = some (i, m)) (hm : decodeCommand m = some (.job job))
    (hr : refusal s (msgTag m) job = some reason) :
    exec job.command s = .next (signalInterrupt s (refuse m reason (s.issued i))) := by
  by_cases hj : ∀ d, job ≠ .closeDomain d
  · rw [exec_job_selected hs hm hj]
    simp only [issueJob, refusal_issued, hr]
  · obtain ⟨d, hd⟩ := Classical.not_forall.mp hj
    obtain rfl := Classical.not_not.mp hd
    have hrow : exec (Job.closeDomain d).command s =
        issueEvent (rowKind (Command.job (.closeDomain d)).kindCode) closeDomainEffect s := rfl
    rw [exec_row_selected hrow hs hm]
    simp only [closeDomainEffect, hm, refusal_issued, hr]

/-- The state of an issue that takes a context. -/
def State.taking (s : State) (i : Nat) (m : Message) (job : Job) (c : CtxId) : State :=
  setWork c (some (firstWork (msgTag m) job)) (s.issued i)

theorem issueJob_takes (hr : refusal s (msgTag m) job = none) (hc : freeCtx s = some c) :
    issueJob m job (s.issued i) = reserve job (s.taking i m job c) := by
  have hfree : freeCtx (s.issued i) = some c := hc
  simp only [issueJob, refusal_issued, hr, hfree]
  rfl

/-! ## Reservations (Table 4.4) -/

/-- The reservations write the tables, and what FORMAT starts. -/
theorem reserve_frame (job : Job) (s : State) : reserve job s = { s with
    domains := (reserve job s).domains, groups := (reserve job s).groups, part := (reserve job s).part
    tableSize := (reserve job s).tableSize, cache := (reserve job s).cache, fill := (reserve job s).fill } := by
  unfold reserve
  split <;> rfl

theorem reserve_ctxs (job : Job) (s : State) : (reserve job s).ctxs = s.ctxs := by
  rw [reserve_frame]

theorem reserve_keeps_part (hf : ∀ size b n, job ≠ .format size b n) (s : State) :
    (reserve job s).part = s.part ∧ (reserve job s).tableSize = s.tableSize ∧ (reserve job s).cache = s.cache ∧
      (reserve job s).fill = s.fill := by
  cases job with
  | range base count e op => cases op <;> exact ⟨rfl, rfl, rfl, rfl⟩
  | query g => exact ⟨rfl, rfl, rfl, rfl⟩
  | format size b n => exact absurd rfl (hf size b n)
  | closeDomain d => exact ⟨rfl, rfl, rfl, rfl⟩

theorem work_reserve (job : Job) (c : CtxId) (s : State) : (reserve job s).work c = s.work c :=
  work_of_ctxs_eq (reserve_ctxs job s) c

theorem runSeq_reserve (job : Job) (c : CtxId) (s : State) : (reserve job s).runSeq c = s.runSeq c :=
  runSeq_of_ctxs_eq (reserve_ctxs job s) c

/-- The issue that takes a context sends no interrupt. -/
theorem signalInterrupt_reserve (s : State) (i : Nat) (m : Message) (job : Job) (c : CtxId) :
    signalInterrupt s (reserve job (s.taking i m job c)) = reserve job (s.taking i m job c) := by
  rw [reserve_frame]
  exact signalInterrupt_same rfl rfl rfl rfl

theorem exec_job_takes (hs : s.selected = some (i, m)) (hm : decodeCommand m = some (.job job))
    (hr : refusal s (msgTag m) job = none) (hc : freeCtx s = some c) (hj : ∀ d, job ≠ .closeDomain d) :
    exec job.command s = .next (reserve job (s.taking i m job c)) := by
  rw [exec_job_selected hs hm hj, issueJob_takes hr hc, signalInterrupt_reserve]

/-- The context of a command that passes its tests and issues. -/
theorem freeCtx_of_selected (hs : s.selected = some (i, m)) (hm : decodeCommand m = some (.job job))
    (hr : refusal s (msgTag m) job = none) : ∃ c, freeCtx s = some c := by
  have htake := canTake_of_selected hs hm hr
  unfold canTake at htake
  exact Option.isSome_iff_exists.mp (Bool.and_eq_true _ _ ▸ htake).1

/-! ## CLOSE_DOMAIN's issue (R124, R127) -/

theorem startSweep_of_none {d : Nat} (h : (s.domain d).held = 0) : startSweep c d s = closeSweep c d 0 s := if_pos h

theorem startSweep_of_some {d : Nat} (h : 0 < (s.domain d).held) : startSweep c d s = tryTakeWindow c s :=
  if_neg (Nat.ne_of_gt h)

theorem startSweep_frame (c : CtxId) (d : Nat) (s : State) :
    startSweep c d s = { s with ctxs := (startSweep c d s).ctxs, domains := (startSweep c d s).domains } := by
  by_cases h : (s.domain d).held = 0
  · rw [startSweep_of_none h]
    rfl
  · rw [startSweep_of_some (Nat.pos_of_ne_zero h)]
    exact tryTakeWindow_frame c s

theorem signalInterrupt_startSweep {u : State} (hu : u = { s with intake := u.intake, ctxs := u.ctxs, domains := u.domains })
    (c : CtxId) (d : Nat) : signalInterrupt s (startSweep c d u) = startSweep c d u := by
  rw [startSweep_frame, hu]
  exact signalInterrupt_same rfl rfl rfl rfl

theorem exec_closeDomain_takes {d : Nat} (hs : s.selected = some (i, m))
    (hm : decodeCommand m = some (.job (.closeDomain d))) (hr : refusal s (msgTag m) (.closeDomain d) = none)
    (hc : freeCtx s = some c) :
    exec .closeDomain s = .next (startSweep c d (reserve (.closeDomain d) (s.taking i m (.closeDomain d) c))) := by
  have hrow : exec .closeDomain s =
      issueEvent (rowKind (Command.job (.closeDomain d)).kindCode) closeDomainEffect s := rfl
  have hfree : freeCtx (s.issued i) = some c := hc
  rw [exec_row_selected hrow hs hm]
  simp only [closeDomainEffect, hm, refusal_issued, hr, hfree, issueJob_takes hr hc]
  rw [signalInterrupt_startSweep rfl]

/-! ## The posting of a response (R71, R72) -/

/-- The state in which a context has posted its response and is FREE, before the waiting sweeps are offered blocks. -/
def State.posted (s : State) (c : CtxId) (w : Work) (r : Response) : State :=
  servingIfFormat w.job (setWork c none (placeResponse r { s with respPtr := Fin.ofNat 17 c.val }))

/-- The part's state after a job's response has been placed (R57, R59). -/
def Job.postedPart (job : Job) (part : PartState) : PartState :=
  match job with
  | .format _ _ _ => .serving
  | .range _ _ _ _ | .query _ | .closeDomain _ => part

theorem servingIfFormat_eq (job : Job) (s : State) :
    servingIfFormat job s = { s with part := job.postedPart s.part } := by
  cases job <;> rfl

theorem posted_eq (c : CtxId) (w : Work) (r : Response) : s.posted c w r = { s with
    respPtr := Fin.ofNat 17 c.val, responses := s.responses ++ [r], ctxs := (setWork c none s).ctxs
    part := w.job.postedPart s.part } := servingIfFormat_eq _ _

/-- What the offers leave of a posting. -/
theorem offerTo_posted (L : List CtxId) (c : CtxId) (w : Work) (r : Response) : offerTo L (s.posted c w r) = { s with
    respPtr := Fin.ofNat 17 c.val, responses := s.responses ++ [r], ctxs := (offerTo L (s.posted c w r)).ctxs
    domains := (offerTo L (s.posted c w r)).domains, part := w.job.postedPart s.part } := by
  have h := offerTo_frame L (s.posted c w r)
  generalize offerTo L (s.posted c w r) = u at h ⊢
  rw [posted_eq] at h
  exact h

/-- The interrupt is all that the test of its condition writes. -/
theorem signalInterrupt_frame (a s : State) : signalInterrupt a s = { s with msiSent := (signalInterrupt a s).msiSent } := by
  unfold signalInterrupt
  split <;> rfl

theorem execPostResponse_served {w : Work} {r : Response} (hs : s.served = some c.val) (hw : s.work c = some w)
    (hr : w.result = some r) :
    exec .postResponse s = .next (signalInterrupt s (offerWindows (s.posted c w r))) := by
  have hc : (Fin.ofNat 16 c.val : CtxId) = c := Fin.ext (Nat.mod_eq_of_lt c.isLt)
  refine congrArg (fun u => Host.Outcome.next (signalInterrupt s u)) ?_
  simp only [hs, c.isLt, if_true, hc, postResponse, hw, hr]
  rfl

theorem inPost_iff : s.inPost c = true ↔ ∃ w, s.work c = some w ∧ w.phase = .post := by
  unfold State.inPost
  cases s.work c <;> simp

theorem schedulerReady_iff : s.schedulerReady = true ↔
    ∃ k m n, s.nextIssue = some k ∧ s.intake[k]? = some m ∧ judge s m = .answer n := by
  have hslot : ∀ j : Judgement, j.needsSlot = true ↔ ∃ n, j = .answer n := by
    intro j
    cases j <;> simp [Judgement.needsSlot]
  unfold State.schedulerReady
  cases hk : s.nextIssue with
  | none => simp
  | some k =>
    cases hm : s.intake[k]? with
    | none => simp [State.message, hm]
    | some m => simp [State.message, hm, hslot]

/-- The producers that are ready: contexts in POST, and the Scheduler (16). -/
theorem producerReady_iff {j : Nat} (hj : j < 17) : s.producerReady j = true ↔
    (∃ (c : CtxId) (w : Work), c.val = j ∧ s.work c = some w ∧ w.phase = .post) ∨
    (j = 16 ∧ ∃ k m n, s.nextIssue = some k ∧ s.intake[k]? = some m ∧ judge s m = .answer n) := by
  unfold State.producerReady
  split
  · next h =>
    subst h
    rw [schedulerReady_iff]
    refine ⟨fun h => .inr ⟨rfl, h⟩, fun h => h.elim (fun ⟨c, w, hc, _⟩ => absurd hc (Nat.ne_of_lt c.isLt)) And.right⟩
  · next h =>
    have hlt : j < 16 := by omega
    have hc : (Fin.ofNat 16 j).val = j := Nat.mod_eq_of_lt hlt
    rw [inPost_iff]
    constructor
    · rintro ⟨w, hw, hp⟩
      exact .inl ⟨_, w, hc, hw, hp⟩
    · rintro (⟨c, w, hcj, hw, hp⟩ | ⟨h', -⟩)
      · obtain rfl : c = Fin.ofNat 16 j := Fin.ext (hcj.trans hc.symm)
        exact ⟨w, hw, hp⟩
      · exact absurd h' h

/-- The order of service depends on the ready requesters below their number alone. -/
theorem firstReady_congr {n ptr i : Nat} {p q : Nat → Prop} (h : ∀ j, j < n → (p j ↔ q j)) :
    FirstReady n ptr p i ↔ FirstReady n ptr q i := by
  refine exists_congr fun k => and_congr_right fun hk => and_congr_right fun hi => ?_
  have hmod : ∀ x, x % n < n := fun x => Nat.mod_lt x (Nat.lt_of_le_of_lt (Nat.zero_le k) hk)
  refine and_congr (h i (hi ▸ hmod _)) (forall_congr' fun k' => ?_)
  rw [h _ (hmod _)]

theorem served_iff {i : Nat} : s.served = some i ↔ s.responses.length < 32 ∧
    FirstReady 17 s.respPtr.val (fun j =>
      (∃ (c : CtxId) (w : Work), c.val = j ∧ s.work c = some w ∧ w.phase = .post) ∨
      (j = 16 ∧ ∃ k m n, s.nextIssue = some k ∧ s.intake[k]? = some m ∧ judge s m = .answer n)) i := by
  have hfree : 0 < s.freeSlots ↔ s.responses.length < 32 := Nat.sub_pos_iff_lt
  rw [State.served, Option.ite_none_right_eq_some, hfree, firstAfter_iff]
  exact and_congr_right fun _ => firstReady_congr fun j => producerReady_iff

end

/-! ## A message out of its coding (R170) -/

/-- A row that takes a message which spells no command refuses it. -/
theorem exec_uncoded {s : State} {i : Nat} {m : Message} {instr : Instr} {row : Message → Bool}
    {effect : Message → State → State} (hrow : exec instr s = issueEvent row effect s) (hs : s.selected = some (i, m))
    (ht : row m = true) (heffect : effect m (s.issued i) = refuse m .badField (s.issued i)) :
    exec instr s = .next (signalInterrupt s (refuse m .badField (s.issued i))) := by
  rw [hrow, issueEvent_selected effect hs ht, heffect]

/-- A row's effect on a message that spells no command is the refusal BAD_FIELD. -/
def RefusesUncoded (effect : Message → State → State) : Prop :=
  ∀ m s, decodeCommand m = none → effect m s = refuse m .badField s

/-- The rows of an issue by their kind bytes, LINK_CONTROL's apart. -/
def kindRows : List (Instr × Nat) :=
  [(.assign, 0x01), (.reclaim, 0x02), (.transfer, 0x03), (.share, 0x04), (.unshare, 0x05), (.wipe, 0x06),
    (.releaseFence, 0x07), (.query, 0x08), (.format, 0x09), (.closeDomain, 0x0A)] ++
  [(.openDomain, 0x10), (.setDomain, 0x11), (.defineGroup, 0x12), (.dropGroup, 0x13), (.setPolicy, 0x14),
    (.setHome, 0x15), (.snapshot, 0x16), (.abort, 0x17)]

/-- The rows of LINK_CONTROL by the codes of their actions. -/
def linkRows : List (Instr × Nat) := [(.linkControlEnable, 0), (.linkControlDisable, 1), (.linkControlRejoin, 2)]

theorem jobEffect_uncoded : RefusesUncoded jobEffect := fun m s h => by simp only [jobEffect, h]

theorem exec_kindRow {c : Instr} {code : Nat} (h : (c, code) ∈ kindRows) :
    ∃ effect, RefusesUncoded effect ∧ ∀ s, exec c s = issueEvent (rowKind code) effect s := by
  have hall : ∀ p ∈ kindRows, ∃ effect, RefusesUncoded effect ∧ ∀ s, exec p.1 s = issueEvent (rowKind p.2) effect s := by
    simp only [kindRows, List.forall_mem_append, List.forall_mem_cons]
    refine ⟨⟨?_, ?_, ?_, ?_, ?_, ?_, ?_, ?_, ?_, ?_, nofun⟩, ?_, ?_, ?_, ?_, ?_, ?_, ?_, ?_, nofun⟩
    iterate 9 exact ⟨jobEffect, jobEffect_uncoded, fun _ => rfl⟩
    · exact ⟨closeDomainEffect, fun m s h => by simp only [closeDomainEffect, jobEffect, h], fun _ => rfl⟩
    · exact ⟨openDomainEffect, fun m s h => by simp only [openDomainEffect, h], fun _ => rfl⟩
    · exact ⟨setDomainEffect, fun m s h => by simp only [setDomainEffect, h], fun _ => rfl⟩
    · exact ⟨defineGroupEffect, fun m s h => by simp only [defineGroupEffect, h], fun _ => rfl⟩
    · exact ⟨dropGroupEffect, fun m s h => by simp only [dropGroupEffect, h], fun _ => rfl⟩
    · exact ⟨setPolicyEffect, fun m s h => by simp only [setPolicyEffect, h], fun _ => rfl⟩
    · exact ⟨setHomeEffect, fun m s h => by simp only [setHomeEffect, h], fun _ => rfl⟩
    · exact ⟨snapshotEffect, fun m s h => by simp only [snapshotEffect, h], fun _ => rfl⟩
    · exact ⟨abortEffect, fun m s h => by simp only [abortEffect, h], fun _ => rfl⟩
  exact hall _ h

theorem linkEffect_uncoded (action : LinkAction) (take : Message → LinkId → State → State) :
    RefusesUncoded (linkEffect action take) := fun m s h => by simp only [linkEffect, h]

theorem exec_linkRow {c : Instr} {code : Nat} (h : (c, code) ∈ linkRows) : ∃ action effect,
    RefusesUncoded effect ∧ decodeLinkAction code = some action ∧
      ∀ s, exec c s = issueEvent (linkRow action) effect s := by
  have hall : ∀ p ∈ linkRows, ∃ action effect, RefusesUncoded effect ∧ decodeLinkAction p.2 = some action ∧
      ∀ s, exec p.1 s = issueEvent (linkRow action) effect s := by
    simp only [linkRows, List.forall_mem_cons]
    exact ⟨⟨.enable, _, linkEffect_uncoded .enable enableLink, rfl, fun _ => rfl⟩,
      ⟨.disable, _, linkEffect_uncoded .disable disableLink, rfl, fun _ => rfl⟩,
      ⟨.rejoin, _, linkEffect_uncoded .rejoin rejoinLink, rfl, fun _ => rfl⟩, nofun⟩
  exact hall _ h

theorem decodeLinkAction_of_large {n : Nat} (h : 2 < n) : decodeLinkAction n = none := by
  obtain ⟨k, rfl⟩ := Nat.exists_eq_add_of_lt h
  rw [show 2 + k + 1 = k + 3 by omega]
  rfl

theorem linkRow_of_unknown {action : LinkAction} {m : Message} (h : knownKind m = false) : linkRow action m = true := by
  simp only [linkRow, h, Bool.not_false, Bool.true_or]

/-- LINK_CONTROL's row takes the messages of its action, and those whose action is none of the three (log 3). -/
theorem linkRow_of_action {action : LinkAction} {m : Message} (hk : msgKind m = 0x18)
    (ha : ∀ a, decodeLinkAction (msgByte21 m) = some a → a = action) : linkRow action m = true := by
  simp only [linkRow, hk, BEq.rfl, Bool.true_and, Bool.or_eq_true]
  refine .inr ?_
  split
  · next a h => exact decide_eq_true (ha a h)
  · rfl

/-- The row of a kind takes a message of that kind, and one whose kind byte is no kind. -/
theorem rowKind_iff {code : Nat} {m : Message} :
    rowKind code m = true ↔ (msgKind m).toNat = code ∨ knownKind m = false := by
  simp only [rowKind, Bool.or_eq_true, decide_eq_true_eq, Bool.not_eq_true']

theorem knownKind_false_iff {m : Message} : knownKind m = false ↔
    ¬(1 ≤ (msgKind m).toNat ∧ (msgKind m).toNat ≤ 0x0A) ∧ ¬(0x10 ≤ (msgKind m).toNat ∧ (msgKind m).toNat ≤ 0x18) := by
  simp only [knownKind, Bool.or_eq_false_iff, Bool.and_eq_false_iff, decide_eq_false_iff_not, Classical.not_and_iff_not_or_not]

end Sys2Proof.Machine

namespace Sys2Proof.Proofs
open Sys2Proof.Machine

/-- Settles O11: a failed test by its reason, and a message out of its coding by its row. -/
theorem refusedAtIssue : Obligations.RefusedAtIssue := by
  refine ⟨fun s i m job reason hs hm hr => exec_job_refused hs hm hr, fun s i m c hs hm => ?_⟩
  intro kind action jobs immediates links hrow
  rcases hrow with hkind | ⟨hkind, hlink⟩ | ⟨hlow, hhigh, x, hx⟩
  · obtain ⟨effect, heffect, hexec⟩ := exec_kindRow hkind
    exact exec_uncoded (hexec s) hs (rowKind_iff.mpr (.inl rfl)) (heffect _ _ hm)
  · have hbyte : msgByte21 m = action := msgByte21_eq m
    have hk : msgKind m = 0x18 := BitVec.eq_of_toNat_eq hkind
    have hrow : ∃ a, (c, a) ∈ linkRows ∧ ∀ x, decodeLinkAction action = some x → decodeLinkAction a = some x := by
      rcases hlink with h | ⟨h, a, ha⟩
      · exact ⟨action, h, fun x => id⟩
      · refine ⟨a, ha, fun x hx => ?_⟩
        rw [decodeLinkAction_of_large h] at hx
        exact nomatch hx
    obtain ⟨a, ha, hcode⟩ := hrow
    obtain ⟨act, effect, heffect, hact, hexec⟩ := exec_linkRow ha
    refine exec_uncoded (hexec s) hs (linkRow_of_action hk fun y hy => ?_) (heffect _ _ hm)
    rw [hbyte] at hy
    exact Option.some.inj ((hcode y hy).symm.trans hact)
  · have hunknown : knownKind m = false := knownKind_false_iff.mpr ⟨hlow, hhigh⟩
    rcases List.mem_append.mp hx with h | h
    · obtain ⟨effect, heffect, hexec⟩ := exec_kindRow h
      exact exec_uncoded (hexec s) hs (rowKind_iff.mpr (.inr hunknown)) (heffect _ _ hm)
    · obtain ⟨act, effect, heffect, -, hexec⟩ := exec_linkRow h
      exact exec_uncoded (hexec s) hs (linkRow_of_unknown hunknown) (heffect _ _ hm)

/-- Settles O12. -/
theorem contextCommandTakesContext : Obligations.ContextCommandTakesContext := by
  refine ⟨fun s i m job c hs hm hr hc hj => ?_, fun s => ⟨fun c => freeCtx_eq_some_iff, freeCtx_eq_none_iff⟩⟩
  refine ⟨_, exec_job_takes hs hm hr hc hj, ?_, ?_, fun c' hc' => ?_, fun c' => ?_, fun hf => ?_⟩
  · rw [reserve_ctxs]
    exact reserve_frame job (s.taking i m job c)
  · refine ⟨firstWork (msgTag m) job, (work_reserve _ _ _).trans (work_setWork_same _ _ _), ?_⟩
    cases job with
    | closeDomain d => exact absurd rfl (hj d)
    | range base count expected op =>
      refine ⟨rfl, rfl, rfl, rfl, rfl, rfl, rfl, rfl, rfl, ?_, nofun, nofun⟩
      rintro _ _ _ _ ⟨⟩
      exact ⟨rfl, rfl, rfl, rfl⟩
    | query g =>
      refine ⟨rfl, rfl, rfl, rfl, rfl, rfl, rfl, rfl, rfl, nofun, ?_, nofun⟩
      rintro _ ⟨⟩
      exact ⟨rfl, rfl, rfl⟩
    | format size b n =>
      refine ⟨rfl, rfl, rfl, rfl, rfl, rfl, rfl, rfl, rfl, nofun, nofun, ?_⟩
      rintro _ _ _ ⟨⟩
      exact ⟨rfl, rfl⟩
  · exact (work_reserve _ _ _).trans (work_setWork_other _ _ hc')
  · exact (runSeq_reserve _ _ _).trans (runSeq_setWork c c' _ (s.issued i))
  · exact reserve_keeps_part hf _

/-- Settles O13: the reservation of each job. -/
theorem reservationsAtIssue : Obligations.ReservationsAtIssue := by
  intro s t i m job hs hm hr ht
  obtain ⟨c, hc⟩ := freeCtx_of_selected hs hm hr
  have hreserve : (∀ d, job ≠ .closeDomain d) → t = reserve job (s.taking i m job c) := fun hj =>
    (Host.Outcome.next.inj ((exec_job_takes hs hm hr hc hj).symm.trans ht)).symm
  refine ⟨?_, ?_, ?_, ?_, ?_, ?_⟩
  · rintro base count expected d rights rfl
    rw [hreserve nofun]
    exact ⟨domain_modDomain_same _ _ _, fun d' hd' => domain_modDomain_other _ _ hd', rfl⟩
  · rintro base count expected giver taker rights wipe rfl
    rw [hreserve nofun]
    exact ⟨domain_modDomain_same _ _ _, fun d' hd' => domain_modDomain_other _ _ hd', rfl⟩
  · rintro base count expected owner group rfl
    rw [hreserve nofun]
    exact ⟨group_modGroup_same _ _ _, fun g' hg' => group_modGroup_other _ _ hg', rfl⟩
  · rintro base count expected op rfl hop
    rw [hreserve nofun]
    rcases hop with ⟨d, wipe, rfl⟩ | ⟨g, rfl⟩ | rfl | rfl
    all_goals exact ⟨rfl, rfl⟩
  · rintro g rfl
    rw [hreserve nofun]
    exact ⟨rfl, rfl⟩
  · rintro size b n rfl
    rw [hreserve nofun]
    refine ⟨rfl, rfl, rfl, rfl, domain_modDomain_same 0 _ _, fun d' hd' => domain_modDomain_other _ _ hd',
      _, rfl, rfl, ?_, ?_⟩
    · rintro b' n' rfl rfl
      rfl
    · rintro rfl rfl
      rfl

/-- Settles O14: the sweep begins on the DRAINING domain. -/
theorem closeDomainStartsSweep : Obligations.CloseDomainStartsSweep := by
  intro s i m d c hs hm hr hc
  have hexec := exec_closeDomain_takes hs hm hr hc
  generalize hu : reserve (.closeDomain d) (s.taking i m (.closeDomain d) c) = u at hexec
  have hframe : u = { s with intake := s.intake.eraseIdx i, ctxs := u.ctxs, domains := u.domains } := by
    rw [← hu]
    rfl
  have hwork : u.work c = some (firstWork (msgTag m) (.closeDomain d)) := by
    rw [← hu, work_reserve]
    exact work_setWork_same _ _ _
  have hother : ∀ c', c' ≠ c → u.work c' = s.work c' := fun c' hc' => by
    rw [← hu, work_reserve]
    exact work_setWork_other _ _ hc'
  have hsame : u.domain d = { s.domain d with state := .draining } := by
    rw [← hu]
    exact domain_modDomain_same _ _ _
  have hdomains : ∀ d', d' ≠ d → u.domain d' = s.domain d' := fun d' hd' => by
    rw [← hu]
    exact domain_modDomain_other _ _ hd'
  have hheld : (u.domain d).held = (s.domain d).held := by rw [hsame]
  have hsize : u.tableSize = s.tableSize := by rw [hframe]
  have hres : startSweep c d u = { s with
      intake := s.intake.eraseIdx i, ctxs := (startSweep c d u).ctxs, domains := (startSweep c d u).domains } := by
    have h := startSweep_frame c d u
    generalize startSweep c d u = t at h ⊢
    rw [h, hframe]
  have hfree : s.work c = none := freeCtx_work hc
  by_cases h0 : (s.domain d).held = 0
  · rw [startSweep_of_none (hheld.trans h0), closeSweep_eq hwork] at hexec hres
    refine ⟨_, _, hexec, work_setWork_same _ _ _, rfl, rfl, hres,
      fun c' hc' => (work_setWork_other _ _ hc').trans (hother c' hc'),
      fun d' hd' => (domain_modDomain_other _ u hd').trans (hdomains d' hd'),
      fun h => absurd h0 (Nat.ne_of_gt h), fun _ => ⟨rfl, rfl, ?_⟩⟩
    refine (domain_modDomain_same d _ u).trans ?_
    rw [hsame, DomainRecord.close, ← h0]
  · have hpos := Nat.pos_of_ne_zero h0
    rw [startSweep_of_some (hheld ▸ hpos)] at hexec hres
    have hothers : otherHolds u c 0 512 = true ↔ ∃ c' w', s.work c' = some w' ∧ w'.holdsOver 0 512 = true := by
      rw [otherHolds_iff]
      constructor
      · rintro ⟨c', w', hne, hw', h⟩
        exact ⟨c', w', hother c' hne ▸ hw', h⟩
      · rintro ⟨c', w', hw', h⟩
        have hne : c' ≠ c := fun he => by
          rw [he, hfree] at hw'
          exact nomatch hw'
        exact ⟨c', w', hne, (hother c' hne).trans hw', h⟩
    have hwaits : 0 < s.tableSize → (firstWork (msgTag m) (.closeDomain d)).Waits d u.tableSize :=
      fun h => ⟨rfl, rfl, rfl, hsize.symm ▸ h⟩
    by_cases htake : 0 < s.tableSize ∧ otherHolds u c 0 512 = false
    · have htry : tryTakeWindow c u = setWork c (some (firstWork (msgTag m) (.closeDomain d)).takeWindow) u := by
        rw [tryTakeWindow_of_waits hwork (hwaits htake.1), hheld, if_neg h0]
        exact if_neg (Bool.eq_false_iff.mp htake.2)
      rw [htry] at hexec hres
      refine ⟨_, _, hexec, work_setWork_same _ _ _, rfl, rfl, hres,
        fun c' hc' => (work_setWork_other _ _ hc').trans (hother c' hc'), hdomains,
        fun _ => ⟨rfl, rfl, rfl, rfl, rfl, hsame, fun _ _ => ⟨rfl, rfl, rfl⟩, fun h => ?_⟩, fun h => absurd h h0⟩
      exact absurd (hothers.mpr h) (Bool.eq_false_iff.mp htake.2)
    · have htry : tryTakeWindow c u = u := by
        by_cases hpos : 0 < s.tableSize
        · have hholds : otherHolds u c 0 512 = true := Bool.not_eq_false _ ▸ fun h => htake ⟨hpos, h⟩
          rw [tryTakeWindow_of_waits hwork (hwaits hpos), hheld, if_neg h0]
          exact if_pos hholds
        · refine tryTakeWindow_of_not_waits (fun w d' hw h => hpos ?_)
          exact hsize ▸ Nat.lt_of_le_of_lt (Nat.zero_le _) h.cursor
      rw [htry] at hexec hres
      refine ⟨_, _, hexec, hwork, rfl, rfl, hres, hother, hdomains,
        fun _ => ⟨rfl, rfl, rfl, rfl, rfl, hsame, fun hpos hclear => ?_, fun _ => ⟨rfl, rfl⟩⟩, fun h => absurd h h0⟩
      refine absurd ⟨hpos, Bool.eq_false_iff.mpr (fun h => ?_)⟩ htake
      obtain ⟨c', w', hw', hover⟩ := hothers.mp h
      exact Bool.false_ne_true ((hclear c' w' hw').symm.trans hover)

/-- Settles O16: the posting, and the choice of the response arbiter. -/
theorem postingFreesTheContext : Obligations.PostingFreesTheContext := by
  refine ⟨fun s c w r hs hw hr => ?_, fun s i => served_iff⟩
  have hexec := execPostResponse_served hs hw hr
  have hfree : (s.posted c w r).work c = none := by
    rw [posted_eq]
    exact work_setWork_same c none s
  have hother : ∀ c', c' ≠ c → (s.posted c w r).work c' = s.work c' := fun c' hc' => by
    rw [posted_eq]
    exact work_setWork_other none s hc'
  have hseq : ∀ c', (s.posted c w r).runSeq c' = s.runSeq c' := fun c' => by
    rw [posted_eq]
    exact runSeq_setWork c c' none s
  have hdomains : (s.posted c w r).domains = s.domains := by rw [posted_eq]
  have hsize : (s.posted c w r).tableSize = s.tableSize := by rw [posted_eq]
  have hframe := offerTo_posted (s := s) allCtxs c w r
  have hoffered : ∀ c', (offerTo allCtxs (s.posted c w r)).runSeq c' = s.runSeq c' :=
    fun c' => (runSeq_offerTo _ _ _).trans (hseq c')
  have hfreed : (offerTo allCtxs (s.posted c w r)).work c = none := work_offerTo_of_free hfree
  have hsame : (∀ c' w' d, s.work c' = some w' → ¬w'.Waits d s.tableSize) →
      offerTo allCtxs (s.posted c w r) = s.posted c w r := fun hnone => by
    refine offerTo_of_none fun c' w' d hw' => hsize ▸ hnone c' w' d ?_
    by_cases hc' : c' = c
    · subst hc'
      exact nomatch hfree.symm.trans hw'
    · exact (hother c' hc').symm.trans hw'
  rw [offerWindows_eq] at hexec
  have hwork : ∀ (u : State) c', (signalInterrupt s u).work c' = u.work c' :=
    fun u c' => work_of_ctxs_eq (signalInterrupt_ctxs s u) c'
  refine ⟨_, hexec, ?_, ?_, (hwork _ c).trans hfreed,
    fun c' => (runSeq_of_ctxs_eq (signalInterrupt_ctxs s _) c').trans (hoffered c'), ?_, ?_, fun hnone => ?_, ?_⟩
  · rw [signalInterrupt_responses, hframe]
  · rw [signalInterrupt_respPtr, hframe]
    exact Nat.mod_eq_of_lt (by omega)
  · rw [signalInterrupt_part, hframe]
    cases w.job <;> rfl
  · generalize offerTo allCtxs (s.posted c w r) = u at hframe ⊢
    have h := signalInterrupt_frame s u
    generalize signalInterrupt s u = t at h ⊢
    rw [h, hframe]
  · rw [hsame fun c' w' d hw' h => by simpa [h.window] using hnone c' w' d hw' h.job h.phase]
    exact ⟨fun c' hc' => (hwork _ c').trans (hother c' hc'), (signalInterrupt_domains s _).trans hdomains⟩
  · refine congrArg (fun u => signalInterrupt s (offerTo allCtxs u)) ?_
    generalize offerTo allCtxs (s.posted c w r) = u at hframe
    rw [posted_eq, signalInterrupt_respPtr, signalInterrupt_responses, signalInterrupt_part, hframe]
    rfl

end Sys2Proof.Proofs

/-! SET_HOME, SNAPSHOT and ABORT; the statements SetHome, Snapshots and Abort. -/

namespace Sys2Proof.Machine

/-! ## SET_HOME (R19) -/

section
variable {s : State} {i : Nat} {m : Message}

theorem exec_setHome_selected {n : Fin 16} {base count : Nat} {link : LinkId} (hs : s.selected = some (i, m))
    (hm : decodeCommand m = some (.setHome n base count link)) :
    exec .setHome s = .next (signalInterrupt s (setHome m n base count link (s.issued i))) := by
  rw [exec_row_selected rfl hs hm]
  simp only [setHomeEffect, hm]

theorem overlapsOther_iff {n : Fin 16} {base count : Nat} : s.overlapsOther n base count = true ↔
    ∃ (k : Fin 16) (h : HomeWindow), k ≠ n ∧ s.homes[k.val] = some h ∧ overlaps base count h.base h.count = true := by
  simp only [State.overlapsOther, List.any_eq_true, List.mem_finRange, true_and, Bool.and_eq_true, Bool.not_eq_true',
    beq_eq_false_iff_ne]
  refine exists_congr fun k => ?_
  cases hk : s.homes[k.val] <;> simp [windowOverlaps]

/-- Some active range command's range overlaps an extent. -/
theorem underChange_iff {base count : Nat} : s.underChange base count = true ↔
    ∃ c w b k e op, s.work c = some w ∧ w.job = .range b k e op ∧ overlaps base count b k = true := by
  rw [State.underChange, anyCtx_iff]
  refine exists_congr fun c => exists_congr fun w => ?_
  cases w.job with
  | range b k e op =>
    refine ⟨fun ⟨hw, ho⟩ => ⟨b, k, e, op, hw, rfl, ho⟩, ?_⟩
    rintro ⟨b, k, e, op, hw, hj, ho⟩
    cases hj
    exact ⟨hw, ho⟩
  | query _ | format _ _ _ | closeDomain _ =>
    exact ⟨fun ⟨_, ho⟩ => Bool.noConfusion (ho : false = true), fun ⟨_, _, _, _, _, hj, _⟩ => nomatch hj⟩

theorem sweepInProgress_iff : s.sweepInProgress = true ↔
    ∃ c w d, s.work c = some w ∧ w.job = .closeDomain d ∧ w.phase ≠ .post := by
  rw [State.sweepInProgress, anyCtx_iff]
  refine exists_congr fun c => exists_congr fun w => ?_
  cases w.job <;> simp

theorem homeBusy_iff {n : Fin 16} {base count : Nat} : s.homeBusy n base count = true ↔
    (0 < count ∧ s.underChange base count = true) ∨
    (∃ h, s.homes[n.val] = some h ∧ s.underChange h.base h.count = true) ∨ s.sweepInProgress = true := by
  unfold State.homeBusy
  cases hn : s.homes[n.val] with
  | none =>
    simp only [Bool.or_eq_true, Bool.and_eq_true, decide_eq_true_eq, Bool.false_eq_true, or_false, reduceCtorEq, false_and,
      exists_false, false_or]
    exact Or.comm
  | some h =>
    simp only [Bool.or_eq_true, Bool.and_eq_true, decide_eq_true_eq, Option.some.injEq, exists_eq_left']
    exact or_assoc.trans (Or.comm.trans or_assoc)

/-- The tests of R19 as conditions. -/
theorem firstFails_setHomeTests (s : State) (n : Fin 16) (base count : Nat) (link : LinkId) :
    FirstFails (firstFailure (setHomeTests s n base count link))
      [(0 < count ∧ 4 ≤ link.val, .badField), (0 < count ∧ 67108864 < base + count, .range),
       (0 < count ∧ s.overlapsOther n base count = true, .range), (s.homeBusy n base count = true, .badState)] := by
  refine firstFails_cons _ ?_ (firstFails_cons _ ?_ (firstFails_cons _ ?_ (firstFails_cons _ Iff.rfl firstFails_nil)))
  · simp [isMemoryLink]
  · rw [Bool.and_eq_true, decide_eq_true_iff, decide_eq_true_iff, Config.granules]
  · rw [Bool.and_eq_true, decide_eq_true_iff]

theorem setHome_of_failure {n : Fin 16} {base count : Nat} {link : LinkId} {reason : Reason}
    (h : firstFailure (setHomeTests s n base count link) = some reason) (m : Message) :
    setHome m n base count link s = answer m .refused (some reason) s := by
  simp only [setHome, h, refuse]

theorem setHome_of_pass {n : Fin 16} {base count : Nat} {link : LinkId}
    (h : firstFailure (setHomeTests s n base count link) = none) (m : Message) :
    setHome m n base count link s = answer m .ok none { s with
      homes := s.homes.set n.val (if count = 0 then none else some { base := base, count := count, link := link })
        n.isLt } := by
  simp only [setHome, h]

theorem setHomeTests_issued (s : State) (i : Nat) (n : Fin 16) (base count : Nat) (link : LinkId) :
    setHomeTests (s.issued i) n base count link = setHomeTests s n base count link := rfl

end

/-! ## Snapshots (R160, R161) -/

theorem exec_snapshot_selected {s : State} {i : Nat} {m : Message} (hs : s.selected = some (i, m))
    (hm : decodeCommand m = some .snapshot) :
    exec .snapshot s = .next (signalInterrupt s (answer m .ok none (takeSnapshot (s.issued i)))) := by
  rw [exec_row_selected rfl hs hm]
  simp only [snapshotEffect, hm]

theorem snapshotWatermark_eq (mode : WatermarkMode) (n : Nat) (w : Watermark) : snapshotWatermark mode n w =
    { copy := w.indicator, indicator := if mode = .peak then n else w.indicator } := by
  cases mode <;> rfl

theorem restartedTimer_eq (s : State) : restartedTimer s =
    if s.settings.snapshotMode = .auto then some s.settings.snapshotInterval else s.snapTimer := by
  unfold restartedTimer
  cases s.settings.snapshotMode <;> rfl

/-! ## ABORT (R75 to R80) -/

section
variable {s : State} {i : Nat} {m : Message} {c : CtxId} {w : Work}

theorem exec_abort_selected {target : BitVec 16} (hs : s.selected = some (i, m))
    (hm : decodeCommand m = some (.abort target)) :
    exec .abort s = .next (signalInterrupt s (abortTarget m target (s.issued i))) := by
  rw [exec_row_selected rfl hs hm]
  simp only [abortEffect, hm]

theorem queuedTarget_eq_some_iff {target : BitVec 16} {intake : List Message} {j : Nat} :
    queuedTarget target intake = some j ↔ (∃ q, intake[j]? = some q ∧ isUrgent q = false ∧ msgTag q = target) ∧
      ∀ k, k < j → ∀ x, intake[k]? = some x → ¬(isUrgent x = false ∧ msgTag x = target) := by
  rw [queuedTarget, List.findIdx?_eq_some_iff_getElem]
  simp only [Bool.and_eq_true, Bool.not_eq_true', beq_iff_eq]
  constructor
  · rintro ⟨hj, ht, hfirst⟩
    refine ⟨⟨_, List.getElem?_eq_getElem hj, ht⟩, fun k hk x hx => ?_⟩
    obtain ⟨_, rfl⟩ := List.getElem?_eq_some_iff.mp hx
    exact hfirst k hk
  · rintro ⟨⟨q, hq, ht⟩, hfirst⟩
    obtain ⟨hj, rfl⟩ := List.getElem?_eq_some_iff.mp hq
    exact ⟨hj, ht, fun k hk => hfirst k hk _ (List.getElem?_eq_getElem (Nat.lt_trans hk hj))⟩

theorem queuedTarget_eq_none_iff {target : BitVec 16} {intake : List Message} :
    queuedTarget target intake = none ↔ ∀ x ∈ intake, ¬(isUrgent x = false ∧ msgTag x = target) := by
  simp only [queuedTarget, List.findIdx?_eq_none_iff, Bool.and_eq_false_iff, Bool.not_eq_false', beq_eq_false_iff_ne,
    Classical.not_and_iff_not_or_not, Bool.not_eq_false, ne_eq]

theorem abortTarget_queued {target : BitVec 16} {j : Nat} {q : Message} (h : queuedTarget target s.intake = some j)
    (hq : s.intake[j]? = some q) : abortTarget m target s = abortQueued m j q s := by
  simp only [abortTarget, h, State.message, hq]

theorem abortTarget_active {target : BitVec 16} (h : queuedTarget target s.intake = none) :
    abortTarget m target s = abortActive m target s := by
  simp only [abortTarget, h]

theorem abortActive_of_none {target : BitVec 16} (h : findCtx s (fun w => w.tag == target) = none) :
    abortActive m target s = answer m .noTarget none s := by
  simp only [abortActive, h]

theorem abortActive_of_some {target : BitVec 16} (h : findCtx s (fun w => w.tag == target) = some c)
    (hw : s.work c = some w) : abortActive m target s =
      if w.job.abortable then abortContext m c w s else answer m .refused (some .notAbortable) s := by
  simp only [abortActive, h, hw]
  rfl

theorem abortable_false_iff {job : Job} : job.abortable = false ↔
    (∃ size b n, job = .format size b n) ∨ ∃ d, job = .closeDomain d := by
  cases job <;> simp [Job.abortable]

/-- What an ABORT that goes through does to the context's work, by its phase (Table 4.7). -/
def abortWork (c : CtxId) (w : Work) (s : State) : State :=
  match w.phase with
  | .read | .validate => abortEarly c w s
  | .mark => abortMarking c w s
  | .recall | .commit => modWork c (fun w => { w with abortMark := true }) s
  | .wipe => abortWiping c s
  | .post | .scan | .fill => s

theorem abortContext_of_post (h : w.phase = .post) : abortContext m c w s = answer m .late none s := if_pos h

theorem abortContext_of_marked (h : w.phase ≠ .post) (ha : w.abortMark = true) :
    abortContext m c w s = answer m .ok none s := by
  rw [abortContext, if_neg h, if_pos ha]

theorem abortContext_of_unmarked (h : w.phase ≠ .post) (ha : w.abortMark = false) :
    abortContext m c w s = answer m .ok none (abortWork c w s) := by
  rw [abortContext, if_neg h, if_neg (by rw [ha]; exact Bool.false_ne_true)]
  cases hp : w.phase <;> simp only [abortWork, hp]

/-! Giving back and stopping -/

theorem releaseReservation_frame (job : Job) (n : Nat) (s : State) : releaseReservation job n s =
    { s with domains := (releaseReservation job n s).domains, groups := (releaseReservation job n s).groups } := by
  unfold releaseReservation
  split <;> rfl

/-- What a reservation gives back depends on the two tables alone. -/
theorem releaseReservation_tables {s u : State} (hd : u.domains = s.domains) (hg : u.groups = s.groups) (job : Job)
    (n : Nat) : (releaseReservation job n u).domains = (releaseReservation job n s).domains ∧
      (releaseReservation job n u).groups = (releaseReservation job n s).groups := by
  have hdomain : ∀ d, u.domain d = s.domain d := fun d => by rw [State.domain, hd, State.domain]
  have hgroup : ∀ g, u.group g = s.group g := fun g => by rw [State.group, hg, State.group]
  unfold releaseReservation
  split <;> simp only [lowerIncoming, lowerRefs, modDomain, modGroup, hdomain, hgroup, hd, hg, and_self]

theorem work_releaseReservation (job : Job) (n : Nat) (s : State) (c : CtxId) :
    (releaseReservation job n s).work c = s.work c := work_of_ctxs_eq (releaseReservation_ctxs job n s) c

theorem stopContext_eq (hw : s.work c = some w) (v : Work) : stopContext c v s =
    releaseReservation v.job (v.job.limit - v.cursor)
      (setWork c (some (w.enterPost .aborted none w.counts)) (advanceSeq c s)) := by
  rw [stopContext, modWork_of_work _ ((work_advanceSeq c c s).trans hw)]

theorem withdrawRequest_eq (hw : s.work c = some w) : withdrawRequest c s =
    setWork c (some { w with request := .noRequest, waiting := false }) (removeWaiters (Waiter.ofCtx c) s) :=
  modWork_of_work (s := removeWaiters (Waiter.ofCtx c) s) _ hw

theorem abortEarly_eq (hw : s.work c = some w) : abortEarly c w s = releaseReservation w.job w.job.count
    (setWork c (some (w.enterPost .aborted none (.counts 0 0 0))) (removeWaiters (Waiter.ofCtx c) s)) := by
  rw [abortEarly, withdrawRequest_eq hw, modWork_of_work _ (work_setWork_same _ _ _), setWork_setWork]
  rfl

/-- The context of a MARK that takes an ABORT, before its revert or its stop. -/
theorem abortMarking_withdrawn (hw : s.work c = some w) :
    modWork c (fun w => { w with abortMark := true }) (withdrawRequest c s) =
      setWork c (some { w with request := .noRequest, waiting := false, abortMark := true })
        (removeWaiters (Waiter.ofCtx c) s) := by
  rw [withdrawRequest_eq hw, modWork_of_work _ (work_setWork_same _ _ _), setWork_setWork]

theorem abortMarking_of_marked (hw : s.work c = some w) (hmarked : w.run.any (fun r => !r.image.isEmpty) = true) :
    abortMarking c w s = setWork c (some { w with abortMark := true, request := .revert, waiting := false })
      (removeWaiters (Waiter.ofCtx c) s) := by
  rw [abortMarking, abortMarking_withdrawn hw, if_pos hmarked, modWork_of_work _ (work_setWork_same _ _ _),
    setWork_setWork]

theorem abortMarking_of_unmarked (hw : s.work c = some w) (hmarked : ¬w.run.any (fun r => !r.image.isEmpty) = true) :
    abortMarking c w s = stopContext c w
      (setWork c (some { w with request := .noRequest, waiting := false, abortMark := true })
        (removeWaiters (Waiter.ofCtx c) s)) := by
  rw [abortMarking, abortMarking_withdrawn hw, if_neg hmarked]

theorem abortWork_of_early (h : w.phase = .read ∨ w.phase = .validate) : abortWork c w s = abortEarly c w s := by
  rcases h with h | h <;> rw [abortWork, h]

theorem abortWork_of_mark (h : w.phase = .mark) : abortWork c w s = abortMarking c w s := by rw [abortWork, h]

theorem abortWork_of_carried (hw : s.work c = some w) (h : w.phase = .recall ∨ w.phase = .commit) :
    abortWork c w s = setWork c (some { w with abortMark := true }) s := by
  rw [← modWork_of_work (fun w => { w with abortMark := true }) hw]
  rcases h with h | h <;> rw [abortWork, h]

theorem abortWork_of_wipe (hw : s.work c = some w) (h : w.phase = .wipe) : abortWork c w s = setWork c (some { w with
    abortMark := true, request := if w.request = .wipeStart then .revert else w.request }) s := by
  rw [← modWork_of_work (fun w => { w with
    abortMark := true, request := if w.request = .wipeStart then .revert else w.request }) hw, abortWork, h]
  rfl

/-- An ABORT writes its context, the waiters of the Miss Queue and the two tables. -/
structure AbortWrites (c : CtxId) (s u : State) : Prop where
  frame : u = { s with ctxs := u.ctxs, miss := u.miss, domains := u.domains, groups := u.groups }
  work : ∀ c', c' ≠ c → u.work c' = s.work c'

theorem AbortWrites.release {u : State} (h : AbortWrites c s u) (job : Job) (n : Nat) :
    AbortWrites c s (releaseReservation job n u) := by
  refine ⟨?_, fun c' hc' => (work_releaseReservation job n u c').trans (h.work c' hc')⟩
  rw [releaseReservation_frame, h.frame]

theorem AbortWrites.setWork {u : State} (h : AbortWrites c s u) (w : Option Work) : AbortWrites c s (setWork c w u) := by
  refine ⟨?_, fun c' hc' => (work_setWork_other w u hc').trans (h.work c' hc')⟩
  rw [h.frame]
  rfl

theorem AbortWrites.advanceSeq {u : State} (h : AbortWrites c s u) : AbortWrites c s (advanceSeq c u) := by
  refine ⟨?_, fun c' hc' => (work_advanceSeq c c' u).trans (h.work c' hc')⟩
  rw [h.frame]
  rfl

theorem AbortWrites.refl (c : CtxId) (s : State) : AbortWrites c s s := ⟨rfl, fun _ _ => rfl⟩

theorem AbortWrites.removeWaiters (c : CtxId) (p : Waiter → Bool) (s : State) : AbortWrites c s (removeWaiters p s) :=
  ⟨rfl, fun _ _ => rfl⟩

theorem stopContext_writes {u : State} (h : AbortWrites c s u) (hu : u.work c = some w) (v : Work) :
    AbortWrites c s (stopContext c v u) := by
  rw [stopContext_eq hu]
  exact (h.advanceSeq.setWork _).release _ _

theorem abortWork_writes (hw : s.work c = some w) : AbortWrites c s (abortWork c w s) := by
  have hremoved := AbortWrites.removeWaiters c (Waiter.ofCtx c) s
  have hrefl := AbortWrites.refl c s
  match hp : w.phase with
  | .read =>
    rw [abortWork_of_early (.inl hp), abortEarly_eq hw]
    exact (hremoved.setWork _).release _ _
  | .validate =>
    rw [abortWork_of_early (.inr hp), abortEarly_eq hw]
    exact (hremoved.setWork _).release _ _
  | .mark =>
    rw [abortWork_of_mark hp]
    by_cases hmarked : w.run.any (fun r => !r.image.isEmpty) = true
    · rw [abortMarking_of_marked hw hmarked]
      exact hremoved.setWork _
    · rw [abortMarking_of_unmarked hw hmarked]
      exact stopContext_writes (hremoved.setWork _) (work_setWork_same _ _ _) w
  | .recall =>
    rw [abortWork_of_carried hw (.inl hp)]
    exact hrefl.setWork _
  | .commit =>
    rw [abortWork_of_carried hw (.inr hp)]
    exact hrefl.setWork _
  | .wipe =>
    rw [abortWork_of_wipe hw hp]
    exact hrefl.setWork _
  | .post | .scan | .fill =>
    rw [abortWork, hp]
    exact hrefl

/-- READ and VALIDATE stop, with the whole reservation given back. -/
theorem abortWork_early (hw : s.work c = some w) (h : w.phase = .read ∨ w.phase = .validate) :
    let u := abortWork c w s
    u.work c = some (w.enterPost .aborted none (.counts 0 0 0)) ∧
      u.domains = (releaseReservation w.job w.job.count s).domains ∧
      u.groups = (releaseReservation w.job w.job.count s).groups ∧
      u.miss = (removeWaiters (Waiter.ofCtx c) s).miss := by
  dsimp only
  rw [abortWork_of_early h, abortEarly_eq hw]
  obtain ⟨hd, hg⟩ := releaseReservation_tables (s := s)
    (u := setWork c (some (w.enterPost .aborted none (.counts 0 0 0))) (removeWaiters (Waiter.ofCtx c) s)) rfl rfl
    w.job w.job.count
  refine ⟨(work_releaseReservation _ _ _ _).trans (work_setWork_same _ _ _), hd, hg, ?_⟩
  rw [releaseReservation_frame]
  rfl

/-- MARK with no record marked stops, and the reservation of the granules not committed is given back. -/
theorem abortWork_unmarked (hw : s.work c = some w) (hp : w.phase = .mark)
    (hmarked : ¬w.run.any (fun r => !r.image.isEmpty) = true) :
    let u := abortWork c w s
    u.work c = some ({ w with abortMark := true }.enterPost .aborted none w.counts) ∧
      u.miss = (removeWaiters (Waiter.ofCtx c) s).miss ∧
      u.domains = (releaseReservation w.job (w.job.limit - w.cursor) s).domains ∧
      u.groups = (releaseReservation w.job (w.job.limit - w.cursor) s).groups := by
  dsimp only
  rw [abortWork_of_mark hp, abortMarking_of_unmarked hw hmarked, stopContext_eq (work_setWork_same _ _ _)]
  generalize hv : setWork c _ (advanceSeq c _) = v
  have hdomains : v.domains = s.domains := by rw [← hv]; rfl
  have hgroups : v.groups = s.groups := by rw [← hv]; rfl
  obtain ⟨hd, hg⟩ := releaseReservation_tables hdomains hgroups w.job (w.job.limit - w.cursor)
  refine ⟨(work_releaseReservation _ _ _ _).trans ?_, ?_, hd, hg⟩
  · rw [← hv]
    exact work_setWork_same _ _ _
  · rw [releaseReservation_frame, ← hv]
    rfl

end

end Sys2Proof.Machine

namespace Sys2Proof.Proofs
open Sys2Proof.Machine

/-- Settles O21: the tests in their order, and the window written. -/
theorem setHome : Obligations.SetHome := by
  intro s i m n base count link hs hm refused badLink badRange meets busy
  have hexec := exec_setHome_selected hs hm
  have hfail : ∀ reason, firstFailure (setHomeTests s n base count link) = some reason → refused reason :=
    fun reason h => by
      rw [setHome_of_failure (s := s.issued i) h] at hexec
      exact hexec
  obtain ⟨hlink, hrest⟩ := firstFails_setHomeTests s n base count link
  have hbusy : busy ↔ s.homeBusy n base count = true := by
    simp only [busy, meets, homeBusy_iff, underChange_iff, sweepInProgress_iff]
  refine ⟨fun h => hfail _ (hlink h), fun h hr => ?_, fun h hr hb => ?_, fun h hr hb => ?_⟩
  · obtain ⟨hgranules, hrest⟩ := hrest h
    obtain ⟨hcount, hr⟩ := hr
    by_cases hg : 0 < count ∧ 67108864 < base + count
    · exact hfail _ (hgranules hg)
    · obtain ⟨hover, -⟩ := hrest hg
      refine hfail _ (hover ⟨hcount, overlapsOther_iff.mpr ?_⟩)
      exact hr.resolve_left fun h' => hg ⟨hcount, h'⟩
  · obtain ⟨-, hrest⟩ := hrest h
    obtain ⟨-, hrest⟩ := hrest fun ⟨hc, hg⟩ => hr ⟨hc, .inl hg⟩
    obtain ⟨hstate, -⟩ := hrest fun ⟨hc, ho⟩ => hr ⟨hc, .inr (overlapsOther_iff.mp ho)⟩
    exact hfail _ (hstate (hbusy.mp hb))
  · obtain ⟨-, hrest⟩ := hrest h
    obtain ⟨-, hrest⟩ := hrest fun ⟨hc, hg⟩ => hr ⟨hc, .inl hg⟩
    obtain ⟨-, hpass⟩ := hrest fun ⟨hc, ho⟩ => hr ⟨hc, .inr (overlapsOther_iff.mp ho)⟩
    have hnone : firstFailure (setHomeTests (s.issued i) n base count link) = none := hpass (mt hbusy.mpr hb)
    rw [setHome_of_pass hnone] at hexec
    refine ⟨_, hexec, ?_, fun k => ?_⟩
    · rw [signalInterrupt_homes]
      rfl
    · rw [signalInterrupt_homes]
      refine (Vector.getElem_set n.isLt k.isLt).trans ?_
      by_cases hk : k = n
      · rw [if_pos hk, if_pos (congrArg Fin.val hk).symm]
      · rw [if_neg hk, if_neg fun h => hk (Fin.ext h.symm)]
        rfl

/-- Settles O22: what a snapshot copies and restarts. -/
theorem snapshots : Obligations.Snapshots := by
  refine ⟨fun s => ⟨fun i m => exec_snapshot_selected, fun h => ?_⟩, fun s => ⟨rfl, fun n => ⟨rfl, ?_⟩,
    snapshotWatermark_eq _ _ _, snapshotWatermark_eq _ _ _, restartedTimer_eq s⟩⟩
  · have hexec : exec .snapshotIntervalExpiry s =
        .next (signalInterrupt s (if s.snapTimer.isSome then takeSnapshot s else s)) := rfl
    rw [hexec, if_pos h]
    exact congrArg Host.Outcome.next (signalInterrupt_same rfl rfl rfl rfl)
  · exact Vector.getElem_replicate _

/-- Settles O23: a queued target, no target, and the effect of each phase on an active one. -/
theorem abort : Obligations.Abort := by
  refine ⟨fun s i j m q target hs hm hj hq => ?_, fun s i m target hs hm hnone => ?_,
    fun target intake => ⟨fun j => queuedTarget_eq_some_iff, queuedTarget_eq_none_iff⟩⟩
  · have hexec := exec_abort_selected hs hm
    rw [abortTarget_queued hj hq] at hexec
    obtain ⟨⟨q', hq', hurgent, htag⟩, -⟩ := queuedTarget_eq_some_iff.mp hj
    cases hq.symm.trans hq'
    refine ⟨htag, hurgent, fun hk => ?_, fun h9 hA => ?_⟩
    · rw [abortQueued, if_pos hk] at hexec
      exact hexec
    · rw [abortQueued, if_neg (fun h => h.elim h9 hA)] at hexec
      rw [hexec]
      refine congrArg (fun u => Host.Outcome.next (signalInterrupt s u)) ?_
      simp only [answer, placeResponse, schedulerServed, State.issued, plainResponse, List.append_assoc,
        List.cons_append, List.nil_append]
  · intro only
    have hexec := exec_abort_selected hs hm
    rw [abortTarget_active hnone] at hexec
    refine ⟨fun h => ?_, fun c w hc hw => ?_⟩
    · rw [abortActive_of_none (s := s.issued i) h] at hexec
      exact hexec
    · have hw' : (s.issued i).work c = some w := hw
      rw [abortActive_of_some (s := s.issued i) hc hw'] at hexec
      refine ⟨fun h => ?_, fun ha hp => ?_, fun ha hp hmark => ?_, fun ha hmark hp => ?_⟩
      · rw [abortable_false_iff.mpr h] at hexec
        exact hexec
      · rw [if_pos ha, abortContext_of_post hp] at hexec
        exact hexec
      · rw [if_pos ha, abortContext_of_marked hp hmark] at hexec
        exact hexec
      · have hnotpost : w.phase ≠ .post := fun h => by simp [h] at hp
        rw [if_pos ha, abortContext_of_unmarked hnotpost hmark] at hexec
        have hwrites := abortWork_writes hw'
        have hctxs : ∀ u c', (signalInterrupt s (answer m .ok none u)).work c' = u.work c' :=
          fun u c' => work_of_ctxs_eq (signalInterrupt_ctxs s (answer m .ok none u)) c'
        have hd : ∀ u, (signalInterrupt s (answer m .ok none u)).domains = u.domains :=
          fun u => signalInterrupt_domains s (answer m .ok none u)
        have hg : ∀ u, (signalInterrupt s (answer m .ok none u)).groups = u.groups :=
          fun u => signalInterrupt_groups s (answer m .ok none u)
        have hmiss : ∀ u, (signalInterrupt s (answer m .ok none u)).miss = u.miss :=
          fun u => signalInterrupt_miss s (answer m .ok none u)
        have hrelease : ∀ n, (releaseReservation w.job n (s.issued i)).domains = (releaseReservation w.job n s).domains ∧
            (releaseReservation w.job n (s.issued i)).groups = (releaseReservation w.job n s).groups :=
          releaseReservation_tables (s := s) (u := s.issued i) rfl rfl w.job
        have hany : ∀ {r : Run}, w.run = some r → (w.run.any (fun r => !r.image.isEmpty) = true ↔ r.image ≠ []) :=
          fun hr => by rw [hr, Option.any_some, Bool.not_eq_true', List.isEmpty_eq_false_iff]
        refine ⟨_, hexec, ?_, fun c' hc' => (hctxs _ c').trans (hwrites.work c' hc'), fun hearly => ?_,
          fun r hp hr hi => ?_, fun r hp hr hi => ?_, fun hcarried => ?_, fun hp => ?_⟩
        · rw [signalInterrupt_ctxs, hmiss, hd, hg]
          exact congrArg (fun u => signalInterrupt s (answer m .ok none u)) hwrites.frame
        · obtain ⟨h1, h2, h3, h4⟩ := abortWork_early hw' hearly
          obtain ⟨hrd, hrg⟩ := hrelease w.job.count
          exact ⟨(hctxs _ c).trans h1, (hd _).trans (h2.trans hrd), (hg _).trans (h3.trans hrg), (hmiss _).trans h4⟩
        · rw [hctxs, hmiss, hd, hg, abortWork_of_mark hp, abortMarking_of_marked hw' ((hany hr).mpr hi)]
          exact ⟨work_setWork_same _ _ _, rfl, rfl, rfl⟩
        · obtain ⟨h1, h2, h3, h4⟩ := abortWork_unmarked hw' hp (fun h => (hany hr).mp h hi)
          obtain ⟨hrd, hrg⟩ := hrelease (w.job.limit - w.cursor)
          exact ⟨⟨_, (hctxs _ c).trans h1, rfl, rfl, rfl⟩, (hmiss _).trans h2, (hd _).trans (h3.trans hrd),
            (hg _).trans (h4.trans hrg)⟩
        · rw [hctxs, hmiss, hd, hg, abortWork_of_carried hw' hcarried]
          exact ⟨work_setWork_same _ _ _, rfl, rfl, rfl⟩
        · rw [hctxs, hmiss, hd, hg, abortWork_of_wipe hw' hp]
          exact ⟨work_setWork_same _ _ _, rfl, rfl, rfl⟩

end Sys2Proof.Proofs

/-! A context's marks, its fences and how it takes what happens to a link (Table 6.3, R112, R113); the statement
ContextsTakeLinkChanges. -/

namespace Sys2Proof.Machine

theorem mem_allLinks (l : LinkId) : l ∈ allLinks := by
  revert l
  decide

theorem nodup_allLinks : allLinks.Nodup := by decide

section
variable {r : Run} {l l' : LinkId}

/-! ## Marks -/

@[simp] theorem mark_setMark_same (r : Run) (l : LinkId) (m : RecallMark) : (r.setMark l m).mark l = m := by
  simp [Run.setMark, Run.mark]

theorem mark_setMark_other (m : RecallMark) (h : l' ≠ l) : (r.setMark l m).mark l' = r.mark l' := by
  have : l.val ≠ l'.val := fun e => h (Fin.ext e.symm)
  simp [Run.setMark, Run.mark, this]

theorem mark_of_marks_eq {r' : Run} (h : r'.marks = r.marks) (l : LinkId) : r'.mark l = r.mark l := by
  simp only [Run.mark, h]

theorem allCleared_iff : r.allCleared = true ↔ ∀ l, r.mark l = .noMark := by
  simp only [Run.allCleared, List.all_eq_true, mem_allLinks, true_imp_iff, decide_eq_true_eq]

/-- With one mark set to none, the marks are all none where the others are. -/
theorem allCleared_setMark_iff : (r.setMark l .noMark).allCleared = true ↔ ∀ l', l' ≠ l → r.mark l' = .noMark := by
  rw [allCleared_iff]
  refine ⟨fun h l' hl' => ?_, fun h l' => ?_⟩
  · rw [← h l', mark_setMark_other _ hl']
  · by_cases hl' : l' = l
    · rw [hl', mark_setMark_same]
    · rw [mark_setMark_other _ hl', h l' hl']

theorem allCleared_of_marks_eq {r' : Run} (h : r'.marks = r.marks) : r'.allCleared = r.allCleared := by
  rw [Bool.eq_iff_iff, allCleared_iff, allCleared_iff]
  exact forall_congr' fun l => by rw [mark_of_marks_eq h]

/-! ## Fences -/

theorem fence_of_clean (cause : FenceCause) (link : Option LinkId) (h : r.outcome = .clean) :
    r.fence cause link = { r with outcome := .fenced cause link } := by
  simp only [Run.fence, h]

theorem fence_of_fenced (cause : FenceCause) (link : Option LinkId) (h : r.outcome ≠ .clean) : r.fence cause link = r := by
  unfold Run.fence
  split
  · next hc => exact absurd hc h
  · rfl

theorem fence_outcome_ne_clean (cause : FenceCause) (link : Option LinkId) (r : Run) :
    (r.fence cause link).outcome ≠ .clean := by
  by_cases h : r.outcome = .clean
  · rw [fence_of_clean cause link h]
    nofun
  · rw [fence_of_fenced cause link h]
    exact h

/-- A fence writes the outcome alone. -/
theorem fence_frame (cause : FenceCause) (link : Option LinkId) (r : Run) :
    r.fence cause link = { r with outcome := (r.fence cause link).outcome } := by
  unfold Run.fence
  split <;> rfl

theorem fence_marks (cause : FenceCause) (link : Option LinkId) (r : Run) : (r.fence cause link).marks = r.marks := by
  rw [fence_frame]

end

section
variable {w : Work} {r : Run} {l : LinkId}

theorem markOf_of_run (hr : w.run = some r) (l : LinkId) : w.markOf l = r.mark l := by
  simp only [Work.markOf, hr]

theorem wipeOutstanding_iff (hr : w.run = some r) : w.wipeOutstanding l = true ↔ r.wipe = .outstanding l := by
  simp only [Work.wipeOutstanding, hr, decide_eq_true_eq]

theorem modRun_of_run (f : Run → Run) (hr : w.run = some r) : w.modRun f = { w with run := some (f r) } := by
  rw [Work.modRun, hr, Option.map_some]

/-! ## The end of the recall phase (Table 5.5b) -/

theorem endRecall_of_fenced (hr : w.run = some r) (ho : r.outcome ≠ .clean) : w.endRecall =
    { w with run := some { r with deadline := none }, phase := .commit, request := .commit false, waiting := false } := by
  simp only [Work.endRecall, hr]
  split
  · rfl
  · next h _ => exact absurd h ho
  · next h _ => exact absurd h ho

theorem endRecall_of_aborted (hr : w.run = some r) (ho : r.outcome = .clean) (ha : w.abortMark = true) : w.endRecall =
    { w with run := some { r with deadline := none }, request := .revert } := by
  simp only [Work.endRecall, hr, ho, ha]

theorem endRecall_of_wipe (hr : w.run = some r) (ho : r.outcome = .clean) (ha : w.abortMark = false)
    (hn : r.needsWipe = true) : w.endRecall =
      { w with run := some { r with deadline := none }, phase := .wipe, request := .wipeStart } := by
  simp only [Work.endRecall, hr, ho, ha, hn, if_true]

theorem endRecall_of_clean (hr : w.run = some r) (ho : r.outcome = .clean) (ha : w.abortMark = false)
    (hn : r.needsWipe = false) : w.endRecall = { w with
      run := some { r with deadline := none }, phase := .commit, request := .commit false, waiting := false } := by
  simp only [Work.endRecall, hr, ho, ha, hn, Bool.false_eq_true, if_false]
  rfl

theorem endRecallIfCleared_of_cleared (hr : w.run = some r) (h : r.allCleared = true) :
    w.endRecallIfCleared = w.endRecall := by
  simp only [Work.endRecallIfCleared, hr, h, if_true]

theorem endRecallIfCleared_of_marked (hr : w.run = some r) (h : r.allCleared = false) : w.endRecallIfCleared = w := by
  simp only [Work.endRecallIfCleared, hr, h, Bool.false_eq_true, if_false]

theorem failWipe_of_run (cause : FenceCause) (link : Option LinkId) (hr : w.run = some r) : w.failWipe cause link =
    { w with run := some { r.fence cause link with wipe := .notSent, deadline := none }
             phase := .commit, request := .commit false, waiting := false } := by
  rw [Work.failWipe, modRun_of_run _ hr]
  rfl

/-! ## What a context takes of a link (Table 6.3, R112, R113) -/

/-- The run after the mark of a link has cleared. -/
def Run.clear (l : LinkId) (r : Run) : Run := { r.setMark l .noMark with cleared := addLink l r.cleared }

theorem clearMark_eq (hr : w.run = some r) (l : LinkId) :
    w.clearMark l = { w with run := some (r.clear l) }.endRecallIfCleared := by
  rw [Work.clearMark, modRun_of_run _ hr]
  rfl

theorem clear_allCleared_iff : (r.clear l).allCleared = true ↔ ∀ l', l' ≠ l → r.mark l' = .noMark := by
  rw [← allCleared_setMark_iff, allCleared_of_marks_eq (r := r.setMark l .noMark) (r' := r.clear l) rfl]

/-- Some other mark is left. -/
theorem allCleared_false_of_other {r' : Run} {l' : LinkId} (h : r'.mark l' ≠ .noMark) : r'.allCleared = false :=
  Bool.eq_false_iff.mpr fun hc => h (allCleared_iff.mp hc l')

theorem clearMark_of_other {l' : LinkId} (hr : w.run = some r) (hl : l' ≠ l) (hm : r.mark l' ≠ .noMark) :
    w.clearMark l = { w with run := some (r.clear l) } := by
  rw [clearMark_eq hr]
  refine endRecallIfCleared_of_marked rfl (allCleared_false_of_other (l' := l') ?_)
  rw [mark_of_marks_eq (r := r.setMark l .noMark) (r' := r.clear l) rfl, mark_setMark_other _ hl]
  exact hm

theorem clearMark_of_last (hr : w.run = some r) (h : ∀ l', l' ≠ l → r.mark l' = .noMark) :
    w.clearMark l = { w with run := some (r.clear l) }.endRecall := by
  rw [clearMark_eq hr]
  exact endRecallIfCleared_of_cleared rfl (clear_allCleared_iff.mpr h)

theorem linkRejoining_of_awaiting (hr : w.run = some r) (hm : r.mark l = .awaitingAck) (hw : r.wipe ≠ .outstanding l) :
    w.linkRejoining l = { w with run := some (r.setMark l .awaitingRejoin) } := by
  have hout : ¬{ w with run := some (r.setMark l .awaitingRejoin) }.wipeOutstanding l = true :=
    mt (wipeOutstanding_iff (r := r.setMark l .awaitingRejoin) rfl).mp hw
  rw [Work.linkRejoining, markOf_of_run hr, if_pos hm, modRun_of_run _ hr]
  exact if_neg hout

theorem linkRejoining_of_not_awaiting (hr : w.run = some r) (hm : r.mark l ≠ .awaitingAck)
    (hw : r.wipe ≠ .outstanding l) : w.linkRejoining l = w := by
  rw [Work.linkRejoining, markOf_of_run hr, if_neg hm]
  exact if_neg (mt (wipeOutstanding_iff hr).mp hw)

theorem linkRejoining_of_wipe (hr : w.run = some r) (hm : r.mark l ≠ .awaitingAck) (hw : r.wipe = .outstanding l) :
    w.linkRejoining l = w.failWipe .wipeLinkDown (some l) := by
  rw [Work.linkRejoining, markOf_of_run hr, if_neg hm]
  exact if_pos ((wipeOutstanding_iff hr).mpr hw)

theorem linkLost_of_wipe (cause : FenceCause) (hr : w.run = some r) (hw : r.wipe = .outstanding l) :
    w.linkLost cause l = w.failWipe .wipeLinkDown (some l) := by
  rw [Work.linkLost, if_pos ((wipeOutstanding_iff hr).mpr hw)]

theorem linkLost_of_no_mark (cause : FenceCause) (hr : w.run = some r) (hm : r.mark l = .noMark)
    (hw : r.wipe ≠ .outstanding l) : w.linkLost cause l = w := by
  rw [Work.linkLost, if_neg (mt (wipeOutstanding_iff hr).mp hw), markOf_of_run hr, if_pos hm]

theorem linkLost_of_mark (cause : FenceCause) (hr : w.run = some r) (hm : r.mark l ≠ .noMark)
    (hw : r.wipe ≠ .outstanding l) : w.linkLost cause l =
      { w with run := some ((r.setMark l .noMark).fence cause (some l)) }.endRecallIfCleared := by
  rw [Work.linkLost, if_neg (mt (wipeOutstanding_iff hr).mp hw), markOf_of_run hr, if_neg hm, modRun_of_run _ hr]

end

end Sys2Proof.Machine

namespace Sys2Proof.Proofs
open Sys2Proof.Machine

/-- Settles O26: each change of a link by the mark and the wipe it meets. -/
theorem contextsTakeLinkChanges : Obligations.ContextsTakeLinkChanges := by
  intro l cause w r hr
  refine ⟨linkRejoining_of_awaiting hr, linkRejoining_of_not_awaiting hr, fun hm hw ho => ?_, linkLost_of_no_mark cause hr,
    fun hm hw hother => ?_, fun hm hw hothers => ?_, fun hw ho => ?_⟩
  · rw [linkRejoining_of_wipe hr (by rw [hm]; nofun) hw, failWipe_of_run _ _ hr, fence_of_clean _ _ ho]
  · obtain ⟨l', hne, hm'⟩ := hother
    rw [linkLost_of_mark cause hr hm hw]
    refine endRecallIfCleared_of_marked rfl (allCleared_false_of_other (l' := l') ?_)
    rw [mark_of_marks_eq (fence_marks _ _ _), mark_setMark_other _ hne]
    exact hm'
  · rw [linkLost_of_mark cause hr hm hw, endRecallIfCleared_of_cleared rfl]
    · exact endRecall_of_fenced rfl (fence_outcome_ne_clean _ _ _)
    · rw [allCleared_of_marks_eq (fence_marks _ _ _)]
      exact allCleared_setMark_iff.mpr hothers
  · rw [linkLost_of_wipe cause hr hw, failWipe_of_run _ _ hr, fence_of_clean _ _ ho]

end Sys2Proof.Proofs

/-! The Link Units: the leaving of UP, the start of a rejoin, LINK_CONTROL; the statements LinkControlByState and
LeavingUpStartsRejoin. -/

namespace Sys2Proof.Machine

section
variable {s t u : State} {l l' : LinkId}

/-! ## A link's changes -/

@[simp] theorem modLink_modLink (f g : Link → Link) (l : LinkId) (s : State) :
    modLink l f (modLink l g s) = modLink l (fun k => f (g k)) s := by
  simp [modLink, State.link]

/-- A change of a link is what it makes of that link's state. -/
theorem modLink_congr {f g : Link → Link} (h : f (s.link l) = g (s.link l)) : modLink l f s = modLink l g s := by
  rw [modLink, h, modLink]

theorem modLink_self {f : Link → Link} (h : f (s.link l) = s.link l) : modLink l f s = s := by
  rw [modLink, h]
  simp only [State.link, Vector.set_getElem_self]

/-! ## The end of pacing, as a link takes it (R151) -/

theorem returnCredits_of_not_up {k : Link} (h : k.state ≠ .up) : returnCredits k = k :=
  if_neg fun hk => h hk.1

@[simp] theorem returnCredits_state (k : Link) : (returnCredits k).state = k.state := by
  unfold returnCredits
  split <;> rfl

theorem link_foldl_modLink (f : Link → Link) (L : List LinkId) (hL : L.Nodup) (s : State) (l : LinkId) :
    (L.foldl (fun s l => modLink l f s) s).link l = if l ∈ L then f (s.link l) else s.link l := by
  induction L generalizing s with
  | nil => rfl
  | cons a L ih =>
    obtain ⟨ha, hL⟩ := List.nodup_cons.mp hL
    rw [List.foldl_cons, ih hL]
    by_cases h : l = a
    · subst h
      rw [if_neg ha, if_pos List.mem_cons_self, link_modLink_same]
    · rw [link_modLink_other f s h]
      simp only [List.mem_cons, h, false_or]

theorem link_endPacing (s : State) (l : LinkId) : (endPacing s).link l = returnCredits (s.link l) := by
  rw [endPacing, link_foldl_modLink _ _ nodup_allLinks, if_pos (mem_allLinks l)]
  rfl

theorem link_testPacing (s : State) (l : LinkId) :
    (testPacing s).link l = s.link l ∨ (testPacing s).link l = returnCredits (s.link l) := by
  unfold testPacing
  split
  · exact .inl rfl
  · split
    · exact .inr (link_endPacing s l)
    · exact .inl rfl

theorem link_presentOccupancy (b s : State) (l : LinkId) :
    (presentOccupancy b s).link l = s.link l ∨ (presentOccupancy b s).link l = returnCredits (s.link l) := by
  unfold presentOccupancy
  split
  · exact .inl rfl
  · exact link_testPacing { s with
      parkMark := followOccupancy s.settings.parkMode s.park.length s.parkMark
      missMark := followOccupancy s.settings.missMode s.miss.length s.missMark } l

theorem runSeq_presentToContexts (f : Work → Work) (s : State) (c : CtxId) :
    (presentToContexts f s).runSeq c = s.runSeq c := by
  unfold presentToContexts
  induction allCtxs generalizing s with
  | nil => rfl
  | cons a L ih => rw [List.foldl_cons, ih, runSeq_modWork]

theorem presentToContexts_frame (f : Work → Work) (s : State) :
    presentToContexts f s = { s with ctxs := (presentToContexts f s).ctxs } := by
  unfold presentToContexts
  induction allCtxs generalizing s with
  | nil => rfl
  | cons a L ih =>
    have h := ih (modWork a f s)
    rw [List.foldl_cons]
    generalize L.foldl (fun s c => modWork c f s) (modWork a f s) = t at h ⊢
    rw [h]
    rfl

/-! ## Notices and counters -/

theorem notices_offerNotice (b : NoticeBody) (s : State) : (offerNotice b s).notices =
    if s.notices.length < 64 then s.notices ++ [{ body := b, lostBefore := s.noticeLost }] else s.notices := by
  by_cases h : s.notices.length < 64
  · rw [offerNotice_placed b h, if_pos h]
  · rw [offerNotice_lost b (Nat.not_lt.mp h), if_neg h]

theorem noticeLost_offerNotice (b : NoticeBody) (s : State) :
    (offerNotice b s).noticeLost = if s.notices.length < 64 then false else true := by
  by_cases h : s.notices.length < 64
  · rw [offerNotice_placed b h, if_pos h]
  · rw [offerNotice_lost b (Nat.not_lt.mp h), if_neg h]

/-- The Notice Queue grows at its tail, and a full one does not change but for the mark of a loss. -/
structure NoticesGrow (s t : State) : Prop where
  extends_ : ∃ rest, t.notices = s.notices ++ rest
  full : 64 ≤ s.notices.length → t.notices = s.notices
  lost : 64 ≤ s.notices.length → s.noticeLost = true → t.noticeLost = true

theorem NoticesGrow.refl (s : State) : NoticesGrow s s :=
  ⟨⟨[], (List.append_nil _).symm⟩, fun _ => rfl, fun _ => id⟩

theorem NoticesGrow.trans (h : NoticesGrow s t) (h' : NoticesGrow t u) : NoticesGrow s u := by
  obtain ⟨rest, ht⟩ := h.extends_
  obtain ⟨rest', hu⟩ := h'.extends_
  refine ⟨⟨rest ++ rest', by rw [hu, ht, List.append_assoc]⟩, fun hs => ?_, fun hs hl => ?_⟩
  · rw [h'.full (h.full hs ▸ hs), h.full hs]
  · exact h'.lost (h.full hs ▸ hs) (h.lost hs hl)

theorem NoticesGrow.of_eq (hn : t.notices = s.notices) (hl : t.noticeLost = s.noticeLost) : NoticesGrow s t :=
  ⟨⟨[], by rw [hn, List.append_nil]⟩, fun _ => hn, fun _ h => hl.trans h⟩

theorem offerNotice_grows (b : NoticeBody) (s : State) : NoticesGrow s (offerNotice b s) := by
  by_cases h : s.notices.length < 64
  · rw [offerNotice_placed b h]
    exact ⟨⟨_, rfl⟩, fun h' => absurd h (Nat.not_lt.mpr h'), fun h' => absurd h (Nat.not_lt.mpr h')⟩
  · rw [offerNotice_lost b (Nat.not_lt.mp h)]
    exact ⟨⟨[], (List.append_nil _).symm⟩, fun _ => rfl, fun _ _ => rfl⟩

theorem countEvent_grows (n : CounterName) (s : State) : NoticesGrow s (countEvent n s) := by
  by_cases h : (s.counter n).value = BitVec.allOnes 32
  · rw [countEvent_of_wrap h]
    exact NoticesGrow.trans (t := setCounter n { value := 0, wrapped := true } s) (.of_eq rfl rfl)
      (offerNotice_grows _ _)
  · rw [countEvent_of_no_wrap h]
    exact .of_eq rfl rfl

theorem countEvent_frame (n : CounterName) (s : State) : countEvent n s = { s with
    counters := (countEvent n s).counters, notices := (countEvent n s).notices
    noticeLost := (countEvent n s).noticeLost } := by
  by_cases h : (s.counter n).value = BitVec.allOnes 32
  · rw [countEvent_of_wrap h, offerNotice]
    split <;> rfl
  · rw [countEvent_of_no_wrap h]
    rfl

/-! ## The start of a rejoin (R141, R142) -/

/-- A link as attempt 1 of a rejoin begins. -/
def Link.attempt1 (deadline : Nat) (k : Link) : Link :=
  { k with
    attempt := 1, rejoinNumber := k.rejoinNumber + 1, tx := k.tx ++ [.rejoin (k.rejoinNumber + 1)]
    rejoinDeadline := some deadline }

theorem startAttempts_eq (l : LinkId) (s : State) : startAttempts l s =
    countEvent (.ofLink l .rejoins) (modLink l (Link.attempt1 s.settings.rejoinDeadline) s) := rfl

theorem startAttempts_frame (l : LinkId) (s : State) : startAttempts l s = { s with
    links := (startAttempts l s).links, counters := (startAttempts l s).counters
    notices := (startAttempts l s).notices, noticeLost := (startAttempts l s).noticeLost } := by
  have h := countEvent_frame (.ofLink l .rejoins) (modLink l (Link.attempt1 s.settings.rejoinDeadline) s)
  rw [← startAttempts_eq] at h
  generalize startAttempts l s = t at h ⊢
  rw [h]
  rfl

theorem link_startAttempts_same (l : LinkId) (s : State) :
    (startAttempts l s).link l = (s.link l).attempt1 s.settings.rejoinDeadline :=
  (link_of_links_eq (countEvent_links _ _) l).trans (link_modLink_same _ _ _)

theorem link_startAttempts_other (h : l' ≠ l) (s : State) : (startAttempts l s).link l' = s.link l' :=
  (link_of_links_eq (countEvent_links _ _) l').trans (link_modLink_other _ _ h)

theorem rejoins_startAttempts (l : LinkId) (s : State) : ((startAttempts l s).counter (.ofLink l .rejoins)).value =
    (s.counter (.ofLink l .rejoins)).value + 1 := countEvent_value _ _

theorem counter_startAttempts_other {n : CounterName} (h : n.index ≠ (CounterName.ofLink l .rejoins).index) (s : State) :
    (startAttempts l s).counter n = s.counter n := countEvent_other h _

theorem startAttempts_grows (l : LinkId) (s : State) : NoticesGrow s (startAttempts l s) :=
  NoticesGrow.trans (t := modLink l (Link.attempt1 s.settings.rejoinDeadline) s) (.of_eq rfl rfl)
    (countEvent_grows (.ofLink l .rejoins) _)

/-! ## The leaving of UP (R145) -/

/-- What every leaving of UP does before a rejoin may start: the link as it becomes, its checks discarded, every context
told, and LINK_DOWN offered. -/
def goDown (l : LinkId) (f : Link → Link) (g : Work → Work) (cause : DownCause) (s : State) : State :=
  offerNotice (.linkDown l cause) (presentToContexts g (discardChecks l (modLink l f s)))

/-- An UP link as it enters REJOINING. -/
def Link.toRejoining (k : Link) : Link :=
  { k with state := .rejoining, silenceTimer := none, lane := [], accounting := [], withheld := 0, tx := [] }

/-- An UP link as it enters OFF. -/
def Link.toOff (k : Link) : Link :=
  { k with
    state := .off, silenceTimer := none, receiver := .hunting, lane := [], accounting := [], withheld := 0, tx := [] }

theorem leaveUpToRejoin_eq (l : LinkId) (cause : DownCause) (s : State) : leaveUpToRejoin l cause s =
    startAttempts l (goDown l Link.toRejoining (Work.linkRejoining l) cause s) := rfl

theorem leaveUpToOff_eq (l : LinkId) (s : State) :
    leaveUpToOff l s = goDown l Link.toOff (Work.linkLost .linkOff l) .command s := rfl

/-- What the leaving of UP does to links, checks and contexts, and what it leaves. -/
structure LeftUp (l : LinkId) (k : Link) (g : Work → Work) (s t : State) : Prop where
  link : t.link l = k
  other : ∀ l', l' ≠ l → t.link l' = s.link l' ∨ t.link l' = returnCredits (s.link l')
  park : t.park = s.park.filter (fun k => !(k.link == l))
  miss : t.miss = s.miss.map (fun e => { e with waiters := e.waiters.filter (fun w => !Waiter.ofLink l w) })
  work : ∀ c, t.work c = (s.work c).map g
  runSeq : ∀ c, t.runSeq c = s.runSeq c
  rest : (t.domains, t.groups, t.store, t.cache, t.port, t.homes, t.policies, t.settings) =
    (s.domains, s.groups, s.store, s.cache, s.port, s.homes, s.policies, s.settings)

theorem goDown_left {f : Link → Link} (h : (f (s.link l)).state ≠ .up) (g : Work → Work) (cause : DownCause) :
    LeftUp l (f (s.link l)) g s (goDown l f g cause s) := by
  have hlinks : ∀ l', (goDown l f g cause s).link l' = (discardChecks l (modLink l f s)).link l' :=
    link_of_links_eq (by simp only [goDown, offerNotice_links, presentToContexts_links])
  have hdiscard := fun l' => link_presentOccupancy (modLink l f s)
    (removeWaiters (Waiter.ofLink l)
      { modLink l f s with park := (modLink l f s).park.filter (fun k => !(k.link == l)) }) l'
  refine ⟨?_, fun l' hl' => ?_, ?_, ?_, fun c => ?_, fun c => ?_, ?_⟩
  · have hsame := link_modLink_same l f s
    rw [hlinks]
    refine (hdiscard l).elim (fun e => e.trans hsame) (fun e => e.trans ((congrArg returnCredits hsame).trans ?_))
    exact returnCredits_of_not_up h
  · have hother := link_modLink_other f s hl'
    rw [hlinks, ← hother]
    exact hdiscard l'
  · simp [goDown, discardChecks]
  · simp only [goDown, discardChecks, offerNotice_miss, presentToContexts_miss, presentOccupancy_miss]
    rfl
  · have hw : (goDown l f g cause s).work c = (presentToContexts g (discardChecks l (modLink l f s))).work c :=
      work_of_ctxs_eq (offerNotice_ctxs _ _) c
    have hd : (discardChecks l (modLink l f s)).work c = s.work c :=
      work_of_ctxs_eq (by simp [discardChecks]) c
    rw [hw, work_presentToContexts, hd]
  · have hw : (goDown l f g cause s).runSeq c = (presentToContexts g (discardChecks l (modLink l f s))).runSeq c :=
      runSeq_of_ctxs_eq (offerNotice_ctxs _ _) c
    have hd : (discardChecks l (modLink l f s)).runSeq c = s.runSeq c :=
      runSeq_of_ctxs_eq (by simp [discardChecks]) c
    rw [hw, runSeq_presentToContexts, hd]
  · simp [goDown, discardChecks]

theorem goDown_offers (f : Link → Link) (g : Work → Work) (cause : DownCause) : ∃ u, u.notices = s.notices ∧
    u.noticeLost = s.noticeLost ∧ goDown l f g cause s = offerNotice (.linkDown l cause) u :=
  ⟨_, by simp [discardChecks], by simp [discardChecks], rfl⟩

theorem goDown_counters (f : Link → Link) (g : Work → Work) (cause : DownCause) :
    (goDown l f g cause s).counters = s.counters := by
  simp [goDown, discardChecks]

theorem goDown_responses (f : Link → Link) (g : Work → Work) (cause : DownCause) :
    (goDown l f g cause s).responses = s.responses := by
  simp [goDown, discardChecks]

theorem LeftUp.startAttempts {k : Link} {g : Work → Work} (h : LeftUp l k g s t) :
    LeftUp l (k.attempt1 s.settings.rejoinDeadline) g s (startAttempts l t) := by
  have hsettings : t.settings = s.settings := by
    have := h.rest
    simp only [Prod.mk.injEq] at this
    exact this.2.2.2.2.2.2.2
  have hframe := startAttempts_frame l t
  refine ⟨?_, fun l' hl' => ?_, ?_, ?_, fun c => ?_, fun c => ?_, ?_⟩
  · rw [link_startAttempts_same, h.link, hsettings]
  · rw [link_startAttempts_other hl']
    exact h.other l' hl'
  · rw [hframe]
    exact h.park
  · rw [hframe]
    exact h.miss
  · exact (work_of_ctxs_eq (by rw [hframe]) c).trans (h.work c)
  · exact (runSeq_of_ctxs_eq (by rw [hframe]) c).trans (h.runSeq c)
  · rw [hframe]
    exact h.rest

/-- A link that has left UP into REJOINING, with attempt 1 begun. -/
def Link.rejoining (deadline : Nat) (k : Link) : Link := k.toRejoining.attempt1 deadline

theorem leaveUpToRejoin_left (l : LinkId) (cause : DownCause) (s : State) : LeftUp l
    ((s.link l).rejoining s.settings.rejoinDeadline) (Work.linkRejoining l) s (leaveUpToRejoin l cause s) :=
  (goDown_left (f := Link.toRejoining) nofun _ cause).startAttempts

theorem leaveUpToOff_left (l : LinkId) (s : State) :
    LeftUp l (s.link l).toOff (Work.linkLost .linkOff l) s (leaveUpToOff l s) :=
  goDown_left (f := Link.toOff) nofun _ _

/-- LINK_DOWN is the first notice a leaving offers. -/
structure DownOffered (l : LinkId) (cause : DownCause) (s t : State) : Prop where
  placed : s.notices.length < 64 →
    ∃ rest, t.notices = s.notices ++ { body := .linkDown l cause, lostBefore := s.noticeLost } :: rest
  lost : 64 ≤ s.notices.length → t.notices = s.notices ∧ t.noticeLost = true

theorem goDown_offered (f : Link → Link) (g : Work → Work) (cause : DownCause) :
    DownOffered l cause s (goDown l f g cause s) := by
  obtain ⟨u, hn, hl, hu⟩ := goDown_offers (l := l) (s := s) f g cause
  rw [hu]
  refine ⟨fun h => ⟨[], ?_⟩, fun h => ?_⟩
  · rw [offerNotice_placed _ (hn ▸ h), hn, hl]
  · rw [offerNotice_lost _ (hn ▸ h), hn]
    exact ⟨rfl, rfl⟩

theorem DownOffered.grow {cause : DownCause} (h : DownOffered l cause s t) (hg : NoticesGrow t u) :
    DownOffered l cause s u := by
  refine ⟨fun hs => ?_, fun hs => ?_⟩
  · obtain ⟨rest, ht⟩ := h.placed hs
    obtain ⟨rest', hu⟩ := hg.extends_
    exact ⟨rest ++ rest', by rw [hu, ht, List.append_assoc, List.cons_append]⟩
  · obtain ⟨ht, hl⟩ := h.lost hs
    have hfull : 64 ≤ t.notices.length := ht ▸ hs
    exact ⟨(hg.full hfull).trans ht, hg.lost hfull hl⟩

theorem leaveUpToRejoin_offered (l : LinkId) (cause : DownCause) (s : State) :
    DownOffered l cause s (leaveUpToRejoin l cause s) :=
  (goDown_offered Link.toRejoining (Work.linkRejoining l) cause).grow (startAttempts_grows l _)

theorem leaveUpToRejoin_portSide (l : LinkId) (cause : DownCause) (s : State) :
    (leaveUpToRejoin l cause s).portSide = s.portSide := by
  simp [leaveUpToRejoin, startAttempts, beginAttempt, discardChecks, State.portSide]

theorem leaveUpToRejoin_queues (l : LinkId) (cause : DownCause) (s : State) :
    (leaveUpToRejoin l cause s).responses = s.responses ∧ (leaveUpToRejoin l cause s).intake = s.intake := by
  have h := leaveUpToRejoin_portSide l cause s
  simp only [State.portSide, Prod.mk.injEq] at h
  obtain ⟨-, -, -, -, -, -, hintake, -, -, hresponses, -⟩ := h
  exact ⟨hresponses, hintake⟩

theorem rejoins_leaveUpToRejoin (l : LinkId) (cause : DownCause) (s : State) :
    ((leaveUpToRejoin l cause s).counter (.ofLink l .rejoins)).value = (s.counter (.ofLink l .rejoins)).value + 1 := by
  rw [leaveUpToRejoin_eq, rejoins_startAttempts, State.counter, goDown_counters]
  rfl

theorem counter_leaveUpToRejoin_other {n : CounterName} (h : n.index ≠ (CounterName.ofLink l .rejoins).index)
    (cause : DownCause) (s : State) : (leaveUpToRejoin l cause s).counter n = s.counter n := by
  rw [leaveUpToRejoin_eq, counter_startAttempts_other h, State.counter, goDown_counters]
  rfl

/-- The fields that the leaving of UP is said over. -/
theorem LeftUp.of_end {k : Link} {g : Work → Work} (h : LeftUp l k g s t) (hu : u = { t with
    responses := u.responses, respPtr := u.respPtr, msiSent := u.msiSent }) : LeftUp l k g s u := by
  rw [hu]
  exact ⟨h.link, h.other, h.park, h.miss, h.work, h.runSeq, h.rest⟩

end

/-! ## LINK_CONTROL (R146, Table 8.7) -/

section
variable {s : State} {i : Nat} {m : Message} {l : LinkId}

/-- The row of an action. -/
def LinkAction.instr : LinkAction → Instr
  | .enable => .linkControlEnable
  | .disable => .linkControlDisable
  | .rejoin => .linkControlRejoin

theorem exec_linkControl_selected {action : LinkAction} (hs : s.selected = some (i, m))
    (hm : decodeCommand m = some (.linkControl l action)) :
    exec action.instr s = .next (signalInterrupt s (action.take m l (s.issued i))) := by
  have hexec : exec action.instr s = issueEvent (linkRow action) (linkEffect action action.take) s := by
    cases action <;> rfl
  have hkind : msgKind m = 0x18 := BitVec.eq_of_toNat_eq (decodeCommand_kind hm)
  have hrow : linkRow action m = true := linkRow_of_action hkind fun a ha =>
    Option.some.inj (ha.symm.trans (linkAction_of_command hm))
  rw [hexec, issueEvent_selected _ hs hrow]
  simp only [linkEffect, hm, if_true]

/-- The end of an issue event writes the responses, their pointer and the interrupts alone. -/
theorem answered_frame (s u : State) (m : Message) (status : Status) (reason : Option Reason) :
    let t := signalInterrupt s (answer m status reason u)
    t = { u with responses := t.responses, respPtr := t.respPtr, msiSent := t.msiSent } := by
  have h := signalInterrupt_frame s (answer m status reason u)
  dsimp only
  generalize signalInterrupt s (answer m status reason u) = t at h ⊢
  rw [h]
  rfl

theorem answered_responses (s u : State) (m : Message) (status : Status) (reason : Option Reason) :
    (signalInterrupt s (answer m status reason u)).responses = u.responses ++
      [{ tag := msgTag m, kind := msgKind m, status := status, reason := reason, body := .counts 0 0 0 }] :=
  signalInterrupt_responses _ _

/-- What a rejoin that starts on an OFF or FAILED link does. -/
structure RejoinStarted (l : LinkId) (receiver : Receiver) (s t : State) : Prop where
  link : t.link l = { s.link l with
    state := .rejoining, attempt := 1, rejoinNumber := (s.link l).rejoinNumber + 1, receiver := receiver
    tx := (s.link l).tx ++ [.rejoin ((s.link l).rejoinNumber + 1)], rejoinDeadline := some s.settings.rejoinDeadline }
  rejoins : (t.counter (.ofLink l .rejoins)).value = (s.counter (.ofLink l .rejoins)).value + 1
  counters : ∀ n, n.index ≠ (CounterName.ofLink l .rejoins).index → t.counter n = s.counter n
  noWrap : (s.counter (.ofLink l .rejoins)).value ≠ BitVec.allOnes 32 →
    t.notices = s.notices ∧ t.noticeLost = s.noticeLost
  wrap : (s.counter (.ofLink l .rejoins)).value = BitVec.allOnes 32 → s.notices.length < 64 →
    t.notices = s.notices ++ [{ body := .counterWrap (.ofLink l .rejoins), lostBefore := s.noticeLost }]
  other : ∀ l', l' ≠ l → t.link l' = s.link l'
  frame : t = { s with links := t.links, counters := t.counters, notices := t.notices, noticeLost := t.noticeLost }

theorem startRejoin_started (f : Link → Link) (hf : ∀ k, f k = { k with receiver := (f k).receiver }) :
    RejoinStarted l (f (s.link l)).receiver s (startRejoin l (modLink l f s)) := by
  have heq : startRejoin l (modLink l f s) = startAttempts l (modLink l (fun k => { f k with state := .rejoining }) s) := by
    rw [startRejoin, modLink_modLink]
  rw [heq]
  generalize hu : modLink l (fun k => { f k with state := .rejoining }) s = u
  have hsame : u.link l = { s.link l with state := .rejoining, receiver := (f (s.link l)).receiver } := by
    rw [← hu, link_modLink_same, hf]
  have hother : ∀ l', l' ≠ l → u.link l' = s.link l' := fun l' hl' => by
    rw [← hu, link_modLink_other _ _ hl']
  have hframe : u = { s with links := u.links } := by
    rw [← hu]
    rfl
  have hcounter : ∀ n, u.counter n = s.counter n := fun n => by
    rw [hframe]
    rfl
  have hstart := startAttempts_frame l u
  refine ⟨?_, (rejoins_startAttempts l u).trans (by rw [hcounter]),
    fun n hn => (counter_startAttempts_other hn u).trans (hcounter n), fun h => ?_, fun h hroom => ?_,
    fun l' hl' => (link_startAttempts_other hl' u).trans (hother l' hl'), ?_⟩
  · rw [link_startAttempts_same, hsame, hframe]
    rfl
  · rw [startAttempts_eq]
    obtain ⟨hn, hl⟩ := notices_countEvent_of_no_wrap (n := .ofLink l .rejoins)
      (s := modLink l (Link.attempt1 u.settings.rejoinDeadline) u) (hcounter _ ▸ h)
    rw [hn, hl, hframe]
    exact ⟨rfl, rfl⟩
  · have hn : u.notices = s.notices := by rw [hframe]
    have hl : u.noticeLost = s.noticeLost := by rw [hframe]
    rw [startAttempts_eq, notices_countEvent_of_wrap (n := .ofLink l .rejoins)
      (s := modLink l (Link.attempt1 u.settings.rejoinDeadline) u) (hcounter _ ▸ h) (hn ▸ hroom)]
    have hoffered := congr (congrArg (fun a b => a ++ [(⟨.counterWrap (.ofLink l .rejoins), b⟩ : Notice)]) hn) hl
    exact hoffered
  · rw [hstart, hframe]

/-- LINK_DOWN alone is offered where the link enters OFF. -/
theorem goDown_notices (f : Link → Link) (g : Work → Work) (cause : DownCause) :
    if s.notices.length < 64 then
      (goDown l f g cause s).notices = s.notices ++ [{ body := .linkDown l cause, lostBefore := s.noticeLost }]
    else (goDown l f g cause s).notices = s.notices ∧ (goDown l f g cause s).noticeLost = true := by
  obtain ⟨u, hn, hl, hu⟩ := goDown_offers (l := l) (s := s) f g cause
  rw [hu]
  split
  · next h => rw [offerNotice_placed _ (hn ▸ h), hn, hl]
  · next h =>
    rw [offerNotice_lost _ (hn ▸ Nat.not_lt.mp h), hn]
    exact ⟨rfl, rfl⟩

/-- A REJOINING link as it enters OFF. -/
def Link.stopped (k : Link) : Link :=
  { k with state := .off, rejoinDeadline := none, attempt := 0, receiver := .hunting, tx := [] }

theorem stopRejoin_frame (l : LinkId) (s : State) : stopRejoin l s =
    { s with links := (stopRejoin l s).links, ctxs := (stopRejoin l s).ctxs } := by
  have h : stopRejoin l s = _ := presentToContexts_frame (Work.linkLost .linkOff l) (modLink l Link.stopped s)
  have hlinks : (stopRejoin l s).links = (modLink l Link.stopped s).links := presentToContexts_links _ _
  rw [hlinks]
  exact h

theorem link_stopRejoin_same (l : LinkId) (s : State) : (stopRejoin l s).link l = (s.link l).stopped :=
  (link_of_links_eq (presentToContexts_links _ _) l).trans (link_modLink_same _ _ _)

theorem link_stopRejoin_other {l' : LinkId} (h : l' ≠ l) (s : State) : (stopRejoin l s).link l' = s.link l' :=
  (link_of_links_eq (presentToContexts_links _ _) l').trans (link_modLink_other _ _ h)

theorem work_stopRejoin (l : LinkId) (s : State) (c : CtxId) :
    (stopRejoin l s).work c = (s.work c).map (Work.linkLost .linkOff l) := work_presentToContexts _ _ _

theorem link_answered (s u : State) (m : Message) (status : Status) (reason : Option Reason) (l : LinkId) :
    (signalInterrupt s (answer m status reason u)).link l = u.link l :=
  link_of_links_eq (signalInterrupt_links s (answer m status reason u)) l

theorem work_answered (s u : State) (m : Message) (status : Status) (reason : Option Reason) (c : CtxId) :
    (signalInterrupt s (answer m status reason u)).work c = u.work c :=
  work_of_ctxs_eq (signalInterrupt_ctxs s (answer m status reason u)) c

/-- DISABLE on a REJOINING link, with its answer. -/
theorem answered_stopRejoin (s : State) (i : Nat) (m : Message) (l : LinkId) :
    let t := signalInterrupt s (answer m .ok none (stopRejoin l (s.issued i)))
    t = signalInterrupt s { answer m .ok none (s.issued i) with links := t.links, ctxs := t.ctxs } ∧
      t.link l = { s.link l with state := .off, rejoinDeadline := none, attempt := 0, receiver := .hunting, tx := [] } ∧
      (∀ l', l' ≠ l → t.link l' = s.link l') ∧ ∀ c, t.work c = (s.work c).map (Work.linkLost .linkOff l) := by
  have hstop := stopRejoin_frame l (s.issued i)
  refine ⟨?_, ?_, fun l' hl' => ?_, fun c => ?_⟩
  · rw [signalInterrupt_links, signalInterrupt_ctxs]
    refine congrArg (signalInterrupt s) ?_
    generalize stopRejoin l (s.issued i) = u at hstop ⊢
    rw [hstop]
    rfl
  · rw [link_answered]
    exact link_stopRejoin_same l _
  · rw [link_answered]
    exact link_stopRejoin_other hl' _
  · rw [work_answered]
    exact work_stopRejoin l _ c

end

end Sys2Proof.Machine

namespace Sys2Proof.Proofs
open Sys2Proof.Machine

/-- Settles O24: each action by the link's state. -/
theorem linkControlByState : Obligations.LinkControlByState := by
  refine ⟨fun s i m l hs => ?_, fun s i m l hs hm hup => ?_⟩
  · intro answered k started
    have hstarted : ∀ receiver u, RejoinStarted l receiver (s.issued i) u →
        started receiver (signalInterrupt s (answer m .ok none u)) := by
      intro receiver u h
      have hend := answered_frame s u m .ok none
      have hresponses : u.responses = s.responses := by rw [h.frame]; rfl
      have hlast : signalInterrupt s (answer m .ok none u) = signalInterrupt s { answer m .ok none (s.issued i) with
          links := u.links, counters := u.counters, notices := u.notices, noticeLost := u.noticeLost } := by
        refine congrArg (signalInterrupt s) ?_
        have hframe := h.frame
        generalize u.links = a, u.counters = b, u.notices = c, u.noticeLost = d at hframe ⊢
        rw [hframe]
        rfl
      refine ⟨?_, ?_, ?_, fun n hn => ?_, fun hw => ?_, fun hw hroom => ?_, fun l' hl' => ?_, ?_⟩
      · rw [answered_responses, hresponses]
        rfl
      · exact (link_of_links_eq (signalInterrupt_links _ _) l).trans h.link
      · rw [State.counter, signalInterrupt_counters]
        exact h.rejoins
      · rw [State.counter, signalInterrupt_counters]
        exact h.counters n hn
      · rw [signalInterrupt_notices, signalInterrupt_noticeLost]
        exact h.noWrap hw
      · rw [signalInterrupt_notices]
        exact h.wrap hw hroom
      · exact (link_of_links_eq (signalInterrupt_links _ _) l').trans (h.other l' hl')
      · rw [signalInterrupt_links, signalInterrupt_counters, signalInterrupt_notices, signalInterrupt_noticeLost]
        exact hlast
    have hlink : ∀ u l', (signalInterrupt s (answer m .ok none u)).link l' = u.link l' :=
      fun u l' => link_of_links_eq (signalInterrupt_links s (answer m .ok none u)) l'
    have hk : (s.issued i).link l = k := rfl
    refine ⟨fun hm => ?_, fun hm => ?_, fun hm => ?_⟩
    · have hexec : exec .linkControlEnable s = _ := exec_linkControl_selected hs hm
      simp only [LinkAction.take, enableLink, hk] at hexec
      refine ⟨fun h => ?_, fun h => ?_⟩
      · rw [h] at hexec
        exact ⟨_, hexec, hstarted _ _ (startRejoin_started (fun k => { k with receiver := .hunting }) fun _ => rfl)⟩
      · cases hstate : k.state with
        | off => exact absurd hstate h
        | rejoining | up | failed =>
          rw [hstate] at hexec
          exact hexec
    · have hexec : exec .linkControlDisable s = _ := exec_linkControl_selected hs hm
      simp only [LinkAction.take, disableLink, hk] at hexec
      refine ⟨fun h => ?_, fun h => ?_, fun h => ?_⟩
      · rw [h] at hexec
        exact hexec
      · rw [h] at hexec
        exact ⟨_, hexec, answered_stopRejoin s i m l⟩
      · rw [h] at hexec
        refine ⟨_, hexec, ?_, ?_, fun l' hl' => ?_⟩
        · rw [signalInterrupt_links]
          rfl
        · rw [hlink, link_modLink_same]
          rfl
        · rw [hlink, link_modLink_other _ _ hl']
          rfl
    · have hexec : exec .linkControlRejoin s = _ := exec_linkControl_selected hs hm
      simp only [LinkAction.take, rejoinLink, hk] at hexec
      refine ⟨fun h => ?_, fun h => ?_, fun h => ?_, fun h => ?_⟩
      · rw [h] at hexec
        exact hexec
      · rw [h] at hexec
        exact hexec
      · rw [h] at hexec
        have hsame : modLink l id (s.issued i) = s.issued i := modLink_self rfl
        have hstart := startRejoin_started (l := l) (s := s.issued i) id fun _ => rfl
        rw [hsame] at hstart
        exact ⟨_, hexec, hstarted _ _ hstart⟩
      · rw [h] at hexec
        have hleft := (leaveUpToRejoin_left l .command (s.issued i)).link
        obtain ⟨hresponses, hintake⟩ := leaveUpToRejoin_queues l .command (s.issued i)
        generalize leaveUpToRejoin l .command (s.issued i) = u at hexec hleft hresponses hintake
        refine ⟨_, hexec, ?_, ?_, ?_⟩
        · rw [answered_responses, hresponses]
          rfl
        · rw [signalInterrupt_intake]
          exact hintake
        · rw [hlink, hleft]
          exact ⟨rfl, rfl, rfl⟩
  · have hexec : exec .linkControlDisable s = _ := exec_linkControl_selected hs hm
    have hk : (s.issued i).link l = s.link l := rfl
    simp only [LinkAction.take, disableLink, hk, hup] at hexec
    have hleft := (leaveUpToOff_left l (s.issued i)).of_end (answered_frame s _ m .ok none)
    have hnotices := goDown_notices (l := l) (s := s.issued i) Link.toOff (Work.linkLost .linkOff l) .command
    have hresponses := goDown_responses (l := l) (s := s.issued i) Link.toOff (Work.linkLost .linkOff l) .command
    have hcounters := goDown_counters (l := l) (s := s.issued i) Link.toOff (Work.linkLost .linkOff l) .command
    rw [← leaveUpToOff_eq] at hnotices hresponses hcounters
    generalize leaveUpToOff l (s.issued i) = u at hexec hleft hnotices hresponses hcounters
    refine ⟨_, hexec, hleft.link, hleft.other, hleft.park, hleft.miss, hleft.work, hleft.runSeq, ?_, ?_, ?_⟩
    · rw [signalInterrupt_notices, signalInterrupt_noticeLost]
      exact hnotices
    · rw [answered_responses, hresponses]
      rfl
    · have hrest := hleft.rest
      rw [Prod.mk.injEq]
      exact ⟨(signalInterrupt_counters _ _).trans hcounters, hrest⟩

end Sys2Proof.Proofs

/-! The ways out of UP that begin a rejoin; the statement LeavingUpStartsRejoin. -/

namespace Sys2Proof.Machine

section
variable {s t u : State} {l : LinkId} {cause : DownCause} {receiver : Receiver}

/-! ## Frames, as they restart a link's timer -/

/-- A link as it takes a frame (R136, R140). -/
def Link.heard (limit : Nat) (k : Link) : Link :=
  { k with receiver := .hunting, silenceTimer := if k.state = .up then some limit else k.silenceTimer }

theorem takeFrameEvent_eq (l : LinkId) (s : State) :
    takeFrameEvent l s = modLink l (Link.heard s.settings.silenceLimit) s := rfl

theorem link_takeFrameEvent_same (l : LinkId) (s : State) :
    (takeFrameEvent l s).link l = (s.link l).heard s.settings.silenceLimit := link_modLink_same _ _ _

theorem link_takeFrameEvent_other {l' : LinkId} (h : l' ≠ l) (s : State) :
    (takeFrameEvent l s).link l' = s.link l' := link_modLink_other _ _ h

/-! ## The state after a leaving -/

/-- A link has left UP with a cause, and attempt 1 of a rejoin has begun; its receiver is as it is given. -/
structure RejoinBegun (l : LinkId) (cause : DownCause) (receiver : Receiver) (s t : State) : Prop where
  left : LeftUp l { (s.link l).rejoining s.settings.rejoinDeadline with receiver := receiver } (Work.linkRejoining l) s t
  offered : DownOffered l cause s t
  rejoins : (t.counter (.ofLink l .rejoins)).value = (s.counter (.ofLink l .rejoins)).value + 1

theorem leaveUpToRejoin_begun (l : LinkId) (cause : DownCause) (s : State) :
    RejoinBegun l cause (s.link l).receiver s (leaveUpToRejoin l cause s) :=
  ⟨leaveUpToRejoin_left l cause s, leaveUpToRejoin_offered l cause s, rejoins_leaveUpToRejoin l cause s⟩

/-- A leaving from a state that differs in the link's receiver and timer alone. -/
theorem RejoinBegun.of_heard (h : RejoinBegun l cause receiver (takeFrameEvent l s) t) :
    RejoinBegun l cause receiver s t := by
  obtain ⟨⟨hlink, hother, hpark, hmiss, hwork, hseq, hrest⟩, ⟨hplaced, hlost⟩, hrejoins⟩ := h
  refine ⟨⟨?_, fun l' hl' => ?_, hpark, hmiss, hwork, hseq, hrest⟩, ⟨hplaced, hlost⟩, hrejoins⟩
  · rw [hlink, link_takeFrameEvent_same]
    rfl
  · rw [← link_takeFrameEvent_other hl' s]
    exact hother l' hl'

/-- The end of the event adds its answer and its interrupt alone. -/
theorem RejoinBegun.of_end (h : RejoinBegun l cause receiver s t) (hu : u = { t with
    responses := u.responses, respPtr := u.respPtr, msiSent := u.msiSent }) : RejoinBegun l cause receiver s u := by
  refine ⟨h.left.of_end hu, ?_, ?_⟩
  · rw [hu]
    exact ⟨h.offered.placed, h.offered.lost⟩
  · rw [hu]
    exact h.rejoins

theorem RejoinBegun.signal (h : RejoinBegun l cause receiver s t) (b : State) :
    RejoinBegun l cause receiver s (signalInterrupt b t) := by
  refine h.of_end ?_
  have hframe := signalInterrupt_frame b t
  generalize signalInterrupt b t = u at hframe ⊢
  rw [hframe]

/-! ## The events that leave UP -/

theorem protocolFault_of_up (h : (s.link l).state = .up) :
    protocolFault l cause (takeFrameEvent l s) = leaveUpToRejoin l cause (takeFrameEvent l s) :=
  if_pos ((congrArg Link.state (link_takeFrameEvent_same l s)).trans h)

/-- A protocol fault by a frame on an UP link. -/
theorem faultyFrame_begun (h : (s.link l).state = .up) (cause : DownCause) :
    RejoinBegun l cause .hunting s (signalInterrupt s (protocolFault l cause (takeFrameEvent l s))) := by
  rw [protocolFault_of_up h]
  have hbegun := leaveUpToRejoin_begun l cause (takeFrameEvent l s)
  rw [link_takeFrameEvent_same] at hbegun
  exact (RejoinBegun.of_heard hbegun).signal s

theorem exec_check_of_up (h : (s.link l).state = .up) (p : BitVec 48) :
    exec (.check l p) s = .next (signalInterrupt s (takeCheck l (decodeCheck l p) (takeFrameEvent l s))) := by
  have hup : ((takeFrameEvent l s).link l).state = .up := (congrArg Link.state (link_takeFrameEvent_same l s)).trans h
  refine congrArg (fun u => Host.Outcome.next (signalInterrupt s u)) ?_
  simp only [hup]

/-- A CHECK beyond the credits, or with a tag held, is a protocol fault (R137, R139). -/
theorem takeCheck_of_fault {k : Check} (h : 32 ≤ (s.link l).accounting.length + (s.link l).withheld ∨
    k.tag ∈ (s.link l).accounting) : takeCheck l k s = leaveUpToRejoin l .protocol s := by
  rw [takeCheck]
  by_cases hcredits : 32 ≤ (s.link l).accounting.length + (s.link l).withheld
  · exact if_pos hcredits
  · exact (if_neg hcredits).trans (if_pos (h.resolve_left hcredits))

theorem check_begun (h : (s.link l).state = .up) (p : BitVec 48)
    (hfault : 32 ≤ (s.link l).accounting.length + (s.link l).withheld ∨ (decodeCheck l p).tag ∈ (s.link l).accounting) :
    ∃ t, exec (.check l p) s = .next t ∧ RejoinBegun l .protocol .hunting s t := by
  refine ⟨_, exec_check_of_up h p, ?_⟩
  rw [takeCheck_of_fault (s := takeFrameEvent l s) (by rw [link_takeFrameEvent_same]; exact hfault),
    ← protocolFault_of_up h]
  exact faultyFrame_begun h .protocol

theorem silence_begun (h : (s.link l).state = .up) (ht : (s.link l).silenceTimer.isSome = true) :
    ∃ t, exec (.silenceExpiry l) s = .next t ∧ RejoinBegun l .silence (s.link l).receiver s t := by
  have hexec : exec (.silenceExpiry l) s = .next (signalInterrupt s
      (if (s.link l).state = .up ∧ (s.link l).silenceTimer.isSome = true then leaveUpToRejoin l .silence s else s)) := rfl
  rw [if_pos ⟨h, ht⟩] at hexec
  exact ⟨_, hexec, (leaveUpToRejoin_begun l .silence s).signal s⟩

theorem command_begun {i : Nat} {m : Message} (h : (s.link l).state = .up) (hs : s.selected = some (i, m))
    (hm : decodeCommand m = some (.linkControl l .rejoin)) :
    ∃ t, exec .linkControlRejoin s = .next t ∧ RejoinBegun l .command (s.link l).receiver s t := by
  have hexec : exec .linkControlRejoin s = _ := exec_linkControl_selected hs hm
  have hup : ((s.issued i).link l).state = .up := h
  simp only [LinkAction.take, rejoinLink, hup] at hexec
  have hbegun := leaveUpToRejoin_begun l .command (s.issued i)
  have hend := hbegun.of_end (answered_frame s _ m .ok none)
  obtain ⟨⟨hlink, hother, hpark, hmiss, hwork, hseq, hrest⟩, ⟨hplaced, hlost⟩, hrejoins⟩ := hend
  exact ⟨_, hexec, ⟨hlink, hother, hpark, hmiss, hwork, hseq, hrest⟩, ⟨hplaced, hlost⟩, hrejoins⟩

end

end Sys2Proof.Machine

namespace Sys2Proof.Proofs
open Sys2Proof.Machine

/-- Settles O25: each way out of UP runs the one leaving. -/
theorem leavingUpStartsRejoin : Obligations.LeavingUpStartsRejoin := by
  refine ⟨fun s l command cause hup hway => ?_, fun s l hup => ?_⟩
  · have hbegun : ∃ t, exec command s = .next t ∧ RejoinBegun l cause
        (if command = .silenceExpiry l ∨ command = .linkControlRejoin then (s.link l).receiver else .hunting) s t := by
      rcases hway with ⟨rfl, rfl⟩ | ⟨k, rfl, rfl⟩ | ⟨k, rfl, rfl⟩ | ⟨p, rfl, rfl, hfault⟩ | ⟨rfl, rfl, ht⟩ |
        ⟨i, m, rfl, rfl, hs, hm⟩
      · exact ⟨_, rfl, faultyFrame_begun hup .crc⟩
      · exact ⟨_, rfl, faultyFrame_begun hup .protocol⟩
      · exact ⟨_, rfl, faultyFrame_begun hup .protocol⟩
      · exact check_begun hup p hfault
      · rw [if_pos (.inl rfl)]
        exact silence_begun hup ht
      · rw [if_pos (.inr rfl)]
        exact command_begun hup hs hm
    obtain ⟨t, hexec, ⟨hlink, hother, hpark, hmiss, hwork, hseq, hrest⟩, ⟨hplaced, hlost⟩, hrejoins⟩ := hbegun
    refine ⟨t, hexec, ?_, ?_, hother, hpark, hmiss, hwork, hseq, ?_, hrejoins, hrest⟩
    · rw [hlink]
      rfl
    · rw [hlink]
    · split
      · next h => exact hplaced h
      · next h => exact hlost (Nat.not_lt.mp h)
  · rw [← protocolFault_of_up hup]
    rfl

end Sys2Proof.Proofs

/-! The receiver of a link: its steps symbol by symbol, and a whole frame among symbols; the statement
ReceiverTakesFrames. -/

namespace Sys2Proof.Machine

section
variable {s : State} {l : LinkId} {b : Byte}

/-! ## One symbol at a receiver (R136) -/

theorem receiveSymbol_of_off (h : (s.link l).state = .off) : receiveSymbol l b s = .next (huntAgain l s) := if_pos h

/-- A symbol that completes no frame moves the receiver on. -/
theorem receiveSymbol_of_none {r : Receiver} (h : (s.link l).state ≠ .off)
    (hr : readSymbol l (s.link l).receiver b = (r, none)) :
    receiveSymbol l b s = .next (modLink l (fun k => { k with receiver := r }) s) := by
  simp only [receiveSymbol, if_neg h, hr]

/-- A symbol that completes a frame has it taken. -/
theorem receiveSymbol_of_some {r : Receiver} {command : Instr} (h : (s.link l).state ≠ .off)
    (hr : readSymbol l (s.link l).receiver b = (r, some command)) :
    receiveSymbol l b s = exec command (modLink l (fun k => { k with receiver := r }) s) := by
  simp only [receiveSymbol, if_neg h, hr]

theorem readSymbol_unknown (l : LinkId) (h : payloadLength b = none) :
    readSymbol l (.inFrame []) b = (.hunting, some (.unknownKindFrame l b)) := by
  simp only [readSymbol, h]

theorem readSymbol_kind (l : LinkId) {n : Nat} (h : payloadLength b = some n) :
    readSymbol l (.inFrame []) b = (.inFrame [b], none) := by
  simp only [readSymbol, h]

theorem readSymbol_on (l : LinkId) {kind : Byte} {read : List Byte} {n : Nat} (hk : payloadLength kind = some n)
    (h : read.length ≤ n) : readSymbol l (.inFrame (kind :: read)) b = (.inFrame (kind :: read ++ [b]), none) := by
  have hlt : (read ++ [b]).length < n + 2 := by
    rw [List.length_append, List.length_singleton]
    omega
  simp only [readSymbol, hk, if_pos hlt, List.cons_append]

theorem completeFrame_eq (l : LinkId) (kind low high : Byte) (payload : List Byte) :
    completeFrame l kind payload (ofLeBytes [low, high]) =
      if low = (crc16 (kind :: payload)).extractLsb' 0 8 ∧ high = (crc16 (kind :: payload)).extractLsb' 8 8 then
        frameCommand l kind payload
      else .badCrcFrame l := by
  simp only [completeFrame, crc_eq_ofLeBytes]

/-- The last symbol of the CRC ends the frame. -/
theorem readSymbol_last (l : LinkId) {kind low : Byte} {payload : List Byte} (hk : payloadLength kind = some payload.length) :
    readSymbol l (.inFrame (kind :: (payload ++ [low]))) b =
      (.hunting, some (if low = (crc16 (kind :: payload)).extractLsb' 0 8 ∧ b = (crc16 (kind :: payload)).extractLsb' 8 8
        then frameCommand l kind payload else .badCrcFrame l)) := by
  have hread : payload ++ [low] ++ [b] = payload ++ [low, b] := by rw [List.append_assoc, List.singleton_append]
  have hlen : ¬(payload ++ [low, b]).length < payload.length + 2 := by
    rw [List.length_append]
    exact Nat.lt_irrefl _
  have htake : (payload ++ [low, b]).take payload.length = payload := List.take_left
  have hdrop : ((payload ++ [low, b]).drop payload.length).take 2 = [low, b] := by rw [List.drop_left]; rfl
  simp only [readSymbol, hk, hread, if_neg hlen, htake, hdrop, completeFrame_eq]

/-! ## A frame among symbols -/

theorem readFrame_of_none {r r' : Receiver} {rest : List Byte} (h : readSymbol l r b = (r', none)) :
    readFrame l r (b :: rest) = readFrame l r' rest := by
  simp only [readFrame, h]

theorem readFrame_of_some {r r' : Receiver} {command : Instr} {rest : List Byte}
    (h : readSymbol l r b = (r', some command)) : readFrame l r (b :: rest) = some (command, rest) := by
  simp only [readFrame, h]

/-- Hunting, every symbol but the start marker is passed over. -/
theorem readFrame_noise (l : LinkId) {noise : List Byte} (h : 0x7E ∉ noise) (rest : List Byte) :
    readFrame l .hunting (noise ++ rest) = readFrame l .hunting rest := by
  induction noise with
  | nil => rfl
  | cons x noise ih =>
    have hx : x ≠ 0x7E := fun e => h (e ▸ List.mem_cons_self)
    have hr : readSymbol l .hunting x = (.hunting, none) := by simp only [readSymbol, if_neg hx]
    rw [List.cons_append, readFrame_of_none hr]
    exact ih (List.not_mem_of_not_mem_cons h)

/-- A whole frame with a good CRC is taken, and the symbols after it are left. -/
theorem readFrame_whole (l : LinkId) {kind : Byte} {payload : List Byte} (hk : payloadLength kind = some payload.length)
    (rest : List Byte) :
    readFrame l .hunting (0x7E :: kind :: payload ++ [(crc16 (kind :: payload)).extractLsb' 0 8,
      (crc16 (kind :: payload)).extractLsb' 8 8] ++ rest) = some (frameCommand l kind payload, rest) := by
  generalize hlow : (crc16 (kind :: payload)).extractLsb' 0 8 = low
  generalize hhigh : (crc16 (kind :: payload)).extractLsb' 8 8 = high
  have hon := readFrame_reads_on l hk (high :: rest) (payload ++ [low]) []
    (Nat.le_of_eq (by rw [List.length_append, List.length_singleton, List.length_nil, Nat.zero_add]))
  have hsymbols : 0x7E :: kind :: payload ++ [low, high] ++ rest =
      0x7E :: kind :: ((payload ++ [low]) ++ (high :: rest)) := by simp
  have hmarker : readSymbol l .hunting 0x7E = (.inFrame [], none) := rfl
  rw [hsymbols, readFrame_of_none hmarker, readFrame_of_none (readSymbol_kind l hk), hon, List.nil_append,
    readFrame_of_some (readSymbol_last l hk), if_pos ⟨hlow.symm, hhigh.symm⟩]

/-! ## The CRC (11.1) -/

theorem crcBit_eq (crc : BitVec 16) (bit : Bool) :
    crcBit crc bit = if crc.msb = bit then crc <<< 1 else (crc <<< 1) ^^^ 0x1021 := by
  unfold crcBit
  by_cases h : crc.msb = bit
  · rw [if_pos h, if_neg (by rw [h]; simp)]
  · rw [if_neg h, if_pos (bne_iff_ne.mpr h)]
    rfl

theorem crc16_append (bytes : List Byte) (b : Byte) : crc16 (bytes ++ [b]) =
    [7, 6, 5, 4, 3, 2, 1, 0].foldl (fun (crc : BitVec 16) i =>
      if crc.msb = b.getLsbD i then crc <<< 1 else (crc <<< 1) ^^^ 0x1021) (crc16 bytes) := by
  simp only [← crcBit_eq]
  rw [crc16, List.foldl_append, ← crc16]
  rfl

/-- The payload lengths of Table 11.1. -/
theorem payloadLength_eq : ∀ kind : Byte, payloadLength kind =
    if kind = 0x01 then some 6 else if kind = 0x02 then some 3 else if kind = 0x03 ∨ kind = 0x05 then some 5
    else if kind = 0x04 ∨ kind = 0x07 ∨ kind = 0x08 ∨ kind = 0x09 then some 1 else if kind = 0x06 then some 2
    else if kind = 0x0A then some 0 else none := by
  decide

end

end Sys2Proof.Machine

namespace Sys2Proof.Proofs
open Sys2Proof.Machine

/-- Settles O27: the receiver's steps, the CRC, and a whole frame. -/
theorem receiverTakesFrames : Obligations.ReceiverTakesFrames := by
  refine ⟨fun s l b => ?_, payloadLength_eq, fun l payload => ?_, ⟨rfl, fun b rest => rfl⟩, ⟨rfl, crc16_append⟩,
    fun l kind payload rest noise hk hnoise => ?_⟩
  · intro k left
    refine ⟨receiveSymbol_of_off, fun hs => ⟨fun hr => ?_, fun hr => ⟨fun hk => ?_, fun n hk => ?_⟩,
      fun kind read n hr hk => ⟨fun hlen => ?_, fun payload low hread hlen => ?_⟩⟩⟩
    · exact receiveSymbol_of_none hs (by rw [show (s.link l).receiver = _ from hr]; rfl)
    · exact receiveSymbol_of_some hs (by rw [show (s.link l).receiver = _ from hr]; exact readSymbol_unknown l hk)
    · exact receiveSymbol_of_none hs (by rw [show (s.link l).receiver = _ from hr]; exact readSymbol_kind l hk)
    · exact receiveSymbol_of_none hs (by rw [show (s.link l).receiver = _ from hr]; exact readSymbol_on l hk hlen)
    · subst hlen hread
      exact receiveSymbol_of_some hs (by rw [show (s.link l).receiver = _ from hr]; exact readSymbol_last l hk)
  · exact ⟨rfl, rfl, rfl, rfl, rfl, rfl, rfl, rfl, rfl, rfl⟩
  · intro crc
    have hwhole := readFrame_whole l hk rest
    rw [takeFrame, List.append_assoc, List.append_assoc, List.append_assoc, readFrame_noise l hnoise]
    rw [List.append_assoc] at hwhole
    exact hwhole

end Sys2Proof.Proofs

/-! The frames that are dropped, the CHECK that is taken, the frames sent and their bytes; the statement
ChecksAndIdles. -/

namespace Sys2Proof.Machine

section
variable {s : State} {l : LinkId}

/-! ## Frames taken -/

/-- A change of links sends no interrupt. -/
theorem signalInterrupt_modLink (f : Link → Link) (l : LinkId) (s : State) :
    signalInterrupt s (modLink l f s) = modLink l f s := signalInterrupt_same rfl rfl rfl rfl

/-- A link that is not UP as it takes a frame. -/
theorem takeFrameEvent_of_not_up (h : (s.link l).state ≠ .up) :
    takeFrameEvent l s = modLink l (fun k => { k with receiver := .hunting }) s := by
  refine modLink_congr (f := Link.heard s.settings.silenceLimit) ?_
  rw [Link.heard, if_neg h]

theorem state_takeFrameEvent (l : LinkId) (s : State) : ((takeFrameEvent l s).link l).state = (s.link l).state :=
  (congrArg Link.state (link_takeFrameEvent_same l s)).trans rfl

/-- An event that does no more than take a frame on a link that is not UP. -/
theorem next_dropped (h : (s.link l).state ≠ .up) {u : State} (hu : u = takeFrameEvent l s) :
    (.next (signalInterrupt s u) : Host.Outcome State Fault Refusal) =
      .next (modLink l (fun k => { k with receiver := .hunting }) s) := by
  rw [hu, takeFrameEvent_of_not_up h, signalInterrupt_modLink]

theorem protocolFault_of_not_up (h : (s.link l).state ≠ .up) (cause : DownCause) :
    protocolFault l cause (takeFrameEvent l s) = takeFrameEvent l s :=
  if_neg (state_takeFrameEvent l s ▸ h)

theorem exec_check_of_not_up (h : (s.link l).state ≠ .up) (p : BitVec 48) :
    exec (.check l p) s = .next (signalInterrupt s (takeFrameEvent l s)) := by
  have hstate := state_takeFrameEvent l s
  refine congrArg (fun u => Host.Outcome.next (signalInterrupt s u)) ?_
  dsimp only
  split
  · next hup => exact absurd (hstate.symm.trans hup) h
  all_goals rfl

theorem exec_recallAck_of_down (h : (s.link l).state = .off ∨ (s.link l).state = .failed) (p : BitVec 8) :
    exec (.recallAck l p) s = .next (signalInterrupt s (takeFrameEvent l s)) := by
  refine congrArg (fun u => Host.Outcome.next (signalInterrupt s u)) ?_
  rcases h with h | h <;> simp only [state_takeFrameEvent, h]

theorem exec_wipeDone_of_down (h : (s.link l).state = .off ∨ (s.link l).state = .failed) (p : BitVec 16) :
    exec (.wipeDone l p) s = .next (signalInterrupt s (takeFrameEvent l s)) := by
  refine congrArg (fun u => Host.Outcome.next (signalInterrupt s u)) ?_
  rcases h with h | h <;> simp only [state_takeFrameEvent, h]

theorem exec_rejoinAck_of_down (h : (s.link l).state = .off ∨ (s.link l).state = .failed) (p : BitVec 8) :
    exec (.rejoinAck l p) s = .next (signalInterrupt s (takeFrameEvent l s)) := by
  refine congrArg (fun u => Host.Outcome.next (signalInterrupt s u)) ?_
  rcases h with h | h <;> simp only [takeRejoinAck, state_takeFrameEvent, h]

/-- A CHECK within the credits, with a tag not held, joins the accounting and the lane (R20). -/
theorem takeCheck_of_room {k : Check} (hcredits : (s.link l).accounting.length + (s.link l).withheld < 32)
    (htag : k.tag ∉ (s.link l).accounting) :
    takeCheck l k s = modLink l (fun x => { x with accounting := x.accounting ++ [k.tag], lane := x.lane ++ [k] }) s :=
  (if_neg (Nat.not_le.mpr hcredits)).trans (if_neg htag)

/-! ## Frames sent (R147) -/

theorem exec_frameSent_of_sending (h : (s.link l).state = .up ∨ (s.link l).state = .rejoining) :
    exec (.frameSent l) s = .next (modLink l sendHead s) := by
  rw [← signalInterrupt_modLink sendHead l s]
  refine congrArg (fun u => Host.Outcome.next (signalInterrupt s u)) ?_
  rcases h with h | h <;> simp only [h]

theorem exec_frameSent_of_down (h : (s.link l).state = .off ∨ (s.link l).state = .failed) :
    exec (.frameSent l) s = .next s := by
  have hquiet : Host.Outcome.next (signalInterrupt s s) = (.next s : Host.Outcome State Fault Refusal) :=
    congrArg _ (signalInterrupt_self s)
  refine Eq.trans ?_ hquiet
  refine congrArg (fun u => Host.Outcome.next (signalInterrupt s u)) ?_
  rcases h with h | h <;> simp only [h]

end

/-! ## Bytes -/

theorem leBytes_length (n x : Nat) : (leBytes n x).length = n := by
  rw [leBytes, List.length_map, List.length_range]

theorem leBytes_succ (n x : Nat) : leBytes (n + 1) x = BitVec.ofNat 8 x :: leBytes n (x / 256) := by
  simp only [leBytes, List.range_succ_eq_map, List.map_cons, List.map_map, Nat.pow_zero, Nat.div_one, List.cons.injEq, true_and]
  refine List.map_congr_left fun i _ => ?_
  rw [Function.comp_apply, Nat.pow_succ', Nat.div_div_eq_div_mul]

/-- The number that some bytes of a number are. -/
theorem ofLeBytes_leBytes (n x : Nat) : ofLeBytes (leBytes n x) = x % 256 ^ n := by
  induction n generalizing x with
  | zero => simp [leBytes, ofLeBytes, Nat.mod_one]
  | succ n ih =>
    rw [leBytes_succ, ofLeBytes, ih, BitVec.toNat_ofNat, Nat.pow_succ' (m := 256), Nat.mod_mul]

/-- A word of as many bits as bytes have been written. -/
theorem ofNat_ofLeBytes_leBytes (n x : Nat) : BitVec.ofNat (8 * n) (ofLeBytes (leBytes n x)) = BitVec.ofNat (8 * n) x := by
  apply BitVec.eq_of_toNat_eq
  rw [ofLeBytes_leBytes, BitVec.toNat_ofNat, BitVec.toNat_ofNat, show (256 : Nat) = 2 ^ 8 from rfl, ← Nat.pow_mul,
    Nat.mod_mod]

/-- Two bytes of a CRC, the lower first. -/
theorem leBytes_crc (c : BitVec 16) : leBytes 2 c.toNat = [c.extractLsb' 0 8, c.extractLsb' 8 8] := by
  rw [leBytes_succ, leBytes_succ]
  have hlow : BitVec.ofNat 8 c.toNat = c.extractLsb' 0 8 := rfl
  have hhigh : BitVec.ofNat 8 (c.toNat / 256) = c.extractLsb' 8 8 := by
    apply BitVec.eq_of_toNat_eq
    simp [BitVec.extractLsb'_toNat, Nat.shiftRight_eq_div_pow]
  rw [hlow, hhigh]
  rfl

/-! ## The payloads sent (Tables 11.1 and 11.2) -/

theorem VerdictResult.code_lt (r : VerdictResult) : r.code < 4 := by cases r <;> decide

/-- The fields of a VERDICT. -/
def Verdict.fields (v : Verdict) : List (Nat × Nat × Nat) :=
  [(v.tag.toNat, 0, 5), (v.result.code, 5, 2), (v.cacheable.toNat, 7, 1), (v.generation.toNat, 8, 8),
    ((v.rights.getD 0).toNat, 16, 3), ((v.faultClass.map FaultClass.code).getD 0, 19, 3), (v.credit.toNat, 22, 1)]

theorem verdict_content (v : Verdict) : (TxFrame.verdict v).content = (0x02, leBytes 3 (packFields v.fields)) := by
  obtain ⟨tag, result, rights, cacheable, generation, credit, cls⟩ := v
  cases rights <;> cases cls <;> rfl

/-- The fields of an order. -/
def orderFields (base order : Nat) (c : CtxId) (seq : BitVec 4) : List (Nat × Nat × Nat) :=
  [(base, 0, 26), (order, 26, 4), (c.val, 32, 4), (seq.toNat, 36, 4)]

/-- The payload of an order, by its bits. -/
theorem order_fields {base order : Nat} (hb : base < 67108864) (ho : order ≤ 9) (c : CtxId) (seq : BitVec 4) :
    let x := BitVec.ofNat 40 (ofLeBytes (leBytes 5 (packFields (orderFields base order c seq))))
    (x.extractLsb' 0 26).toNat = base ∧ (x.extractLsb' 26 4).toNat = order ∧ x.extractLsb' 30 2 = 0 ∧
      (x.extractLsb' 32 4).toNat = c.val ∧ x.extractLsb' 36 4 = seq := by
  intro x
  have hx : x = BitVec.ofNat 40 (packFields (orderFields base order c seq)) := ofNat_ofLeBytes_leBytes 5 _
  have happart : fieldsApart (orderFields base order c seq) = true := rfl
  rw [hx]
  refine ⟨extract_packFields_toNat (.head _) (by omega) happart (by decide),
    extract_packFields_toNat (.tail _ (.head _)) (by omega) happart (by decide),
    extract_packFields_free happart rfl,
    extract_packFields_toNat (.tail _ (.tail _ (.head _))) (by omega) happart (by decide), ?_⟩
  rw [extract_packFields (v := seq.toNat) (by simp [orderFields]) happart (by decide), BitVec.ofNat_toNat,
    BitVec.setWidth_eq]

end Sys2Proof.Machine

namespace Sys2Proof.Proofs
open Sys2Proof.Machine

/-- Settles O28: the frames dropped and taken, the frames sent, and their bytes. -/
theorem checksAndIdles : Obligations.ChecksAndIdles := by
  refine ⟨fun s l => ⟨fun h command hc => ?_, fun h command hc => ?_, ?_⟩, fun s l p hup hcredits htag => ?_,
    fun l p => ?_, fun s l => ⟨fun h => ?_, exec_frameSent_of_down⟩, fun f => ?_, fun v => ?_,
    fun base order c seq f hb ho hf => ?_, fun n => ?_, fun n hn => ?_, rfl, rfl, rfl⟩
  · rcases hc with rfl | ⟨k, rfl⟩ | ⟨k, rfl⟩ | ⟨p, rfl⟩
    · exact next_dropped h (protocolFault_of_not_up h .crc)
    · exact next_dropped h (protocolFault_of_not_up h .protocol)
    · exact next_dropped h (protocolFault_of_not_up h .protocol)
    · rw [exec_check_of_not_up h]
      exact next_dropped h rfl
  · have hnot : (s.link l).state ≠ .up := by
      rcases h with h | h <;> rw [h] <;> nofun
    rcases hc with ⟨p, rfl⟩ | ⟨p, rfl⟩ | ⟨p, rfl⟩
    · rw [exec_recallAck_of_down h]
      exact next_dropped hnot rfl
    · rw [exec_wipeDone_of_down h]
      exact next_dropped hnot rfl
    · rw [exec_rejoinAck_of_down h]
      exact next_dropped hnot rfl
  · exact congrArg Host.Outcome.next (signalInterrupt_modLink _ l s)
  · rw [exec_check_of_up hup, takeCheck_of_room (s := takeFrameEvent l s), takeFrameEvent_eq, modLink_modLink,
      signalInterrupt_modLink]
    · refine congrArg Host.Outcome.next (modLink_congr ?_)
      rw [Link.heard, if_pos hup]
    · rw [link_takeFrameEvent_same]
      exact hcredits
    · rw [link_takeFrameEvent_same]
      exact htag
  · refine ⟨rfl, ?_, ?_, bitField_toNat p 8 11, bitField_toNat p 19 26, ?_⟩
    · exact (congrArg (BitVec.ofNat 5) (bitField_toNat p 0 5)).trans (by rw [BitVec.ofNat_toNat, BitVec.setWidth_eq])
    · exact (congrArg (BitVec.ofNat 3) (bitField_toNat p 5 3)).trans (by rw [BitVec.ofNat_toNat, BitVec.setWidth_eq])
    · show bitAt p.toNat 45 = p.getLsbD 45
      rw [bitAt, bitField, BitVec.getLsbD, Nat.testBit_eq_decide_div_mod_eq]
      rfl
  · rw [exec_frameSent_of_sending h]
    refine ⟨fun f rest htx => ?_, fun htx => ?_⟩
    · exact congrArg Host.Outcome.next (modLink_congr (by simp only [sendHead, htx]))
    · exact congrArg Host.Outcome.next (modLink_congr (by simp only [sendHead, htx]))
  · rw [TxFrame.bytes, leBytes_crc]
    rfl
  · intro x
    have hx : x = BitVec.ofNat 24 (packFields v.fields) := by
      show BitVec.ofNat 24 (ofLeBytes (TxFrame.verdict v).content.2) = _
      rw [verdict_content]
      exact ofNat_ofLeBytes_leBytes 3 _
    have happart : fieldsApart v.fields = true := rfl
    have hcls : (v.faultClass.map FaultClass.code).getD 0 < 2 ^ 3 := by
      cases v.faultClass with
      | none => decide
      | some c => exact c.code_lt
    rw [hx, verdict_content]
    refine ⟨rfl, leBytes_length _ _, ?_, ?_, ?_, ?_, ?_, ?_, ?_, ?_⟩
    · rw [extract_packFields (v := v.tag.toNat) (by simp [Verdict.fields]) happart (by decide), BitVec.ofNat_toNat,
        BitVec.setWidth_eq]
    · exact extract_packFields_toNat (.tail _ (.head _)) v.result.code_lt happart (by decide)
    · rw [getLsbD_packFields (v := v.cacheable.toNat) (by simp [Verdict.fields]) happart (by decide), testBit_zero_toNat]
    · rw [extract_packFields (v := v.generation.toNat) (by simp [Verdict.fields]) happart (by decide), BitVec.ofNat_toNat,
        BitVec.setWidth_eq]
    · rw [extract_packFields (v := (v.rights.getD 0).toNat) (by simp [Verdict.fields]) happart (by decide),
        BitVec.ofNat_toNat, BitVec.setWidth_eq]
    · exact extract_packFields_toNat (by simp [Verdict.fields]) hcls happart (by decide)
    · rw [getLsbD_packFields (v := v.credit.toNat) (by simp [Verdict.fields]) happart (by decide), testBit_zero_toNat]
    · exact getLsbD_packFields_free (lo := 23) (width := 1) happart rfl (by decide)
  · rcases hf with rfl | rfl
    · exact ⟨(if_pos rfl).symm, leBytes_length _ _, order_fields hb ho c seq⟩
    · exact ⟨(if_neg nofun).symm, leBytes_length _ _, order_fields hb ho c seq⟩
  · show (0x07, leBytes 1 n.toNat) = _
    rw [leBytes_succ, BitVec.ofNat_toNat]
    rfl
  · have hpack : packFields [(n, 0, 6)] = n := by
      rw [packFields, packFields, Nat.mod_eq_of_lt (show n < 2 ^ 6 from hn), Nat.pow_zero, Nat.mul_one, Nat.add_zero]
    show (0x09, leBytes 1 (packFields [(n, 0, 6)])) = _
    rw [hpack, leBytes_succ]
    rfl

end Sys2Proof.Proofs

/-! The answers of agents and the end of a rejoin, as links and contexts take them; the statements RecallAckClearsMark
and RejoinAckCompletesRejoin. -/

namespace Sys2Proof.Machine

/-! ## A mark that clears (R91, R112) -/

section
variable {l : LinkId} {w : Work} {r : Run}

/-- What the clearing of a mark leaves of the run and of the context, and where the recall phase goes. -/
structure MarkCleared (l : LinkId) (w : Work) (r : Run) (w' : Work) (r' : Run) : Prop where
  marks : r'.marks = (r.clear l).marks
  cleared : r'.cleared = r.cleared ||| (1#6 <<< l.val)
  run : r'.image = r.image ∧ r'.base = r.base ∧ r'.order = r.order ∧ r'.outcome = r.outcome
  counts : w'.changed = w.changed ∧ w'.unchanged = w.unchanged ∧ w'.fenced = w.fenced
  others : (∃ l', l' ≠ l ∧ r.mark l' ≠ .noMark) →
    w'.phase = w.phase ∧ w'.request = w.request ∧ r'.deadline = r.deadline
  last : (∀ l', l' ≠ l → r.mark l' = .noMark) → r'.deadline = none ∧
    (r.outcome ≠ .clean → w'.phase = .commit ∧ w'.request = .commit false) ∧
    (r.outcome = .clean → w.abortMark = true → w'.request = .revert) ∧
    (r.outcome = .clean → w.abortMark = false → r.needsWipe = true → w'.phase = .wipe ∧ w'.request = .wipeStart) ∧
    (r.outcome = .clean → w.abortMark = false → r.needsWipe = false → w'.phase = .commit ∧ w'.request = .commit false)

theorem clearMark_cleared (hr : w.run = some r) (l : LinkId) :
    ∃ r', (w.clearMark l).run = some r' ∧ MarkCleared l w r (w.clearMark l) r' := by
  by_cases hlast : ∀ l', l' ≠ l → r.mark l' = .noMark
  · have hnot : ¬∃ l', l' ≠ l ∧ r.mark l' ≠ .noMark := fun ⟨l', hne, hm⟩ => hm (hlast l' hne)
    rw [clearMark_of_last hr hlast]
    refine ⟨{ r.clear l with deadline := none }, ?_⟩
    generalize hv : { w with run := some (r.clear l) } = v
    have hrun : v.run = some (r.clear l) := by rw [← hv]
    have hmark : v.abortMark = w.abortMark := by rw [← hv]
    have hcounts : v.changed = w.changed ∧ v.unchanged = w.unchanged ∧ v.fenced = w.fenced := by
      rw [← hv]
      exact ⟨rfl, rfl, rfl⟩
    by_cases ho : r.outcome = .clean
    · rcases Bool.eq_false_or_eq_true w.abortMark with ha | ha
      · rw [endRecall_of_aborted hrun ho (hmark.trans ha)]
        exact ⟨rfl, rfl, rfl, ⟨rfl, rfl, rfl, rfl⟩, hcounts, fun h => absurd h hnot, fun _ =>
          ⟨rfl, fun h => absurd ho h, fun _ _ => rfl, fun _ h => absurd (ha.symm.trans h) (by decide),
            fun _ h => absurd (ha.symm.trans h) (by decide)⟩⟩
      · rcases Bool.eq_false_or_eq_true r.needsWipe with hn | hn
        · rw [endRecall_of_wipe hrun ho (hmark.trans ha) hn]
          exact ⟨rfl, rfl, rfl, ⟨rfl, rfl, rfl, rfl⟩, hcounts, fun h => absurd h hnot, fun _ =>
            ⟨rfl, fun h => absurd ho h, fun _ h => absurd (ha.symm.trans h) (by decide), fun _ _ _ => ⟨rfl, rfl⟩,
              fun _ _ h => absurd (hn.symm.trans h) (by decide)⟩⟩
        · rw [endRecall_of_clean hrun ho (hmark.trans ha) hn]
          exact ⟨rfl, rfl, rfl, ⟨rfl, rfl, rfl, rfl⟩, hcounts, fun h => absurd h hnot, fun _ =>
            ⟨rfl, fun h => absurd ho h, fun _ h => absurd (ha.symm.trans h) (by decide), fun _ _ h => absurd (hn.symm.trans h) (by decide),
              fun _ _ _ => ⟨rfl, rfl⟩⟩⟩
    · rw [endRecall_of_fenced hrun ho]
      exact ⟨rfl, rfl, rfl, ⟨rfl, rfl, rfl, rfl⟩, hcounts, fun h => absurd h hnot, fun _ =>
        ⟨rfl, fun _ => ⟨rfl, rfl⟩, fun h => absurd h ho, fun h => absurd h ho, fun h => absurd h ho⟩⟩
  · obtain ⟨l', hl'⟩ := Classical.not_forall.mp hlast
    obtain ⟨hne, hm⟩ := Classical.not_imp.mp hl'
    rw [clearMark_of_other hr hne hm]
    exact ⟨r.clear l, rfl, rfl, rfl, ⟨rfl, rfl, rfl, rfl⟩, ⟨rfl, rfl, rfl⟩, fun _ => ⟨rfl, rfl, rfl⟩,
      fun h => absurd h hlast⟩

theorem MarkCleared.mark_same {w' : Work} {r' : Run} (h : MarkCleared l w r w' r') : r'.mark l = .noMark :=
  (mark_of_marks_eq h.marks l).trans (mark_setMark_same r l .noMark)

theorem MarkCleared.mark_other {w' : Work} {r' : Run} (h : MarkCleared l w r w' r') {l' : LinkId} (hl : l' ≠ l) :
    r'.mark l' = r.mark l' :=
  (mark_of_marks_eq h.marks l').trans (mark_setMark_other .noMark hl)

end

/-! ## Answers (R91, R94, R148) -/

section
variable {s : State} {l : LinkId} {c : CtxId} {w : Work} {r : Run}

theorem idCtx_eq {n : Nat} {p : BitVec n} (hc : c.val = (p.extractLsb' 0 4).toNat) : idCtx p.toNat = c := by
  apply Fin.ext
  rw [idCtx, bitField_toNat, ← hc]
  exact Nat.mod_eq_of_lt c.isLt

theorem idSeq_eq {n : Nat} (p : BitVec n) : idSeq p.toNat = p.extractLsb' 4 4 := by
  rw [idSeq, bitField_toNat, BitVec.ofNat_toNat, BitVec.setWidth_eq]

theorem idCtx_val {n : Nat} (p : BitVec n) : (idCtx p.toNat).val = (p.extractLsb' 0 4).toNat := by
  rw [idCtx, bitField_toNat]
  exact Nat.mod_eq_of_lt (p.extractLsb' 0 4).isLt

theorem exec_recallAck_of_live (h : (s.link l).state = .up ∨ (s.link l).state = .rejoining) (p : BitVec 8) :
    exec (.recallAck l p) s = .next (signalInterrupt s
      (takeRecallAck l (idCtx p.toNat) (p.extractLsb' 4 4) (takeFrameEvent l s))) := by
  rw [← idSeq_eq]
  refine congrArg (fun u => Host.Outcome.next (signalInterrupt s u)) ?_
  rcases h with h | h <;> simp only [state_takeFrameEvent, h]

theorem exec_wipeDone_of_live (h : (s.link l).state = .up ∨ (s.link l).state = .rejoining) (p : BitVec 16) :
    exec (.wipeDone l p) s = .next (signalInterrupt s
      (takeWipeDone l (idCtx p.toNat) (p.extractLsb' 4 4) (p.getLsbD 8) (takeFrameEvent l s))) := by
  rw [← idSeq_eq]
  refine congrArg (fun u => Host.Outcome.next (signalInterrupt s u)) ?_
  rcases h with h | h <;> simp only [state_takeFrameEvent, h]

theorem exec_rejoinAck (l : LinkId) (p : BitVec 8) (s : State) : exec (.rejoinAck l p) s =
    .next (signalInterrupt s (takeRejoinAck l (p.extractLsb' 0 4) (takeFrameEvent l s))) := rfl

theorem recallMatches_iff (hw : s.work c = some w) {seq : BitVec 4} : s.recallMatches c seq l = true ↔
    w.phase = .recall ∧ s.runSeq c = seq ∧ w.markOf l = .awaitingAck := by
  simp only [State.recallMatches, hw, Bool.and_eq_true, decide_eq_true_eq, beq_iff_eq, and_assoc]

theorem wipeMatches_iff (hw : s.work c = some w) {seq : BitVec 4} : s.wipeMatches c seq l = true ↔
    w.phase = .wipe ∧ s.runSeq c = seq ∧ w.wipeOutstanding l = true := by
  simp only [State.wipeMatches, hw, Bool.and_eq_true, decide_eq_true_eq, beq_iff_eq, and_assoc]

theorem work_takeFrameEvent (l : LinkId) (s : State) (c : CtxId) : (takeFrameEvent l s).work c = s.work c := rfl

theorem runSeq_takeFrameEvent (l : LinkId) (s : State) (c : CtxId) : (takeFrameEvent l s).runSeq c = s.runSeq c := rfl

/-- An event that changes one context and the link's timer. -/
theorem signalInterrupt_heard (l : LinkId) (c : CtxId) (w : Option Work) (s : State) :
    signalInterrupt s (setWork c w (takeFrameEvent l s)) = setWork c w (takeFrameEvent l s) :=
  signalInterrupt_same rfl rfl rfl rfl

/-- An answer that matches nothing (R148). -/
structure StrayCounted (l : LinkId) (s t : State) : Prop where
  frame : t = signalInterrupt s { s with
    links := (takeFrameEvent l s).links, counters := t.counters, notices := t.notices, noticeLost := t.noticeLost }
  stray : (t.counter (.ofLink l .strayAcks)).value = (s.counter (.ofLink l .strayAcks)).value + 1
  counters : ∀ n, n.index ≠ (CounterName.ofLink l .strayAcks).index → t.counter n = s.counter n

theorem strayAnswer_counted (l : LinkId) (s : State) :
    StrayCounted l s (signalInterrupt s (strayAnswer l (takeFrameEvent l s))) := by
  refine ⟨?_, ?_, fun n hn => ?_⟩
  · rw [signalInterrupt_counters, signalInterrupt_notices, signalInterrupt_noticeLost]
    exact congrArg (signalInterrupt s) (countEvent_frame (.ofLink l .strayAcks) (takeFrameEvent l s))
  · rw [State.counter, signalInterrupt_counters]
    exact countEvent_value (.ofLink l .strayAcks) (takeFrameEvent l s)
  · rw [State.counter, signalInterrupt_counters]
    exact countEvent_other hn (takeFrameEvent l s)

theorem takeRecallAck_of_stray {seq : BitVec 4} (h : s.recallMatches c seq l = false) :
    takeRecallAck l c seq s = strayAnswer l s := by
  rw [takeRecallAck, h]
  rfl

theorem takeWipeDone_of_stray {seq : BitVec 4} {failed : Bool} (h : s.wipeMatches c seq l = false) :
    takeWipeDone l c seq failed s = strayAnswer l s := by
  rw [takeWipeDone, h]
  rfl

theorem recallMatches_false {seq : BitVec 4} (h : ∀ w, s.work c = some w →
    w.phase ≠ .recall ∨ s.runSeq c ≠ seq ∨ w.markOf l ≠ .awaitingAck) : s.recallMatches c seq l = false := by
  cases hw : s.work c with
  | none => simp only [State.recallMatches, hw]
  | some w =>
    rw [← Bool.not_eq_true, recallMatches_iff hw]
    rintro ⟨hp, hs, hm⟩
    exact (h w hw).elim (· hp) fun h => h.elim (· hs) (· hm)

theorem wipeMatches_false {seq : BitVec 4} (h : ∀ w, s.work c = some w →
    w.phase ≠ .wipe ∨ s.runSeq c ≠ seq ∨ w.wipeOutstanding l = false) : s.wipeMatches c seq l = false := by
  cases hw : s.work c with
  | none => simp only [State.wipeMatches, hw]
  | some w =>
    rw [← Bool.not_eq_true, wipeMatches_iff hw]
    rintro ⟨hp, hs, hm⟩
    exact (h w hw).elim (· hp) fun h => h.elim (· hs) fun h => Bool.false_ne_true (h.symm.trans hm)

theorem takeRejoinAck_of_stray {number : BitVec 4} (h : (s.link l).state = .up ∨
    ((s.link l).state = .rejoining ∧ (s.link l).rejoinNumber ≠ number)) : takeRejoinAck l number s = strayAnswer l s := by
  rcases h with h | ⟨h, hn⟩
  · simp only [takeRejoinAck, h]
  · simp only [takeRejoinAck, h, if_neg (Ne.symm hn)]

theorem wipeOk_eq (hr : w.run = some r) : w.wipeOk = { w with
    run := some { r with wipe := .done, deadline := none }
    phase := .commit, request := .commit w.abortMark, waiting := false } := by
  rw [Work.wipeOk, modRun_of_run _ hr]
  rfl

/-! ## The end of a rejoin (R143, R144) -/

/-- A link changes its state, every context is told, and one notice is offered. -/
def announce (l : LinkId) (f : Link → Link) (g : Work → Work) (body : NoticeBody) (s : State) : State :=
  offerNotice body (presentToContexts g (modLink l f s))

/-- A link that is UP again. -/
def Link.rejoined (limit : Nat) (k : Link) : Link :=
  { k with
    state := .up, rejoinDeadline := none, attempt := 0, silenceTimer := some limit, accounting := [], withheld := 0 }

/-- A link whose rejoin is exhausted. -/
def Link.exhausted (k : Link) : Link := { k with state := .failed, rejoinDeadline := none, attempt := 0, tx := [] }

theorem completeRejoin_eq (l : LinkId) (s : State) : completeRejoin l s =
    announce l (Link.rejoined s.settings.silenceLimit) (Work.linkRejoined l) (.linkUp l) s := rfl

theorem exhaustRejoin_eq (l : LinkId) (s : State) :
    exhaustRejoin l s = announce l Link.exhausted (Work.linkLost .linkFailed l) (.linkFailed l) s := rfl

/-- What an announcement does. -/
structure Announced (l : LinkId) (k : Link) (g : Work → Work) (body : NoticeBody) (s t : State) : Prop where
  frame : t = signalInterrupt s { s with
    links := t.links, ctxs := t.ctxs, notices := t.notices, noticeLost := t.noticeLost }
  link : t.link l = k
  other : ∀ l', l' ≠ l → t.link l' = s.link l'
  work : ∀ c, t.work c = (s.work c).map g
  notices : if s.notices.length < 64 then
      t.notices = s.notices ++ [{ body := body, lostBefore := s.noticeLost }] ∧ t.noticeLost = false
    else t.notices = s.notices ∧ t.noticeLost = true

theorem announce_frame (l : LinkId) (f : Link → Link) (g : Work → Work) (body : NoticeBody) (s : State) :
    announce l f g body s = { s with
      links := (announce l f g body s).links, ctxs := (announce l f g body s).ctxs
      notices := (announce l f g body s).notices, noticeLost := (announce l f g body s).noticeLost } := by
  have hpresent := presentToContexts_frame g (modLink l f s)
  unfold announce
  generalize presentToContexts g (modLink l f s) = u at hpresent ⊢
  rw [hpresent, offerNotice]
  split <;> rfl

theorem announce_announced (f : Link → Link) (g : Work → Work) (body : NoticeBody) {u : State}
    (hu : u = { s with links := u.links }) (hother : ∀ l', l' ≠ l → u.link l' = s.link l') :
    Announced l (f (u.link l)) g body s (signalInterrupt s (announce l f g body u)) := by
  have hlink : ∀ l', (signalInterrupt s (announce l f g body u)).link l' = (modLink l f u).link l' :=
    link_of_links_eq (by rw [signalInterrupt_links, announce, offerNotice_links, presentToContexts_links])
  refine ⟨?_, (hlink l).trans (link_modLink_same l f u), fun l' hl' => ?_, fun c => ?_, ?_⟩
  · rw [signalInterrupt_links, signalInterrupt_ctxs, signalInterrupt_notices, signalInterrupt_noticeLost]
    refine congrArg (signalInterrupt s) ?_
    have hframe := announce_frame l f g body u
    generalize announce l f g body u = v at hframe ⊢
    rw [hframe, hu]
  · exact (hlink l').trans ((link_modLink_other f u hl').trans (hother l' hl'))
  · have hctxs : (signalInterrupt s (announce l f g body u)).ctxs = (presentToContexts g (modLink l f u)).ctxs := by
      rw [signalInterrupt_ctxs, announce, offerNotice_ctxs]
    have hwork : (modLink l f u).work c = s.work c := work_of_ctxs_eq (by rw [modLink_ctxs, hu]) c
    rw [work_of_ctxs_eq hctxs c, work_presentToContexts, hwork]
  · have hnotices : (presentToContexts g (modLink l f u)).notices = s.notices := by
      rw [presentToContexts_notices, modLink_notices, hu]
    have hlost : (presentToContexts g (modLink l f u)).noticeLost = s.noticeLost := by
      rw [presentToContexts_noticeLost, modLink_noticeLost, hu]
    rw [signalInterrupt_notices, signalInterrupt_noticeLost, announce]
    split
    · next h => rw [offerNotice_placed _ (hnotices ▸ h), hnotices, hlost]; exact ⟨rfl, rfl⟩
    · next h => rw [offerNotice_lost _ (hnotices ▸ Nat.not_lt.mp h), hnotices]; exact ⟨rfl, rfl⟩

theorem takeRejoinAck_of_number {number : BitVec 4} (h : (s.link l).state = .rejoining)
    (hn : (s.link l).rejoinNumber = number) : takeRejoinAck l number s = completeRejoin l s := by
  simp only [takeRejoinAck, h, if_pos hn.symm]

theorem linkRejoined_of_awaiting (hr : w.run = some r) (hm : r.mark l = .awaitingRejoin) :
    w.linkRejoined l = w.clearMark l := by
  rw [Work.linkRejoined, markOf_of_run hr, if_pos hm]

theorem linkRejoined_of_not_awaiting (hm : w.markOf l ≠ .awaitingRejoin) : w.linkRejoined l = w := if_neg hm

theorem exec_rejoinExpiry (h : (s.link l).state = .rejoining) (hd : (s.link l).rejoinDeadline.isSome = true) :
    exec (.rejoinDeadlineExpiry l) s = .next (signalInterrupt s (expireRejoin l s)) := by
  have hexec : exec (.rejoinDeadlineExpiry l) s = .next (signalInterrupt s
      (if (s.link l).state = .rejoining ∧ (s.link l).rejoinDeadline.isSome = true then expireRejoin l s else s)) := rfl
  rw [hexec, if_pos ⟨h, hd⟩]

end

end Sys2Proof.Machine

namespace Sys2Proof.Proofs
open Sys2Proof.Machine

/-- Settles O29: the answers that match, and those that match nothing. -/
theorem recallAckClearsMark : Obligations.RecallAckClearsMark := by
  refine ⟨fun s l p c w r hlive hc hseq hw hp hr hm => ?_, fun s l p c w r hlive hc hseq hw hp hr hwipe ho => ?_,
    fun s l command hcommand => ?_⟩
  · have hw' : (takeFrameEvent l s).work c = some w := hw
    have hmatch : (takeFrameEvent l s).recallMatches c (p.extractLsb' 4 4) l = true :=
      (recallMatches_iff hw').mpr ⟨hp, hseq, (markOf_of_run hr l).trans hm⟩
    have hexec := exec_recallAck_of_live hlive p
    rw [idCtx_eq hc, takeRecallAck, if_pos hmatch, modWork_of_work _ hw', signalInterrupt_heard] at hexec
    obtain ⟨r', hr', h⟩ := clearMark_cleared hr l
    refine ⟨_, _, r', hexec, work_setWork_same _ _ _, hr', rfl, fun c' hc' => work_setWork_other _ _ hc', h.mark_same,
      fun l' => h.mark_other, h.cleared, h.run, h.counts, fun hother => ?_, h.last⟩
    obtain ⟨hphase, hrest⟩ := h.others hother
    exact ⟨hphase.trans hp, hrest⟩
  · have hw' : (takeFrameEvent l s).work c = some w := hw
    have hmatch : (takeFrameEvent l s).wipeMatches c (p.extractLsb' 4 4) l = true :=
      (wipeMatches_iff hw').mpr ⟨hp, hseq, (wipeOutstanding_iff hr).mpr hwipe⟩
    have hexec := exec_wipeDone_of_live hlive p
    rw [idCtx_eq hc, takeWipeDone, if_pos hmatch, modWork_of_work _ hw', signalInterrupt_heard] at hexec
    refine ⟨_, hexec, rfl, fun c' hc' => work_setWork_other _ _ hc', fun hok => ?_, fun hfail => ?_⟩
    · rw [work_setWork_same, hok, ← wipeOk_eq hr]
      rfl
    · rw [work_setWork_same, hfail, if_pos rfl, failWipe_of_run _ _ hr, fence_of_clean _ _ ho]
  · have hcounted : ∃ t, exec command s = .next t ∧ StrayCounted l s t := by
      rcases hcommand with ⟨p, rfl, hlive, hno⟩ | ⟨p, rfl, hlive, hno⟩ | ⟨p, rfl, hno⟩
      · have hexec := exec_recallAck_of_live hlive p
        rw [takeRecallAck_of_stray (s := takeFrameEvent l s) (recallMatches_false fun w hw => hno _ w (idCtx_val p) hw)] at hexec
        exact ⟨_, hexec, strayAnswer_counted l s⟩
      · have hexec := exec_wipeDone_of_live hlive p
        rw [takeWipeDone_of_stray (s := takeFrameEvent l s) (wipeMatches_false fun w hw => hno _ w (idCtx_val p) hw)] at hexec
        exact ⟨_, hexec, strayAnswer_counted l s⟩
      · have hexec := exec_rejoinAck l p s
        rw [takeRejoinAck_of_stray (s := takeFrameEvent l s) (by rw [link_takeFrameEvent_same]; exact hno)] at hexec
        exact ⟨_, hexec, strayAnswer_counted l s⟩
    obtain ⟨t, hexec, h⟩ := hcounted
    exact ⟨t, hexec, h.frame, h.stray, h.counters⟩

/-- Settles O30: the completion, the expiry, and a mark that clears. -/
theorem rejoinAckCompletesRejoin : Obligations.RejoinAckCompletesRejoin := by
  refine ⟨fun s l p hstate hnumber => ?_, fun s l hstate hdeadline => ⟨fun h => ?_, fun h => ?_⟩, fun l w r hr => ?_⟩
  · have hexec := exec_rejoinAck l p s
    have hlink := link_takeFrameEvent_same l s
    rw [takeRejoinAck_of_number (s := takeFrameEvent l s) (by rw [hlink]; exact hstate) (by rw [hlink]; exact hnumber),
      completeRejoin_eq] at hexec
    have h := announce_announced (l := l) (s := s) (Link.rejoined (takeFrameEvent l s).settings.silenceLimit)
      (Work.linkRejoined l) (.linkUp l) (u := takeFrameEvent l s) rfl fun l' hl' => link_takeFrameEvent_other hl' s
    refine ⟨_, hexec, h.frame, ?_, h.other, fun c w r hw hr hm => ?_, fun c w hw hm => ?_, h.notices⟩
    · rw [h.link, hlink]
      rfl
    · rw [h.work, hw, Option.map_some, linkRejoined_of_awaiting hr hm]
    · rw [h.work, hw, Option.map_some, linkRejoined_of_not_awaiting hm]
  · rw [exec_rejoinExpiry hstate hdeadline, expireRejoin, if_pos h]
    exact congrArg Host.Outcome.next (signalInterrupt_modLink _ l s)
  · have hexec := exec_rejoinExpiry hstate hdeadline
    rw [expireRejoin, if_neg (Nat.not_lt.mpr h), exhaustRejoin_eq] at hexec
    have h := announce_announced (l := l) (s := s) Link.exhausted (Work.linkLost .linkFailed l) (.linkFailed l) (u := s) rfl
      fun _ _ => rfl
    exact ⟨_, hexec, h.frame, h.link, h.other, h.work, h.notices⟩
  · intro r'
    refine ⟨mark_setMark_same r l .noMark, fun l' hl' => mark_setMark_other (r := r) .noMark hl', ?_,
      clearMark_of_last hr⟩
    rintro ⟨l', hne, hm⟩
    exact clearMark_of_other hr hne hm

end Sys2Proof.Proofs

/-! The deadlines of a run; the statement RunDeadlinesExpire. -/

namespace Sys2Proof.Machine

/-! ## Links that leave UP one after another -/

theorem rejoins_index_ne : ∀ {l l' : LinkId}, l ≠ l' →
    (CounterName.ofLink l .rejoins).index ≠ (CounterName.ofLink l' .rejoins).index := by
  decide

theorem returnCredits_idem (k : Link) : returnCredits (returnCredits k) = returnCredits k := by
  by_cases h : k.state = .up ∧ 0 < k.withheld
  · have hk : returnCredits k = { k with
        tx := k.tx.filter (fun f => !f.isCredit) ++ [.credit (queuedCredit k.tx + k.withheld)], withheld := 0 } := if_pos h
    rw [hk]
    exact if_neg fun h' => Nat.lt_irrefl 0 h'.2
  · have hk : returnCredits k = k := if_neg h
    rw [hk, hk]

theorem rejoining_returnCredits (k : Link) (deadline : Nat) : (returnCredits k).rejoining deadline = k.rejoining deadline := by
  unfold returnCredits
  split <;> rfl

/-- The requests of contexts, and the checks of links that have not left. -/
def Waiter.keptBut (Q : List LinkId) (w : Waiter) : Bool := w.asCheck.all (fun k => decide (k.link ∉ Q))

theorem keptBut_append (Q : List LinkId) (l : LinkId) (w : Waiter) :
    w.keptBut (Q ++ [l]) = (!Waiter.ofLink l w && w.keptBut Q) := by
  cases w with
  | context c => rfl
  | check k =>
    simp only [Waiter.keptBut, Waiter.asCheck, Option.all_some, Waiter.ofLink, List.mem_append, List.mem_singleton, not_or,
      Bool.decide_and, decide_not, Bool.and_comm]
    congr 2

/-- Some links have left UP with a cause, each beginning a rejoin; one context is not looked at. -/
structure LinksLeft (Q : List LinkId) (cause : DownCause) (c : CtxId) (s t : State) : Prop where
  gone : ∀ l ∈ Q, t.link l = (s.link l).rejoining s.settings.rejoinDeadline
  kept : ∀ l, l ∉ Q → t.link l = s.link l ∨ t.link l = returnCredits (s.link l)
  park : t.park = s.park.filter (fun k => decide (k.link ∉ Q))
  miss : t.miss = s.miss.map (fun e => { e with waiters := e.waiters.filter (Waiter.keptBut Q) })
  work : ∀ c', c' ≠ c → t.work c' = (s.work c').map (fun w => Q.foldl (fun w l => Work.linkRejoining l w) w)
  runSeq : ∀ c', t.runSeq c' = s.runSeq c'
  notices : ∃ rest, t.notices = s.notices ++ rest ∧ ∀ l ∈ Q,
    (∃ x ∈ rest, x.body = .linkDown l cause) ∨ (64 ≤ t.notices.length ∧ t.noticeLost = true)
  rejoins : ∀ l ∈ Q, (t.counter (.ofLink l .rejoins)).value = (s.counter (.ofLink l .rejoins)).value + 1
  counters : ∀ n, (∀ l ∈ Q, n.index ≠ (CounterName.ofLink l .rejoins).index) → t.counter n = s.counter n
  rest : (t.domains, t.groups, t.store, t.cache, t.port) = (s.domains, s.groups, s.store, s.cache, s.port)
  portSide : t.portSide = s.portSide

section
variable {Q : List LinkId} {cause : DownCause} {c : CtxId} {s u : State} {l : LinkId}

theorem LinksLeft.refl (cause : DownCause) (c : CtxId) (s : State) : LinksLeft [] cause c s s := by
  refine ⟨nofun, fun _ _ => .inl rfl, ?_, ?_, fun c' _ => ?_, fun _ => rfl, ⟨[], (List.append_nil _).symm, nofun⟩, nofun,
    fun _ _ => rfl, rfl, rfl⟩
  · exact (List.filter_eq_self.mpr fun _ _ => by simp).symm
  · have hkeep : ∀ x, Waiter.keptBut [] x = true := fun x => by cases x <;> rfl
    have hsame : ∀ waiters : List Waiter, waiters.filter (Waiter.keptBut []) = waiters := fun _ =>
      List.filter_eq_self.mpr fun x _ => hkeep x
    simp only [hsame, List.map_id_fun', id_eq]
  · simp

/-- What a context holds is not looked at. -/
theorem LinksLeft.setWork (h : LinksLeft Q cause c s u) (w : Option Work) : LinksLeft Q cause c s (setWork c w u) :=
  ⟨h.gone, h.kept, h.park, h.miss, fun c' hc' => (work_setWork_other w u hc').trans (h.work c' hc'),
    fun c' => (runSeq_setWork c c' w u).trans (h.runSeq c'), h.notices, h.rejoins, h.counters, h.rest, h.portSide⟩

theorem LinksLeft.state (h : LinksLeft Q cause c s u) (hl : l ∉ Q) : (u.link l).state = (s.link l).state := by
  rcases h.kept l hl with e | e
  · rw [e]
  · rw [e, returnCredits_state]

theorem LinksLeft.settings (h : LinksLeft Q cause c s u) : u.settings = s.settings := by
  have := h.portSide
  simp only [State.portSide, Prod.mk.injEq] at this
  obtain ⟨-, -, -, -, -, -, -, -, -, -, -, -, -, -, -, -, hsettings, -⟩ := this
  exact hsettings

/-- A further link's leaving. -/
theorem LinksLeft.leave (h : LinksLeft Q cause c s u) (hl : l ∉ Q) :
    LinksLeft (Q ++ [l]) cause c s (leaveUpToRejoin l cause u) := by
  have hleft := leaveUpToRejoin_left l cause u
  have hoffered := leaveUpToRejoin_offered l cause u
  have hmem : ∀ l', l' ∈ Q ++ [l] ↔ l' ∈ Q ∨ l' = l := fun l' => by rw [List.mem_append, List.mem_singleton]
  refine ⟨fun l' hl' => ?_, fun l' hl' => ?_, ?_, ?_, fun c' hc' => ?_, fun c' => (hleft.runSeq c').trans (h.runSeq c'),
    ?_, fun l' hl' => ?_, fun n hn => ?_, ?_, (leaveUpToRejoin_portSide l cause u).trans h.portSide⟩
  · by_cases he : l' = l
    · subst he
      rw [hleft.link, h.settings]
      rcases h.kept l' hl with e | e
      · rw [e]
      · rw [e, rejoining_returnCredits]
    · have hg := h.gone l' (((hmem l').mp hl').resolve_right he)
      rcases hleft.other l' he with e | e
      · rw [e, hg]
      · rw [e, hg]
        exact returnCredits_of_not_up nofun
  · rw [hmem, not_or] at hl'
    obtain ⟨hQ, he⟩ := hl'
    rcases hleft.other l' he with e | e <;> rcases h.kept l' hQ with e' | e' <;> rw [e, e']
    · exact .inl rfl
    · exact .inr rfl
    · exact .inr rfl
    · exact .inr (returnCredits_idem _)
  · rw [hleft.park, h.park, List.filter_filter]
    refine List.filter_congr fun k _ => ?_
    simp only [hmem, not_or, Bool.decide_and, decide_not, Bool.and_comm]
    congr 2
  · rw [hleft.miss, h.miss, List.map_map]
    refine List.map_congr_left fun e _ => ?_
    have hkept : Waiter.keptBut (Q ++ [l]) = fun w => !Waiter.ofLink l w && w.keptBut Q := funext (keptBut_append Q l)
    rw [Function.comp_apply, List.filter_filter, hkept]
  · rw [hleft.work, h.work c' hc', Option.map_map]
    refine congrArg (fun f => (s.work c').map f) ?_
    funext w
    rw [Function.comp_apply, List.foldl_append]
    rfl
  · obtain ⟨rest, hu, hall⟩ := h.notices
    by_cases hroom : u.notices.length < 64
    · obtain ⟨more, ht⟩ := hoffered.placed hroom
      refine ⟨_, by rw [ht, hu, List.append_assoc], fun l' hl' => .inl ?_⟩
      rcases (hmem l').mp hl' with hQ | rfl
      · obtain ⟨x, hx, hb⟩ := (hall l' hQ).resolve_right fun hf => absurd hroom (Nat.not_lt.mpr hf.1)
        exact ⟨x, List.mem_append_left _ hx, hb⟩
      · exact ⟨_, List.mem_append_right _ List.mem_cons_self, rfl⟩
    · obtain ⟨ht, hlost⟩ := hoffered.lost (Nat.not_lt.mp hroom)
      refine ⟨rest, ht.trans hu, fun l' hl' => .inr ⟨?_, hlost⟩⟩
      rw [ht]
      exact Nat.not_lt.mp hroom
  · rcases (hmem l').mp hl' with hQ | rfl
    · have hne : l' ≠ l := fun e => hl (e ▸ hQ)
      rw [counter_leaveUpToRejoin_other (rejoins_index_ne hne), h.rejoins l' hQ]
    · rw [rejoins_leaveUpToRejoin, h.counters]
      exact fun l'' hl'' => rejoins_index_ne fun e => hl (e ▸ hl'')
  · rw [counter_leaveUpToRejoin_other (hn l ((hmem l).mpr (.inr rfl)))]
    exact h.counters n fun l' hl' => hn l' ((hmem l').mpr (.inl hl'))
  · have hrest := hleft.rest
    have hrest' := h.rest
    simp only [Prod.mk.injEq] at hrest hrest' ⊢
    obtain ⟨h1, h2, h3, h4, h5, -⟩ := hrest
    obtain ⟨h1', h2', h3', h4', h5'⟩ := hrest'
    exact ⟨h1.trans h1', h2.trans h2', h3.trans h3', h4.trans h4', h5.trans h5'⟩

/-! ## The recall deadline (R110) -/

/-- A run after the marks of some links have expired. -/
def Run.expire (L : List LinkId) (r : Run) : Run :=
  L.foldl (fun r l => if r.mark l = .awaitingAck then r.setMark l .awaitingRejoin else r) r

theorem expire_cons (l : LinkId) (L : List LinkId) (r : Run) :
    r.expire (l :: L) = Run.expire L (if r.mark l = .awaitingAck then r.setMark l .awaitingRejoin else r) := rfl

/-- Only the marks expire. -/
theorem expire_frame (L : List LinkId) (r : Run) : r.expire L = { r with marks := (r.expire L).marks } := by
  induction L generalizing r with
  | nil => rfl
  | cons l L ih =>
    rw [expire_cons]
    have h := ih (if r.mark l = .awaitingAck then r.setMark l .awaitingRejoin else r)
    generalize Run.expire L (if r.mark l = .awaitingAck then r.setMark l .awaitingRejoin else r) = r' at h ⊢
    rw [h]
    split <;> rfl

theorem mark_expire {L : List LinkId} (hL : L.Nodup) (r : Run) (l : LinkId) : (r.expire L).mark l =
    if l ∈ L ∧ r.mark l = .awaitingAck then .awaitingRejoin else r.mark l := by
  induction L generalizing r with
  | nil => simp [Run.expire]
  | cons a L ih =>
    obtain ⟨ha, hL⟩ := List.nodup_cons.mp hL
    rw [expire_cons, ih hL]
    by_cases hl : l = a
    · subst hl
      rw [if_neg fun h => ha h.1]
      by_cases hm : r.mark l = .awaitingAck
      · rw [if_pos hm, if_pos ⟨List.mem_cons_self, hm⟩, mark_setMark_same]
      · rw [if_neg hm, if_neg fun h => hm h.2]
    · have hmark : (if r.mark a = .awaitingAck then r.setMark a .awaitingRejoin else r).mark l = r.mark l := by
        split
        · exact mark_setMark_other .awaitingRejoin hl
        · rfl
      rw [hmark]
      simp only [List.mem_cons, hl, false_or]

/-- A link awaited at the expiry, where it is UP: it leaves UP. -/
def State.leavesAt (s : State) (r : Run) (l : LinkId) : Bool :=
  decide (r.mark l = .awaitingAck) && decide ((s.link l).state = .up)

theorem expireMark_of_awaiting {w : Work} {r : Run} (hw : u.work c = some w) (hr : w.run = some r)
    (hm : r.mark l = .awaitingAck) : expireMark c l u = askRejoin l .recallExpiry
      (setWork c (some { w with run := some (r.setMark l .awaitingRejoin) }) u) := by
  simp only [expireMark, hw, markOf_of_run hr, if_pos hm]
  rw [modWork_of_work _ hw, modRun_of_run _ hr]

theorem expireMark_of_not_awaiting {w : Work} {r : Run} (hw : u.work c = some w) (hr : w.run = some r)
    (hm : r.mark l ≠ .awaitingAck) : expireMark c l u = u := by
  simp only [expireMark, hw, markOf_of_run hr, if_neg hm]

/-- One mark expires: its run goes on with the mark, and its link leaves UP where it is UP. -/
theorem LinksLeft.expireMark {w : Work} {r : Run} (h : LinksLeft Q .recallExpiry c s u) (hl : l ∉ Q)
    (hw : u.work c = some { w with run := some r }) (hwipe : ∀ l, r.wipe ≠ .outstanding l) :
    LinksLeft (if s.leavesAt r l = true then Q ++ [l] else Q) .recallExpiry c s (expireMark c l u) ∧
      (Machine.expireMark c l u).work c = some { w with
        run := some (if r.mark l = .awaitingAck then r.setMark l .awaitingRejoin else r) } := by
  by_cases hm : r.mark l = .awaitingAck
  · have hset := h.setWork (some { w with run := some (r.setMark l .awaitingRejoin) })
    have hwork := work_setWork_same c (some { w with run := some (r.setMark l .awaitingRejoin) }) u
    rw [expireMark_of_awaiting hw rfl hm, if_pos hm]
    generalize Machine.setWork c (some { w with run := some (r.setMark l .awaitingRejoin) }) u = v at hset hwork ⊢
    have hstate := hset.state hl
    by_cases hup : (s.link l).state = .up
    · have hleaves : s.leavesAt r l = true := by rw [State.leavesAt, decide_eq_true hm, decide_eq_true hup]; rfl
      rw [if_pos hleaves, askRejoin, if_pos (hstate.trans hup)]
      refine ⟨hset.leave hl, ?_⟩
      have hnot : (r.setMark l .awaitingRejoin).mark l ≠ .awaitingAck := by
        rw [mark_setMark_same]
        nofun
      rw [work_leaveUpToRejoin, hwork, Option.map_some]
      exact congrArg some (linkRejoining_of_not_awaiting (r := r.setMark l .awaitingRejoin) rfl hnot (hwipe l))
    · have hleaves : ¬s.leavesAt r l = true := by
        rw [State.leavesAt, decide_eq_false hup, Bool.and_false]
        exact Bool.false_ne_true
      rw [if_neg hleaves, askRejoin, if_neg (hstate ▸ hup)]
      exact ⟨hset, hwork⟩
  · have hleaves : ¬s.leavesAt r l = true := by
      rw [State.leavesAt, decide_eq_false hm, Bool.false_and]
      exact Bool.false_ne_true
    rw [expireMark_of_not_awaiting hw rfl hm, if_neg hm, if_neg hleaves]
    exact ⟨h, hw⟩

/-- The interrupt at the end of the event. -/
theorem LinksLeft.signal (h : LinksLeft Q cause c s u) (b : State) : LinksLeft Q cause c s (signalInterrupt b u) := by
  have hframe := signalInterrupt_frame b u
  generalize signalInterrupt b u = t at hframe ⊢
  rw [hframe]
  exact ⟨h.gone, h.kept, h.park, h.miss, h.work, h.runSeq, h.notices, h.rejoins, h.counters, h.rest, h.portSide⟩

theorem exec_recallExpiry {n : Nat} {w : Work} {r : Run} (hw : s.work c = some w) (hr : w.run = some r)
    (hd : r.deadline = some (.recall n)) :
    exec (.recallDeadlineExpiry c) s = .next (signalInterrupt s (expireRecall c s)) := by
  refine congrArg (fun u => Host.Outcome.next (signalInterrupt s u)) ?_
  simp only [State.deadline, hw, hr, hd, Option.bind_some]

theorem exec_wipeExpiry {n : Nat} {w : Work} {r : Run} (hw : s.work c = some w) (hr : w.run = some r)
    (hd : r.deadline = some (.wipe n)) :
    exec (.wipeDeadlineExpiry c) s = .next (signalInterrupt s (expireWipe c s)) := by
  refine congrArg (fun u => Host.Outcome.next (signalInterrupt s u)) ?_
  simp only [State.deadline, hw, hr, hd, Option.bind_some]

theorem leavesAt_congr {r r' : Run} (h : r'.mark l = r.mark l) : s.leavesAt r' l = s.leavesAt r l := by
  rw [State.leavesAt, h, State.leavesAt]

/-- The marks of some links expire in turn. -/
theorem LinksLeft.foldl_expireMark {w : Work} {L : List LinkId} (hL : L.Nodup) :
    ∀ {Q : List LinkId} {u : State} {r : Run}, LinksLeft Q .recallExpiry c s u → (∀ l ∈ L, l ∉ Q) →
      u.work c = some { w with run := some r } → (∀ l, r.wipe ≠ .outstanding l) →
      LinksLeft (Q ++ L.filter (s.leavesAt r)) .recallExpiry c s (L.foldl (fun s l => Machine.expireMark c l s) u) ∧
        (L.foldl (fun s l => Machine.expireMark c l s) u).work c = some { w with run := some (r.expire L) } := by
  induction L with
  | nil =>
    intro Q u r h _ hw _
    rw [List.filter_nil, List.append_nil]
    exact ⟨h, hw⟩
  | cons a L ih =>
    intro Q u r h hQ hw hwipe
    obtain ⟨ha, hL⟩ := List.nodup_cons.mp hL
    obtain ⟨hstep, hwork⟩ := h.expireMark (hQ a List.mem_cons_self) hw hwipe
    have hothers : ∀ l ∈ L, s.leavesAt (if r.mark a = .awaitingAck then r.setMark a .awaitingRejoin else r) l =
        s.leavesAt r l := by
      intro l hl
      refine leavesAt_congr ?_
      split
      · exact mark_setMark_other .awaitingRejoin fun e => ha (e ▸ hl)
      · rfl
    have hmem : ∀ l ∈ L, l ∉ if s.leavesAt r a = true then Q ++ [a] else Q := by
      intro l hl
      have hne : l ≠ a := fun e => ha (e ▸ hl)
      split
      · simp only [List.mem_append, List.mem_singleton, not_or]
        exact ⟨hQ l (List.mem_cons_of_mem _ hl), hne⟩
      · exact hQ l (List.mem_cons_of_mem _ hl)
    have hwipe' : ∀ l, (if r.mark a = .awaitingAck then r.setMark a .awaitingRejoin else r).wipe ≠ .outstanding l := by
      intro l
      split <;> exact hwipe l
    have hrest := ih hL hstep hmem hwork hwipe'
    rw [List.filter_congr hothers] at hrest
    rw [List.foldl_cons, expire_cons, List.filter_cons]
    by_cases hleaves : s.leavesAt r a = true
    · rw [if_pos hleaves, List.append_assoc, List.singleton_append] at hrest
      rw [if_pos hleaves]
      exact hrest
    · rw [if_neg hleaves] at hrest
      rw [if_neg hleaves]
      exact hrest

end

end Sys2Proof.Machine

namespace Sys2Proof.Proofs
open Sys2Proof.Machine

/-- Settles O31: the marks expire link by link, and the wipe by its run. -/
theorem runDeadlinesExpire : Obligations.RunDeadlinesExpire := by
  refine ⟨fun s c w r n hw hr hd hwipe => ?_, fun s c w r l n hw hr hd hwipe ho => ?_⟩
  · intro leaves
    have hexec := exec_recallExpiry hw hr hd
    have hstart : modWork c (Work.modRun (fun r => { r with deadline := none })) s =
        setWork c (some { w with run := some { r with deadline := none } }) s := by
      rw [modWork_of_work _ hw, modRun_of_run _ hr]
    rw [expireRecall, hstart] at hexec
    obtain ⟨hleft, hwork⟩ := LinksLeft.foldl_expireMark (w := w) nodup_allLinks
      ((LinksLeft.refl .recallExpiry c s).setWork (some { w with run := some { r with deadline := none } }))
      (fun _ _ => nofun) (work_setWork_same _ _ _) hwipe
    generalize hQ : [] ++ allLinks.filter (s.leavesAt { r with deadline := none }) = Q at hleft
    have hleaves : ∀ l, l ∈ Q ↔ leaves l = true := fun l => by
      rw [← hQ, List.nil_append, List.mem_filter, and_iff_right (mem_allLinks l)]
      rfl
    have hpark : ∀ l, decide (l ∉ Q) = !leaves l := fun l => by
      rw [Bool.eq_iff_iff, decide_eq_true_iff, hleaves, Bool.not_eq_true', Bool.not_eq_true]
    have hend := hleft.signal s
    have hframe := expire_frame allLinks { r with deadline := none }
    have hmarks := mark_expire nodup_allLinks { r with deadline := none }
    generalize Run.expire allLinks { r with deadline := none } = r' at hwork hframe hmarks
    refine ⟨_, r', hexec, (work_of_ctxs_eq (signalInterrupt_ctxs s _) c).trans hwork, by rw [hframe], by rw [hframe],
      by rw [hframe], by rw [hframe], fun l => ?_, fun l hl => hend.gone l ((hleaves l).mpr hl), fun l hl => ?_, ?_, ?_,
      fun c' hc' => ?_, hend.runSeq, ?_, fun l hl => hend.rejoins l ((hleaves l).mpr hl), fun x hx => ?_, hend.rest,
      hend.portSide⟩
    · have hmark : ({ r with deadline := none } : Run).mark l = r.mark l := rfl
      simp only [hmarks, mem_allLinks, true_and, hmark]
    · refine hend.kept l fun h => ?_
      exact Bool.false_ne_true (hl.symm.trans ((hleaves l).mp h))
    · rw [hend.park]
      exact List.filter_congr fun k _ => hpark k.link
    · have hkept : Waiter.keptBut Q = fun w => w.asCheck.all (fun k => !leaves k.link) := by
        funext w
        simp only [Waiter.keptBut, hpark]
      rw [hend.miss, hkept]
    · rw [hend.work c' hc', ← hQ, List.nil_append]
      rfl
    · obtain ⟨rest, hn, hall⟩ := hend.notices
      exact ⟨rest, hn, fun l hl => hall l ((hleaves l).mpr hl)⟩
    · exact hend.counters x fun l hl => hx l ((hleaves l).mp hl)
  · have hlink : w.run.bind (fun r => r.wipe.link) = some l := by
      rw [hr, Option.bind_some, hwipe]
      rfl
    rw [exec_wipeExpiry hw hr hd, expireWipe, modWork_of_work _ hw, hlink, failWipe_of_run _ _ hr, fence_of_clean _ _ ho]
    exact congrArg Host.Outcome.next (signalInterrupt_same rfl rfl rfl rfl)

end Sys2Proof.Proofs

/-! The order of cases; the statement OrderOfCases. -/

namespace Sys2Proof.Machine

/-! ## Kinds and rights (Tables 2.4 and 2.5) -/

theorem kindSuits_iff : ∀ (l : LinkId) (kind : BitVec 3), kindSuits l kind = true ↔
    (l.val < 4 ∧ (kind = 0 ∨ kind = 1)) ∨ (4 ≤ l.val ∧ (kind = 2 ∨ kind = 3)) := by
  decide

theorem kind_of_suits : ∀ {l : LinkId} {kind : BitVec 3}, kindSuits l kind = true →
    requiredRights kind = if kind = 0 then 1 else if kind = 1 then 2 else if kind = 2 then 5 else 6 := by
  decide

/-- The rights required are among those of the record. -/
theorem rights_suffice_iff : ∀ required rights : Rights,
    required &&& ~~~rights = 0 ↔ required &&& rights = required := by
  decide

section
variable {s : State} {k : Check} {r : GranuleRecord}

/-! ## The order of cases (Table 2.4) -/

/-- A check is looked up where no case from 1 to 4 applies. -/
structure LookedUp (s : State) (k : Check) : Prop where
  serving : s.part = .serving
  inTable : k.granule < s.tableSize
  suits : kindSuits k.link k.kind = true
  domain : k.domain ≤ 1023
  active : (s.domain k.domain).state = .active

theorem decideWithoutRecord_of_root (h : s.part ≠ .serving) (hd : k.domain = 0) :
    decideWithoutRecord s k = some (.grant 7 0 false) := by
  rw [decideWithoutRecord, if_pos h, if_pos hd]

theorem decideWithoutRecord_of_notReady (h : s.part ≠ .serving) (hd : k.domain ≠ 0) :
    decideWithoutRecord s k = some (.deny .notReady 0) := by
  rw [decideWithoutRecord, if_pos h, if_neg hd]

theorem decideWithoutRecord_of_range (h : s.part = .serving) (ht : s.tableSize ≤ k.granule) :
    decideWithoutRecord s k = some (.deny .outOfRange 0) := by
  rw [decideWithoutRecord, if_neg (not_not_intro h), if_pos ht]

theorem decideWithoutRecord_of_malformed (h : s.part = .serving) (ht : k.granule < s.tableSize)
    (hm : ¬(kindSuits k.link k.kind = true ∧ k.domain ≤ 1023)) :
    decideWithoutRecord s k = some (.deny .malformed 0) := by
  have htest : (!kindSuits k.link k.kind || decide (1023 < k.domain)) = true := by
    rw [Bool.or_eq_true, Bool.not_eq_true', decide_eq_true_eq]
    by_cases hk : kindSuits k.link k.kind = true
    · exact .inr (Nat.not_le.mp fun hd => hm ⟨hk, hd⟩)
    · exact .inl (Bool.eq_false_iff.mpr hk)
  rw [decideWithoutRecord, if_neg (not_not_intro h), if_neg (Nat.not_le.mpr ht), if_pos htest]

theorem wellFormed_test (hk : kindSuits k.link k.kind = true) (hd : k.domain ≤ 1023) :
    ¬(!kindSuits k.link k.kind || decide (1023 < k.domain)) = true := by
  rw [hk, decide_eq_false (Nat.not_lt.mpr hd)]
  exact Bool.false_ne_true

theorem decideWithoutRecord_of_closed (h : s.part = .serving) (ht : k.granule < s.tableSize)
    (hk : kindSuits k.link k.kind = true) (hd : k.domain ≤ 1023) (ha : (s.domain k.domain).state ≠ .active) :
    decideWithoutRecord s k = some (.deny .domainClosed 0) := by
  rw [decideWithoutRecord, if_neg (not_not_intro h), if_neg (Nat.not_le.mpr ht), if_neg (wellFormed_test hk hd),
    if_pos ((notActive_iff s k.domain).mpr ha)]

theorem decideWithoutRecord_of_lookedUp (h : LookedUp s k) : decideWithoutRecord s k = none := by
  rw [decideWithoutRecord, if_neg (not_not_intro h.serving), if_neg (Nat.not_le.mpr h.inTable),
    if_neg (wellFormed_test h.suits h.domain), if_neg fun hn => (notActive_iff s k.domain).mp hn h.active]

theorem lookedUp_of_none (h : decideWithoutRecord s k = none) : LookedUp s k := by
  by_cases hs : s.part = .serving
  · by_cases ht : k.granule < s.tableSize
    · by_cases hm : kindSuits k.link k.kind = true ∧ k.domain ≤ 1023
      · by_cases ha : (s.domain k.domain).state = .active
        · exact ⟨hs, ht, hm.1, hm.2, ha⟩
        · exact nomatch (decideWithoutRecord_of_closed hs ht hm.1 hm.2 ha).symm.trans h
      · exact nomatch (decideWithoutRecord_of_malformed hs ht hm).symm.trans h
    · exact nomatch (decideWithoutRecord_of_range hs (Nat.not_lt.mp ht)).symm.trans h
  · by_cases hd : k.domain = 0
    · exact nomatch (decideWithoutRecord_of_root hs hd).symm.trans h
    · exact nomatch (decideWithoutRecord_of_notReady hs hd).symm.trans h

/-- A decision that uses no record: the GRANT of case 1 or a denial. -/
theorem decideWithoutRecord_some {d : Decision} (h : decideWithoutRecord s k = some d) :
    (s.part ≠ .serving ∧ k.domain = 0 ∧ d = .grant 7 0 false) ∨ ∃ cls, d = .deny cls 0 := by
  unfold decideWithoutRecord at h
  split at h
  · next hs =>
    split at h
    · next hd =>
      cases h
      exact .inl ⟨hs, hd, rfl⟩
    · cases h
      exact .inr ⟨_, rfl⟩
  · split at h
    · cases h
      exact .inr ⟨_, rfl⟩
    · split at h
      · cases h
        exact .inr ⟨_, rfl⟩
      · split at h
        · cases h
          exact .inr ⟨_, rfl⟩
        · cases h

theorem decision_of_some {d : Decision} (h : decideWithoutRecord s k = some d) : decision s k r = d := by
  simp only [decision, h]

theorem decision_of_lookedUp (h : LookedUp s k) : decision s k r = decideByRecord s k r := by
  simp only [decision, decideWithoutRecord_of_lookedUp h]

theorem decideRights_of_enough {rights : Rights} {generation : BitVec 8}
    (h : requiredRights k.kind &&& rights = requiredRights k.kind) :
    decideRights k rights generation = .grant rights generation true := if_pos ((rights_suffice_iff _ _).mpr h)

theorem decideRights_of_lack {rights : Rights} {generation : BitVec 8}
    (h : requiredRights k.kind &&& rights ≠ requiredRights k.kind) :
    decideRights k rights generation = .deny .noRight generation := if_neg (mt (rights_suffice_iff _ _).mp h)

/-- A record that reaches its owner and some members. -/
theorem decideByRecord_of_reaching {owner : Nat} {rights : Rights} {members : List Nat}
    (h : (r.state = .stable (.held owner rights) ∧ members = []) ∨
      ∃ g, r.state = .stable (.shared owner g rights) ∧ members = (s.group g).members) : decideByRecord s k r =
        if k.domain = owner ∨ k.domain ∈ members then decideRights k rights r.generation
        else .deny .notOwner r.generation := by
  rcases h with ⟨hs, rfl⟩ | ⟨g, hs, rfl⟩
  · simp only [decideByRecord, hs, List.not_mem_nil, or_false]
  · simp only [decideByRecord, hs]

/-- A GRANT of case 5 is of a record that reaches the requester with the rights required. -/
theorem decideByRecord_grant {rights : Rights} {generation : BitVec 8} {mayCache : Bool}
    (h : decideByRecord s k r = .grant rights generation mayCache) :
    requiredRights k.kind &&& rights = requiredRights k.kind ∧ generation = r.generation ∧ mayCache = true ∧
      (r.state = .stable (.held k.domain rights) ∨ ∃ owner g, r.state = .stable (.shared owner g rights) ∧
        (k.domain = owner ∨ k.domain ∈ (s.group g).members)) := by
  have hrights : ∀ {x : Rights}, decideRights k x r.generation = .grant rights generation mayCache →
      requiredRights k.kind &&& rights = requiredRights k.kind ∧ generation = r.generation ∧ mayCache = true ∧
        x = rights := by
    intro x hx
    by_cases he : requiredRights k.kind &&& x = requiredRights k.kind
    · rw [decideRights_of_enough he] at hx
      cases hx
      exact ⟨he, rfl, rfl, rfl⟩
    · rw [decideRights_of_lack he] at hx
      cases hx
  unfold decideByRecord at h
  split at h
  case _ | _ | _ | _ | _ => cases h
  · next owner x hs =>
    split at h
    · next hd =>
      obtain ⟨h1, h2, h3, rfl⟩ := hrights h
      exact ⟨h1, h2, h3, .inl (by rw [hs, hd])⟩
    · cases h
  · next owner g x hs =>
    split at h
    · next hd =>
      obtain ⟨h1, h2, h3, rfl⟩ := hrights h
      exact ⟨h1, h2, h3, .inr ⟨owner, g, hs, hd⟩⟩
    · cases h

end

end Sys2Proof.Machine

namespace Sys2Proof.Proofs
open Sys2Proof.Machine

/-- Settles O32: the cases in their order, and Law L1. -/
theorem orderOfCases : Obligations.OrderOfCases := by
  refine ⟨fun s k r => ?_, fun s k r rights generation mayCache howner h => ?_⟩
  · intro serving inTable suits active lookedUp required reaches
    have hsuits : suits ↔ kindSuits k.link k.kind = true ∧ k.domain ≤ 1023 := by
      rw [kindSuits_iff]
      exact And.comm
    have hlooked : lookedUp → LookedUp s k := fun ⟨hs, ht, hm, ha⟩ => ⟨hs, ht, (hsuits.mp hm).1, (hsuits.mp hm).2, ha⟩
    refine ⟨fun hs hd => decision_of_some (decideWithoutRecord_of_root hs hd),
      fun hs hd => decision_of_some (decideWithoutRecord_of_notReady hs hd),
      fun hs ht => decision_of_some (decideWithoutRecord_of_range hs (Nat.not_lt.mp ht)),
      fun hs ht hm => decision_of_some (decideWithoutRecord_of_malformed hs ht (mt hsuits.mpr hm)),
      fun hs ht hm ha => decision_of_some
        (decideWithoutRecord_of_closed hs ht (hsuits.mp hm).1 (hsuits.mp hm).2 ha),
      fun hl h => ?_, fun hl h => ?_, fun hl h => ?_, fun owner rights members hl h => ?_⟩
    · rw [decision_of_lookedUp (hlooked hl)]
      rcases h with ⟨c, prior, h | h⟩ <;> simp only [decideByRecord, h]
    · rw [decision_of_lookedUp (hlooked hl)]
      simp only [decideByRecord, h]
    · rw [decision_of_lookedUp (hlooked hl)]
      rcases h with h | h <;> simp only [decideByRecord, h]
    · have hrequired : required = requiredRights k.kind := (kind_of_suits (hlooked hl).suits).symm
      rw [decision_of_lookedUp (hlooked hl), decideByRecord_of_reaching h, hrequired]
      exact ⟨fun hn => if_neg hn, fun hy hlack => (if_pos hy).trans (decideRights_of_lack hlack),
        fun hy henough => (if_pos hy).trans (decideRights_of_enough henough)⟩
  · cases hd : decideWithoutRecord s k with
    | some d =>
      rw [decision_of_some hd] at h
      subst h
      rcases decideWithoutRecord_some hd with ⟨hs, hdomain, -⟩ | ⟨cls, hcls⟩
      · exact .inl ⟨hs, hdomain⟩
      · exact nomatch hcls
    | none =>
      have hl := lookedUp_of_none hd
      rw [decision_of_lookedUp hl] at h
      obtain ⟨henough, -, -, hstate⟩ := decideByRecord_grant h
      refine .inr ⟨hl.serving, hl.active, henough, hstate.imp_right ?_⟩
      rintro ⟨owner, g, hs, hreach⟩
      exact ⟨owner, g, hs, hreach.elim (fun e => e ▸ howner owner g rights hs) id⟩

end Sys2Proof.Proofs

/-! What a verdict, a denial, a notice and a counter write; the statements VerdictIsQueued and NoticesAndCounters. -/

namespace Sys2Proof.Machine

section
variable {s t u : State} {k : Check} {cls : FaultClass}

/-! ## Counters (R159) -/

/-- A counter's step, with its wrap mark. -/
theorem counter_countEvent (n : CounterName) (s : State) : (countEvent n s).counter n =
    { value := (s.counter n).value + 1
      wrapped := (s.counter n).wrapped || decide ((s.counter n).value = BitVec.allOnes 32) } := by
  by_cases h : (s.counter n).value = BitVec.allOnes 32
  · have hoffered : (offerNotice (.counterWrap n) (setCounter n { value := 0, wrapped := true } s)).counter n =
        (setCounter n { value := 0, wrapped := true } s).counter n := by
      rw [State.counter, offerNotice_counters]
      rfl
    rw [countEvent_of_wrap h, hoffered, counter_setCounter_same, h, decide_eq_true rfl, Bool.or_true]
    rfl
  · rw [countEvent_of_no_wrap h, counter_setCounter_same, decide_eq_false h, Bool.or_false]

/-- What a counter's step offers. -/
theorem countEvent_offers (n : CounterName) (s : State) :
    let offered := if (s.counter n).value = BitVec.allOnes 32 then offerNotice (.counterWrap n) s else s
    (countEvent n s).notices = offered.notices ∧ (countEvent n s).noticeLost = offered.noticeLost := by
  by_cases h : (s.counter n).value = BitVec.allOnes 32
  · simp only [countEvent_of_wrap h, if_pos h, notices_offerNotice, noticeLost_offerNotice]
    exact ⟨rfl, rfl⟩
  · simp only [countEvent_of_no_wrap h, if_neg h]
    exact ⟨rfl, rfl⟩

/-- The counter of a link that a number names. -/
def LinkCounter.ofCode : Nat → LinkCounter
  | 0 => .grants
  | 1 => .denials
  | 2 => .poisons
  | 3 => .retries
  | 4 => .parks
  | 5 => .recallsSent
  | 6 => .rejoins
  | _ => .strayAcks

/-- The part-wide counter that a number names. -/
def PartCounter.ofCode : Nat → PartCounter
  | 8 => .cacheHits
  | 9 => .cacheMisses
  | 10 => .writebacks
  | 11 => .eccCorrected
  | _ => .tagErrors

theorem LinkCounter.ofCode_code (c : LinkCounter) : ofCode c.code = c := by cases c <;> rfl

theorem PartCounter.ofCode_code (c : PartCounter) : ofCode c.code = c := by cases c <;> rfl

theorem PartCounter.le_code (c : PartCounter) : 8 ≤ c.code := by cases c <;> decide

theorem index_ofLink (l : LinkId) (c : LinkCounter) : (CounterName.ofLink l c).index.val = 8 * l.val + c.code := by
  have := c.code_lt
  exact Nat.mod_eq_of_lt (by omega)

theorem index_ofPart (c : PartCounter) : (CounterName.ofPart c).index.val = 40 + c.code := by
  have := c.code_lt
  exact Nat.mod_eq_of_lt (by omega)

/-- No two counters share a place in the bank. -/
theorem counterName_index_injective {n n' : CounterName} (h : n.index = n'.index) : n = n' := by
  have hval := congrArg Fin.val h
  cases n with
  | ofLink l c =>
    have hc := c.code_lt
    cases n' with
    | ofLink l' c' =>
      have hc' := c'.code_lt
      rw [index_ofLink, index_ofLink] at hval
      have hl : l = l' := Fin.ext (by omega)
      have hcode : c.code = c'.code := by omega
      rw [hl, ← c.ofCode_code, hcode, c'.ofCode_code]
    | ofPart c' =>
      have hc' := c'.le_code
      rw [index_ofLink, index_ofPart] at hval
      omega
  | ofPart c =>
    have hc := c.le_code
    cases n' with
    | ofLink l' c' =>
      have hc' := c'.code_lt
      rw [index_ofPart, index_ofLink] at hval
      omega
    | ofPart c' =>
      rw [index_ofPart, index_ofPart] at hval
      have hcode : c.code = c'.code := by omega
      rw [← c.ofCode_code, hcode, c'.ofCode_code]

/-! ## Notices offered in turn -/

/-- A notice offered first stands at the tail, or is lost where the queue is full. -/
theorem offered_first {b : NoticeBody} (h : NoticesGrow (offerNotice b s) t) : if s.notices.length < 64 then
    ∃ rest, t.notices = s.notices ++ { body := b, lostBefore := s.noticeLost } :: rest
    else t.notices = s.notices ∧ t.noticeLost = true := by
  split
  · next hroom =>
    obtain ⟨rest, ht⟩ := h.extends_
    rw [offerNotice_placed b hroom] at ht
    exact ⟨rest, by rw [ht, List.append_assoc, List.singleton_append]⟩
  · next hfull =>
    have hlen := Nat.not_lt.mp hfull
    have hnotices : (offerNotice b s).notices = s.notices := by rw [offerNotice_lost b hlen]
    have hlost : (offerNotice b s).noticeLost = true := by rw [offerNotice_lost b hlen]
    exact ⟨(h.full (hnotices ▸ hlen)).trans hnotices, h.lost (hnotices ▸ hlen) hlost⟩

/-- The notices that are offered all have bodies of a kind. -/
def OffersOnly (P : NoticeBody → Prop) (s t : State) : Prop :=
  ∃ rest, t.notices = s.notices ++ rest ∧ ∀ n ∈ rest, P n.body

theorem OffersOnly.of_eq {P : NoticeBody → Prop} (h : t.notices = s.notices) : OffersOnly P s t :=
  ⟨[], h.trans (List.append_nil _).symm, nofun⟩

theorem OffersOnly.trans {P : NoticeBody → Prop} (h : OffersOnly P s t) (h' : OffersOnly P t u) : OffersOnly P s u := by
  obtain ⟨rest, ht, hall⟩ := h
  obtain ⟨rest', hu, hall'⟩ := h'
  refine ⟨rest ++ rest', by rw [hu, ht, List.append_assoc], fun n hn => ?_⟩
  exact (List.mem_append.mp hn).elim (hall n) (hall' n)

theorem offerNotice_only {P : NoticeBody → Prop} {b : NoticeBody} (hb : P b) (s : State) :
    OffersOnly P s (offerNotice b s) := by
  by_cases h : s.notices.length < 64
  · rw [offerNotice_placed b h]
    exact ⟨_, rfl, fun n hn => by rw [List.mem_singleton.mp hn]; exact hb⟩
  · rw [offerNotice_lost b (Nat.not_lt.mp h)]
    exact .of_eq rfl

theorem countEvent_only {P : NoticeBody → Prop} {n : CounterName} (hb : P (.counterWrap n)) (s : State) :
    OffersOnly P s (countEvent n s) := by
  by_cases h : (s.counter n).value = BitVec.allOnes 32
  · rw [countEvent_of_wrap h]
    exact offerNotice_only hb (setCounter n { value := 0, wrapped := true } s)
  · rw [countEvent_of_no_wrap h]
    exact .of_eq rfl

/-! ## Tallies (R30, R156) -/

theorem advanceTally_of_uncounted (h : cls = .notReady ∨ 1023 < k.domain ∨ (s.domain k.domain).tally = none) :
    advanceTally k cls s = s := by
  unfold advanceTally
  split
  · rfl
  · next hn =>
    rw [← or_assoc] at h
    simp only [h.resolve_left hn]

theorem counted_test (hc : cls ≠ .notReady) (hd : k.domain ≤ 1023) : ¬(cls = .notReady ∨ 1023 < k.domain) :=
  fun h => h.elim hc (Nat.not_lt.mpr hd)

theorem advanceTally_of_armed {n : Nat} (hc : cls ≠ .notReady) (hd : k.domain ≤ 1023)
    (ht : (s.domain k.domain).tally = some n) (hn : n ≠ 65535) :
    advanceTally k cls s = modDomain k.domain (fun r => { r with tally := some (n + 1) }) s := by
  rw [advanceTally, if_neg (counted_test hc hd)]
  simp only [ht, if_neg hn]

theorem advanceTally_of_full (hc : cls ≠ .notReady) (hd : k.domain ≤ 1023)
    (ht : (s.domain k.domain).tally = some 65535) : advanceTally k cls s =
      offerNotice (.tallyReached k.domain k.link k.tag cls) (modDomain k.domain (fun r => { r with tally := none }) s) := by
  rw [advanceTally, if_neg (counted_test hc hd)]
  simp only [ht, if_true]

/-- What the advance of a tally comes to. -/
inductive TallyAdvance (k : Check) (cls : FaultClass) (s : State) : State → Prop where
  | stay : TallyAdvance k cls s s
  | advance (n : Nat) : TallyAdvance k cls s (modDomain k.domain (fun r => { r with tally := some (n + 1) }) s)
  | reach : TallyAdvance k cls s (offerNotice (.tallyReached k.domain k.link k.tag cls)
      (modDomain k.domain (fun r => { r with tally := none }) s))

theorem advanceTally_cases (k : Check) (cls : FaultClass) (s : State) : TallyAdvance k cls s (advanceTally k cls s) := by
  unfold advanceTally
  split
  · exact .stay
  · split
    · exact .stay
    · next n _ =>
      split
      · exact .reach
      · exact .advance n

theorem advanceTally_grows (k : Check) (cls : FaultClass) (s : State) : NoticesGrow s (advanceTally k cls s) := by
  generalize ht : advanceTally k cls s = t
  have hcases := ht ▸ advanceTally_cases k cls s
  cases hcases with
  | stay => exact .refl s
  | advance n => exact .of_eq rfl rfl
  | reach =>
    have hset : NoticesGrow s (modDomain k.domain (fun r => { r with tally := none }) s) := .of_eq rfl rfl
    exact hset.trans (offerNotice_grows _ _)

theorem advanceTally_only {P : NoticeBody → Prop} (hP : P (.tallyReached k.domain k.link k.tag cls)) (s : State) :
    OffersOnly P s (advanceTally k cls s) := by
  generalize ht : advanceTally k cls s = t
  have hcases := ht ▸ advanceTally_cases k cls s
  cases hcases with
  | stay => exact .of_eq rfl
  | advance n => exact .of_eq rfl
  | reach => exact offerNotice_only hP (modDomain k.domain (fun r => { r with tally := none }) s)

/-- A tally and its notice write the Domain Table and the Notice Queue. -/
theorem advanceTally_frame (k : Check) (cls : FaultClass) (s : State) : advanceTally k cls s = { s with
    domains := (advanceTally k cls s).domains, notices := (advanceTally k cls s).notices
    noticeLost := (advanceTally k cls s).noticeLost } := by
  generalize ht : advanceTally k cls s = t
  have hcases := ht ▸ advanceTally_cases k cls s
  cases hcases with
  | stay => rfl
  | advance n => rfl
  | reach =>
    unfold offerNotice
    split <;> rfl

/-! Notices and tallies do not look at the links. -/

theorem offerNotice_withLinks (b : NoticeBody) (links : Vector Link 6) (s : State) :
    offerNotice b { s with links := links } = { offerNotice b s with links := links } := by
  unfold offerNotice
  split <;> rfl

theorem advanceTally_withLinks (k : Check) (cls : FaultClass) (links : Vector Link 6) (s : State) :
    advanceTally k cls { s with links := links } = { advanceTally k cls s with links := links } := by
  by_cases hn : cls = .notReady ∨ 1023 < k.domain
  · rw [advanceTally, if_pos hn, advanceTally, if_pos hn]
  · have hc : cls ≠ .notReady := fun h => hn (.inl h)
    have hd : k.domain ≤ 1023 := Nat.not_lt.mp fun h => hn (.inr h)
    have hsame : ∀ d, ({ s with links := links } : State).domain d = s.domain d := fun _ => rfl
    cases ht : (s.domain k.domain).tally with
    | none => rw [advanceTally_of_uncounted (.inr (.inr ((hsame _).symm ▸ ht))), advanceTally_of_uncounted (.inr (.inr ht))]
    | some n =>
      by_cases hfull : n = 65535
      · subst hfull
        rw [advanceTally_of_full hc hd ht, advanceTally_of_full hc hd ((hsame _).symm ▸ ht)]
        exact offerNotice_withLinks _ links (modDomain k.domain (fun r => { r with tally := none }) s)
      · rw [advanceTally_of_armed hc hd ht hfull, advanceTally_of_armed hc hd ((hsame _).symm ▸ ht) hfull]
        rfl

/-- The Domain Table after a tally depends on the table before it alone. -/
theorem advanceTally_domains (h : u.domains = s.domains) :
    (advanceTally k cls u).domains = (advanceTally k cls s).domains := by
  have hsame : ∀ d, u.domain d = s.domain d := fun d => by rw [State.domain, h, State.domain]
  by_cases hn : cls = .notReady ∨ 1023 < k.domain
  · rw [advanceTally, if_pos hn, advanceTally, if_pos hn, h]
  · have hc : cls ≠ .notReady := fun h => hn (.inl h)
    have hd : k.domain ≤ 1023 := Nat.not_lt.mp fun h => hn (.inr h)
    cases ht : (s.domain k.domain).tally with
    | none => rw [advanceTally_of_uncounted (.inr (.inr ((hsame _).symm ▸ ht))), advanceTally_of_uncounted (.inr (.inr ht)), h]
    | some n =>
      by_cases hfull : n = 65535
      · subst hfull
        rw [advanceTally_of_full hc hd ht, advanceTally_of_full hc hd ((hsame _).symm ▸ ht), offerNotice_domains,
          offerNotice_domains]
        simp only [modDomain, h, hsame]
      · rw [advanceTally_of_armed hc hd ht hfull, advanceTally_of_armed hc hd ((hsame _).symm ▸ ht) hfull]
        simp only [modDomain, h, hsame]

/-! ## The queued verdict (Table 2.6) -/

/-- A link as a verdict is queued on it. -/
def Link.answered (k : Check) (v : Verdict) (pacing : Bool) (x : Link) : Link :=
  { x with
    tx := x.tx ++ [.verdict { v with credit := !pacing }]
    accounting := x.accounting.erase k.tag
    withheld := if pacing then x.withheld + 1 else x.withheld }

/-- The answer to a check: its verdict is queued and its counter takes a step, after the notices told before. -/
def answerWith (k : Check) (v : Verdict) (n : LinkCounter) (s told : State) : State :=
  countEvent (.ofLink k.link n) { told with links := (queueVerdict k v s).links }

/-- The verdict of a denial, which poisons or not. -/
def denialVerdict (k : Check) (cls : FaultClass) (generation : BitVec 8) (poisons : Bool) : Verdict :=
  { tag := k.tag, result := if poisons then .poison else .deny, rights := none, cacheable := false
    generation := generation, credit := true, faultClass := some cls }

/-- The state after the DENIED notice that an action calls for. -/
def notedDenial (k : Check) (cls : FaultClass) (action : PolicyAction) (s : State) : State :=
  if action.notifies then offerNotice (.denied k.link k.tag k.domain k.granule k.kind cls action.poisons) s else s

/-- The state after the notice and the tally of a denial. -/
def toldDenial (k : Check) (cls : FaultClass) (s : State) : State :=
  advanceTally k cls (notedDenial k cls (s.actionFor cls k.domain) s)

/-- The counter of a denial. -/
def denialCounter (poisons : Bool) : LinkCounter := if poisons then .poisons else .denials

theorem answerGrant_eq (k : Check) (rights : Rights) (generation : BitVec 8) (cacheable : Bool) (s : State) :
    answerGrant k rights generation cacheable s =
      answerWith k ⟨k.tag, .grant, some rights, cacheable, generation, true, none⟩ .grants s s := rfl

theorem answerRetry_eq (k : Check) (s : State) :
    answerRetry k s = answerWith k ⟨k.tag, .retry, none, false, 0, true, none⟩ .retries s s := rfl

theorem notedDenial_withLinks (action : PolicyAction) (links : Vector Link 6) (s : State) :
    notedDenial k cls action { s with links := links } = { notedDenial k cls action s with links := links } := by
  unfold notedDenial
  split
  · exact offerNotice_withLinks _ links s
  · rfl

theorem answerDenial_eq (k : Check) (cls : FaultClass) (generation : BitVec 8) (s : State) :
    answerDenial k cls generation s =
      answerWith k (denialVerdict k cls generation (s.actionFor cls k.domain).poisons)
        (denialCounter (s.actionFor cls k.domain).poisons) s (toldDenial k cls s) := by
  have hlinks : ∀ v, advanceTally k cls (notedDenial k cls (s.actionFor cls k.domain) (queueVerdict k v s)) =
      { toldDenial k cls s with links := (queueVerdict k v s).links } := fun v => by
    have hqueued : queueVerdict k v s = { s with links := (queueVerdict k v s).links } := rfl
    rw [hqueued, notedDenial_withLinks, advanceTally_withLinks]
    rfl
  exact congrArg (countEvent _) (hlinks _)

theorem link_queueVerdict_same (k : Check) (v : Verdict) (s : State) :
    (queueVerdict k v s).link k.link = (s.link k.link).answered k v s.pacing := link_modLink_same _ _ s

theorem link_queueVerdict_other {l : LinkId} (h : l ≠ k.link) (v : Verdict) (s : State) :
    (queueVerdict k v s).link l = s.link l := link_modLink_other _ s h

theorem answerWith_links (k : Check) (v : Verdict) (n : LinkCounter) (s told : State) :
    (answerWith k v n s told).links = (queueVerdict k v s).links := countEvent_links _ _

theorem link_answerWith_same (k : Check) (v : Verdict) (n : LinkCounter) (s told : State) :
    (answerWith k v n s told).link k.link = (s.link k.link).answered k v s.pacing :=
  (link_of_links_eq (answerWith_links k v n s told) k.link).trans (link_queueVerdict_same k v s)

theorem link_answerWith_other {l : LinkId} (h : l ≠ k.link) (v : Verdict) (n : LinkCounter) (s told : State) :
    (answerWith k v n s told).link l = s.link l :=
  (link_of_links_eq (answerWith_links k v n s told) l).trans (link_queueVerdict_other h v s)

/-- The notices told before an answer write only the Domain Table and the Notice Queue. -/
def Tells (s told : State) : Prop :=
  told = { s with domains := told.domains, notices := told.notices, noticeLost := told.noticeLost }

theorem Tells.refl (s : State) : Tells s s := rfl

theorem Tells.trans (h : Tells s t) (h' : Tells t u) : Tells s u := by
  unfold Tells at *
  rw [h', h]

theorem offerNotice_tells (b : NoticeBody) (s : State) : Tells s (offerNotice b s) := by
  unfold offerNotice Tells
  split <;> rfl

theorem toldDenial_tells (k : Check) (cls : FaultClass) (s : State) : Tells s (toldDenial k cls s) := by
  refine Tells.trans ?_ (advanceTally_frame k cls _)
  unfold notedDenial
  split
  · exact offerNotice_tells _ s
  · exact .refl s

theorem answerWith_frame {told : State} (h : Tells s told) (v : Verdict) (n : LinkCounter) :
    answerWith k v n s told = { s with
      links := (answerWith k v n s told).links, counters := (answerWith k v n s told).counters
      notices := (answerWith k v n s told).notices, noticeLost := (answerWith k v n s told).noticeLost
      domains := (answerWith k v n s told).domains } := by
  have hcount := countEvent_frame (.ofLink k.link n) { told with links := (queueVerdict k v s).links }
  have hanswer : answerWith k v n s told =
      countEvent (.ofLink k.link n) { told with links := (queueVerdict k v s).links } := rfl
  rw [← hanswer] at hcount
  generalize answerWith k v n s told = t at hcount ⊢
  generalize (queueVerdict k v s).links = links at hcount
  unfold Tells at h
  rw [hcount, h]

/-- The counter, the notices and the domains after an answer. -/
structure Counted (n : CounterName) (s told t : State) : Prop where
  own : t.counter n =
    { value := (s.counter n).value + 1
      wrapped := (s.counter n).wrapped || decide ((s.counter n).value = BitVec.allOnes 32) }
  others : ∀ m, m.index ≠ n.index → t.counter m = s.counter m
  domains : t.domains = told.domains
  notices : t.notices =
    (if (s.counter n).value = BitVec.allOnes 32 then offerNotice (.counterWrap n) told else told).notices
  noticeLost : t.noticeLost =
    (if (s.counter n).value = BitVec.allOnes 32 then offerNotice (.counterWrap n) told else told).noticeLost

theorem answerWith_counted {told : State} (h : Tells s told) (v : Verdict) (n : LinkCounter) :
    Counted (.ofLink k.link n) s told (answerWith k v n s told) := by
  have hcounters : told.counters = s.counters := by
    unfold Tells at h
    rw [h]
  let linked : State := { told with links := (queueVerdict k v s).links }
  have hsame : ∀ m, linked.counter m = s.counter m := fun m => congrArg (·[m.index.val]) hcounters
  obtain ⟨hnotices, hlost⟩ := countEvent_offers (.ofLink k.link n) linked
  rw [hsame] at hnotices hlost
  have hoffer : offerNotice (.counterWrap (.ofLink k.link n)) linked =
      { offerNotice (.counterWrap (.ofLink k.link n)) told with links := linked.links } :=
    offerNotice_withLinks _ linked.links told
  refine ⟨?_, fun m hm => (countEvent_other hm linked).trans (hsame m), countEvent_domains _ linked,
    hnotices.trans ?_, hlost.trans ?_⟩
  · exact (counter_countEvent _ linked).trans (by rw [hsame])
  · split
    · rw [hoffer]
    · rfl
  · split
    · rw [hoffer]
    · rfl

/-! ## The notices of a denial (Table 2.8) -/

theorem poisons_iff {action : PolicyAction} : action.poisons = true ↔ action = .poison ∨ action = .poisonNotify := by
  cases action <;> simp [PolicyAction.poisons]

theorem notifies_iff {action : PolicyAction} :
    action.notifies = true ↔ action = .notify ∨ action = .poisonNotify := by
  cases action <;> simp [PolicyAction.notifies]

/-- Of the actions that notify, one poisons. -/
theorem poisons_of_notifies {action : PolicyAction} (h : action = .notify ∨ action = .poisonNotify) :
    action.poisons = decide (action = .poisonNotify) := by
  rcases h with rfl | rfl <;> rfl

/-- The notice of a denial, as Table 2.8 lists its content. -/
def deniedBody (k : Check) (cls : FaultClass) (action : PolicyAction) : NoticeBody :=
  .denied k.link k.tag k.domain k.granule k.kind cls (decide (action = .poisonNotify))

theorem notedDenial_of_notifies {action : PolicyAction} (h : action = .notify ∨ action = .poisonNotify) (s : State) :
    notedDenial k cls action s = offerNotice (deniedBody k cls action) s := by
  rw [notedDenial, if_pos (notifies_iff.mpr h), poisons_of_notifies h, deniedBody]

theorem notedDenial_of_silent {action : PolicyAction} (h : ¬(action = .notify ∨ action = .poisonNotify)) (s : State) :
    notedDenial k cls action s = s := by
  rw [notedDenial, if_neg fun hn => h (notifies_iff.mp hn)]

theorem notifies_excludes {action : PolicyAction} (h : action = .quiet ∨ action = .poison) :
    ¬(action = .notify ∨ action = .poisonNotify) := by
  rcases h with rfl | rfl <;> decide

theorem answerWith_grows {told : State} (v : Verdict) (n : LinkCounter) :
    NoticesGrow told (answerWith k v n s told) := by
  have hlinks : NoticesGrow told { told with links := (queueVerdict k v s).links } := .of_eq rfl rfl
  exact hlinks.trans (countEvent_grows _ _)

theorem answerWith_only {P : NoticeBody → Prop} {told : State} {n : LinkCounter} (hP : P (.counterWrap (.ofLink k.link n)))
    (v : Verdict) : OffersOnly P told (answerWith k v n s told) := by
  have hlinks : OffersOnly P told { told with links := (queueVerdict k v s).links } := .of_eq rfl
  exact hlinks.trans (countEvent_only hP _)

/-- A denial's notice is offered first of its event. -/
theorem answerDenial_denied (h : s.actionFor cls k.domain = .notify ∨ s.actionFor cls k.domain = .poisonNotify)
    (generation : BitVec 8) :
    NoticesGrow (offerNotice (deniedBody k cls (s.actionFor cls k.domain)) s) (answerDenial k cls generation s) := by
  rw [answerDenial_eq, ← notedDenial_of_notifies h s]
  exact (advanceTally_grows k cls _).trans (answerWith_grows _ _)

theorem domain_notedDenial (action : PolicyAction) (d : Nat) (s : State) :
    (notedDenial k cls action s).domain d = s.domain d := by
  unfold notedDenial
  split
  · rw [State.domain, offerNotice_domains, State.domain]
  · rfl

/-- The notice of a tally that reaches its end follows the notice of the denial. -/
theorem answerDenial_tally (hc : cls ≠ .notReady) (hd : k.domain ≤ 1023)
    (ht : (s.domain k.domain).tally = some 65535) (generation : BitVec 8) :
    let noted := notedDenial k cls (s.actionFor cls k.domain) s
    NoticesGrow (offerNotice (.tallyReached k.domain k.link k.tag cls)
      (modDomain k.domain (fun r => { r with tally := none }) noted)) (answerDenial k cls generation s) := by
  intro noted
  have htold : toldDenial k cls s = offerNotice (.tallyReached k.domain k.link k.tag cls)
      (modDomain k.domain (fun r => { r with tally := none }) noted) :=
    advanceTally_of_full hc hd ((congrArg DomainRecord.tally (domain_notedDenial _ _ s)).trans ht)
  rw [answerDenial_eq, ← htold]
  exact answerWith_grows _ _

/-- A body that is no denial's. -/
def NoDenial (b : NoticeBody) : Prop := ∀ l tag d g kind c p, b ≠ .denied l tag d g kind c p

/-- A silent action offers no notice of a denial. -/
theorem answerDenial_silent (h : s.actionFor cls k.domain = .quiet ∨ s.actionFor cls k.domain = .poison)
    (generation : BitVec 8) : OffersOnly NoDenial s (answerDenial k cls generation s) := by
  rw [answerDenial_eq, toldDenial, notedDenial_of_silent (notifies_excludes h)]
  exact (advanceTally_only (fun _ _ _ _ _ _ _ => by simp) s).trans (answerWith_only (fun _ _ _ _ _ _ _ => by simp) _)

theorem answerDenial_domains (k : Check) (cls : FaultClass) (generation : BitVec 8) (s : State) :
    (answerDenial k cls generation s).domains = (advanceTally k cls s).domains := by
  rw [answerDenial_eq, (answerWith_counted (toldDenial_tells k cls s) _ _).domains]
  refine advanceTally_domains ?_
  unfold notedDenial
  split
  · exact offerNotice_domains _ s
  · rfl

theorem notedDenial_eq (action : PolicyAction) (s : State) : notedDenial k cls action s =
    if action = .notify ∨ action = .poisonNotify then offerNotice (deniedBody k cls action) s else s := by
  split
  · next h => exact notedDenial_of_notifies h s
  · next h => exact notedDenial_of_silent h s

/-- An answer queues its verdict and counts it. -/
structure Queued (k : Check) (v : Verdict) (n : LinkCounter) (s told t : State) : Prop where
  own : t.link k.link = (s.link k.link).answered k v s.pacing
  others : ∀ l, l ≠ k.link → t.link l = s.link l
  counted : Counted (.ofLink k.link n) s told t
  frame : t = { s with
    links := t.links, counters := t.counters, notices := t.notices, noticeLost := t.noticeLost, domains := t.domains }

theorem answerWith_queued {told : State} (h : Tells s told) (v : Verdict) (n : LinkCounter) :
    Queued k v n s told (answerWith k v n s told) :=
  ⟨link_answerWith_same k v n s told, fun _ hl => link_answerWith_other hl v n s told, answerWith_counted h v n,
    answerWith_frame h v n⟩

theorem answerGrant_queued (k : Check) (rights : Rights) (generation : BitVec 8) (cacheable : Bool) (s : State) :
    Queued k ⟨k.tag, .grant, some rights, cacheable, generation, true, none⟩ .grants s s
      (answerGrant k rights generation cacheable s) := by
  rw [answerGrant_eq]
  exact answerWith_queued (.refl s) _ _

theorem answerRetry_queued (k : Check) (s : State) :
    Queued k ⟨k.tag, .retry, none, false, 0, true, none⟩ .retries s s (answerRetry k s) := by
  rw [answerRetry_eq]
  exact answerWith_queued (.refl s) _ _

theorem answerDenial_queued (k : Check) (cls : FaultClass) (generation : BitVec 8) (s : State) :
    Queued k (denialVerdict k cls generation (s.actionFor cls k.domain).poisons)
      (denialCounter (s.actionFor cls k.domain).poisons) s (toldDenial k cls s) (answerDenial k cls generation s) := by
  rw [answerDenial_eq]
  exact answerWith_queued (toldDenial_tells k cls s) _ _

theorem entry_of_code {i : Fin 7} (h : i.val = cls.code) : cls.entry = some i := by
  revert i
  cases cls <;> decide

/-- The action of a class stands at its code in the requester's Policy Set (R28). -/
theorem actionFor_entry {d : Nat} {i : Fin 7} (h : i.val = cls.code) :
    s.actionFor cls d = (s.policies[(if d ≤ 1023 then (s.domain d).policySet else 0 : Fin 4).val])[i.val] := by
  simp only [State.actionFor, entry_of_code h, State.policySetOf]

/-- A denial on a full tally ends the tally. -/
theorem answerDenial_tally_ends (hc : cls ≠ .notReady) (hd : k.domain ≤ 1023)
    (ht : (s.domain k.domain).tally = some 65535) (generation : BitVec 8) :
    ((answerDenial k cls generation s).domain k.domain).tally = none := by
  have hdomains : (answerDenial k cls generation s).domains =
      (modDomain k.domain (fun r => { r with tally := none }) s).domains := by
    rw [answerDenial_domains, advanceTally_of_full hc hd ht, offerNotice_domains]
  rw [State.domain, hdomains]
  exact congrArg DomainRecord.tally (domain_modDomain_same _ _ s)

/-- A silent denial on a full tally offers its notice first. -/
theorem answerDenial_tally_first (hc : cls ≠ .notReady) (hd : k.domain ≤ 1023)
    (ht : (s.domain k.domain).tally = some 65535) (generation : BitVec 8)
    (ha : s.actionFor cls k.domain = .quiet ∨ s.actionFor cls k.domain = .poison) (hroom : s.notices.length < 64) :
    ∃ rest, (answerDenial k cls generation s).notices = s.notices ++
      { body := .tallyReached k.domain k.link k.tag cls, lostBefore := s.noticeLost } :: rest := by
  have hgrow := answerDenial_tally hc hd ht generation
  rw [notedDenial_of_silent (notifies_excludes ha)] at hgrow
  have hfirst := offered_first hgrow
  exact (if_pos hroom).mp hfirst

/-- A denial told by a notice, on a full tally, offers its notice first and the notice of the tally after it. -/
theorem answerDenial_tally_second (hc : cls ≠ .notReady) (hd : k.domain ≤ 1023)
    (ht : (s.domain k.domain).tally = some 65535) (generation : BitVec 8)
    (ha : s.actionFor cls k.domain = .notify ∨ s.actionFor cls k.domain = .poisonNotify)
    (hroom : s.notices.length < 63) :
    ∃ rest, (answerDenial k cls generation s).notices = s.notices ++
      { body := deniedBody k cls (s.actionFor cls k.domain), lostBefore := s.noticeLost } ::
        { body := .tallyReached k.domain k.link k.tag cls, lostBefore := false } :: rest := by
  have hgrow := answerDenial_tally hc hd ht generation
  rw [notedDenial_of_notifies ha, offerNotice_placed _ (by omega)] at hgrow
  have hlen : (s.notices ++ [{ body := deniedBody k cls (s.actionFor cls k.domain), lostBefore := s.noticeLost : Notice }]).length < 64 := by
    rw [List.length_append, List.length_singleton]
    omega
  obtain ⟨rest, hrest⟩ := (if_pos hlen).mp (offered_first hgrow)
  exact ⟨rest, hrest.trans (List.append_assoc _ [_] _)⟩

end

end Sys2Proof.Machine

namespace Sys2Proof.Proofs

open Sys2Proof.Machine

/-- Settles O33: each answer queues its verdict and counts it after the notices it tells, and a denial tells the notice
of its action first and that of its tally next. -/
theorem verdictIsQueued : Obligations.VerdictIsQueued := by
  unfold Obligations.VerdictIsQueued
  refine ⟨fun s k => ?_, fun s d cls => ⟨fun h => by rw [h]; rfl, fun i => actionFor_entry⟩,
    fun s k cls => ⟨advanceTally_of_uncounted, fun n => advanceTally_of_armed, advanceTally_of_full⟩,
    fun s d f => ⟨domain_modDomain_same d f s, fun d' h => domain_modDomain_other f s h, rfl⟩,
    ⟨rfl, rfl, rfl, rfl⟩, fun s k cls generation => ⟨fun ha => ?_, fun hc hd ht => ⟨?_, ?_, ?_⟩, answerDenial_silent (generation := generation)⟩⟩
  · refine ⟨fun rights generation cacheable => ?_, ?_, fun cls generation => ⟨answerDenial_domains k cls generation s, ?_, ?_⟩⟩
    · obtain ⟨hown, hothers, hcounted, hframe⟩ := answerGrant_queued k rights generation cacheable s
      exact ⟨hown, hothers, hcounted.own, hcounted.others, hcounted.domains, hcounted.notices, hcounted.noticeLost, hframe⟩
    · obtain ⟨hown, hothers, hcounted, hframe⟩ := answerRetry_queued k s
      exact ⟨hown, hothers, hcounted.own, hcounted.others, hcounted.domains, hcounted.notices, hcounted.noticeLost, hframe⟩
    · intro hp
      obtain ⟨hown, hothers, hcounted, hframe⟩ := answerDenial_queued k cls generation s
      rw [toldDenial, notedDenial_eq, hp] at hcounted
      rw [hp] at hown
      exact ⟨hown, hothers, hcounted.own, hcounted.others, hcounted.domains, hcounted.notices, hcounted.noticeLost, hframe⟩
    · intro hp
      obtain ⟨hown, hothers, hcounted, hframe⟩ := answerDenial_queued k cls generation s
      rw [toldDenial, notedDenial_eq, hp] at hcounted
      rw [hp] at hown
      exact ⟨hown, hothers, hcounted.own, hcounted.others, hcounted.domains, hcounted.notices, hcounted.noticeLost, hframe⟩
  · exact offered_first (answerDenial_denied ha generation)
  · exact answerDenial_tally_ends hc hd ht generation
  · exact answerDenial_tally_first hc hd ht generation
  · exact answerDenial_tally_second hc hd ht generation

/-- Settles O34: an offer places or loses its notice, and a counter takes its step. -/
theorem noticesAndCounters : Obligations.NoticesAndCounters := by
  unfold Obligations.NoticesAndCounters
  refine ⟨fun s b => ⟨offerNotice_placed b, offerNotice_lost b⟩,
    fun s n => ⟨fun h => ⟨?_, ?_⟩, fun h => ⟨?_, ?_⟩, fun n' h => countEvent_other h s⟩,
    fun n n' => counterName_index_injective⟩
  · rw [countEvent_of_no_wrap h, counter_setCounter_same]
  · rw [countEvent_of_no_wrap h]
    rfl
  · rw [counter_countEvent, h]
    rw [decide_eq_true (show (0xFFFFFFFF : BitVec 32) = BitVec.allOnes 32 by decide), Bool.or_true]
    rfl
  · rw [countEvent_of_wrap h, offerNotice_counters]
    rfl

end Sys2Proof.Proofs

/-! The arbiters of the port, and a check that no record decides; the statement PortEventWithoutRecord. -/

namespace Sys2Proof.Machine

section
variable {s : State} {l : LinkId} {k : Check} {c : CtxId}

/-! ## The Change Engine's next context (R44) -/

/-- A context, by number, has a request ready. -/
def ReadyAt (s : State) (i : Nat) : Prop :=
  ∃ (c : CtxId) (w : Work), c.val = i ∧ s.work c = some w ∧ w.request ≠ .noRequest ∧ w.waiting = false

theorem ready_iff {w : Work} : w.ready = true ↔ w.request ≠ .noRequest ∧ w.waiting = false := by
  rw [Work.ready, Bool.and_eq_true, Bool.not_eq_true', Bool.not_eq_true', decide_eq_false_iff_not]

theorem ctxReady_iff : s.ctxReady c = true ↔ ∃ w, s.work c = some w ∧ w.request ≠ .noRequest ∧ w.waiting = false := by
  unfold State.ctxReady
  split
  · next w hw =>
    rw [ready_iff]
    exact ⟨fun h => ⟨w, hw, h⟩, fun ⟨w', hw', h⟩ => Option.some.inj (hw'.symm.trans hw) ▸ h⟩
  · next hw => exact iff_of_false Bool.false_ne_true fun ⟨w, hw', _⟩ => Option.some_ne_none w (hw'.symm.trans hw)

theorem ofNat_eq_iff {n i : Nat} [NeZero n] {j : Fin n} (h : i < n) : Fin.ofNat n i = j ↔ i = j.val := by
  rw [Fin.ext_iff, Fin.val_ofNat, Nat.mod_eq_of_lt h]

theorem readyAt_iff {i : Nat} (h : i < 16) : s.ctxReady (Fin.ofNat 16 i) = true ↔ ReadyAt s i := by
  rw [ctxReady_iff]
  constructor
  · rintro ⟨w, hw⟩
    exact ⟨_, w, Nat.mod_eq_of_lt h, hw⟩
  · rintro ⟨c, w, hc, hw⟩
    rw [(ofNat_eq_iff h).mpr hc.symm]
    exact ⟨w, hw⟩

/-- The Change Engine serves the first ready context after the one served last. -/
theorem nextCtx_iff : s.nextCtx = some c ↔ FirstReady 16 s.enginePtr.val (ReadyAt s) c.val := by
  rw [State.nextCtx, Option.map_eq_some_iff]
  constructor
  · rintro ⟨i, hfirst, hi⟩
    have hlt := (firstAfter_some hfirst).2
    rw [← (ofNat_eq_iff hlt).mp hi]
    exact (firstReady_congr fun j hj => readyAt_iff hj).mp (firstAfter_iff.mp hfirst)
  · intro hready
    exact ⟨c.val, firstAfter_iff.mpr ((firstReady_congr fun j hj => readyAt_iff hj).mpr hready),
      (ofNat_eq_iff c.isLt).mpr rfl⟩

/-- The cyclic order of 16 reaches every number. -/
theorem cycle_reaches (ptr j : Nat) (h : j < 16) : ∃ i, i < 16 ∧ (ptr + 1 + i) % 16 = j :=
  ⟨(j + 16 - (ptr + 1) % 16) % 16, by omega, by omega⟩

theorem firstAfter_isSome_iff {ptr : Nat} {p : Nat → Bool} :
    (firstAfter 16 ptr p).isSome = true ↔ ∃ j, j < 16 ∧ p j = true := by
  rw [firstAfter, List.findSome?_isSome_iff]
  constructor
  · rintro ⟨i, hi, hfound⟩
    refine ⟨(ptr + 1 + i) % 16, Nat.mod_lt _ (by omega), ?_⟩
    refine Decidable.byContradiction fun hp => ?_
    simp only [if_neg hp] at hfound
    exact Bool.false_ne_true hfound
  · rintro ⟨j, hj, hp⟩
    obtain ⟨i, hi, rfl⟩ := cycle_reaches ptr j hj
    refine ⟨i, List.mem_range.mpr hi, ?_⟩
    simp only [if_pos hp]
    rfl

theorem nextCtx_isSome_iff : s.nextCtx.isSome = true ↔ ∃ j, ReadyAt s j := by
  rw [State.nextCtx, Option.isSome_map, firstAfter_isSome_iff]
  constructor
  · rintro ⟨j, hj, hready⟩
    exact ⟨j, (readyAt_iff hj).mp hready⟩
  · rintro ⟨j, hready⟩
    have hj : j < 16 := by
      obtain ⟨c, -, rfl, -⟩ := hready
      exact c.isLt
    exact ⟨j, hj, (readyAt_iff hj).mpr hready⟩

/-! ## The port arbiter (R43) -/

/-- A requester of the port, by number, has a request to present. -/
def PresentsAt (s : State) (i : Nat) : Prop :=
  (∃ l : LinkId, l.val = i ∧ (s.link l).lane ≠ []) ∨ (i = 6 ∧ ∃ j, ReadyAt s j)

theorem presents_engine : s.presents 6 = true ↔ PresentsAt s 6 := by
  have hlink : ¬∃ l : LinkId, l.val = 6 ∧ (s.link l).lane ≠ [] := fun ⟨l, hl, _⟩ => absurd l.isLt (by omega)
  rw [PresentsAt, or_iff_right hlink, and_iff_right rfl, ← nextCtx_isSome_iff]
  rfl

theorem presents_lane (l : LinkId) : s.presents l.val = true ↔ (s.link l).lane ≠ [] := by
  rw [State.presents, if_neg (Nat.ne_of_lt l.isLt), (ofNat_eq_iff l.isLt).mpr rfl, Bool.not_eq_true',
    List.isEmpty_eq_false_iff]

theorem presentsAt_lane (l : LinkId) : PresentsAt s l.val ↔ (s.link l).lane ≠ [] := by
  rw [PresentsAt, or_iff_left fun ⟨h, _⟩ => absurd h (Nat.ne_of_lt l.isLt)]
  exact ⟨fun ⟨l', hl, h⟩ => Fin.ext hl ▸ h, fun h => ⟨l, rfl, h⟩⟩

theorem presentsAt_iff {i : Nat} (h : i < 7) : s.presents i = true ↔ PresentsAt s i := by
  by_cases h6 : i = 6
  · subst h6
    exact presents_engine
  · exact (presents_lane (⟨i, by omega⟩ : LinkId)).trans (presentsAt_lane (⟨i, by omega⟩ : LinkId)).symm

/-- The port arbiter's search. -/
theorem firstPresents_iff {i : Nat} :
    firstAfter 7 s.portPtr.val s.presents = some i ↔ FirstReady 7 s.portPtr.val (PresentsAt s) i :=
  firstAfter_iff.trans (firstReady_congr fun _ hj => presentsAt_iff hj)

theorem nextGrant_of_none (h : firstAfter 7 s.portPtr.val s.presents = none) : s.nextGrant = none := by
  simp only [State.nextGrant, h]

theorem nextGrant_of_engine (h : firstAfter 7 s.portPtr.val s.presents = some 6) :
    s.nextGrant = s.nextCtx.bind (fun c => (s.work c).map (fun w => .engine c w.request)) := by
  simp only [State.nextGrant, h, if_true]

theorem nextGrant_of_lane (h : firstAfter 7 s.portPtr.val s.presents = some l.val) :
    s.nextGrant = (s.link l).lane.head?.map (Grant.lane l) := by
  simp only [State.nextGrant, h, if_neg (Nat.ne_of_lt l.isLt), (ofNat_eq_iff l.isLt).mpr rfl]

/-- The requester that the port arbiter finds: none, the Change Engine or a lane. -/
theorem firstPresents_cases (s : State) : firstAfter 7 s.portPtr.val s.presents = none ∨
    firstAfter 7 s.portPtr.val s.presents = some 6 ∨
    ∃ l : LinkId, firstAfter 7 s.portPtr.val s.presents = some l.val := by
  cases h : firstAfter 7 s.portPtr.val s.presents with
  | none => exact .inl rfl
  | some i =>
    have hlt := (firstAfter_some h).2
    by_cases h6 : i = 6
    · exact .inr (.inl (h6 ▸ rfl))
    · exact .inr (.inr ⟨⟨i, by omega⟩, rfl⟩)

theorem nextGrant_lane_iff : s.nextGrant = some (.lane l k) ↔
    firstAfter 7 s.portPtr.val s.presents = some l.val ∧ (s.link l).lane.head? = some k := by
  rcases firstPresents_cases s with h | h | ⟨l', h⟩
  · rw [nextGrant_of_none h, h]
    exact iff_of_false (by simp) (by simp)
  · rw [nextGrant_of_engine h, h]
    refine iff_of_false (fun hg => ?_) (fun hg => absurd (Option.some.inj hg.1) (Nat.ne_of_gt l.isLt))
    obtain ⟨c, -, hw⟩ := Option.bind_eq_some_iff.mp hg
    obtain ⟨w, -, hw⟩ := Option.map_eq_some_iff.mp hw
    exact Grant.noConfusion hw
  · rw [nextGrant_of_lane h, h, Option.map_eq_some_iff]
    constructor
    · rintro ⟨k', hk, hgrant⟩
      obtain ⟨rfl, rfl⟩ := Grant.lane.inj hgrant
      exact ⟨rfl, hk⟩
    · rintro ⟨hl, hk⟩
      obtain rfl : l' = l := Fin.ext (Option.some.inj hl)
      exact ⟨k, hk, rfl⟩

theorem nextGrant_engine_iff {request : Request} : s.nextGrant = some (.engine c request) ↔
    firstAfter 7 s.portPtr.val s.presents = some 6 ∧ s.nextCtx = some c ∧
      (s.work c).map Work.request = some request := by
  rcases firstPresents_cases s with h | h | ⟨l', h⟩
  · rw [nextGrant_of_none h, h]
    exact iff_of_false (by simp) (by simp)
  · rw [nextGrant_of_engine h, and_iff_right h, Option.bind_eq_some_iff]
    constructor
    · rintro ⟨c', hc, hw⟩
      obtain ⟨w, hwork, hgrant⟩ := Option.map_eq_some_iff.mp hw
      obtain ⟨rfl, rfl⟩ := Grant.engine.inj hgrant
      exact ⟨hc, by rw [hwork, Option.map_some]⟩
    · rintro ⟨hc, hw⟩
      obtain ⟨w, hwork, rfl⟩ := Option.map_eq_some_iff.mp hw
      exact ⟨c, hc, by rw [hwork, Option.map_some]⟩
  · rw [nextGrant_of_lane h, h]
    refine iff_of_false (fun hg => ?_) (fun hg => absurd (Option.some.inj hg.1) (Nat.ne_of_lt l'.isLt))
    obtain ⟨k, -, hk⟩ := Option.map_eq_some_iff.mp hg
    exact Grant.noConfusion hk

/-! ## The port event of a check -/

/-- A check leaves its lane, whose turn it was. -/
def leaveLane (l : LinkId) (s : State) : State :=
  modLink l (fun x => { x with lane := x.lane.tail }) { s with portPtr := Fin.ofNat 7 l.val }

theorem laneGranted_eq (l : LinkId) (s : State) : laneGranted l s = leaveLane l s := by
  simp only [laneGranted, leaveLane, List.drop_one]

/-- CHECK_PORT_EVENT of a lane. -/
theorem exec_checkPortEvent_of_lane (h : s.nextGrant = some (.lane l k)) :
    exec .checkPortEvent s = .next (signalInterrupt s (portCheck k (leaveLane l s))) := by
  have hexec : exec .checkPortEvent s = execCheckPortEvent s := rfl
  simp only [hexec, execCheckPortEvent, event, h, laneGranted_eq]

/-- What decides a check without a record is unchanged as the check leaves its lane. -/
theorem decideWithoutRecord_leaveLane (l : LinkId) (s : State) (k : Check) :
    decideWithoutRecord (leaveLane l s) k = decideWithoutRecord s k := rfl

theorem portCheck_of_grant {rights : Rights} {generation : BitVec 8} {mayCache : Bool}
    (h : decideWithoutRecord s k = some (.grant rights generation mayCache)) :
    portCheck k s = answerGrant k rights generation false s := by
  simp only [portCheck, h]

theorem portCheck_of_deny {cls : FaultClass} {generation : BitVec 8}
    (h : decideWithoutRecord s k = some (.deny cls generation)) :
    portCheck k s = answerDenial k cls generation s := by
  simp only [portCheck, h]

theorem portCheck_of_lookUp (h : decideWithoutRecord s k = none) : portCheck k s = lookUpCheck k s := by
  simp only [portCheck, h]

/-- A check that leaves its lane and is denied without a record. -/
theorem exec_checkPortEvent_of_deny {cls : FaultClass} {generation : BitVec 8} (h : s.nextGrant = some (.lane l k))
    (hd : decideWithoutRecord s k = some (.deny cls generation)) :
    exec .checkPortEvent s = .next (signalInterrupt s (answerDenial k cls generation (leaveLane l s))) := by
  rw [exec_checkPortEvent_of_lane h, portCheck_of_deny ((decideWithoutRecord_leaveLane l s k).trans hd)]

end

end Sys2Proof.Machine

namespace Sys2Proof.Proofs

open Sys2Proof.Machine

/-- Settles O35: the cases without a record each answer the check, and the arbiters grant the first that is ready. -/
theorem portEventWithoutRecord : Obligations.PortEventWithoutRecord := by
  unfold Obligations.PortEventWithoutRecord
  refine ⟨fun s l k h => ⟨nextGrant_lane h, fun hp hd => ?_, fun hp hd => ?_, fun hp ht => ?_, fun cls hd => ?_⟩,
    fun s => ⟨fun c => nextCtx_iff, fun l k => ?_, fun c request => ?_⟩⟩
  · rw [exec_checkPortEvent_of_lane h,
      portCheck_of_grant ((decideWithoutRecord_leaveLane l s k).trans (decideWithoutRecord_of_root hp hd))]
    rfl
  · exact exec_checkPortEvent_of_deny h (decideWithoutRecord_of_notReady hp hd)
  · exact exec_checkPortEvent_of_deny h (decideWithoutRecord_of_range hp ht)
  · exact exec_checkPortEvent_of_deny h hd
  · rw [nextGrant_lane_iff, firstPresents_iff]
    exact Iff.rfl
  · rw [nextGrant_engine_iff, firstPresents_iff]
    exact Iff.rfl

end Sys2Proof.Proofs

/-! What a decision writes, and the re-decision of parked checks; the statement Redecision. -/

namespace Sys2Proof.Machine

section
variable {s t : State} {k : Check} {r : GranuleRecord} {g : Nat}

/-! ## What the watermarks and pacing write -/

theorem foldl_modLink_frame (f : Link → Link) (L : List LinkId) (s : State) :
    L.foldl (fun s l => modLink l f s) s = { s with links := (L.foldl (fun s l => modLink l f s) s).links } := by
  induction L generalizing s with
  | nil => rfl
  | cons a L ih => exact ih (modLink a f s)

theorem endPacing_frame (s : State) : endPacing s = { s with links := (endPacing s).links, pacing := false } :=
  foldl_modLink_frame returnCredits allLinks { s with pacing := false }

theorem testPacing_frame (s : State) :
    testPacing s = { s with links := (testPacing s).links, pacing := (testPacing s).pacing } := by
  unfold testPacing
  split
  · rfl
  · split
    · have h := endPacing_frame s
      generalize endPacing s = t at h ⊢
      rw [h]
    · rfl

/-- The indicators take the occupancies. -/
def followMarks (s : State) : State :=
  { s with
    parkMark := followOccupancy s.settings.parkMode s.park.length s.parkMark
    missMark := followOccupancy s.settings.missMode s.miss.length s.missMark }

theorem presentOccupancy_of_same {b : State} (h : s.miss.length = b.miss.length ∧ s.park.length = b.park.length) :
    presentOccupancy b s = s := if_pos h

theorem presentOccupancy_of_changed {b : State}
    (h : ¬(s.miss.length = b.miss.length ∧ s.park.length = b.park.length)) :
    presentOccupancy b s = testPacing (followMarks s) := if_neg h

theorem presentOccupancy_frame (b s : State) : presentOccupancy b s = { s with
    links := (presentOccupancy b s).links, pacing := (presentOccupancy b s).pacing
    parkMark := (presentOccupancy b s).parkMark, missMark := (presentOccupancy b s).missMark } := by
  by_cases h : s.miss.length = b.miss.length ∧ s.park.length = b.park.length
  · rw [presentOccupancy_of_same h]
  · rw [presentOccupancy_of_changed h]
    have hframe := testPacing_frame (followMarks s)
    generalize testPacing (followMarks s) = t at hframe ⊢
    rw [hframe]
    rfl

/-! ## What a decision writes -/

/-- A decision writes the links, pacing, the Park Queue with its watermark indicators, the counters, the notices and the
domains' tallies. -/
def Decides (s t : State) : Prop :=
  t = { s with
    links := t.links, pacing := t.pacing, park := t.park, parkMark := t.parkMark, missMark := t.missMark
    counters := t.counters, notices := t.notices, noticeLost := t.noticeLost, domains := t.domains }

theorem Decides.refl (s : State) : Decides s s := rfl

theorem Decides.trans {u : State} (h : Decides s t) (h' : Decides t u) : Decides s u := by
  unfold Decides at *
  rw [h', h]

theorem Queued.decides {v : Verdict} {n : LinkCounter} {told : State} (h : Queued k v n s told t) : Decides s t := by
  have hframe := h.frame
  unfold Decides
  rw [hframe]

theorem answerGrant_decides (k : Check) (rights : Rights) (generation : BitVec 8) (cacheable : Bool) (s : State) :
    Decides s (answerGrant k rights generation cacheable s) := (answerGrant_queued k rights generation cacheable s).decides

theorem answerRetry_decides (k : Check) (s : State) : Decides s (answerRetry k s) := (answerRetry_queued k s).decides

theorem answerDenial_decides (k : Check) (cls : FaultClass) (generation : BitVec 8) (s : State) :
    Decides s (answerDenial k cls generation s) := (answerDenial_queued k cls generation s).decides

theorem countEvent_decides (n : CounterName) (s : State) : Decides s (countEvent n s) := by
  have h := countEvent_frame n s
  unfold Decides
  generalize countEvent n s = t at h ⊢
  rw [h]

theorem parkCheck_of_room (h : s.park.length < 64) : parkCheck k s =
    countEvent (.ofLink k.link .parks) (presentOccupancy s { s with park := s.park ++ [k] }) := if_pos h

theorem parkCheck_of_full (h : 64 ≤ s.park.length) : parkCheck k s = answerRetry k s := if_neg (Nat.not_lt.mpr h)

theorem presentOccupancy_decides (b s : State) : Decides s (presentOccupancy b s) := by
  have h := presentOccupancy_frame b s
  unfold Decides
  generalize presentOccupancy b s = t at h ⊢
  rw [h]

theorem parkCheck_decides (k : Check) (s : State) : Decides s (parkCheck k s) := by
  rcases Nat.lt_or_ge s.park.length 64 with h | h
  · rw [parkCheck_of_room h]
    have hpark : Decides s { s with park := s.park ++ [k] } := rfl
    exact (hpark.trans (presentOccupancy_decides s _)).trans (countEvent_decides _ _)
  · rw [parkCheck_of_full h]
    exact answerRetry_decides k s

/-! ## A decision against a record -/

/-- A GRANT is cacheable on a link that caches, where the check asks for it. -/
def Check.caches (k : Check) (s : State) (mayCache : Bool) : Bool :=
  mayCache && k.cacheWanted && s.settings.caching.getLsbD k.link.val

/-- A record with one link more among its holders. -/
def GranuleRecord.heldBy (r : GranuleRecord) (k : Check) : GranuleRecord :=
  { r with holders := r.holders ||| (1#6 <<< k.link.val) }

theorem linkBit_or_self : ∀ (l : LinkId) (x : BitVec 6), x ||| (1#6 <<< l.val) = x ↔ x.getLsbD l.val = true := by
  decide

theorem heldBy_eq_self_iff : r.heldBy k = r ↔ r.holders.getLsbD k.link.val = true := by
  rw [← linkBit_or_self]
  exact ⟨fun h => congrArg GranuleRecord.holders h, fun h => by rw [GranuleRecord.heldBy, h]⟩

theorem decideCheck_of_grant {rights : Rights} {generation : BitVec 8} {mayCache : Bool}
    (h : decision s k r = .grant rights generation mayCache) : decideCheck k r s =
      (answerGrant k rights generation (k.caches s mayCache) s, if k.caches s mayCache then r.heldBy k else r) := by
  simp only [decideCheck, h]
  rfl

theorem decideCheck_of_deny {cls : FaultClass} {generation : BitVec 8} (h : decision s k r = .deny cls generation) :
    decideCheck k r s = (answerDenial k cls generation s, r) := by
  simp only [decideCheck, h]

theorem decideCheck_of_park (h : decision s k r = .park) : decideCheck k r s = (parkCheck k s, r) := by
  simp only [decideCheck, h]

theorem decideCheck_decides (k : Check) (r : GranuleRecord) (s : State) : Decides s (decideCheck k r s).1 := by
  cases h : decision s k r with
  | grant rights generation mayCache =>
    rw [decideCheck_of_grant h]
    exact answerGrant_decides k rights generation _ s
  | deny cls generation =>
    rw [decideCheck_of_deny h]
    exact answerDenial_decides k cls generation s
  | park =>
    rw [decideCheck_of_park h]
    exact parkCheck_decides k s

/-- A decision writes the holders of the record alone. -/
theorem state_decideCheck (k : Check) (r : GranuleRecord) (s : State) : (decideCheck k r s).2.state = r.state := by
  cases h : decision s k r with
  | grant rights generation mayCache =>
    rw [decideCheck_of_grant h]
    dsimp only
    split <;> rfl
  | deny cls generation => rw [decideCheck_of_deny h]
  | park => rw [decideCheck_of_park h]

theorem decideWithoutRecord_ne_park : decideWithoutRecord s k ≠ some .park := by
  unfold decideWithoutRecord
  split
  · split <;> simp
  · split
    · simp
    · split
      · simp
      · split <;> simp

theorem decideRights_ne_park {rights : Rights} {generation : BitVec 8} : decideRights k rights generation ≠ .park := by
  unfold decideRights
  split <;> simp

theorem decideByRecord_ne_park {x : Stable} (h : r.state = .stable x) : decideByRecord s k r ≠ .park := by
  cases x with
  | fenced => simp [decideByRecord, h]
  | vacant => simp [decideByRecord, h]
  | wiped => simp [decideByRecord, h]
  | held owner rights =>
    simp only [decideByRecord, h]
    split
    · exact decideRights_ne_park
    · simp
  | shared owner group rights =>
    simp only [decideByRecord, h]
    split
    · exact decideRights_ne_park
    · simp

/-- A check on a record in a stable state is not parked. -/
theorem decision_ne_park {x : Stable} (h : r.state = .stable x) : decision s k r ≠ .park := by
  cases hd : decideWithoutRecord s k with
  | some d => exact decision_of_some hd ▸ fun hpark => decideWithoutRecord_ne_park (hd.trans (congrArg some hpark))
  | none =>
    simp only [decision, hd]
    exact decideByRecord_ne_park h

theorem Queued.park {v : Verdict} {n : LinkCounter} {told : State} (h : Queued k v n s told t) : t.park = s.park := by
  rw [h.frame]

/-- A check on a record in a stable state leaves the Park Queue as it is. -/
theorem park_decideCheck {x : Stable} (h : r.state = .stable x) : (decideCheck k r s).1.park = s.park := by
  cases hd : decision s k r with
  | grant rights generation mayCache =>
    rw [decideCheck_of_grant hd]
    exact (answerGrant_queued k rights generation _ s).park
  | deny cls generation =>
    rw [decideCheck_of_deny hd]
    exact (answerDenial_queued k cls generation s).park
  | park => exact absurd hd (decision_ne_park h)

/-! ## The resident copy -/

theorem cacheSet_of_cache (h : t.cache = s.cache) (g : Nat) : t.cacheSet g = s.cacheSet g := by
  rw [State.cacheSet, h, State.cacheSet]

theorem resident_of_cacheSet (h : t.cacheSet g = s.cacheSet g) : t.resident g = s.resident g := by
  simp only [State.resident, h]

theorem resident_of_cache (h : t.cache = s.cache) (g : Nat) : t.resident g = s.resident g :=
  resident_of_cacheSet (cacheSet_of_cache h g)

theorem Decides.cache (h : Decides s t) : t.cache = s.cache := by
  rw [h]

/-- The way in which a granule is found. -/
theorem find_way {x : CacheSet} {n : WayName} (h : x.find g = some n) : ∃ w, x.way n = some w ∧ w.granule = g := by
  have hholds : ∀ y : Option Way, holdsGranule g y = true → ∃ w, y = some w ∧ w.granule = g := fun y hy => by
    cases y with
    | none => exact absurd hy Bool.false_ne_true
    | some w => exact ⟨w, rfl, eq_of_beq hy⟩
  unfold CacheSet.find at h
  split at h
  · next h0 =>
    obtain rfl := Option.some.inj h
    exact hholds x.way0 h0
  · split at h
    · next h1 =>
      obtain rfl := Option.some.inj h
      exact hholds x.way1 h1
    · exact absurd h (by simp)

theorem find_of_resident (h : s.resident g = some r) : ∃ n, (s.cacheSet g).find g = some n :=
  (Serving.resident_iff s g).mp fun hnone => Option.some_ne_none r (h.symm.trans hnone)

theorem writeResident_of_find {n : WayName} (h : (s.cacheSet g).find g = some n) (r : GranuleRecord) :
    writeResident g r s =
      putCacheSet g ((s.cacheSet g).put n (some { granule := g, record := r, dirty := true })) s := by
  simp only [writeResident, h]

theorem CacheSet.way_put_same (x : CacheSet) (n : WayName) (w : Option Way) : (x.put n w).way n = w := by
  cases n <;> rfl

theorem CacheSet.way_put_other (x : CacheSet) (n : WayName) (w : Option Way) :
    (x.put n w).way n.other = x.way n.other := by
  cases n <;> rfl

theorem resident_writeResident {r' : GranuleRecord} (h : s.resident g = some r') (r : GranuleRecord) :
    (writeResident g r s).resident g = some r := by
  obtain ⟨n, hn⟩ := find_of_resident h
  rw [writeResident_of_find hn]
  refine resident_of_find (n := n) (w := ⟨g, r, true⟩) ?_ ?_
  · rw [cacheSet_putCacheSet_same]
    exact CacheSet.find_put_self hn rfl
  · rw [cacheSet_putCacheSet_same]
    exact CacheSet.way_put_same _ _ _

theorem writeResident_park (g : Nat) (r : GranuleRecord) (s : State) : (writeResident g r s).park = s.park := by
  unfold writeResident
  split <;> rfl

/-! ## A decision against the resident copy -/

theorem decideResident_of_same (h : (decideCheck k r s).2 = r) : decideResident k r s = (decideCheck k r s).1 := by
  simp only [decideResident, h, if_true]

theorem decideResident_of_changed (h : (decideCheck k r s).2 ≠ r) :
    decideResident k r s = writeResident k.granule (decideCheck k r s).2 (decideCheck k r s).1 := by
  simp only [decideResident, if_neg h]

theorem decideResident_of_grant {rights : Rights} {generation : BitVec 8} {mayCache : Bool}
    (h : decision s k r = .grant rights generation mayCache) : decideResident k r s =
      if k.caches s mayCache && !r.holders.getLsbD k.link.val
      then writeResident k.granule (r.heldBy k) (answerGrant k rights generation true s)
      else answerGrant k rights generation (k.caches s mayCache) s := by
  have hcheck := decideCheck_of_grant h
  rcases Bool.eq_false_or_eq_true (k.caches s mayCache) with hc | hc
  · rw [hc, if_pos rfl] at hcheck
    rcases Bool.eq_false_or_eq_true (r.holders.getLsbD k.link.val) with hl | hl
    · rw [decideResident_of_same (by rw [hcheck]; exact heldBy_eq_self_iff.mpr hl), hcheck, hc, hl, if_neg (by decide)]
    · have hne : r.heldBy k ≠ r := fun heq => absurd (hl.symm.trans (heldBy_eq_self_iff.mp heq)) (by decide)
      rw [decideResident_of_changed (by rw [hcheck]; exact hne), hcheck, hc, hl, if_pos (by decide)]
  · rw [hc, if_neg (by decide)] at hcheck
    rw [decideResident_of_same (by rw [hcheck]), hcheck, hc, if_neg (by simp)]

theorem decideResident_of_deny {cls : FaultClass} {generation : BitVec 8} (h : decision s k r = .deny cls generation) :
    decideResident k r s = answerDenial k cls generation s := by
  rw [decideResident_of_same (by rw [decideCheck_of_deny h]), decideCheck_of_deny h]

theorem decideResident_of_park (h : decision s k r = .park) : decideResident k r s = parkCheck k s := by
  rw [decideResident_of_same (by rw [decideCheck_of_park h]), decideCheck_of_park h]

theorem resident_decideResident (hk : k.granule = g) (h : s.resident g = some r) :
    (decideResident k r s).resident g = some (decideCheck k r s).2 := by
  have hafter : (decideCheck k r s).1.resident g = some r :=
    (resident_of_cache (decideCheck_decides k r s).cache g).trans h
  by_cases hsame : (decideCheck k r s).2 = r
  · rw [decideResident_of_same hsame, hsame]
    exact hafter
  · rw [decideResident_of_changed hsame, hk]
    exact resident_writeResident hafter _

theorem park_decideResident {x : Stable} (h : r.state = .stable x) : (decideResident k r s).park = s.park := by
  by_cases hsame : (decideCheck k r s).2 = r
  · rw [decideResident_of_same hsame]
    exact park_decideCheck h
  · rw [decideResident_of_changed hsame, writeResident_park]
    exact park_decideCheck h

/-! ## Decisions in turn (R38, R39) -/

theorem mem_of_recordOf {records : List (Nat × GranuleRecord)} (h : recordOf records g = some r) : (g, r) ∈ records := by
  obtain ⟨e, he, rfl⟩ := Option.map_eq_some_iff.mp h
  have htest := List.find?_some he
  obtain rfl : e.1 = g := eq_of_beq htest
  exact List.mem_of_find?_eq_some he

theorem recordOf_of_mem {records : List (Nat × GranuleRecord)} (h : (g, r) ∈ records) :
    ∃ r', recordOf records g = some r' := by
  have hfound : (records.find? (fun e => e.1 == g)).isSome = true :=
    List.find?_isSome.mpr ⟨(g, r), h, beq_self_eq_true g⟩
  obtain ⟨e, he⟩ := Option.isSome_iff_exists.mp hfound
  exact ⟨e.2, by rw [recordOf, he, Option.map_some]⟩

theorem mem_replaceRecord {records : List (Nat × GranuleRecord)} {e : Nat × GranuleRecord}
    (h : e ∈ replaceRecord g r records) : e = (g, r) ∨ e ∈ records := by
  obtain ⟨e', he, rfl⟩ := List.mem_map.mp h
  split
  · exact .inl rfl
  · exact .inr he

theorem mem_replaceRecord_granule {records : List (Nat × GranuleRecord)} {g' : Nat} {r' : GranuleRecord}
    (h : (g', r') ∈ records) : ∃ r'', (g', r'') ∈ replaceRecord g r records := by
  by_cases hg : g' = g
  · exact ⟨r, List.mem_map.mpr ⟨_, h, by rw [if_pos hg, hg]⟩⟩
  · exact ⟨r', List.mem_map.mpr ⟨_, h, if_neg hg⟩⟩

/-- Checks on records that are all in stable states are decided with none parked. -/
theorem park_decideParked (checks : List Check) (records : List (Nat × GranuleRecord)) (s : State)
    (hstable : ∀ e ∈ records, ∃ x, e.2.state = .stable x) (hall : ∀ k ∈ checks, ∃ r, (k.granule, r) ∈ records) :
    (decideParked checks records s).1.park = s.park := by
  induction checks generalizing records s with
  | nil => rfl
  | cons k rest ih =>
    obtain ⟨r, hr⟩ := hall k List.mem_cons_self
    obtain ⟨r', hfound⟩ := recordOf_of_mem hr
    obtain ⟨x, hx⟩ := hstable _ (mem_of_recordOf hfound)
    rw [decideParked, hfound, Option.getD_some]
    rw [ih, park_decideCheck hx]
    · intro e he
      rcases mem_replaceRecord he with rfl | he
      · exact ⟨x, (state_decideCheck k r' s).trans hx⟩
      · exact hstable e he
    · intro k' hk'
      obtain ⟨r'', hr''⟩ := hall k' (List.mem_cons_of_mem k hk')
      exact mem_replaceRecord_granule hr''

theorem decideAllResident_cons (h : s.resident g = some r) (rest : List Check) :
    decideAllResident g (k :: rest) s = decideAllResident g rest (decideResident k r s) := by
  rw [decideAllResident, h, Option.getD_some]

/-- Checks on a resident record in a stable state are decided with none parked. -/
theorem park_decideAllResident {x : Stable} (checks : List Check) (s : State) (r : GranuleRecord)
    (hres : s.resident g = some r) (hx : r.state = .stable x) (hall : ∀ k ∈ checks, k.granule = g) :
    (decideAllResident g checks s).park = s.park := by
  induction checks generalizing s r with
  | nil => rfl
  | cons k rest ih =>
    have hk := hall k List.mem_cons_self
    rw [decideAllResident_cons hres, ih _ _ (resident_decideResident hk hres) ((state_decideCheck k r s).trans hx)
      fun k' hk' => hall k' (List.mem_cons_of_mem k hk'), park_decideResident hx]

theorem recordOf_cons_self (records : List (Nat × GranuleRecord)) : recordOf ((g, r) :: records) g = some r := by
  simp only [recordOf, List.find?_cons, beq_self_eq_true, Option.map_some]

theorem recordOf_cons_other {g' : Nat} (h : g' ≠ g) (records : List (Nat × GranuleRecord)) :
    recordOf ((g', r) :: records) g = recordOf records g := by
  simp only [recordOf, List.find?_cons, beq_false_of_ne h]

end

end Sys2Proof.Machine

namespace Sys2Proof.Proofs

open Sys2Proof.Machine

/-- Settles O37: parked checks are decided in turn against what the turns before have left, and none is parked again
since the records stay in stable states. -/
theorem redecision : Obligations.Redecision := by
  unfold Obligations.Redecision
  refine ⟨fun s base count g records => ⟨rfl, rfl, fun hstable hall => ?_, fun r x hres hx => ?_⟩,
    fun s g k rest r records => ⟨rfl, rfl, rfl, recordOf_cons_self records, fun g' h => recordOf_cons_other h records,
      rfl, fun h => decideAllResident_cons h rest⟩,
    fun s k r => ⟨fun rights generation mayCache h => ⟨decideCheck_of_grant h, decideResident_of_grant h⟩,
      fun cls generation h => ⟨decideCheck_of_deny h, decideResident_of_deny h⟩,
      fun h => ⟨decideCheck_of_park h, decideResident_of_park h⟩, parkCheck_of_room, parkCheck_of_full⟩⟩
  · refine (park_decideParked _ records _ hstable fun k hk => ?_).trans (presentOccupancy_park _ _)
    obtain ⟨hpark, hcovered⟩ := List.mem_filter.mp hk
    exact hall k hpark hcovered
  · refine (park_decideAllResident _ _ r ?_ hx fun k hk => ?_).trans (presentOccupancy_park _ _)
    · exact (resident_of_cache (presentOccupancy_cache _ _) g).trans hres
    · exact eq_of_beq (List.mem_filter.mp hk).2

end Sys2Proof.Proofs

/-! A check that is looked up, as the cache holds its record or not; the statement PortEventOnLookup. -/

namespace Sys2Proof.Machine

section
variable {s t u : State} {k : Check} {r : GranuleRecord} {g : Nat} {l : LinkId}

/-! ## What the work inside the part keeps -/

theorem Inner.portSide_eq (h : Inner s t) : t.portSide = s.portSide := congrArg Prod.fst h.kept

theorem Inner.portPtr_eq (h : Inner s t) : t.portPtr = s.portPtr := congrArg (fun x => x.2.1) h.kept

theorem Inner.enginePtr_eq (h : Inner s t) : t.enginePtr = s.enginePtr := congrArg (fun x => x.2.2.1) h.kept

/-! ## Lanes and queues of the links -/

theorem returnCredits_lane (x : Link) : (returnCredits x).lane = x.lane := by
  unfold returnCredits
  split <;> rfl

/-- The frames a link's queue takes do not depend on its lane. -/
theorem tx_returnCredits_withLane (x : Link) (lane : List Check) :
    (returnCredits { x with lane := lane }).tx = (returnCredits x).tx := by
  by_cases h : x.state = .up ∧ 0 < x.withheld
  · rw [returnCredits, if_pos h, returnCredits, if_pos h]
  · rw [returnCredits, if_neg h, returnCredits, if_neg h]

/-- The lanes are the same. -/
def SameLanes (s t : State) : Prop := ∀ l, (t.link l).lane = (s.link l).lane

theorem SameLanes.trans (h : SameLanes s t) (h' : SameLanes t u) : SameLanes s u := fun l => (h' l).trans (h l)

theorem sameLanes_of_links (h : t.links = s.links) : SameLanes s t := fun l => by rw [link_of_links_eq h]

theorem Queued.sameLanes {v : Verdict} {n : LinkCounter} {told : State} (h : Queued k v n s told t) :
    SameLanes s t := fun l => by
  by_cases hl : l = k.link
  · rw [hl, h.own]
    rfl
  · rw [h.others l hl]

theorem presentOccupancy_sameLanes (b s : State) : SameLanes s (presentOccupancy b s) := fun l => by
  rcases link_presentOccupancy b s l with h | h
  · rw [h]
  · rw [h, returnCredits_lane]

theorem parkCheck_sameLanes (k : Check) (s : State) : SameLanes s (parkCheck k s) := by
  rcases Nat.lt_or_ge s.park.length 64 with h | h
  · have hpark : SameLanes s { s with park := s.park ++ [k] } := sameLanes_of_links rfl
    exact (hpark.trans (presentOccupancy_sameLanes s _)).trans (sameLanes_of_links (by rw [parkCheck_of_room h, countEvent_links]))
  · rw [parkCheck_of_full h]
    exact (answerRetry_queued k s).sameLanes

theorem decideCheck_sameLanes (k : Check) (r : GranuleRecord) (s : State) : SameLanes s (decideCheck k r s).1 := by
  cases h : decision s k r with
  | grant rights generation mayCache =>
    rw [decideCheck_of_grant h]
    exact (answerGrant_queued k rights generation _ s).sameLanes
  | deny cls generation =>
    rw [decideCheck_of_deny h]
    exact (answerDenial_queued k cls generation s).sameLanes
  | park =>
    rw [decideCheck_of_park h]
    exact parkCheck_sameLanes k s

/-! ## The part-wide counters -/

theorem part_index_ne_link (c : PartCounter) (l : LinkId) (n : LinkCounter) :
    (CounterName.ofPart c).index ≠ (CounterName.ofLink l n).index :=
  fun h => CounterName.noConfusion (counterName_index_injective h)

theorem Queued.partCounter {v : Verdict} {n : LinkCounter} {told : State} (h : Queued k v n s told t) (c : PartCounter) :
    t.counter (.ofPart c) = s.counter (.ofPart c) := h.counted.others _ (part_index_ne_link c k.link n)

theorem counter_of_counters {n : CounterName} (h : t.counters = s.counters) : t.counter n = s.counter n := by
  rw [State.counter, h, State.counter]

theorem decideCheck_partCounter (k : Check) (r : GranuleRecord) (s : State) (c : PartCounter) :
    (decideCheck k r s).1.counter (.ofPart c) = s.counter (.ofPart c) := by
  cases h : decision s k r with
  | grant rights generation mayCache =>
    rw [decideCheck_of_grant h]
    exact (answerGrant_queued k rights generation _ s).partCounter c
  | deny cls generation =>
    rw [decideCheck_of_deny h]
    exact (answerDenial_queued k cls generation s).partCounter c
  | park =>
    rw [decideCheck_of_park h]
    rcases Nat.lt_or_ge s.park.length 64 with hlen | hlen
    · rw [parkCheck_of_room hlen, countEvent_other (part_index_ne_link c k.link .parks)]
      exact counter_of_counters (presentOccupancy_counters _ _)
    · rw [parkCheck_of_full hlen]
      exact (answerRetry_queued k s).partCounter c

/-! ## A decision on a hit, with its use of the way -/

/-- A decision against the resident copy writes the way only where it changes the record. -/
theorem decideResident_eq (k : Check) (r : GranuleRecord) (s : State) : decideResident k r s =
    { (decideCheck k r s).1 with cache := (decideResident k r s).cache } := by
  by_cases h : (decideCheck k r s).2 = r
  · rw [decideResident_of_same h]
  · rw [decideResident_of_changed h, writeResident]
    split <;> rfl

theorem touchResident_of_find {n : WayName} (h : (s.cacheSet g).find g = some n) :
    touchResident g s = putCacheSet g { s.cacheSet g with lru := n.other } s := by
  simp only [touchResident, h]

theorem touchResident_eq (g : Nat) (s : State) : touchResident g s = { s with cache := (touchResident g s).cache } := by
  unfold touchResident
  split <;> rfl

theorem CacheSet.takeWay_self {x : CacheSet} {n : WayName} {w : Way} (h : x.way n = some w) :
    x.takeWay n w = { x with lru := n.other } := by
  rw [CacheSet.takeWay, ← h]
  cases n <;> rfl

/-- The set of a granule after a decision on a hit and its use. -/
theorem cacheSet_decided {n : WayName} {w : Way} (hfind : (s.cacheSet k.granule).find k.granule = some n)
    (hway : (s.cacheSet k.granule).way n = some w) (hr : w.record = r) :
    (touchResident k.granule (decideResident k r s)).cacheSet k.granule = (s.cacheSet k.granule).takeWay n
      { w with record := (decideCheck k r s).2, dirty := w.dirty || decide ((decideCheck k r s).2 ≠ r) } := by
  obtain ⟨w', hw', hgranule⟩ := find_way hfind
  obtain rfl : w' = w := Option.some.inj (hw'.symm.trans hway)
  have hset := cacheSet_of_cache (decideCheck_decides k r s).cache k.granule
  by_cases h : (decideCheck k r s).2 = r
  · have hkept : { w' with record := (decideCheck k r s).2, dirty := w'.dirty || decide ((decideCheck k r s).2 ≠ r) } =
        w' := by
      rw [h, ← hr]
      simp
    rw [hkept, decideResident_of_same h, touchResident_of_find (by rw [hset]; exact hfind), cacheSet_putCacheSet_same,
      hset, CacheSet.takeWay_self hway]
  · rw [decideResident_of_changed h, writeResident_of_find (n := n) (by rw [hset]; exact hfind), hset]
    generalize (decideCheck k r s).2 = after at h
    generalize (decideCheck k r s).1 = v
    have hfound : ((putCacheSet k.granule
        ((s.cacheSet k.granule).put n (some { granule := k.granule, record := after, dirty := true })) v).cacheSet
        k.granule).find k.granule = some n := by
      rw [cacheSet_putCacheSet_same]
      exact CacheSet.find_put_self hfind rfl
    rw [touchResident_of_find hfound, cacheSet_putCacheSet_same, cacheSet_putCacheSet_same, ← hgranule,
      decide_eq_true h, Bool.or_true]
    rfl

theorem cacheSet_decided_other (h : setOf g ≠ setOf k.granule) (r : GranuleRecord) (s : State) :
    (touchResident k.granule (decideResident k r s)).cacheSet g = s.cacheSet g := by
  have htouch : ∀ v : State, (touchResident k.granule v).cacheSet g = v.cacheSet g := fun v => by
    unfold touchResident
    split
    · exact cacheSet_putCacheSet_other h _ v
    · rfl
  have hwrite : ∀ (x : GranuleRecord) (v : State), (writeResident k.granule x v).cacheSet g = v.cacheSet g := fun x v => by
    unfold writeResident
    split
    · exact cacheSet_putCacheSet_other h _ v
    · rfl
  have hset := cacheSet_of_cache (decideCheck_decides k r s).cache g
  rw [htouch]
  by_cases hsame : (decideCheck k r s).2 = r
  · rw [decideResident_of_same hsame, hset]
  · rw [decideResident_of_changed hsame, hwrite, hset]

/-- The state after a check that hits. -/
def hitCheck (k : Check) (r : GranuleRecord) (s : State) : State :=
  countEvent (.ofPart .cacheHits) (touchResident k.granule (decideResident k r s))

theorem lookUpCheck_of_hit (h : s.resident k.granule = some r) : lookUpCheck k s = hitCheck k r s := by
  simp only [lookUpCheck, h, hitCheck]

/-- Beside the cache, a hit counts and does what its decision does. -/
theorem hitCheck_eq (k : Check) (r : GranuleRecord) (s : State) : hitCheck k r s =
    { (decideCheck k r s).1 with
      cache := (hitCheck k r s).cache, counters := (hitCheck k r s).counters, notices := (hitCheck k r s).notices
      noticeLost := (hitCheck k r s).noticeLost } := by
  have hcount := countEvent_frame (.ofPart .cacheHits) (touchResident k.granule (decideResident k r s))
  have htouch := touchResident_eq k.granule (decideResident k r s)
  have hdecide := decideResident_eq k r s
  have hhit : hitCheck k r s = countEvent (.ofPart .cacheHits) (touchResident k.granule (decideResident k r s)) := rfl
  rw [← hhit] at hcount
  generalize hitCheck k r s = t at hcount ⊢
  generalize touchResident k.granule (decideResident k r s) = v at hcount htouch
  generalize decideResident k r s = v' at htouch hdecide
  rw [hcount, htouch, hdecide]

theorem cacheSet_hitCheck (k : Check) (r : GranuleRecord) (s : State) (g : Nat) :
    (hitCheck k r s).cacheSet g = (touchResident k.granule (decideResident k r s)).cacheSet g :=
  cacheSet_of_cache (countEvent_cache _ _) g

theorem counter_hitCheck_hits (k : Check) (r : GranuleRecord) (s : State) :
    ((hitCheck k r s).counter (.ofPart .cacheHits)).value = (s.counter (.ofPart .cacheHits)).value + 1 := by
  have hcounters : (touchResident k.granule (decideResident k r s)).counters = (decideCheck k r s).1.counters := by
    rw [touchResident_eq, decideResident_eq]
  rw [hitCheck, countEvent_value, counter_of_counters hcounters, decideCheck_partCounter]

theorem counter_hitCheck_link (k : Check) (r : GranuleRecord) (s : State) (l : LinkId) (n : LinkCounter) :
    (hitCheck k r s).counter (.ofLink l n) = (decideCheck k r s).1.counter (.ofLink l n) := by
  have hcounters : (touchResident k.granule (decideResident k r s)).counters = (decideCheck k r s).1.counters := by
    rw [touchResident_eq, decideResident_eq]
  rw [hitCheck, countEvent_other fun h => part_index_ne_link _ _ _ h.symm, counter_of_counters hcounters]

/-- What a way holds after a hit: the record as decided, dirty where it was written. -/
structure WayIs (s : State) (g : Nat) (after : GranuleRecord) (written : Bool) (t : State) : Prop where
  resident : t.resident g = some after
  way : ∃ n w, (s.cacheSet g).find g = some n ∧ (s.cacheSet g).way n = some w ∧
    (t.cacheSet g).way n = some { w with record := after, dirty := w.dirty || written } ∧
    (t.cacheSet g).way n.other = (s.cacheSet g).way n.other ∧ (t.cacheSet g).lru = n.other

theorem hitCheck_wayIs (h : s.resident k.granule = some r) : WayIs s k.granule (decideCheck k r s).2
    (decide ((decideCheck k r s).2 ≠ r)) (hitCheck k r s) := by
  obtain ⟨n, hfind⟩ := find_of_resident h
  obtain ⟨w, hway, hgranule⟩ := find_way hfind
  have hr : w.record = r := Option.some.inj ((resident_of_find hfind hway).symm.trans h)
  have hset := (cacheSet_hitCheck k r s k.granule).trans (cacheSet_decided hfind hway hr)
  refine ⟨?_, n, w, hfind, hway, ?_, ?_, ?_⟩
  · refine resident_of_find (n := n) (by rw [hset]; exact CacheSet.find_takeWay_self hfind hgranule)
      (by rw [hset]; exact CacheSet.way_takeWay_same _ _ _)
  · rw [hset, CacheSet.way_takeWay_same]
  · rw [hset, CacheSet.way_takeWay_other]
  · rw [hset, CacheSet.lru_takeWay]

/-! ## What a lookup leaves unchanged -/

/-- The contexts, the Group Table and the Tag Store stay. -/
structure TablesKept (s t : State) : Prop where
  ctxs : t.ctxs = s.ctxs
  groups : t.groups = s.groups
  store : t.store = s.store

theorem Decides.tablesKept (h : Decides s t) : TablesKept s t := by
  unfold Decides at h
  rw [h]
  exact ⟨rfl, rfl, rfl⟩

theorem Decides.miss (h : Decides s t) : t.miss = s.miss := by
  rw [h]

theorem Decides.port (h : Decides s t) : t.port = s.port := by
  rw [h]

theorem hitCheck_tablesKept (k : Check) (r : GranuleRecord) (s : State) : TablesKept s (hitCheck k r s) := by
  obtain ⟨hctxs, hgroups, hstore⟩ := (decideCheck_decides k r s).tablesKept
  rw [hitCheck_eq]
  exact ⟨hctxs, hgroups, hstore⟩

theorem hitCheck_miss (k : Check) (r : GranuleRecord) (s : State) : (hitCheck k r s).miss = s.miss := by
  rw [hitCheck_eq]
  exact (decideCheck_decides k r s).miss

theorem hitCheck_port (k : Check) (r : GranuleRecord) (s : State) : (hitCheck k r s).port = s.port := by
  rw [hitCheck_eq]
  exact (decideCheck_decides k r s).port

theorem hitCheck_links (k : Check) (r : GranuleRecord) (s : State) :
    (hitCheck k r s).links = (decideCheck k r s).1.links := by
  rw [hitCheck_eq]

theorem hitCheck_park (k : Check) (r : GranuleRecord) (s : State) :
    (hitCheck k r s).park = (decideCheck k r s).1.park := by
  rw [hitCheck_eq]

theorem hitCheck_domains (k : Check) (r : GranuleRecord) (s : State) :
    (hitCheck k r s).domains = (decideCheck k r s).1.domains := by
  rw [hitCheck_eq]

/-- What the verdict of an answer is, as its link takes it. -/
def Answered (k : Check) (v : Verdict) (s t : State) : Prop :=
  (t.link k.link).tx = (s.link k.link).tx ++ [.verdict { v with credit := !s.pacing }]

theorem Queued.answered {v : Verdict} {n : LinkCounter} {told : State} (h : Queued k v n s told t) : Answered k v s t := by
  unfold Answered
  rw [h.own]
  rfl

theorem Answered.of_links {v : Verdict} (h : Answered k v s t) (hlinks : u.links = t.links) : Answered k v s u := by
  unfold Answered
  rw [link_of_links_eq hlinks]
  exact h

/-- The domains' tallies, the Park Queue and the verdict after a GRANT. -/
theorem hitCheck_of_grant {rights : Rights} {generation : BitVec 8} (hres : s.resident k.granule = some r)
    (h : decision s k r = .grant rights generation true) :
    WayIs s k.granule (if k.caches s true then r.heldBy k else r)
      (k.caches s true && !r.holders.getLsbD k.link.val) (hitCheck k r s) ∧
    Answered k ⟨k.tag, .grant, some rights, k.caches s true, generation, true, none⟩ s (hitCheck k r s) ∧
    (hitCheck k r s).park = s.park ∧ (hitCheck k r s).domains = s.domains := by
  have hcheck := decideCheck_of_grant h
  have hqueued := answerGrant_queued k rights generation (k.caches s true) s
  have hway := hitCheck_wayIs hres
  rw [hcheck] at hway
  have hwritten : decide ((if k.caches s true then r.heldBy k else r) ≠ r) =
      (k.caches s true && !r.holders.getLsbD k.link.val) := by
    rcases Bool.eq_false_or_eq_true (k.caches s true) with hc | hc
    · rw [hc, if_pos rfl, Bool.true_and, Bool.eq_iff_iff, decide_eq_true_eq, Bool.not_eq_true', ne_eq, heldBy_eq_self_iff,
        Bool.not_eq_true]
    · rw [hc]
      simp
  rw [← hwritten]
  refine ⟨hway, hqueued.answered.of_links ?_, ?_, ?_⟩
  · rw [hitCheck_links, hcheck]
  · rw [hitCheck_park, hcheck, hqueued.park]
  · rw [hitCheck_domains, hcheck, hqueued.counted.domains]

theorem hitCheck_wayIs_same (hres : s.resident k.granule = some r) (h : (decideCheck k r s).2 = r) :
    WayIs s k.granule r false (hitCheck k r s) := by
  have hway := hitCheck_wayIs hres
  rwa [h, decide_eq_false (not_not_intro rfl)] at hway

/-- The way, the Park Queue, the tally and the verdict after a denial. -/
theorem hitCheck_of_deny {cls : FaultClass} {generation : BitVec 8} (hres : s.resident k.granule = some r)
    (h : decision s k r = .deny cls generation) :
    WayIs s k.granule r false (hitCheck k r s) ∧ (hitCheck k r s).park = s.park ∧
    (hitCheck k r s).domains = (advanceTally k cls s).domains ∧
    Answered k (denialVerdict k cls generation (s.actionFor cls k.domain).poisons) s (hitCheck k r s) := by
  have hcheck := decideCheck_of_deny h
  have hqueued := answerDenial_queued k cls generation s
  refine ⟨hitCheck_wayIs_same hres (by rw [hcheck]), ?_, ?_, hqueued.answered.of_links ?_⟩
  · rw [hitCheck_park, hcheck, hqueued.park]
  · rw [hitCheck_domains, hcheck, answerDenial_domains]
  · rw [hitCheck_links, hcheck]

theorem parkCheck_domains (k : Check) (s : State) : (parkCheck k s).domains = s.domains := by
  rcases Nat.lt_or_ge s.park.length 64 with h | h
  · rw [parkCheck_of_room h, countEvent_domains, presentOccupancy_domains]
  · rw [parkCheck_of_full h]
    exact (answerRetry_queued k s).counted.domains

theorem parkCheck_park (h : s.park.length < 64) : (parkCheck k s).park = s.park ++ [k] := by
  rw [parkCheck_of_room h, countEvent_park, presentOccupancy_park]

theorem link_parkCheck (h : s.park.length < 64) (l : LinkId) :
    (parkCheck k s).link l = s.link l ∨ (parkCheck k s).link l = returnCredits (s.link l) := by
  rw [parkCheck_of_room h, link_of_links_eq (countEvent_links _ _)]
  exact link_presentOccupancy s { s with park := s.park ++ [k] } l

theorem parks_parkCheck (h : s.park.length < 64) : ((parkCheck k s).counter (.ofLink k.link .parks)).value =
    (s.counter (.ofLink k.link .parks)).value + 1 := by
  rw [parkCheck_of_room h, countEvent_value, counter_of_counters (presentOccupancy_counters s _)]
  rfl

/-- The way, the tallies, the Park Queue and the links after a check on a record under change. -/
theorem hitCheck_of_park (hres : s.resident k.granule = some r) (h : decision s k r = .park) :
    WayIs s k.granule r false (hitCheck k r s) ∧ (hitCheck k r s).domains = s.domains ∧
    (s.park.length < 64 → (hitCheck k r s).park = s.park ++ [k] ∧
      (∀ l, (hitCheck k r s).link l = s.link l ∨ (hitCheck k r s).link l = returnCredits (s.link l)) ∧
      ((hitCheck k r s).counter (.ofLink k.link .parks)).value = (s.counter (.ofLink k.link .parks)).value + 1) ∧
    (64 ≤ s.park.length → (hitCheck k r s).park = s.park ∧
      Answered k ⟨k.tag, .retry, none, false, 0, true, none⟩ s (hitCheck k r s)) := by
  have hcheck := decideCheck_of_park h
  have hlinks : (hitCheck k r s).links = (parkCheck k s).links := by rw [hitCheck_links, hcheck]
  have hpark : (hitCheck k r s).park = (parkCheck k s).park := by rw [hitCheck_park, hcheck]
  refine ⟨hitCheck_wayIs_same hres (by rw [hcheck]), ?_, fun hroom => ⟨?_, fun l => ?_, ?_⟩, fun hfull => ⟨?_, ?_⟩⟩
  · rw [hitCheck_domains, hcheck, parkCheck_domains]
  · rw [hpark, parkCheck_park hroom]
  · rw [link_of_links_eq hlinks]
    exact link_parkCheck hroom l
  · rw [counter_hitCheck_link, hcheck]
    exact parks_parkCheck hroom
  · rw [hpark, parkCheck_of_full hfull]
    exact (answerRetry_queued k s).park
  · rw [parkCheck_of_full hfull] at hlinks
    exact (answerRetry_queued k s).answered.of_links hlinks

/-! ## A check that misses -/

/-- The state after a check that misses. -/
def missCheck (k : Check) (s : State) : State :=
  (takeMiss k.granule (.check k) (countEvent (.ofPart .cacheMisses) s)).getD
    (answerRetry k (countEvent (.ofPart .cacheMisses) s))

theorem lookUpCheck_of_miss (h : s.resident k.granule = none) : lookUpCheck k s = missCheck k s := by
  simp only [lookUpCheck, h, missCheck]
  cases takeMiss k.granule (.check k) (countEvent (.ofPart .cacheMisses) s) with
  | none => rfl
  | some t => rfl

/-- A waiter joins the entry of its granule. -/
def joinEntry (g : Nat) (w : Waiter) (s : State) : State :=
  modEntry g (fun e => { e with waiters := e.waiters ++ [w] }) s

/-- A new entry of the Miss Queue, with its read issued. -/
def openEntry (g : Nat) (w : Waiter) (s : State) : State :=
  presentOccupancy s (issueRead g { s with miss := s.miss ++ [{ granule := g, waiters := [w], superseding := none }] })

theorem takeMiss_of_entry {e : MissEntry} {w : Waiter} (h : s.missEntry g = some e) (hroom : e.waiters.length < 8) :
    takeMiss g w s = some (joinEntry g w s) := by
  simp only [takeMiss, h]
  exact if_pos hroom

theorem takeMiss_of_full_entry {e : MissEntry} {w : Waiter} (h : s.missEntry g = some e) (hfull : 8 ≤ e.waiters.length) :
    takeMiss g w s = none := by
  simp only [takeMiss, h]
  exact if_neg (Nat.not_lt.mpr hfull)

theorem takeMiss_of_room {w : Waiter} (h : s.missEntry g = none) (hroom : s.miss.length < 48) :
    takeMiss g w s = some (openEntry g w s) := by
  simp only [takeMiss, h]
  exact if_pos hroom

theorem takeMiss_of_full {w : Waiter} (h : s.missEntry g = none) (hfull : 48 ≤ s.miss.length) :
    takeMiss g w s = none := by
  simp only [takeMiss, h]
  exact if_neg (Nat.not_lt.mpr hfull)

/-- A lookup that the Miss Queue takes writes it, the Port, and what the watermarks and pacing write. -/
def Misses (s t : State) : Prop :=
  t = { s with
    miss := t.miss, port := t.port, links := t.links, pacing := t.pacing, parkMark := t.parkMark, missMark := t.missMark
    counters := t.counters, notices := t.notices, noticeLost := t.noticeLost }

theorem Misses.trans (h : Misses s t) (h' : Misses t u) : Misses s u := by
  unfold Misses at *
  rw [h', h]

theorem countEvent_misses (n : CounterName) (s : State) : Misses s (countEvent n s) := by
  have h := countEvent_frame n s
  unfold Misses
  generalize countEvent n s = t at h ⊢
  rw [h]

theorem Queued.misses {v : Verdict} {n : LinkCounter} (h : Queued k v n s s t) : Misses s t := by
  have hframe := h.frame
  rw [h.counted.domains] at hframe
  unfold Misses
  rw [hframe]

theorem presentOccupancy_misses (b s : State) : Misses s (presentOccupancy b s) := by
  have h := presentOccupancy_frame b s
  unfold Misses
  generalize presentOccupancy b s = t at h ⊢
  rw [h]

/-- What a lookup does that the Miss Queue takes. -/
structure Taken (s t : State) : Prop where
  misses : Misses s t
  lanes : SameLanes s t
  counters : t.counters = s.counters

theorem joinEntry_taken (g : Nat) (w : Waiter) (s : State) : Taken s (joinEntry g w s) :=
  ⟨rfl, sameLanes_of_links rfl, rfl⟩

theorem openEntry_taken (g : Nat) (w : Waiter) (s : State) : Taken s (openEntry g w s) := by
  let v := issueRead g { s with miss := s.miss ++ [{ granule := g, waiters := [w], superseding := none }] }
  have hv : Misses s v := rfl
  have hlanes : SameLanes s v := sameLanes_of_links rfl
  exact ⟨hv.trans (presentOccupancy_misses s v), hlanes.trans (presentOccupancy_sameLanes s v),
    presentOccupancy_counters s v⟩

theorem takeMiss_taken {w : Waiter} (h : takeMiss g w s = some t) : Taken s t := by
  cases he : s.missEntry g with
  | some e =>
    rcases Nat.lt_or_ge e.waiters.length 8 with hlen | hlen
    · rw [takeMiss_of_entry he hlen] at h
      exact Option.some.inj h ▸ joinEntry_taken g w s
    · rw [takeMiss_of_full_entry he hlen] at h
      exact absurd h (by simp)
  | none =>
    rcases Nat.lt_or_ge s.miss.length 48 with hlen | hlen
    · rw [takeMiss_of_room he hlen] at h
      exact Option.some.inj h ▸ openEntry_taken g w s
    · rw [takeMiss_of_full he hlen] at h
      exact absurd h (by simp)

/-- Beside the queue, a check that misses keeps the lanes and counts its miss. -/
structure Missed (s t : State) : Prop where
  misses : Misses s t
  lanes : SameLanes s t
  counted : (t.counter (.ofPart .cacheMisses)).value = (s.counter (.ofPart .cacheMisses)).value + 1

theorem missCheck_missed (k : Check) (s : State) : Missed s (missCheck k s) := by
  unfold missCheck
  have hcount := countEvent_value (.ofPart .cacheMisses) s
  have hmisses := countEvent_misses (.ofPart .cacheMisses) s
  have hlanes : SameLanes s (countEvent (.ofPart .cacheMisses) s) := sameLanes_of_links (countEvent_links _ _)
  generalize countEvent (.ofPart .cacheMisses) s = v at hcount hmisses hlanes ⊢
  cases ht : takeMiss k.granule (.check k) v with
  | some t =>
    have htaken := takeMiss_taken ht
    exact ⟨hmisses.trans htaken.misses, hlanes.trans htaken.lanes, by
      rw [Option.getD_some, counter_of_counters htaken.counters, hcount]⟩
  | none =>
    have hqueued := answerRetry_queued k v
    exact ⟨hmisses.trans hqueued.misses, hlanes.trans hqueued.sameLanes, by
      rw [Option.getD_none, hqueued.partCounter, hcount]⟩

theorem missEntry_of_miss (h : t.miss = s.miss) (g : Nat) : t.missEntry g = s.missEntry g := by
  rw [State.missEntry, h, State.missEntry]

/-- Where the Miss Queue refuses the lookup, the check is answered RETRY. -/
theorem missCheck_refused (h : takeMiss k.granule (.check k) (countEvent (.ofPart .cacheMisses) s) = none) :
    (missCheck k s).miss = s.miss ∧ (missCheck k s).port = s.port ∧
    Answered k ⟨k.tag, .retry, none, false, 0, true, none⟩ s (missCheck k s) := by
  have hmiss : missCheck k s = answerRetry k (countEvent (.ofPart .cacheMisses) s) := by
    rw [missCheck, h, Option.getD_none]
  have hqueued := answerRetry_queued k (countEvent (.ofPart .cacheMisses) s)
  rw [← hmiss] at hqueued
  have hanswered := hqueued.answered
  have hdecides := hqueued.decides
  refine ⟨hdecides.miss.trans (countEvent_miss _ _), hdecides.port.trans (countEvent_port _ _), ?_⟩
  unfold Answered at hanswered ⊢
  rw [hanswered, link_of_links_eq (countEvent_links _ _), countEvent_pacing]

theorem missCheck_of_entry {e : MissEntry} (h : s.missEntry k.granule = some e) (hroom : e.waiters.length < 8) :
    (missCheck k s).port = s.port ∧ (missCheck k s).miss = s.miss.map (fun x =>
      if x.granule = k.granule then { x with waiters := x.waiters ++ [.check k] } else x) := by
  have hentry := (missEntry_of_miss (countEvent_miss (.ofPart .cacheMisses) s) k.granule).trans h
  rw [missCheck, takeMiss_of_entry hentry hroom, Option.getD_some]
  refine ⟨countEvent_port _ _, ?_⟩
  rw [joinEntry, modEntry, countEvent_miss]

theorem missCheck_of_room (h : s.missEntry k.granule = none) (hroom : s.miss.length < 48) :
    (missCheck k s).miss = s.miss ++ [{ granule := k.granule, waiters := [.check k], superseding := none }] ∧
    (missCheck k s).port = s.port ++ [.read k.granule (s.outstandingWrite k.granule)] := by
  have hmiss := countEvent_miss (.ofPart .cacheMisses) s
  have hport := countEvent_port (.ofPart .cacheMisses) s
  have hentry := (missEntry_of_miss hmiss k.granule).trans h
  rw [missCheck, takeMiss_of_room hentry (hmiss ▸ hroom), Option.getD_some, openEntry, presentOccupancy_miss,
    presentOccupancy_port, issueRead_miss]
  generalize countEvent (.ofPart .cacheMisses) s = v at hmiss hport
  simp only [issueRead, State.outstandingWrite, hmiss, hport, and_self]

/-! ## The port event of a check that is looked up -/

theorem exec_checkPortEvent_of_lookUp (h : s.nextGrant = some (.lane l k)) (hd : decideWithoutRecord s k = none) :
    exec .checkPortEvent s = .next (signalInterrupt s (lookUpCheck k (leaveLane l s))) := by
  rw [exec_checkPortEvent_of_lane h, portCheck_of_lookUp ((decideWithoutRecord_leaveLane l s k).trans hd)]

/-- A check that leaves its lane leaves the rest of the links as it is. -/
theorem link_leaveLane (l l' : LinkId) (s : State) : ∃ lane, (leaveLane l s).link l' = { s.link l' with lane := lane } := by
  by_cases h : l' = l
  · exact ⟨(s.link l).lane.tail, by rw [h]; exact link_modLink_same _ _ _⟩
  · exact ⟨(s.link l').lane, link_modLink_other _ _ h⟩

theorem tx_leaveLane (l l' : LinkId) (s : State) : ((leaveLane l s).link l').tx = (s.link l').tx := by
  obtain ⟨lane, h⟩ := link_leaveLane l l' s
  rw [h]

theorem tx_returnCredits_leaveLane (l l' : LinkId) (s : State) :
    (returnCredits ((leaveLane l s).link l')).tx = (returnCredits (s.link l')).tx := by
  obtain ⟨lane, h⟩ := link_leaveLane l l' s
  rw [h, tx_returnCredits_withLane]

theorem lane_leaveLane (l : LinkId) (s : State) : ((leaveLane l s).link l).lane = (s.link l).lane.tail :=
  congrArg Link.lane (link_modLink_same _ _ _)

/-- What every lookup of a check leaves of the lanes, the arbiters and the Control Port side. -/
structure LaneServed (l : LinkId) (s t : State) : Prop where
  lane : (t.link l).lane = (s.link l).lane.tail
  portPtr : t.portPtr.val = l.val
  enginePtr : t.enginePtr = s.enginePtr
  portSide : t.portSide = s.portSide

theorem laneServed_lookUpCheck (k : Check) (l : LinkId) (s : State)
    (h : SameLanes (leaveLane l s) (lookUpCheck k (leaveLane l s))) :
    LaneServed l s (signalInterrupt s (lookUpCheck k (leaveLane l s))) := by
  have hinner := Inner.lookUpCheck (Inner.refl (leaveLane l s)) k
  refine ⟨?_, ?_, ?_, (signalInterrupt_portSide _ _).trans hinner.portSide_eq⟩
  · rw [link_of_links_eq (signalInterrupt_links _ _), h l, lane_leaveLane]
  · rw [signalInterrupt_portPtr, hinner.portPtr_eq]
    exact Nat.mod_eq_of_lt (Nat.lt_trans l.isLt (by decide))
  · rw [signalInterrupt_enginePtr, hinner.enginePtr_eq]
    rfl

/-- A check that leaves its lane and the end of an event leave the ways as they are. -/
theorem WayIs.leftLane {after : GranuleRecord} {written : Bool} (h : WayIs (leaveLane l s) g after written t) :
    WayIs s g after written (signalInterrupt s t) := by
  have hcache := signalInterrupt_cache s t
  refine ⟨(resident_of_cache hcache g).trans h.resident, ?_⟩
  rw [cacheSet_of_cache hcache]
  exact h.way

/-- The verdict of a check that has left its lane, as its link shows it at the end of the event. -/
theorem Answered.leftLane {v : Verdict} (h : Answered k v (leaveLane l s) t) :
    ((signalInterrupt s t).link k.link).tx = (s.link k.link).tx ++ [.verdict { v with credit := !s.pacing }] := by
  rw [link_of_links_eq (signalInterrupt_links _ _), h, tx_leaveLane]
  rfl

theorem sameLanes_hitCheck (k : Check) (r : GranuleRecord) (s : State) : SameLanes s (hitCheck k r s) :=
  (decideCheck_sameLanes k r s).trans (sameLanes_of_links (hitCheck_links k r s))

/-- The state at the end of the event of a check that hits. -/
def hitEvent (l : LinkId) (k : Check) (r : GranuleRecord) (s : State) : State :=
  signalInterrupt s (hitCheck k r (leaveLane l s))

/-- The state at the end of the event of a check that misses. -/
def missEvent (l : LinkId) (k : Check) (s : State) : State := signalInterrupt s (missCheck k (leaveLane l s))

/-- The verdict on the link of a check, as its frame shows it. -/
def VerdictSent (k : Check) (v : Verdict) (s t : State) : Prop :=
  (t.link k.link).tx = (s.link k.link).tx ++ [.verdict { v with credit := !s.pacing }]

theorem hitEvent_of_grant {rights : Rights} {generation : BitVec 8} (hres : s.resident k.granule = some r)
    (h : decision s k r = .grant rights generation true) :
    WayIs s k.granule (if k.caches s true then r.heldBy k else r)
      (k.caches s true && !r.holders.getLsbD k.link.val) (hitEvent l k r s) ∧
    VerdictSent k ⟨k.tag, .grant, some rights, k.caches s true, generation, true, none⟩ s (hitEvent l k r s) ∧
    (hitEvent l k r s).park = s.park ∧ (hitEvent l k r s).domains = s.domains := by
  obtain ⟨hway, hanswered, hpark, hdomains⟩ := hitCheck_of_grant (s := leaveLane l s) hres h
  exact ⟨hway.leftLane, hanswered.leftLane, (signalInterrupt_park _ _).trans hpark,
    (signalInterrupt_domains _ _).trans hdomains⟩

theorem hitEvent_of_deny {cls : FaultClass} {generation : BitVec 8} (hres : s.resident k.granule = some r)
    (h : decision s k r = .deny cls generation) :
    WayIs s k.granule r false (hitEvent l k r s) ∧ (hitEvent l k r s).park = s.park ∧
    (hitEvent l k r s).domains = (advanceTally k cls s).domains ∧
    VerdictSent k (denialVerdict k cls generation (s.actionFor cls k.domain).poisons) s (hitEvent l k r s) := by
  obtain ⟨hway, hpark, hdomains, hanswered⟩ := hitCheck_of_deny (s := leaveLane l s) hres h
  exact ⟨hway.leftLane, (signalInterrupt_park _ _).trans hpark,
    (signalInterrupt_domains _ _).trans (hdomains.trans (advanceTally_domains rfl)), hanswered.leftLane⟩

theorem hitEvent_of_park (hres : s.resident k.granule = some r) (h : decision s k r = .park) :
    WayIs s k.granule r false (hitEvent l k r s) ∧ (hitEvent l k r s).domains = s.domains ∧
    (s.park.length < 64 → (hitEvent l k r s).park = s.park ++ [k] ∧
      (∀ l', ((hitEvent l k r s).link l').tx = (s.link l').tx ∨
        ((hitEvent l k r s).link l').tx = (returnCredits (s.link l')).tx) ∧
      ((hitEvent l k r s).counter (.ofLink k.link .parks)).value = (s.counter (.ofLink k.link .parks)).value + 1) ∧
    (64 ≤ s.park.length → (hitEvent l k r s).park = s.park ∧
      VerdictSent k ⟨k.tag, .retry, none, false, 0, true, none⟩ s (hitEvent l k r s)) := by
  obtain ⟨hway, hdomains, hroom, hfull⟩ := hitCheck_of_park (s := leaveLane l s) hres h
  refine ⟨hway.leftLane, (signalInterrupt_domains _ _).trans hdomains, fun hlen => ?_, fun hlen => ?_⟩
  · obtain ⟨hpark, hlinks, hparks⟩ := hroom hlen
    refine ⟨(signalInterrupt_park _ _).trans hpark, fun l' => ?_,
      (congrArg Counter.value (counter_of_counters (signalInterrupt_counters _ _))).trans hparks⟩
    rw [hitEvent, link_of_links_eq (signalInterrupt_links _ _), ← tx_leaveLane l l' s, ← tx_returnCredits_leaveLane l l' s]
    exact (hlinks l').imp (congrArg Link.tx) (congrArg Link.tx)
  · obtain ⟨hpark, hanswered⟩ := hfull hlen
    exact ⟨(signalInterrupt_park _ _).trans hpark, hanswered.leftLane⟩

theorem resident_hitEvent_other (h : setOf g ≠ setOf k.granule) (l : LinkId) (r : GranuleRecord) (s : State) :
    (hitEvent l k r s).resident g = s.resident g := by
  rw [hitEvent, resident_of_cache (signalInterrupt_cache _ _), resident_of_cacheSet (cacheSet_hitCheck k r _ g),
    resident_of_cacheSet (cacheSet_decided_other h r _)]
  rfl

/-- The Miss Queue and the Port after a miss on a granule that has an entry. -/
theorem missEvent_of_entry {e : MissEntry} (h : s.missEntry k.granule = some e) :
    (missEvent l k s).port = s.port ∧
    (e.waiters.length < 8 → (missEvent l k s).miss = s.miss.map (fun x =>
      if x.granule = k.granule then { x with waiters := x.waiters ++ [.check k] } else x)) ∧
    (8 ≤ e.waiters.length → (missEvent l k s).miss = s.miss ∧
      VerdictSent k ⟨k.tag, .retry, none, false, 0, true, none⟩ s (missEvent l k s)) := by
  have hentry : (leaveLane l s).missEntry k.granule = some e := h
  rcases Nat.lt_or_ge e.waiters.length 8 with hlen | hlen
  · obtain ⟨hport, hmiss⟩ := missCheck_of_entry hentry hlen
    exact ⟨(signalInterrupt_port _ _).trans hport, fun _ => (signalInterrupt_miss _ _).trans hmiss,
      fun hfull => absurd hlen (Nat.not_lt.mpr hfull)⟩
  · obtain ⟨hmiss, hport, hanswered⟩ := missCheck_refused (takeMiss_of_full_entry
      ((missEntry_of_miss (countEvent_miss (.ofPart .cacheMisses) _) k.granule).trans hentry) hlen)
    exact ⟨(signalInterrupt_port _ _).trans hport, fun hroom => absurd hroom (Nat.not_lt.mpr hlen),
      fun _ => ⟨(signalInterrupt_miss _ _).trans hmiss, hanswered.leftLane⟩⟩

/-- The Miss Queue and the Port after a miss on a granule that has no entry. -/
theorem missEvent_of_none (h : s.missEntry k.granule = none) :
    (s.miss.length < 48 →
      (missEvent l k s).miss = s.miss ++ [{ granule := k.granule, waiters := [.check k], superseding := none }] ∧
      (missEvent l k s).port = s.port ++ [.read k.granule (s.outstandingWrite k.granule)]) ∧
    (48 ≤ s.miss.length → (missEvent l k s).miss = s.miss ∧ (missEvent l k s).port = s.port ∧
      VerdictSent k ⟨k.tag, .retry, none, false, 0, true, none⟩ s (missEvent l k s)) := by
  have hentry : (leaveLane l s).missEntry k.granule = none := h
  refine ⟨fun hroom => ?_, fun hfull => ?_⟩
  · obtain ⟨hmiss, hport⟩ := missCheck_of_room hentry hroom
    exact ⟨(signalInterrupt_miss _ _).trans hmiss, (signalInterrupt_port _ _).trans hport⟩
  · have hcounted := countEvent_miss (.ofPart .cacheMisses) (leaveLane l s)
    obtain ⟨hmiss, hport, hanswered⟩ := missCheck_refused (takeMiss_of_full
      ((missEntry_of_miss hcounted k.granule).trans hentry) (hcounted ▸ hfull))
    exact ⟨(signalInterrupt_miss _ _).trans hmiss, (signalInterrupt_port _ _).trans hport, hanswered.leftLane⟩

end

end Sys2Proof.Machine

namespace Sys2Proof.Proofs

open Sys2Proof.Machine

/-- A check that hits: its decision against the resident copy, the use of the way, and the count. -/
theorem portEvent_hit (s : State) (l : LinkId) (k : Check) (r : GranuleRecord) (hgrant : s.nextGrant = some (.lane l k))
    (hnone : decideWithoutRecord s k = none) (hres : s.resident k.granule = some r) :
    ∃ t, exec .checkPortEvent s = .next t ∧ LaneServed l s t ∧ TablesKept s t ∧ t.miss = s.miss ∧ t.port = s.port ∧
      (t.counter (.ofPart .cacheHits)).value = (s.counter (.ofPart .cacheHits)).value + 1 ∧
      t = hitEvent l k r s := by
  have hhit := lookUpCheck_of_hit (s := leaveLane l s) (k := k) (r := r) hres
  have hserved := laneServed_lookUpCheck k l s (hhit ▸ sameLanes_hitCheck k r (leaveLane l s))
  obtain ⟨hctxs, hgroups, hstore⟩ := hitCheck_tablesKept k r (leaveLane l s)
  rw [hhit] at hserved
  refine ⟨_, by rw [exec_checkPortEvent_of_lookUp hgrant hnone, hhit], hserved, ⟨?_, ?_, ?_⟩, ?_, ?_, ?_, rfl⟩
  · rw [signalInterrupt_ctxs, hctxs]
    rfl
  · rw [signalInterrupt_groups, hgroups]
    rfl
  · rw [signalInterrupt_store, hstore]
    rfl
  · rw [signalInterrupt_miss, hitCheck_miss]
    rfl
  · rw [signalInterrupt_port, hitCheck_port]
    rfl
  · rw [counter_of_counters (signalInterrupt_counters _ _), counter_hitCheck_hits]
    rfl

/-- A check that misses: the Miss Queue takes it or it is answered RETRY, and the miss is counted. -/
theorem portEvent_miss (s : State) (l : LinkId) (k : Check) (hgrant : s.nextGrant = some (.lane l k))
    (hnone : decideWithoutRecord s k = none) (hres : s.resident k.granule = none) :
    ∃ t, exec .checkPortEvent s = .next t ∧ LaneServed l s t ∧ TablesKept s t ∧ t.park = s.park ∧ t.cache = s.cache ∧
      t.domains = s.domains ∧
      (t.counter (.ofPart .cacheMisses)).value = (s.counter (.ofPart .cacheMisses)).value + 1 ∧
      t = missEvent l k s := by
  have hmiss := lookUpCheck_of_miss (s := leaveLane l s) (k := k) hres
  obtain ⟨hmisses, hlanes, hcounted⟩ := missCheck_missed k (leaveLane l s)
  have hserved := laneServed_lookUpCheck k l s (hmiss ▸ hlanes)
  rw [hmiss] at hserved
  refine ⟨_, by rw [exec_checkPortEvent_of_lookUp hgrant hnone, hmiss], hserved, ?_, ?_, ?_, ?_, ?_, rfl⟩
  all_goals unfold Misses at hmisses
  · refine ⟨?_, ?_, ?_⟩
    · rw [signalInterrupt_ctxs, hmisses]
      rfl
    · rw [signalInterrupt_groups, hmisses]
      rfl
    · rw [signalInterrupt_store, hmisses]
      rfl
  · rw [signalInterrupt_park, hmisses]
    rfl
  · rw [signalInterrupt_cache, hmisses]
    rfl
  · rw [signalInterrupt_domains, hmisses]
    rfl
  · rw [counter_of_counters (signalInterrupt_counters _ _), hcounted]
    rfl

/-- Settles O36: a hit is decided against the resident copy and its way is used, and a miss goes to the Miss Queue. -/
theorem portEventOnLookup : Obligations.PortEventOnLookup := by
  unfold Obligations.PortEventOnLookup
  refine ⟨fun s l k r hgrant hnone hres => ?_, fun s l k hgrant hnone hres => ?_⟩
  · obtain ⟨t, hexec, ⟨hlane, hportPtr, henginePtr, hportSide⟩, ⟨hctxs, hgroups, hstore⟩, hmiss, hport, hhits, rfl⟩ :=
      portEvent_hit s l k r hgrant hnone hres
    refine ⟨_, hexec, hlane, hportPtr, hmiss, hport, hctxs, hgroups, hstore, henginePtr, hportSide, hhits,
      fun rights generation h => ?_, fun cls generation h => ?_, fun h => ?_,
      fun g hg => resident_hitEvent_other hg l r s⟩
    · obtain ⟨hway, hanswered, hpark, hdomains⟩ := hitEvent_of_grant (l := l) hres h
      exact ⟨⟨hway.resident, hway.way⟩, hanswered, hpark, hdomains⟩
    · obtain ⟨hway, hpark, hdomains, hanswered⟩ := hitEvent_of_deny (l := l) hres h
      exact ⟨⟨hway.resident, hway.way⟩, hpark, hdomains, hanswered⟩
    · obtain ⟨hway, hdomains, hroom, hfull⟩ := hitEvent_of_park (l := l) hres h
      exact ⟨⟨hway.resident, hway.way⟩, hdomains, hroom, hfull⟩
  · obtain ⟨t, hexec, ⟨hlane, hportPtr, henginePtr, hportSide⟩, ⟨hctxs, hgroups, hstore⟩, hpark, hcache, hdomains,
      hmisses, rfl⟩ := portEvent_miss s l k hgrant hnone hres
    refine ⟨_, hexec, hlane, hportPtr, hpark, hcache, hctxs, hdomains, hgroups, hstore, henginePtr, hportSide, hmisses,
      fun e he => ?_, fun he => ?_⟩
    · obtain ⟨hport, hroom, hfull⟩ := missEvent_of_entry (l := l) he
      exact ⟨hport, hroom, fun hlen => ⟨(hfull hlen).1, _, (hfull hlen).2, rfl, rfl⟩⟩
    · obtain ⟨hroom, hfull⟩ := missEvent_of_none (l := l) he
      refine ⟨hroom, fun hlen => ?_⟩
      obtain ⟨hmiss, hport, hanswered⟩ := hfull hlen
      exact ⟨hmiss, hport, _, hanswered, rfl, rfl⟩

end Sys2Proof.Proofs

/-! Pacing and the watermarks as the occupancies drive them; the statement PacingThresholds. -/

namespace Sys2Proof.Machine

section
variable {s : State} {g : Nat}

/-! ## The pacing control (R150, R151) -/

theorem testPacing_of_start (hp : s.pacing = false)
    (h : (decide (44 ≤ s.miss.length) || decide (60 ≤ s.park.length)) = true) :
    testPacing s = { s with pacing := true } := if_pos (by rw [hp, h]; rfl)

theorem testPacing_of_idle (hp : s.pacing = false)
    (h : (decide (44 ≤ s.miss.length) || decide (60 ≤ s.park.length)) = false) : testPacing s = s := by
  rw [testPacing, h, hp]
  rfl

theorem testPacing_of_end (hp : s.pacing = true)
    (h : (decide (s.miss.length ≤ 24) && decide (s.park.length ≤ 32)) = true) : testPacing s = endPacing s := by
  rw [testPacing, Bool.and_assoc, h, hp]
  rfl

theorem testPacing_of_hold (hp : s.pacing = true)
    (h : (decide (s.miss.length ≤ 24) && decide (s.park.length ≤ 32)) = false) : testPacing s = s := by
  rw [testPacing, Bool.and_assoc, h, hp]
  rfl

theorem pacing_testPacing_of_off (hp : s.pacing = false) :
    (testPacing s).pacing = (decide (44 ≤ s.miss.length) || decide (60 ≤ s.park.length)) := by
  rcases Bool.eq_false_or_eq_true (decide (44 ≤ s.miss.length) || decide (60 ≤ s.park.length)) with h | h
  · rw [testPacing_of_start hp h, h]
  · rw [testPacing_of_idle hp h, h, hp]

theorem pacing_testPacing_of_on (hp : s.pacing = true) :
    (testPacing s).pacing = !(decide (s.miss.length ≤ 24) && decide (s.park.length ≤ 32)) := by
  rcases Bool.eq_false_or_eq_true (decide (s.miss.length ≤ 24) && decide (s.park.length ≤ 32)) with h | h
  · rw [testPacing_of_end hp h, h, endPacing_pacing]
    rfl
  · rw [testPacing_of_hold hp h, h, hp]
    rfl

theorem link_testPacing_of_end (hp : s.pacing = true) (hend : (testPacing s).pacing = false) (l : LinkId) :
    (testPacing s).link l = returnCredits (s.link l) := by
  rw [pacing_testPacing_of_on hp, Bool.not_eq_false'] at hend
  rw [testPacing_of_end hp hend, link_endPacing]

theorem returnCredits_of_withheld {x : Link} (hup : x.state = .up) (h : 0 < x.withheld) : returnCredits x =
    { x with
      tx := x.tx.filter (fun f => !f.isCredit) ++ [.credit (queuedCredit x.tx + x.withheld)], withheld := 0 } :=
  if_pos ⟨hup, h⟩

theorem returnCredits_of_none {x : Link} (h : x.withheld = 0) : returnCredits x = x :=
  if_neg fun hx => Nat.ne_of_gt hx.2 h

theorem link_testPacing_same {l : LinkId} (h : s.pacing = false ∨ (testPacing s).pacing = true ∨
    (s.link l).state ≠ .up ∨ (s.link l).withheld = 0) : (testPacing s).link l = s.link l := by
  rcases Bool.eq_false_or_eq_true s.pacing with hp | hp
  · rcases Bool.eq_false_or_eq_true (testPacing s).pacing with hstay | hend
    · rw [pacing_testPacing_of_on hp, Bool.not_eq_true'] at hstay
      rw [testPacing_of_hold hp hstay]
    · rw [link_testPacing_of_end hp hend]
      rcases h with h | h | h | h
      · exact absurd (hp.symm.trans h) (by decide)
      · exact absurd (hend.symm.trans h) (by decide)
      · exact returnCredits_of_not_up h
      · exact returnCredits_of_none h
  · rcases Bool.eq_false_or_eq_true (decide (44 ≤ s.miss.length) || decide (60 ≤ s.park.length)) with ht | ht
    · rw [testPacing_of_start hp ht]
      rfl
    · rw [testPacing_of_idle hp ht]

/-! ## The credits queued (R151) -/

theorem queuedCredit_cons_other {f : TxFrame} (h : f.isCredit = false) (rest : List TxFrame) :
    queuedCredit (f :: rest) = queuedCredit rest := by
  match f, h with
  | .credit _, h => exact Bool.noConfusion (h : true = false)
  | .verdict _, _ | .recall _ _ _ _, _ | .wipe _ _ _ _, _ | .rejoin _, _ | .idle, _ => rfl

theorem queuedCredit_append_other {before : List TxFrame} (h : ∀ f ∈ before, f.isCredit = false) (rest : List TxFrame) :
    queuedCredit (before ++ rest) = queuedCredit rest := by
  induction before with
  | nil => rfl
  | cons f before ih =>
    rw [List.cons_append, queuedCredit_cons_other (h f List.mem_cons_self),
      ih fun f' hf' => h f' (List.mem_cons_of_mem f hf')]

theorem queuedCredit_eq_zero {tx : List TxFrame} (h : ∀ f ∈ tx, f.isCredit = false) : queuedCredit tx = 0 := by
  have := queuedCredit_append_other h []
  rwa [List.append_nil] at this

/-! ## The watermarks (R162) -/

/-- A watermark as a new occupancy leaves it: CURRENT takes it, PEAK the higher of the two. -/
def Watermark.followed (mode : WatermarkMode) (occupancy : Nat) (x : Watermark) : Watermark :=
  { x with indicator := if mode = .current ∨ x.indicator ≤ occupancy then occupancy else x.indicator }

theorem followOccupancy_eq (mode : WatermarkMode) (occupancy : Nat) (x : Watermark) :
    followOccupancy mode occupancy x = x.followed mode occupancy := by
  cases mode with
  | current => rfl
  | peak =>
    simp only [followOccupancy, Watermark.followed, reduceCtorEq, false_or]
    rcases Nat.lt_trichotomy x.indicator occupancy with h | h | h
    · rw [if_pos h, if_pos (Nat.le_of_lt h)]
    · rw [if_neg (Nat.not_lt.mpr (Nat.le_of_eq h.symm)), if_pos (Nat.le_of_eq h), ← h]
    · rw [if_neg (Nat.not_lt.mpr (Nat.le_of_lt h)), if_neg (Nat.not_le.mpr h)]

end

end Sys2Proof.Machine

namespace Sys2Proof.Proofs

open Sys2Proof.Machine

/-- Settles O38: the thresholds start and end pacing, its end returns the withheld credits, and every change of an
occupancy is presented. -/
theorem pacingThresholds : Obligations.PacingThresholds := by
  unfold Obligations.PacingThresholds
  refine fun s => ⟨pacing_testPacing_of_off, pacing_testPacing_of_on, ?_, fun l hp hend hup hwithheld => ?_,
    fun tx before rest n hother => ⟨?_, ?_⟩, fun l => link_testPacing_same, fun before => ⟨?_, fun h => ?_⟩,
    fun g w => takeMiss_of_room, fun g => rfl, fun l => rfl⟩
  · have hframe := testPacing_frame s
    generalize testPacing s = t at hframe ⊢
    rw [hframe]
  · rw [link_testPacing_of_end hp hend, returnCredits_of_withheld hup hwithheld]
    exact ⟨rfl, rfl⟩
  · rintro rfl
    exact queuedCredit_eq_zero hother
  · rintro rfl
    rw [queuedCredit_append_other fun f hf => hother f (List.mem_append_left rest hf), queuedCredit,
      queuedCredit_eq_zero fun f hf => hother f (List.mem_append_right before hf), Nat.add_zero]
  · exact fun hm hp => presentOccupancy_of_same ⟨hm, hp⟩
  · rw [presentOccupancy_of_changed (Classical.not_and_iff_not_or_not.mpr h), followMarks, followOccupancy_eq, followOccupancy_eq]
    rfl

end Sys2Proof.Proofs

/-! The record image (Table 11.9); the statement RecordImage. -/

namespace Sys2Proof.Machine

section
variable {r : GranuleRecord} {c : Stable} {image : BitVec 64}

/-! ## The fields of an image -/

/-- The fields of a record image. -/
def GranuleRecord.fields (r : GranuleRecord) : List (Nat × Nat × Nat) :=
  [(r.state.codes.1, 0, 3), (r.state.codes.2.1, 3, 3), (r.state.codes.2.2, 6, 4), (r.content.ownerField, 10, 10),
    (r.content.groupField, 20, 8), (r.content.rightsField, 28, 3), (r.generation.toNat, 32, 8), (r.holders.toNat, 40, 6)]

theorem encodeImage_eq (r : GranuleRecord) : encodeImage r = BitVec.ofNat 64 (packFields r.fields) := rfl

theorem imageFields_apart (r : GranuleRecord) : fieldsApart r.fields = true := rfl

/-- A field of an image read back. -/
theorem image_field {v lo width : Nat} (hmem : (v, lo, width) ∈ r.fields) (hn : lo + width ≤ 64) :
    (encodeImage r).extractLsb' lo width = BitVec.ofNat width v :=
  extract_packFields hmem (imageFields_apart r) hn

theorem image_bitField {v lo width : Nat} (hmem : (v, lo, width) ∈ r.fields) (hv : v < 2 ^ width) (hn : lo + width ≤ 64) :
    bitField (encodeImage r).toNat lo width = v := by
  rw [bitField_toNat, image_field hmem hn, BitVec.toNat_ofNat, Nat.mod_eq_of_lt hv]

theorem image_unused {lo width : Nat} (h : placeFree lo width r.fields = true) :
    (encodeImage r).extractLsb' lo width = 0#width := extract_packFields_free (imageFields_apart r) h

theorem code_lt (c : Stable) : c.code < 8 := by cases c <;> simp [Stable.code]

theorem stateCode_lt (r : GranuleRecord) : r.state.codes.1 < 8 := by
  cases h : r.state with
  | stable c => exact code_lt c
  | moving ctx c => exact show 4 < 8 by decide
  | wiping ctx c => exact show 5 < 8 by decide

theorem priorCode_lt (r : GranuleRecord) : r.state.codes.2.1 < 8 := by
  cases h : r.state with
  | stable c => exact show 0 < 8 by decide
  | moving ctx c => exact code_lt c
  | wiping ctx c => exact code_lt c

theorem ctxCode_lt (r : GranuleRecord) : r.state.codes.2.2 < 16 := by
  cases h : r.state with
  | stable c => exact show 0 < 16 by decide
  | moving ctx c => exact ctx.isLt
  | wiping ctx c => exact ctx.isLt

theorem rightsField_lt (c : Stable) : c.rightsField < 8 := by
  cases c with
  | held o rights => exact rights.isLt
  | shared o g rights => exact rights.isLt
  | vacant => exact show 0 < 8 by decide
  | wiped => exact show 0 < 8 by decide
  | fenced => exact show 0 < 8 by decide

theorem image_state (r : GranuleRecord) : bitField (encodeImage r).toNat 0 3 = r.state.codes.1 :=
  image_bitField (by simp [GranuleRecord.fields]) (stateCode_lt r) (by decide)

theorem image_prior (r : GranuleRecord) : bitField (encodeImage r).toNat 3 3 = r.state.codes.2.1 :=
  image_bitField (by simp [GranuleRecord.fields]) (priorCode_lt r) (by decide)

theorem image_ctx (r : GranuleRecord) : bitField (encodeImage r).toNat 6 4 = r.state.codes.2.2 :=
  image_bitField (by simp [GranuleRecord.fields]) (ctxCode_lt r) (by decide)

theorem image_owner (h : r.content.ownerField < 1024) : bitField (encodeImage r).toNat 10 10 = r.content.ownerField :=
  image_bitField (by simp [GranuleRecord.fields]) h (by decide)

theorem image_group (h : r.content.groupField < 256) : bitField (encodeImage r).toNat 20 8 = r.content.groupField :=
  image_bitField (by simp [GranuleRecord.fields]) h (by decide)

theorem image_rights (r : GranuleRecord) : bitField (encodeImage r).toNat 28 3 = r.content.rightsField :=
  image_bitField (by simp [GranuleRecord.fields]) (rightsField_lt _) (by decide)

theorem image_generation (r : GranuleRecord) : bitField (encodeImage r).toNat 32 8 = r.generation.toNat :=
  image_bitField (by simp [GranuleRecord.fields]) r.generation.isLt (by decide)

theorem image_holders (r : GranuleRecord) : bitField (encodeImage r).toNat 40 6 = r.holders.toNat :=
  image_bitField (by simp [GranuleRecord.fields]) r.holders.isLt (by decide)

/-! ## Valid images (R171) -/

theorem bitField_eq_iff {n : Nat} (x : BitVec n) (lo : Nat) {width : Nat} (v : Nat) (hv : v < 2 ^ width) :
    bitField x.toNat lo width = v ↔ x.extractLsb' lo width = BitVec.ofNat width v := by
  rw [bitField_toNat, ← BitVec.toNat_inj, BitVec.toNat_ofNat, Nat.mod_eq_of_lt hv]

theorem bitField_zero_iff {n : Nat} (x : BitVec n) (lo width : Nat) :
    bitField x.toNat lo width = 0 ↔ ∀ i, lo ≤ i → i < lo + width → x.getLsbD i = false := by
  rw [bitField_eq_iff x lo 0 (Nat.two_pow_pos width)]
  constructor
  · intro h i hlo hi
    have hbit := congrArg (fun y => y.getLsbD (i - lo)) h
    simp only [BitVec.getLsbD_extractLsb', BitVec.getLsbD_zero, Nat.add_sub_cancel' hlo,
      show i - lo < width by omega, decide_true, Bool.true_and] at hbit
    exact hbit
  · intro h
    apply BitVec.eq_of_getLsbD_eq
    intro i hi
    rw [BitVec.getLsbD_extractLsb', h (lo + i) (Nat.le_add_right lo i) (Nat.add_lt_add_left hi lo)]
    simp

/-- The codes that an image's states use. -/
def codesValid (state prior : Nat) : Bool :=
  state != 7 && !((state == 4 || state == 5) && (prior == 4 || prior == 5 || prior == 7))

theorem imageValid_eq (image : BitVec 64) : imageValid image =
    (codesValid (bitField image.toNat 0 3) (bitField image.toNat 3 3) && bitField image.toNat 31 1 == 0 &&
      bitField image.toNat 46 18 == 0) := rfl

theorem codesValid_of_record (r : GranuleRecord) : codesValid r.state.codes.1 r.state.codes.2.1 = true := by
  cases h : r.state with
  | stable c => cases c <;> rfl
  | moving ctx c => cases c <;> rfl
  | wiping ctx c => cases c <;> rfl

theorem imageValid_encodeImage (r : GranuleRecord) : imageValid (encodeImage r) = true := by
  have h31 : bitField (encodeImage r).toNat 31 1 = 0 := (bitField_eq_iff _ 31 0 (by decide)).mpr (image_unused rfl)
  have h46 : bitField (encodeImage r).toNat 46 18 = 0 := (bitField_eq_iff _ 46 0 (by decide)).mpr (image_unused rfl)
  rw [imageValid_eq, image_state, image_prior, codesValid_of_record, h31, h46]
  rfl

theorem codesValid_false_iff (state prior : Nat) : codesValid state prior = false ↔
    state = 7 ∨ ((state = 4 ∨ state = 5) ∧ (prior = 4 ∨ prior = 5 ∨ prior = 7)) := by
  simp only [codesValid, Bool.and_eq_false_iff, bne_eq_false_iff_eq, Bool.not_eq_false', Bool.and_eq_true,
    Bool.or_eq_true, beq_iff_eq, or_assoc]

theorem imageValid_false_iff (image : BitVec 64) : imageValid image = false ↔
    codesValid (bitField image.toNat 0 3) (bitField image.toNat 3 3) = false ∨ image.getLsbD 31 = true ∨
    ∃ i, 46 ≤ i ∧ i < 64 ∧ image.getLsbD i = true := by
  have h31 : bitField image.toNat 31 1 = 0 ↔ image.getLsbD 31 = false := by
    rw [bitField_zero_iff]
    refine ⟨fun h => h 31 (Nat.le_refl _) (by decide), fun h i hlo hi => ?_⟩
    obtain rfl : i = 31 := by omega
    exact h
  have h46 : ¬bitField image.toNat 46 18 = 0 ↔ ∃ i, 46 ≤ i ∧ i < 64 ∧ image.getLsbD i = true := by
    rw [bitField_zero_iff]
    simp only [Classical.not_forall, Bool.not_eq_false, exists_prop]
  rw [imageValid_eq, Bool.and_eq_false_iff, Bool.and_eq_false_iff, beq_eq_false_iff_ne, beq_eq_false_iff_ne, ne_eq, ne_eq,
    h31, h46, Bool.not_eq_false, or_assoc]

/-! ## An image read back -/

theorem decodeStable_code (c : Stable) : decodeStable c.code c.ownerField c.groupField c.rightsField = some c := by
  cases c with
  | held o rights => exact congrArg (fun x => some (Stable.held o x)) (BitVec.ofNat_toNat 3 rights |>.trans (BitVec.setWidth_eq _))
  | shared o g rights => exact congrArg (fun x => some (Stable.shared o g x)) (BitVec.ofNat_toNat 3 rights |>.trans (BitVec.setWidth_eq _))
  | vacant => rfl
  | wiped => rfl
  | fenced => rfl

theorem content_of_stable (h : r.state = .stable c) : r.content = c := by
  rw [GranuleRecord.content, h]

theorem content_of_moving {ctx : CtxId} (h : r.state = .moving ctx c) : r.content = c := by
  rw [GranuleRecord.content, h]

theorem content_of_wiping {ctx : CtxId} (h : r.state = .wiping ctx c) : r.content = c := by
  rw [GranuleRecord.content, h]

/-- The stable content that the codes of an image give. -/
def decodeContent (image : BitVec 64) (code : Nat) : Option Stable :=
  decodeStable code (bitField image.toNat 10 10) (bitField image.toNat 20 8) (bitField image.toNat 28 3)

/-- A record with the generation and the holders of an image. -/
def decodeRecord (image : BitVec 64) (x : RecordState) : GranuleRecord :=
  { state := x, generation := BitVec.ofNat 8 (bitField image.toNat 32 8)
    holders := BitVec.ofNat 6 (bitField image.toNat 40 6) }

theorem decodeImage_of_moving (hv : imageValid image = true) (h : bitField image.toNat 0 3 = 4) : decodeImage image =
    ((decodeContent image (bitField image.toNat 3 3)).map
      (RecordState.moving (Fin.ofNat 16 (bitField image.toNat 6 4)))).map (decodeRecord image) := by
  simp only [decodeImage, hv, h]
  rfl

theorem decodeImage_of_wiping (hv : imageValid image = true) (h : bitField image.toNat 0 3 = 5) : decodeImage image =
    ((decodeContent image (bitField image.toNat 3 3)).map
      (RecordState.wiping (Fin.ofNat 16 (bitField image.toNat 6 4)))).map (decodeRecord image) := by
  simp only [decodeImage, hv, h]
  rfl

theorem decodeImage_of_stable (hv : imageValid image = true) (h : bitField image.toNat 0 3 = c.code) : decodeImage image =
    ((decodeContent image c.code).map RecordState.stable).map (decodeRecord image) := by
  simp only [decodeImage, hv, h]
  cases c <;> rfl

theorem decodeContent_encodeImage (ho : r.content.ownerField < 1024) (hg : r.content.groupField < 256) :
    decodeContent (encodeImage r) r.content.code = some r.content := by
  rw [decodeContent, image_owner ho, image_group hg, image_rights, decodeStable_code]

theorem decodeRecord_encodeImage (r : GranuleRecord) : decodeRecord (encodeImage r) r.state = r := by
  have hgeneration : BitVec.ofNat 8 r.generation.toNat = r.generation := BitVec.eq_of_toNat_eq (by simp)
  have hholders : BitVec.ofNat 6 r.holders.toNat = r.holders := BitVec.eq_of_toNat_eq (by simp)
  rw [decodeRecord, image_generation, image_holders, hgeneration, hholders]

/-- A record is read back from its image. -/
theorem decodeImage_encodeImage (ho : r.content.ownerField < 1024) (hg : r.content.groupField < 256) :
    decodeImage (encodeImage r) = some r := by
  have hv := imageValid_encodeImage r
  have hstate := image_state r
  have hprior := image_prior r
  have hctx := image_ctx r
  have hcontent := decodeContent_encodeImage ho hg
  have hrecord := decodeRecord_encodeImage r
  cases h : r.state with
  | stable c =>
    rw [h] at hstate hrecord
    rw [content_of_stable h] at hcontent
    rw [decodeImage_of_stable hv hstate, hcontent, Option.map_some, Option.map_some, hrecord]
  | moving ctx c =>
    rw [h] at hstate hprior hctx hrecord
    rw [content_of_moving h] at hcontent
    rw [decodeImage_of_moving hv hstate, hprior, hctx]
    have hof : Fin.ofNat 16 ctx.val = ctx := Fin.ext (Nat.mod_eq_of_lt ctx.isLt)
    simp only [RecordState.codes, hof, hcontent, Option.map_some, hrecord]
  | wiping ctx c =>
    rw [h] at hstate hprior hctx hrecord
    rw [content_of_wiping h] at hcontent
    rw [decodeImage_of_wiping hv hstate, hprior, hctx]
    have hof : Fin.ofNat 16 ctx.val = ctx := Fin.ext (Nat.mod_eq_of_lt ctx.isLt)
    simp only [RecordState.codes, hof, hcontent, Option.map_some, hrecord]

/-! ## The bits of an image (Table 11.9) -/

/-- A content with no owner, group and rights leaves their bits 0. -/
theorem image_bare (ho : r.content.ownerField = 0) (hg : r.content.groupField = 0) (hr : r.content.rightsField = 0) :
    (encodeImage r).extractLsb' 10 21 = 0 := by
  let bare : List (Nat × Nat × Nat) := [(r.state.codes.1, 0, 3), (r.state.codes.2.1, 3, 3), (r.state.codes.2.2, 6, 4),
    (r.generation.toNat, 32, 8), (r.holders.toNat, 40, 6)]
  have hbare : encodeImage r = BitVec.ofNat 64 (packFields bare) := by
    rw [encodeImage_eq, GranuleRecord.fields, ho, hg, hr]
    simp only [bare, packFields, Nat.zero_mod, Nat.zero_mul, Nat.zero_add]
  rw [hbare]
  exact extract_packFields_free (fields := bare) rfl rfl

theorem image_owner_bits (h : r.content.ownerField < 1024) :
    ((encodeImage r).extractLsb' 10 10).toNat = r.content.ownerField := by
  rw [← bitField_toNat, image_owner h]

theorem image_group_bits (h : r.content.groupField < 256) :
    ((encodeImage r).extractLsb' 20 8).toNat = r.content.groupField := by
  rw [← bitField_toNat, image_group h]

theorem image_rights_bits {rights : Rights} (h : r.content.rightsField = rights.toNat) :
    (encodeImage r).extractLsb' 28 3 = rights := by
  apply BitVec.eq_of_toNat_eq
  rw [← bitField_toNat, image_rights, h]

theorem image_group_zero (h : r.content.groupField = 0) : (encodeImage r).extractLsb' 20 8 = 0 := by
  apply BitVec.eq_of_toNat_eq
  rw [← bitField_toNat, image_group (by omega), h]
  rfl

theorem image_state_bits (r : GranuleRecord) : (encodeImage r).extractLsb' 0 3 = BitVec.ofNat 3 r.state.codes.1 :=
  image_field (by simp [GranuleRecord.fields]) (by decide)

theorem image_prior_bits (r : GranuleRecord) : (encodeImage r).extractLsb' 3 3 = BitVec.ofNat 3 r.state.codes.2.1 :=
  image_field (by simp [GranuleRecord.fields]) (by decide)

/-- The bits of a stable content: its code where it begins, and its owner, group and rights. -/
def ContentBits (x : BitVec 64) (first : Nat) (c : Stable) : Prop :=
  (c = .vacant → x.extractLsb' first 3 = 0 ∧ x.extractLsb' 10 21 = 0) ∧
  (c = .wiped → x.extractLsb' first 3 = 1 ∧ x.extractLsb' 10 21 = 0) ∧
  (∀ owner rights, c = .held owner rights → x.extractLsb' first 3 = 2 ∧
    (x.extractLsb' 10 10).toNat = owner ∧ x.extractLsb' 20 8 = 0 ∧ x.extractLsb' 28 3 = rights) ∧
  (∀ owner group rights, c = .shared owner group rights → x.extractLsb' first 3 = 3 ∧
    (x.extractLsb' 10 10).toNat = owner ∧ (x.extractLsb' 20 8).toNat = group ∧ x.extractLsb' 28 3 = rights) ∧
  (c = .fenced → x.extractLsb' first 3 = 6 ∧ x.extractLsb' 10 21 = 0)

theorem image_contentBits {first : Nat} (hc : r.content = c) (ho : r.content.ownerField < 1024)
    (hg : r.content.groupField < 256) (hcode : (encodeImage r).extractLsb' first 3 = BitVec.ofNat 3 c.code) :
    ContentBits (encodeImage r) first c := by
  refine ⟨?_, ?_, ?_, ?_, ?_⟩
  · rintro rfl
    exact ⟨hcode, image_bare (by rw [hc]; rfl) (by rw [hc]; rfl) (by rw [hc]; rfl)⟩
  · rintro rfl
    exact ⟨hcode, image_bare (by rw [hc]; rfl) (by rw [hc]; rfl) (by rw [hc]; rfl)⟩
  · rintro owner rights rfl
    exact ⟨hcode, (image_owner_bits ho).trans (by rw [hc]; rfl), image_group_zero (by rw [hc]; rfl),
      image_rights_bits (by rw [hc]; rfl)⟩
  · rintro owner group rights rfl
    exact ⟨hcode, (image_owner_bits ho).trans (by rw [hc]; rfl), (image_group_bits hg).trans (by rw [hc]; rfl),
      image_rights_bits (by rw [hc]; rfl)⟩
  · rintro rfl
    exact ⟨hcode, image_bare (by rw [hc]; rfl) (by rw [hc]; rfl) (by rw [hc]; rfl)⟩

theorem image_ctx_bits (r : GranuleRecord) : ((encodeImage r).extractLsb' 6 4).toNat = r.state.codes.2.2 := by
  rw [← bitField_toNat, image_ctx]

end

end Sys2Proof.Machine

namespace Sys2Proof.Proofs

open Sys2Proof.Machine

/-- Settles O40: an image holds its record's fields at their bits, and those of its validity. -/
theorem recordImage : Obligations.RecordImage := by
  unfold Obligations.RecordImage
  refine ⟨fun r ho hg => ⟨imageValid_encodeImage r, decodeImage_encodeImage ho hg⟩, fun r ho hg =>
    ⟨fun c h => ⟨?_, ?_, ?_⟩, fun ctx c h => ⟨?_, ?_, ?_⟩, fun ctx c h => ⟨?_, ?_, ?_⟩, image_unused rfl, ?_, ?_,
      image_unused rfl⟩, fun image => ?_⟩
  · exact image_contentBits (content_of_stable h) ho hg (by rw [image_state_bits, h]; rfl)
  · rw [image_prior_bits, h]
    rfl
  · exact BitVec.eq_of_toNat_eq (by rw [image_ctx_bits, h]; rfl)
  · rw [image_state_bits, h]
    rfl
  · exact image_contentBits (content_of_moving h) ho hg (by rw [image_prior_bits, h]; rfl)
  · rw [image_ctx_bits, h]
    rfl
  · rw [image_state_bits, h]
    rfl
  · exact image_contentBits (content_of_wiping h) ho hg (by rw [image_prior_bits, h]; rfl)
  · rw [image_ctx_bits, h]
    rfl
  · exact BitVec.eq_of_toNat_eq (by rw [← bitField_toNat, image_generation])
  · exact BitVec.eq_of_toNat_eq (by rw [← bitField_toNat, image_holders])
  · have hcode : ∀ lo v, v < 8 → (bitField image.toNat lo 3 = v ↔ image.extractLsb' lo 3 = BitVec.ofNat 3 v) :=
      fun lo v hv => bitField_eq_iff image lo v hv
    rw [imageValid_false_iff, codesValid_false_iff, hcode 0 7 (by decide), hcode 0 4 (by decide), hcode 0 5 (by decide),
      hcode 3 4 (by decide), hcode 3 5 (by decide), hcode 3 7 (by decide), or_assoc]
    exact Iff.rfl

end Sys2Proof.Proofs

/-! The completion of writes of the Tag Store; the statement TagStoreWrites. -/

namespace Sys2Proof.Machine

section
variable {s : State} {g g' : Nat} {f : FillWrites}

/-! ## The writes of FILL that are outstanding -/

theorem inRanges_iff {ranges : List (Nat × Nat)} :
    inRanges g ranges = true ↔ ∃ range ∈ ranges, range.1 ≤ g ∧ g < range.2 := by
  simp only [inRanges, List.any_eq_true, Bool.and_eq_true, decide_eq_true_eq]

theorem inRanges_append {a b : List (Nat × Nat)} : inRanges g (a ++ b) = (inRanges g a || inRanges g b) :=
  List.any_append

theorem inRanges_cons {range : Nat × Nat} {ranges : List (Nat × Nat)} :
    inRanges g (range :: ranges) = true ↔ (range.1 ≤ g ∧ g < range.2) ∨ inRanges g ranges = true := by
  rw [inRanges, List.any_cons, Bool.or_eq_true, Bool.and_eq_true, decide_eq_true_eq, decide_eq_true_eq, inRanges]

/-- A range without one granule, as the ranges below and above it. -/
def splitRange (g lo hi : Nat) : List (Nat × Nat) :=
  if lo ≤ g ∧ g < hi then (if lo < g then [(lo, g)] else []) ++ (if g + 1 < hi then [(g + 1, hi)] else []) else [(lo, hi)]

theorem removeGranule_cons (g lo hi : Nat) (rest : List (Nat × Nat)) :
    removeGranule g ((lo, hi) :: rest) = splitRange g lo hi ++ removeGranule g rest := rfl

theorem inRanges_single {lo hi : Nat} : inRanges g [(lo, hi)] = true ↔ lo ≤ g ∧ g < hi := by
  rw [inRanges_cons]
  exact or_iff_left Bool.false_ne_true

theorem inRanges_ite {p : Prop} [Decidable p] {lo hi : Nat} :
    inRanges g (if p then [(lo, hi)] else []) = true ↔ p ∧ lo ≤ g ∧ g < hi := by
  split
  · next h => rw [inRanges_single, and_iff_right h]
  · next h => exact iff_of_false Bool.false_ne_true fun hp => h hp.1

theorem inRanges_splitRange {lo hi : Nat} : inRanges g' (splitRange g lo hi) = true ↔ g' ≠ g ∧ lo ≤ g' ∧ g' < hi := by
  unfold splitRange
  split
  · rw [inRanges_append, Bool.or_eq_true, inRanges_ite, inRanges_ite]
    omega
  · rw [inRanges_single]
    omega

theorem inRanges_removeGranule (g g' : Nat) (ranges : List (Nat × Nat)) :
    inRanges g' (removeGranule g ranges) = true ↔ g' ≠ g ∧ inRanges g' ranges = true := by
  induction ranges with
  | nil => exact iff_of_false Bool.false_ne_true fun h => Bool.false_ne_true h.2
  | cons range rest ih =>
    obtain ⟨lo, hi⟩ := range
    rw [removeGranule_cons, inRanges_append, Bool.or_eq_true, inRanges_splitRange, ih, inRanges_cons, ← and_or_left]

/-! ## A write of FILL (R59) -/

/-- What a context holds when FILL ends. -/
def Work.fillEnded (w : Work) : Work :=
  match w.job with
  | .format size _ rootCount => if w.phase = .fill then w.enterPost .ok none (.counts size (rootCount.getD 0) 0) else w
  | .range _ _ _ _ | .query _ | .closeDomain _ => w

theorem endFill_eq (s : State) : endFill s = presentToContexts Work.fillEnded { s with fill := none } := rfl

theorem Work.fillEnded_of_fill {w : Work} {size : Nat} {base count : Option Nat} (hj : w.job = .format size base count)
    (hp : w.phase = .fill) : w.fillEnded = w.enterPost .ok none (.counts size (count.getD 0) 0) := by
  simp only [Work.fillEnded, hj, if_pos hp]

theorem endFill_frame (s : State) : endFill s = { s with fill := none, ctxs := (endFill s).ctxs } := by
  have h := presentToContexts_frame Work.fillEnded { s with fill := none }
  rw [← endFill_eq] at h
  generalize endFill s = t at h ⊢
  exact h

theorem work_endFill (s : State) (c : CtxId) : (endFill s).work c = (s.work c).map Work.fillEnded :=
  work_presentToContexts _ _ c

theorem work_endFill_of_fill {c : CtxId} {w : Work} {size : Nat} {base count : Option Nat} (hw : s.work c = some w)
    (hj : w.job = .format size base count) (hp : w.phase = .fill) :
    (endFill s).work c = some (w.enterPost .ok none (.counts size (count.getD 0) 0)) := by
  rw [work_endFill, hw, Option.map_some, Work.fillEnded_of_fill hj hp]

theorem Work.fillEnded_of_other {w : Work} (h : ∀ size base count, w.job = .format size base count → w.phase ≠ .fill) :
    w.fillEnded = w := by
  cases hj : w.job with
  | format size base count => simp only [Work.fillEnded, hj, if_neg (h size base count hj)]
  | range _ _ _ _ => simp only [Work.fillEnded, hj]
  | query _ => simp only [Work.fillEnded, hj]
  | closeDomain _ => simp only [Work.fillEnded, hj]

theorem work_endFill_of_other {c : CtxId} (h : ∀ w size base count, s.work c = some w →
    w.job = .format size base count → w.phase ≠ .fill) : (endFill s).work c = s.work c := by
  rw [work_endFill]
  cases hw : s.work c with
  | none => rfl
  | some w => rw [Option.map_some, Work.fillEnded_of_other fun size base count => h w size base count hw]

/-- A granule's record as FILL writes it, stored with its ECC. -/
def storeFill (g : Nat) (f : FillWrites) (s : State) : State :=
  storeImage g (encodeImage (fillRecord f.root g)) (Config.ecc (encodeImage (fillRecord f.root g))) s

theorem storeFill_frame (g : Nat) (f : FillWrites) (s : State) :
    storeFill g f s = { s with store := (storeFill g f s).store } := by
  unfold storeFill
  generalize encodeImage (fillRecord f.root g) = image
  rfl

theorem storeFill_ctxs (g : Nat) (f : FillWrites) (s : State) : (storeFill g f s).ctxs = s.ctxs := by
  rw [storeFill_frame]

theorem completeFillWrite_of_last (h : removeGranule g f.outstanding = []) :
    completeFillWrite g f s = endFill (storeFill g f s) := by
  simp only [completeFillWrite, h]
  rfl

theorem completeFillWrite_of_more (h : removeGranule g f.outstanding ≠ []) : completeFillWrite g f s =
    { storeFill g f s with fill := some { f with outstanding := removeGranule g f.outstanding } } := by
  simp only [completeFillWrite, List.isEmpty_eq_false_iff.mpr h]
  rfl

theorem fillRecord_of_root {b n : Nat} {root : Option (Nat × Nat)} (hr : root = some (b, n)) (hb : b ≤ g) (hn : g < b + n) :
    fillRecord root g = { state := .stable (.held 0 7), generation := 0, holders := 0 } := by
  simp only [fillRecord, hr, hb, hn, decide_true, Bool.and_self, if_true]

theorem fillRecord_of_vacant {root : Option (Nat × Nat)} (h : ∀ b n, root = some (b, n) → ¬(b ≤ g ∧ g < b + n)) :
    fillRecord root g = { state := .stable .vacant, generation := 0, holders := 0 } := by
  cases hr : root with
  | none => rfl
  | some range =>
    obtain ⟨b, n⟩ := range
    have hout : (decide (b ≤ g) && decide (g < b + n)) = false := by
      rw [← Bool.decide_and, decide_eq_false (h b n hr)]
    simp only [fillRecord, hout]
    rfl

theorem decodeImage_fillRecord (root : Option (Nat × Nat)) (g : Nat) :
    decodeImage (encodeImage (fillRecord root g)) = some (fillRecord root g) := by
  by_cases h : ∃ b n, root = some (b, n) ∧ b ≤ g ∧ g < b + n
  · obtain ⟨b, n, hr, hb, hn⟩ := h
    rw [fillRecord_of_root hr hb hn]
    exact decodeImage_encodeImage (Nat.zero_lt_succ _) (Nat.zero_lt_succ _)
  · rw [fillRecord_of_vacant fun b n hr hin => h ⟨b, n, hr, hin⟩]
    exact decodeImage_encodeImage (Nat.zero_lt_succ _) (Nat.zero_lt_succ _)

theorem completeFillWrite_store (g : Nat) (f : FillWrites) (s : State) :
    (completeFillWrite g f s).store = (storeFill g f s).store := by
  by_cases h : removeGranule g f.outstanding = []
  · rw [completeFillWrite_of_last h, endFill_frame]
  · rw [completeFillWrite_of_more h]

theorem completeFillWrite_frame (g : Nat) (f : FillWrites) (s : State) : completeFillWrite g f s =
    { s with store := (completeFillWrite g f s).store, fill := (completeFillWrite g f s).fill
             ctxs := (completeFillWrite g f s).ctxs } := by
  by_cases h : removeGranule g f.outstanding = []
  · rw [completeFillWrite_of_last h]
    have hframe := endFill_frame (storeFill g f s)
    have hstore := storeFill_frame g f s
    generalize storeFill g f s = v at hframe hstore ⊢
    generalize endFill v = t at hframe ⊢
    rw [hframe, hstore]
  · rw [completeFillWrite_of_more h]
    have hstore := storeFill_frame g f s
    generalize storeFill g f s = v at hstore ⊢
    rw [hstore]

theorem stored_of_store {t : State} (h : t.store = s.store) (g : Nat) : t.stored g = s.stored g := by
  rw [State.stored, h, State.stored]

theorem storedEcc_of_store {t : State} (h : t.store = s.store) (g : Nat) : t.storedEcc g = s.storedEcc g := by
  rw [State.storedEcc, h, State.storedEcc]

/-! ## TAG_STORE_WRITE_COMPLETE -/

/-- What TAG_STORE_WRITE_COMPLETE completes: a write of FILL where it has one for the granule, else a request's. -/
def completeEither (g : Nat) (s : State) : State :=
  match s.fill with
  | some f => if inRanges g f.outstanding then completeFillWrite g f s else completeWrite g s
  | none => completeWrite g s

theorem exec_writeComplete (g : Nat) (s : State) :
    exec (.tagStoreWriteComplete g) s = .next (signalInterrupt s (completeEither g s)) := rfl

theorem completeEither_of_fill (hf : s.fill = some f) (h : inRanges g f.outstanding = true) :
    completeEither g s = completeFillWrite g f s := by
  simp only [completeEither, hf, h, if_true]

theorem completeEither_of_none (hf : ∀ f, s.fill = some f → inRanges g f.outstanding = false) :
    completeEither g s = completeWrite g s := by
  unfold completeEither
  split
  · next f hfill => rw [hf f hfill, if_neg Bool.false_ne_true]
  · rfl

theorem completeWrite_of_write {image : BitVec 64} {ecc : BitVec 8} (h : s.oldestReq g = some (.write g image ecc)) :
    completeWrite g s = storeImage g image ecc { s with port := dropOldest g s.port } := by
  simp only [completeWrite, h]

theorem exec_writeComplete_of_request {image : BitVec 64} {ecc : BitVec 8}
    (hf : ∀ f, s.fill = some f → inRanges g f.outstanding = false) (h : s.oldestReq g = some (.write g image ecc)) :
    exec (.tagStoreWriteComplete g) s =
      .next (storeImage g image ecc { s with port := dropOldest g s.port }) := by
  rw [exec_writeComplete, completeEither_of_none hf, completeWrite_of_write h]
  exact congrArg Host.Outcome.next (signalInterrupt_same rfl rfl rfl rfl)

theorem exec_writeComplete_of_fill (hf : s.fill = some f) (h : inRanges g f.outstanding = true) :
    exec (.tagStoreWriteComplete g) s = .next (completeFillWrite g f s) := by
  rw [exec_writeComplete, completeEither_of_fill hf h]
  exact congrArg Host.Outcome.next (signalInterrupt_same (by rw [completeFillWrite_frame])
    (by rw [completeFillWrite_frame]) (by rw [completeFillWrite_frame]) (by rw [completeFillWrite_frame]))

end

end Sys2Proof.Machine

namespace Sys2Proof.Proofs

open Sys2Proof.Machine

/-- Settles O39: a write that completes is stored for its granule alone, and the last write of FILL ends it. -/
theorem tagStoreWrites : Obligations.TagStoreWrites := by
  unfold Obligations.TagStoreWrites
  refine ⟨fun s g image ecc hf h => ⟨_, exec_writeComplete_of_request hf h, stored_storeImage_same .., storedEcc_storeImage_same ..,
      fun g' hg => ⟨stored_storeImage_other _ _ _ hg, storedEcc_storeImage_other _ _ _ hg⟩, rfl⟩,
    fun s g f hf h => ⟨_, exec_writeComplete_of_fill hf h, completeFillWrite_frame g f s, fun g' hg => ⟨?_, ?_⟩, ?_,
      fun b n hr hb hn => ?_, fun hout => ?_, fun hmore => ?_, fun hlast => ⟨?_, fun c w size b n hw hj hp => ?_,
      fun c hother => ?_⟩⟩, inRanges_removeGranule, fun g ranges => inRanges_iff⟩
  all_goals have hstore := completeFillWrite_store g f s
  all_goals have hctxs := storeFill_ctxs g f s
  · rw [stored_of_store hstore]
    exact stored_storeImage_other _ _ _ hg
  · rw [storedEcc_of_store hstore]
    exact storedEcc_storeImage_other _ _ _ hg
  · rw [stored_of_store hstore, storedEcc_of_store hstore, storeFill, stored_storeImage_same, storedEcc_storeImage_same]
  · rw [stored_of_store hstore, storeFill, stored_storeImage_same, decodeImage_fillRecord, fillRecord_of_root hr hb hn]
  · rw [stored_of_store hstore, storeFill, stored_storeImage_same, decodeImage_fillRecord, fillRecord_of_vacant hout]
  · rw [completeFillWrite_of_more hmore]
    dsimp only
    exact ⟨hctxs, rfl⟩
  · rw [completeFillWrite_of_last hlast, endFill_frame]
  · rw [completeFillWrite_of_last hlast]
    exact work_endFill_of_fill ((work_of_ctxs_eq hctxs c).trans hw) hj hp
  · rw [completeFillWrite_of_last hlast]
    rw [← work_of_ctxs_eq hctxs c] at hother ⊢
    exact work_endFill_of_other hother

end Sys2Proof.Proofs

/-! The loss of a record at a fill; the statement LostRecordIsReplaced. -/

namespace Sys2Proof.Machine

section
variable {s : State} {g : Nat} {w : Work} {r : Run}

/-! ## What a context loses -/

theorem holdsImage_iff (h : w.run = some r) : w.holdsImage g = true ↔ ∃ m, (g, m) ∈ r.image := by
  simp only [Work.holdsImage, h, List.any_eq_true, beq_iff_eq]
  constructor
  · rintro ⟨⟨g', m⟩, he, rfl⟩
    exact ⟨m, he⟩
  · rintro ⟨m, he⟩
    exact ⟨_, he, rfl⟩

theorem loseRecord_of_held (h : w.run = some r) (hm : ∃ m, (g, m) ∈ r.image) : w.loseRecord g =
    { w with run := some { r with image := r.image.filter (fun e => !(e.1 == g)) }, fenced := w.fenced + 1 } := by
  rw [Work.loseRecord, if_pos ((holdsImage_iff h).mpr hm), modRun_of_run _ h]

theorem loseRecord_of_other (h : ∀ r m, w.run = some r → (g, m) ∉ r.image) : w.loseRecord g = w := by
  have hheld : w.holdsImage g ≠ true := fun hheld => by
    cases hr : w.run with
    | none => simp [Work.holdsImage, hr] at hheld
    | some r =>
      obtain ⟨m, hm⟩ := (holdsImage_iff hr).mp hheld
      exact h r m hr hm
  rw [Work.loseRecord, if_neg hheld]

/-! ## The replacement -/

/-- The notice of a lost record. -/
def tagErrorBody (g : Nat) (waiters : List Waiter) (s : State) : NoticeBody :=
  .tagError g (firstWaiter waiters) (anyCtx s (Work.holdsImage g))

/-- The state after the replacement write and its notice. -/
def noteLost (g : Nat) (waiters : List Waiter) (s : State) : State :=
  offerNotice (tagErrorBody g waiters s) (issueWrite g replacementRecord s)

theorem loseRecord_eq (g : Nat) (waiters : List Waiter) (s : State) : loseRecord g waiters s =
    presentToContexts (Work.loseRecord g) (countEvent (.ofPart .tagErrors) (noteLost g waiters s)) := rfl

/-- Beside the contexts, the loss writes the Port, the counters and the notices. -/
theorem loseRecord_frame (g : Nat) (waiters : List Waiter) (s : State) : loseRecord g waiters s =
    { s with
      port := (loseRecord g waiters s).port, counters := (loseRecord g waiters s).counters
      notices := (loseRecord g waiters s).notices, noticeLost := (loseRecord g waiters s).noticeLost
      ctxs := (loseRecord g waiters s).ctxs } := by
  have hpresent := presentToContexts_frame (Work.loseRecord g) (countEvent (.ofPart .tagErrors) (noteLost g waiters s))
  have hcount := countEvent_frame (.ofPart .tagErrors) (noteLost g waiters s)
  have hoffer : Tells (issueWrite g replacementRecord s) (noteLost g waiters s) := offerNotice_tells _ _
  have hdomains : (noteLost g waiters s).domains = s.domains := offerNotice_domains _ _
  have hissue : issueWrite g replacementRecord s = { s with port := (issueWrite g replacementRecord s).port } := rfl
  rw [← loseRecord_eq] at hpresent
  unfold Tells at hoffer
  generalize loseRecord g waiters s = t at hpresent ⊢
  generalize countEvent (.ofPart .tagErrors) (noteLost g waiters s) = v at hpresent hcount
  generalize noteLost g waiters s = v' at hcount hoffer hdomains
  generalize issueWrite g replacementRecord s = v'' at hoffer hissue
  rw [hpresent, hcount, hoffer, hdomains, hissue]

theorem loseRecord_port (g : Nat) (waiters : List Waiter) (s : State) :
    (loseRecord g waiters s).port = s.port ++ [portWrite g replacementRecord] := by
  rw [loseRecord_eq, presentToContexts_port, countEvent_port, noteLost, offerNotice_port]
  rfl

theorem loseRecord_grows (g : Nat) (waiters : List Waiter) (s : State) :
    NoticesGrow (offerNotice (tagErrorBody g waiters s) s) (loseRecord g waiters s) := by
  have hnote : NoticesGrow (offerNotice (tagErrorBody g waiters s) s) (noteLost g waiters s) :=
    .of_eq (by rw [noteLost, notices_offerNotice, notices_offerNotice]; rfl)
      (by rw [noteLost, noticeLost_offerNotice, noticeLost_offerNotice]; rfl)
  have hpresent : NoticesGrow (countEvent (.ofPart .tagErrors) (noteLost g waiters s)) (loseRecord g waiters s) :=
    .of_eq (presentToContexts_notices _ _) (presentToContexts_noticeLost _ _)
  exact (hnote.trans (countEvent_grows _ _)).trans hpresent

theorem work_loseRecord (g : Nat) (waiters : List Waiter) (s : State) (c : CtxId) :
    (loseRecord g waiters s).work c = (s.work c).map (Work.loseRecord g) := by
  have hctxs : (countEvent (.ofPart .tagErrors) (noteLost g waiters s)).ctxs = s.ctxs := by
    rw [countEvent_ctxs, noteLost, offerNotice_ctxs]
    rfl
  rw [loseRecord_eq, work_presentToContexts, work_of_ctxs_eq hctxs]

theorem loseRecord_counted (g : Nat) (waiters : List Waiter) (s : State) :
    ((loseRecord g waiters s).counter (.ofPart .tagErrors)).value = (s.counter (.ofPart .tagErrors)).value + 1 := by
  have hcounters : (noteLost g waiters s).counters = s.counters := offerNotice_counters _ _
  rw [loseRecord_eq, counter_of_counters (presentToContexts_counters _ _), countEvent_value, counter_of_counters hcounters]

end

end Sys2Proof.Machine

namespace Sys2Proof.Proofs

open Sys2Proof.Machine

/-- Settles O42: a lost record is written anew, told first, counted, and lost to the run that holds it. -/
theorem lostRecordIsReplaced : Obligations.LostRecordIsReplaced := by
  unfold Obligations.LostRecordIsReplaced
  refine fun s g waiters => ⟨loseRecord_port g waiters s, offered_first (loseRecord_grows g waiters s),
    loseRecord_counted g waiters s, fun c w r hw hr hm => ?_, fun c w hw h => ?_, ?_⟩
  · rw [work_loseRecord, hw, Option.map_some, loseRecord_of_held hr hm]
  · rw [work_loseRecord, hw, Option.map_some, loseRecord_of_other h]
  · have hframe := loseRecord_frame g waiters s
    generalize loseRecord g waiters s = t at hframe ⊢
    rw [hframe]

end Sys2Proof.Proofs

/-! What the work of a context leaves unchanged: it writes the contexts and the tables, and the fan-out of MARK the
links, the queues and the counters too. -/

namespace Sys2Proof.Machine

section
variable {s t u : State}

/-! ## Work on the contexts and the tables -/

/-- Only the contexts, the Domain Table and the Group Table are written. -/
def WorksOnly (s t : State) : Prop := t = { s with ctxs := t.ctxs, domains := t.domains, groups := t.groups }

theorem WorksOnly.refl (s : State) : WorksOnly s s := rfl

theorem WorksOnly.trans (h : WorksOnly s t) (h' : WorksOnly t u) : WorksOnly s u := by
  unfold WorksOnly at *
  rw [h', h]

theorem WorksOnly.ite {p : Prop} [Decidable p] (h : WorksOnly s t) (h' : WorksOnly s u) :
    WorksOnly s (if p then t else u) := by
  split
  · exact h
  · exact h'

theorem setWork_worksOnly (c : CtxId) (w : Option Work) (s : State) : WorksOnly s (setWork c w s) := rfl

theorem modWork_worksOnly (c : CtxId) (f : Work → Work) (s : State) : WorksOnly s (modWork c f s) := rfl

theorem advanceSeq_worksOnly (c : CtxId) (s : State) : WorksOnly s (advanceSeq c s) := rfl

theorem modDomain_worksOnly (d : Nat) (f : DomainRecord → DomainRecord) (s : State) : WorksOnly s (modDomain d f s) := rfl

theorem releaseReservation_worksOnly (job : Job) (n : Nat) (s : State) : WorksOnly s (releaseReservation job n s) := by
  have h := releaseReservation_frame job n s
  unfold WorksOnly
  generalize releaseReservation job n s = t at h ⊢
  rw [h]

theorem carveRun_worksOnly (c : CtxId) (s : State) : WorksOnly s (carveRun c s) := modWork_worksOnly c _ s

theorem carveSweepRun_worksOnly (c : CtxId) (s : State) : WorksOnly s (carveSweepRun c s) := modWork_worksOnly c _ s

theorem closeSweep_worksOnly (c : CtxId) (d lost : Nat) (s : State) : WorksOnly s (closeSweep c d lost s) :=
  (modDomain_worksOnly d _ s).trans (modWork_worksOnly c _ _)

theorem tryTakeWindow_worksOnly (c : CtxId) (s : State) : WorksOnly s (tryTakeWindow c s) := by
  have h := tryTakeWindow_frame c s
  unfold WorksOnly
  generalize tryTakeWindow c s = t at h ⊢
  rw [h]

theorem offerWindows_worksOnly (s : State) : WorksOnly s (offerWindows s) := by
  unfold offerWindows
  induction allCtxs generalizing s with
  | nil => exact .refl s
  | cons c L ih => exact (tryTakeWindow_worksOnly c s).trans (ih _)

theorem finishWindow_worksOnly (c : CtxId) (d : Nat) (s : State) : WorksOnly s (finishWindow c d s) := by
  unfold finishWindow
  dsimp only
  exact ((modWork_worksOnly c _ s).trans (.ite (closeSweep_worksOnly c d _ _) (.refl _))).trans (offerWindows_worksOnly _)

theorem sweepRunEnded_worksOnly (c : CtxId) (d : Nat) (s : State) : WorksOnly s (sweepRunEnded c d s) := by
  unfold sweepRunEnded
  split
  · exact (closeSweep_worksOnly c d 0 s).trans (offerWindows_worksOnly _)
  · split
    · split
      · exact finishWindow_worksOnly c d s
      · exact carveSweepRun_worksOnly c s
    · exact .refl s

theorem endRun_worksOnly (c : CtxId) (s : State) : WorksOnly s (endRun c s) := by
  have hended : ∀ f, WorksOnly s (modWork c f (advanceSeq c s)) :=
    fun f => (advanceSeq_worksOnly c s).trans (modWork_worksOnly c f _)
  unfold endRun
  split
  · exact .refl s
  · split
    · exact .refl s
    · dsimp only
      split
      · exact (hended _).trans (sweepRunEnded_worksOnly c _ _)
      all_goals
        exact .ite (((hended _).trans (modWork_worksOnly c _ _)).trans (releaseReservation_worksOnly _ _ _))
          (.ite ((hended _).trans (carveRun_worksOnly c _)) ((hended _).trans (modWork_worksOnly c _ _)))

/-! ## Record reads -/

theorem validateNext_worksOnly (c : CtxId) (w : Work) (limit : Nat) (s : State) :
    WorksOnly s (validateNext c w limit s) := by
  unfold validateNext
  split
  · exact setWork_worksOnly c _ s
  · exact (setWork_worksOnly c _ s).trans (carveRun_worksOnly c _)

theorem validateRecord_worksOnly (c : CtxId) (w : Work) (base count : Nat) (expected : Option (BitVec 8)) (op : RangeOp)
    (r : GranuleRecord) (s : State) : WorksOnly s (validateRecord c w base count expected op r s) := by
  unfold validateRecord
  split
  · exact (setWork_worksOnly c _ s).trans (releaseReservation_worksOnly _ _ _)
  · exact validateNext_worksOnly c _ _ s

theorem sweepRead_worksOnly (c : CtxId) (w : Work) (d : Nat) (r : GranuleRecord) (s : State) :
    WorksOnly s (sweepRead c w d r s) := by
  unfold sweepRead sweepReadNext
  split
  · exact setWork_worksOnly c _ s
  · split
    · exact (setWork_worksOnly c _ s).trans (finishWindow_worksOnly c d _)
    · exact (setWork_worksOnly c _ s).trans (carveSweepRun_worksOnly c _)

theorem serveRead_worksOnly (c : CtxId) (r : GranuleRecord) (s : State) : WorksOnly s (serveRead c r s) := by
  unfold serveRead
  split
  · exact .refl s
  · dsimp only
    split
    · exact validateRecord_worksOnly c _ _ _ _ _ r s
    · exact sweepRead_worksOnly c _ _ r s
    · exact setWork_worksOnly c _ s
    · exact .refl s

theorem WorksOnly.store (h : WorksOnly s t) : t.store = s.store := by
  rw [h]

theorem WorksOnly.cache (h : WorksOnly s t) : t.cache = s.cache := by
  rw [h]

/-! ## The Tag Store stays -/

theorem startAttempts_store (l : LinkId) (s : State) : (startAttempts l s).store = s.store := by
  rw [startAttempts_frame]

theorem discardChecks_store (l : LinkId) (s : State) : (discardChecks l s).store = s.store := by
  rw [discardChecks, presentOccupancy_store, removeWaiters_store]

theorem leaveUpToRejoin_store (l : LinkId) (cause : DownCause) (s : State) :
    (leaveUpToRejoin l cause s).store = s.store := by
  rw [leaveUpToRejoin, startAttempts_store, offerNotice_store, presentToContexts_store, discardChecks_store,
    modLink_store]

theorem recallTo_store (c : CtxId) (base order : Nat) (l : LinkId) (s : State) :
    (recallTo c base order l s).store = s.store := by
  unfold recallTo
  dsimp only
  split
  · split
    · rw [modWork_store, countEvent_store, placeFrame_store]
    · rw [modWork_store, leaveUpToRejoin_store]
  all_goals rw [modWork_store]

theorem recallFanOut_store (c : CtxId) (base order : Nat) (union : LinkSet) (s : State) :
    (recallFanOut c base order union s).store = s.store := by
  unfold recallFanOut
  dsimp only
  rw [modWork_store]
  have hfold : ∀ (L : List LinkId) (u : State),
      (L.foldl (fun s l => recallTo c base order l s) u).store = u.store := fun L => by
    induction L with
    | nil => exact fun u => rfl
    | cons l L ih => exact fun u => (ih _).trans (recallTo_store c base order l u)
  rw [hfold, modWork_store]

theorem endMark_store (c : CtxId) (s : State) : (endMark c s).store = s.store := by
  unfold endMark
  split
  · rfl
  · split
    · dsimp only
      split
      · rw [(endRun_worksOnly c _).store, (releaseReservation_worksOnly _ _ s).store]
      · split
        · rw [recallFanOut_store, setWork_store]
        · split <;> rw [setWork_store]
    · rfl

theorem writeResident_store (g : Nat) (r : GranuleRecord) (s : State) : (writeResident g r s).store = s.store := by
  unfold writeResident
  split <;> rfl

theorem markRecord_store (c : CtxId) (w : Work) (op : RangeOp) (r : GranuleRecord) (s : State) :
    (markRecord c w op r s).store = s.store := by
  unfold markRecord
  split
  · rw [setWork_store]
  · rw [setWork_store]
  · rw [writeResident_store, setWork_store]

theorem serveUpdate_store (c : CtxId) (r : GranuleRecord) (s : State) : (serveUpdate c r s).store = s.store := by
  unfold serveUpdate
  split
  · rfl
  · split
    · dsimp only
      split
      · rw [modWork_store, markRecord_store]
      · rw [endMark_store, markRecord_store]
    · rfl

theorem serveContext_store (c : CtxId) (r : GranuleRecord) (s : State) : (serveContext c r s).store = s.store := by
  unfold serveContext
  split
  · exact (serveRead_worksOnly c r s).store
  · exact serveUpdate_store c r s
  all_goals rfl

theorem decideResident_store (k : Check) (r : GranuleRecord) (s : State) : (decideResident k r s).store = s.store := by
  rw [decideResident_eq]
  exact (decideCheck_decides k r s).tablesKept.store

theorem serveWaiter_store (g : Nat) (w : Waiter) (s : State) : (serveWaiter g w s).store = s.store := by
  unfold serveWaiter
  split
  · rfl
  · split
    · exact decideResident_store _ _ s
    · exact serveContext_store _ _ s

theorem serveWaiters_store (n g : Nat) (s : State) : (serveWaiters n g s).store = s.store := by
  induction n generalizing s with
  | zero => rfl
  | succ n ih =>
    unfold serveWaiters
    split
    · rw [ih, serveWaiter_store, modEntry_store]
    all_goals rfl

theorem decideAllResident_store (g : Nat) (checks : List Check) (s : State) :
    (decideAllResident g checks s).store = s.store := by
  induction checks generalizing s with
  | nil => rfl
  | cons k rest ih => rw [decideAllResident, ih, decideResident_store]

theorem redecideGranule_store (g : Nat) (s : State) : (redecideGranule g s).store = s.store := by
  rw [redecideGranule, decideAllResident_store, presentOccupancy_store]

theorem installRecord_store (g : Nat) (r : GranuleRecord) (s : State) : (installRecord g r s).store = s.store := by
  rw [installRecord_of_victim rfl, putCacheSet_store]
  unfold writeBackVictim
  split
  · split
    · rw [countEvent_store, issueWrite_store]
    · rfl
  · rfl

theorem loseRecord_store (g : Nat) (waiters : List Waiter) (s : State) : (loseRecord g waiters s).store = s.store := by
  rw [loseRecord_frame]

theorem installSettled_store (g : Nat) (waiters : List Waiter) (settled : Settled) (s : State) :
    (installSettled g waiters settled s).store = s.store := by
  cases settled with
  | plain r => exact installRecord_store g r s
  | corrected r => exact (installRecord_store g r _).trans (countEvent_store _ _)
  | lost =>
    exact (redecideGranule_store g _).trans ((installRecord_store g _ _).trans (loseRecord_store g waiters s))

theorem removeEntry_store (g : Nat) (s : State) : (removeEntry g s).store = s.store := presentOccupancy_store s _

end

end Sys2Proof.Machine

/-! The fill of a record; the statement FillInstallsRecord. -/

namespace Sys2Proof.Machine

section
variable {s t : State} {g : Nat} {r : GranuleRecord} {e : MissEntry} {forwarded : Option (BitVec 64)}
  {stored : BitVec 64} {dram : DramReturn} {waiters : List Waiter}

/-! ## What a fill settles (R51, R53, R54, R171) -/

theorem settle_of_superseding (h : e.superseding = some r) : settle e forwarded stored dram = .plain r := by
  simp only [settle, h]

theorem settleGood_of_decoded {image : BitVec 64} (h : decodeImage image = some r) : settleGood image = .plain r := by
  simp only [settleGood, h]

theorem settle_of_forwarded {image : BitVec 64} (hs : e.superseding = none) (hf : forwarded = some image)
    (h : decodeImage image = some r) : settle e forwarded stored dram = .plain r := by
  simp only [settle, hs, hf, settleGood_of_decoded h]

theorem settle_of_dram (hs : e.superseding = none) (hf : forwarded = none) :
    settle e forwarded stored dram = settleDram stored dram := by
  simp only [settle, hs, hf]

theorem decodeImage_of_invalid {image : BitVec 64} (h : imageValid image = false) : decodeImage image = none := by
  simp only [decodeImage, h]
  rfl

theorem settleDram_of_single (h : decodeImage stored = some r) : settleDram stored .singleBit = .corrected r := by
  simp only [settleDram, settleCorrected, h]

theorem settleDram_lost (h : dram = .uncorrectable ∨ (∃ image, dram = .invalid image ∧ imageValid image = false) ∨
    (imageValid stored = false ∧ (dram = .good ∨ dram = .singleBit))) : settleDram stored dram = .lost := by
  rcases h with rfl | ⟨image, rfl, hi⟩ | ⟨hi, rfl | rfl⟩
  · rfl
  · simp only [settleDram, hi, Bool.false_eq_true, if_false]
  · simp only [settleDram, settleGood, decodeImage_of_invalid hi]
  · simp only [settleDram, settleCorrected, decodeImage_of_invalid hi]

/-! ## The install -/

theorem writeBackVictim_frame (victim : Option Way) (s : State) : writeBackVictim victim s = { s with
    port := (writeBackVictim victim s).port, counters := (writeBackVictim victim s).counters
    notices := (writeBackVictim victim s).notices, noticeLost := (writeBackVictim victim s).noticeLost } := by
  cases victim with
  | none => rfl
  | some w =>
    cases hd : w.dirty with
    | false =>
      have hclean := writeBackVictim_clean (victim := some w) (fun w' hw' => Option.some.inj hw' ▸ hd) s
      rw [hclean]
    | true =>
      have hframe := countEvent_frame (.ofPart .writebacks) (issueWrite w.granule w.record s)
      rw [writeBackVictim_dirty hd]
      generalize countEvent (.ofPart .writebacks) (issueWrite w.granule w.record s) = v at hframe ⊢
      rw [hframe]
      rfl

/-- An install writes the Record Cache, and what the write-back of its victim writes. -/
theorem installRecord_writes (g : Nat) (r : GranuleRecord) (s : State) : installRecord g r s = { s with
    cache := (installRecord g r s).cache, port := (installRecord g r s).port
    counters := (installRecord g r s).counters, notices := (installRecord g r s).notices
    noticeLost := (installRecord g r s).noticeLost } := by
  have hframe := installRecord_frame (s := s) (g := g) rfl r
  have hback := writeBackVictim_frame ((s.cacheSet g).way (s.cacheSet g).victim) s
  dsimp only at hframe
  generalize installRecord g r s = t at hframe ⊢
  generalize writeBackVictim ((s.cacheSet g).way (s.cacheSet g).victim) s = v at hframe hback
  rw [hframe, hback]

theorem CacheSet.find_takeWay_absent {x : CacheSet} {n : WayName} {w : Way} (h : x.find g = none) (hw : w.granule = g) :
    (x.takeWay n w).find g = some n := by
  have hholds : holdsGranule g (some w) = true := beq_iff_eq.mpr hw
  unfold CacheSet.find at h
  split at h
  · exact absurd h (by simp)
  · next h0 =>
    cases n with
    | way0 => exact if_pos hholds
    | way1 => exact (if_neg h0).trans (if_pos hholds)

theorem find_of_absent (h : s.resident g = none) : (s.cacheSet g).find g = none := by
  cases hf : (s.cacheSet g).find g with
  | none => rfl
  | some n => exact absurd h ((Serving.resident_iff s g).mpr ⟨n, hf⟩)

/-- A granule's record is resident and clean. -/
def CleanWay (g : Nat) (t : State) (r : GranuleRecord) : Prop :=
  t.resident g = some r ∧ ∃ n, (t.cacheSet g).way n = some { granule := g, record := r, dirty := false }

theorem CleanWay.of_cache (h : CleanWay g s r) (hcache : t.cache = s.cache) : CleanWay g t r := by
  unfold CleanWay at *
  rw [resident_of_cache hcache, cacheSet_of_cache hcache]
  exact h

theorem installRecord_clean (h : s.resident g = none) (r : GranuleRecord) : CleanWay g (installRecord g r s) r := by
  have hset := cacheSet_installRecord_same (s := s) (g := g) rfl r
  have hway : ((installRecord g r s).cacheSet g).way (s.cacheSet g).victim =
      some { granule := g, record := r, dirty := false } := by
    rw [hset, CacheSet.way_takeWay_same]
  have hfind : ((installRecord g r s).cacheSet g).find g = some (s.cacheSet g).victim := by
    rw [hset]
    exact CacheSet.find_takeWay_absent (find_of_absent h) rfl
  exact ⟨resident_of_find hfind hway, _, hway⟩

theorem counter_installRecord {n : CounterName} (hn : n.index ≠ (CounterName.ofPart .writebacks).index) (g : Nat)
    (r : GranuleRecord) (s : State) : (installRecord g r s).counter n = s.counter n := by
  have hback : ∀ victim, (writeBackVictim victim s).counter n = s.counter n := fun victim => by
    unfold writeBackVictim
    split
    · split
      · rw [countEvent_other hn]
        rfl
      · rfl
    · rfl
  rw [installRecord_of_victim rfl, counter_of_counters (putCacheSet_counters _ _ _), hback]

theorem mem_port_installRecord {x : PortReq} (h : x ∈ s.port) (g : Nat) (r : GranuleRecord) :
    x ∈ (installRecord g r s).port := by
  rw [installRecord_of_victim rfl, putCacheSet_port]
  unfold writeBackVictim
  split
  · split
    · rw [countEvent_port]
      exact List.mem_append_left _ h
    · exact h
  · exact h

/-! ## The checks parked on a lost record -/

/-- A check on a FENCED record leaves it as it is. -/
theorem decideCheck_of_fenced (h : r.state = .stable .fenced) (k : Check) (s : State) : (decideCheck k r s).2 = r := by
  cases hd : decision s k r with
  | deny cls generation => rw [decideCheck_of_deny hd]
  | park => rw [decideCheck_of_park hd]
  | grant rights generation mayCache =>
    have hcaches : k.caches s mayCache = false := by
      cases hnone : decideWithoutRecord s k with
      | none =>
        simp only [decision, hnone, decideByRecord, h] at hd
        exact Decision.noConfusion hd
      | some d =>
        rw [decision_of_some hnone] at hd
        subst hd
        have hroot : mayCache = false := by
          unfold decideWithoutRecord at hnone
          split at hnone
          · split at hnone
            · exact (Decision.grant.inj (Option.some.inj hnone)).2.2.symm
            · exact Decision.noConfusion (Option.some.inj hnone)
          · split at hnone
            · exact Decision.noConfusion (Option.some.inj hnone)
            · split at hnone
              · exact Decision.noConfusion (Option.some.inj hnone)
              · split at hnone
                · exact Decision.noConfusion (Option.some.inj hnone)
                · exact absurd hnone (by simp)
        rw [Check.caches, hroot, Bool.false_and, Bool.false_and]
    rw [decideCheck_of_grant hd, hcaches, if_neg Bool.false_ne_true]

theorem decideAllResident_of_fenced (h : r.state = .stable .fenced) (checks : List Check) (s : State)
    (hres : s.resident g = some r) : (decideAllResident g checks s).cache = s.cache := by
  induction checks generalizing s with
  | nil => rfl
  | cons k rest ih =>
    have hcache := (decideCheck_decides k r s).cache
    rw [decideAllResident_cons hres, decideResident_of_same (decideCheck_of_fenced h k s),
      ih _ ((resident_of_cache hcache g).trans hres), hcache]

theorem redecideGranule_of_fenced (h : r.state = .stable .fenced) (hres : s.resident g = some r) :
    (redecideGranule g s).cache = s.cache := by
  have hcache : (presentOccupancy s { s with park := s.park.filter (fun k => !(k.granule == g)) }).cache = s.cache :=
    presentOccupancy_cache _ _
  rw [redecideGranule, decideAllResident_of_fenced h _ _ ((resident_of_cache hcache g).trans hres), hcache]

theorem installSettled_clean (h : s.resident g = none) (waiters : List Waiter) :
    (∀ r, CleanWay g (installSettled g waiters (.plain r) s) r) ∧
    (∀ r, CleanWay g (installSettled g waiters (.corrected r) s) r) ∧
    CleanWay g (installSettled g waiters .lost s) replacementRecord := by
  refine ⟨fun r => installRecord_clean h r, fun r => ?_, ?_⟩
  · refine installRecord_clean (s := countEvent (.ofPart .eccCorrected) (issueWrite g r s)) ?_ r
    exact (resident_of_cache (countEvent_cache _ _) g).trans h
  · have hlost : (loseRecord g waiters s).resident g = none := by
      rw [resident_of_cache (s := s) (by rw [loseRecord_frame]), h]
    have hclean := installRecord_clean hlost replacementRecord
    exact hclean.of_cache (redecideGranule_of_fenced rfl hclean.1)

/-! ## The waiters -/

theorem serveWaiters_of_waiter {w : Waiter} {rest : List Waiter} (h : s.missEntry g = some e)
    (hw : e.waiters = w :: rest) (n : Nat) : serveWaiters (n + 1) g s =
      serveWaiters n g (serveWaiter g w (modEntry g (fun e => { e with waiters := rest }) s)) := by
  simp only [serveWaiters, h, Option.map_some, hw]

theorem serveWaiters_of_empty (h : s.missEntry g = some e) (hw : e.waiters = []) (n : Nat) :
    serveWaiters (n + 1) g s = s := by
  simp only [serveWaiters, h, Option.map_some, hw]

theorem serveWaiter_check (h : s.resident g = some r) (k : Check) :
    serveWaiter g (.check k) s = decideResident k r s := by
  simp only [serveWaiter, h]

theorem serveWaiter_context (h : s.resident g = some r) (c : CtxId) :
    serveWaiter g (.context c) s = serveContext c r s := by
  simp only [serveWaiter, h]

/-! ## MISS_QUEUE_FILL -/

/-- The state after the settled content of an entry is installed. -/
def filledState (g : Nat) (e : MissEntry) (settled : Settled) (s : State) : State :=
  installSettled g e.waiters settled { s with port := dropOldest g s.port }

theorem exec_fill (hentry : s.missEntry g = some e) (hreq : s.oldestReq g = some (.read g forwarded)) :
    exec (.missQueueFill g dram) s = .next (signalInterrupt s (removeEntry g (serveWaiters e.waiters.length g
      (filledState g e (settle e forwarded (s.stored g) dram) s)))) := by
  have hgranule : e.granule = g := missEntry_granule hentry
  have hexec : exec (.missQueueFill g dram) s = execMissQueueFill g dram s := rfl
  rw [hexec, execMissQueueFill, event]
  simp only [hentry, hreq, fillEntry, hgranule]
  rfl

theorem missEntry_removeEntry (g : Nat) (s : State) : (removeEntry g s).missEntry g = none := by
  have hmiss : (removeEntry g s).miss = s.miss.filter (fun e => !(e.granule == g)) := presentOccupancy_miss _ _
  rw [State.missEntry, hmiss, List.find?_eq_none]
  intro e he
  have hkept := (List.mem_filter.mp he).2
  simpa using hkept

theorem fill_portSide (g : Nat) (e : MissEntry) (settled : Settled) (n : Nat) (s : State) :
    (removeEntry g (serveWaiters n g (filledState g e settled s))).portSide = s.portSide := by
  have hdropped : Inner s { s with port := dropOldest g s.port } := (Inner.refl s).same rfl rfl
  exact ((Inner.serveWaiters (Inner.installSettled hdropped g e.waiters settled) n g).removeEntry g).portSide_eq

theorem fill_store (g : Nat) (e : MissEntry) (settled : Settled) (n : Nat) (s : State) :
    (removeEntry g (serveWaiters n g (filledState g e settled s))).store = s.store := by
  rw [removeEntry_store, serveWaiters_store, filledState, installSettled_store]

/-- What a fill with no waiter leaves. -/
structure FilledAlone (g : Nat) (r : GranuleRecord) (s t : State) : Prop where
  resident : t.resident g = some r
  domains : t.domains = s.domains
  ctxs : t.ctxs = s.ctxs
  park : t.park = s.park

theorem removeEntry_alone {a : State} (h : FilledAlone g r s t) : FilledAlone g r s (signalInterrupt a (removeEntry g t)) := by
  have hcache : (signalInterrupt a (removeEntry g t)).cache = t.cache :=
    (signalInterrupt_cache _ _).trans (presentOccupancy_cache t _)
  exact ⟨(resident_of_cache hcache g).trans h.resident,
    ((signalInterrupt_domains _ _).trans (presentOccupancy_domains t _)).trans h.domains,
    ((signalInterrupt_ctxs _ _).trans (presentOccupancy_ctxs t _)).trans h.ctxs,
    ((signalInterrupt_park _ _).trans (presentOccupancy_park t _)).trans h.park⟩

theorem installRecord_alone (h : s.resident g = none) (r : GranuleRecord) : FilledAlone g r s (installRecord g r s) := by
  have hframe := installRecord_writes g r s
  have hres := (installRecord_clean h r).1
  generalize installRecord g r s = t at hframe hres ⊢
  refine ⟨hres, ?_, ?_, ?_⟩ <;> rw [hframe]

/-- A corrected content is installed, written back and counted. -/
theorem installCorrected (h : s.resident g = none) (r : GranuleRecord) (waiters : List Waiter) :
    FilledAlone g r s (installSettled g waiters (.corrected r) s) ∧
    portWrite g r ∈ (installSettled g waiters (.corrected r) s).port ∧
    ((installSettled g waiters (.corrected r) s).counter (.ofPart .eccCorrected)).value =
      (s.counter (.ofPart .eccCorrected)).value + 1 := by
  have hinstall : installSettled g waiters (.corrected r) s =
      installRecord g r (countEvent (.ofPart .eccCorrected) (issueWrite g r s)) := rfl
  have hcounted := countEvent_value (.ofPart .eccCorrected) (issueWrite g r s)
  have hport := countEvent_port (.ofPart .eccCorrected) (issueWrite g r s)
  have hcache := countEvent_cache (.ofPart .eccCorrected) (issueWrite g r s)
  have hdomains := countEvent_domains (.ofPart .eccCorrected) (issueWrite g r s)
  have hctxs := countEvent_ctxs (.ofPart .eccCorrected) (issueWrite g r s)
  have hpark := countEvent_park (.ofPart .eccCorrected) (issueWrite g r s)
  rw [hinstall]
  generalize countEvent (.ofPart .eccCorrected) (issueWrite g r s) = v at hcounted hport hcache hdomains hctxs hpark ⊢
  obtain ⟨hres, hdomains', hctxs', hpark'⟩ := installRecord_alone ((resident_of_cache (s := s) hcache g).trans h) r
  refine ⟨⟨hres, hdomains'.trans hdomains, hctxs'.trans hctxs, hpark'.trans hpark⟩, mem_port_installRecord ?_ g r, ?_⟩
  · rw [hport]
    exact List.mem_append_right _ (List.mem_singleton.mpr rfl)
  · rw [counter_installRecord (by decide), hcounted]
    rfl

theorem removeEntry_port (g : Nat) (s : State) : (removeEntry g s).port = s.port := presentOccupancy_port s _

theorem counter_removeEntry (n : CounterName) (g : Nat) (s : State) : (removeEntry g s).counter n = s.counter n :=
  counter_of_counters (presentOccupancy_counters s _)

end

end Sys2Proof.Machine

namespace Sys2Proof.Proofs

open Sys2Proof.Machine

/-- Settles O41: a fill settles and installs its content, serves its waiters in turn, and its entry leaves. -/
theorem fillInstallsRecord : Obligations.FillInstallsRecord := by
  unfold Obligations.FillInstallsRecord
  refine ⟨fun s g e forwarded dram hentry hreq => ⟨exec_fill hentry hreq, _, exec_fill hentry hreq, ?_, ?_, ?_,
      fun hwaiters hres r => ⟨fun hsettled => ?_, fun hsettled => ?_⟩⟩,
    fun s g waiters r => ⟨rfl, rfl, rfl, fun hres => ?_⟩,
    fun s g n => ⟨rfl, fun e w rest hentry hw => serveWaiters_of_waiter hentry hw n,
      fun e hentry hw => serveWaiters_of_empty hentry hw n,
      fun r hres => ⟨serveWaiter_check hres, serveWaiter_context hres⟩⟩,
    fun e forwarded stored dram => ⟨fun r => settle_of_superseding, fun image r => settle_of_forwarded,
      fun r hs hf hdecoded => ⟨?_, ?_⟩, fun hs hf hlost => (settle_of_dram hs hf).trans (settleDram_lost hlost)⟩⟩
  · exact (missEntry_of_miss (signalInterrupt_miss _ _) g).trans (missEntry_removeEntry g _)
  · exact (signalInterrupt_portSide _ _).trans (fill_portSide g e _ _ s)
  · exact (signalInterrupt_store _ _).trans (fill_store g e _ _ s)
  · rw [hsettled, hwaiters]
    obtain ⟨hresident, hdomains, hctxs, hpark⟩ := removeEntry_alone (a := s)
      (installRecord_alone (s := { s with port := dropOldest g s.port }) hres r)
    exact ⟨hresident, hdomains, hctxs, hpark⟩
  · obtain ⟨halone, hport, hcounted⟩ := installCorrected (s := { s with port := dropOldest g s.port }) hres r e.waiters
    obtain ⟨hresident, hdomains, hctxs, hpark⟩ := removeEntry_alone (a := s) halone
    rw [hsettled, hwaiters]
    rw [hwaiters] at hresident hdomains hctxs hpark hport hcounted
    refine ⟨hresident, ?_, hdomains, hctxs, hpark, ?_⟩
    · rw [signalInterrupt_port, removeEntry_port]
      exact hport
    · rw [counter_of_counters (signalInterrupt_counters _ _), counter_removeEntry]
      exact hcounted
  · obtain ⟨hplain, hcorrected, hlost⟩ := installSettled_clean hres waiters
    exact ⟨hplain r, hcorrected r, hlost⟩
  · rintro rfl
    exact (settle_of_dram hs hf).trans (settleGood_of_decoded hdecoded)
  · rintro rfl
    exact (settle_of_dram hs hf).trans (settleDram_of_single hdecoded)

end Sys2Proof.Proofs

/-! The order of a run; the statement RunOrderIsLargest. -/

namespace Sys2Proof.Machine

section
variable {s : State} {test : Nat → Bool}

/-- The first of a descending list that meets a test is the largest. -/
theorem find_largest {L : List Nat} (hL : L.Pairwise (· > ·)) {k k' : Nat} (h : L.find? test = some k) (hk : k' ∈ L)
    (ht : test k' = true) : k' ≤ k := by
  induction L with
  | nil => exact absurd hk (by simp)
  | cons a L ih =>
    obtain ⟨habove, hL⟩ := List.pairwise_cons.mp hL
    rw [List.find?_cons] at h
    rcases List.mem_cons.mp hk with rfl | hk
    · rw [ht] at h
      exact Nat.le_of_eq (Option.some.inj h)
    · split at h
      · exact Option.some.inj h ▸ Nat.le_of_lt (habove k' hk)
      · exact ih hL h hk

theorem mem_orders_iff {k : Nat} : k ∈ orders ↔ k ≤ 9 := by
  simp only [orders, List.mem_cons, List.not_mem_nil, or_false]
  omega

/-- The largest order that meets a test, where order 0 meets it. -/
theorem largestOrder (h0 : test 0 = true) : test ((orders.find? test).getD 0) = true ∧
    (orders.find? test).getD 0 ≤ 9 ∧ ∀ k, k ≤ 9 → test k = true → k ≤ (orders.find? test).getD 0 := by
  cases hf : orders.find? test with
  | none => exact absurd h0 (List.find?_eq_none.mp hf 0 (by decide))
  | some k =>
    exact ⟨List.find?_some hf, mem_orders_iff.mp (List.mem_of_find?_eq_some hf),
      fun k' hk' ht => find_largest (by decide) hf (mem_orders_iff.mpr hk') ht⟩

/-! ## The tests of an order (R87, R129) -/

theorem boundaryBetween_false_iff {lo hi : Nat} : (!s.boundaryBetween lo hi) = true ↔
    ∀ h ∈ s.windows, ¬(lo < h.base ∧ h.base < hi) ∧ ¬(lo < h.base + h.count ∧ h.base + h.count < hi) := by
  rw [Bool.not_eq_true', State.boundaryBetween, List.any_eq_false]
  simp only [Bool.or_eq_true, Bool.and_eq_true, decide_eq_true_eq, not_or]

theorem no_boundary_within_granule (s : State) (p : Nat) : (!s.boundaryBetween p (p + 1)) = true :=
  boundaryBetween_false_iff.mpr fun h _ => ⟨by omega, by omega⟩

/-- The test of a run's order at the cursor. -/
def carveTest (s : State) (cursor remaining k : Nat) : Bool :=
  decide (cursor % 2 ^ k = 0) && decide (2 ^ k ≤ remaining) && !s.boundaryBetween cursor (cursor + 2 ^ k)

theorem carveOrder_eq (s : State) (cursor remaining : Nat) :
    carveOrder s cursor remaining = (orders.find? (carveTest s cursor remaining)).getD 0 := rfl

theorem carveTest_zero {cursor remaining : Nat} (h : 0 < remaining) : carveTest s cursor remaining 0 = true := by
  rw [carveTest, Nat.pow_zero, no_boundary_within_granule, decide_eq_true (Nat.mod_one cursor),
    decide_eq_true (Nat.succ_le_of_lt h)]
  rfl

theorem carveTest_iff {cursor remaining k : Nat} : carveTest s cursor remaining k = true ↔
    cursor % 2 ^ k = 0 ∧ 2 ^ k ≤ remaining ∧ ∀ h ∈ s.windows, ¬(cursor < h.base ∧ h.base < cursor + 2 ^ k) ∧
      ¬(cursor < h.base + h.count ∧ h.base + h.count < cursor + 2 ^ k) := by
  rw [carveTest, Bool.and_eq_true, Bool.and_eq_true, decide_eq_true_eq, decide_eq_true_eq, boundaryBetween_false_iff,
    and_assoc]

/-- The test of a sweep's run at the first granule of its reclaim list. -/
def sweepTest (s : State) (p : Nat) (reclaim : List Nat) (k : Nat) : Bool :=
  decide (p % 2 ^ k = 0) && decide (reclaim.take (2 ^ k) = List.range' p (2 ^ k)) && !s.boundaryBetween p (p + 2 ^ k)

theorem sweepOrder_eq (s : State) (p : Nat) (reclaim : List Nat) :
    sweepOrder s p reclaim = (orders.find? (sweepTest s p reclaim)).getD 0 := rfl

theorem sweepTest_zero (p : Nat) (rest : List Nat) : sweepTest s p (p :: rest) 0 = true := by
  rw [sweepTest, Nat.pow_zero, no_boundary_within_granule, decide_eq_true (Nat.mod_one p)]
  simp only [List.take_succ_cons, List.take_zero, List.range'_one, decide_true, Bool.and_self]

theorem sweepTest_iff {p k : Nat} {reclaim : List Nat} : sweepTest s p reclaim k = true ↔
    p % 2 ^ k = 0 ∧ reclaim.take (2 ^ k) = List.range' p (2 ^ k) ∧ ∀ h ∈ s.windows,
      ¬(p < h.base ∧ h.base < p + 2 ^ k) ∧ ¬(p < h.base + h.count ∧ h.base + h.count < p + 2 ^ k) := by
  rw [sweepTest, Bool.and_eq_true, Bool.and_eq_true, decide_eq_true_eq, decide_eq_true_eq, boundaryBetween_false_iff,
    and_assoc]

end

end Sys2Proof.Machine

namespace Sys2Proof.Proofs

open Sys2Proof.Machine

/-- Settles O44: each order is the first of a descending list that meets its test, and order 0 meets it. -/
theorem runOrderIsLargest : Obligations.RunOrderIsLargest := by
  unfold Obligations.RunOrderIsLargest
  refine ⟨fun s cursor remaining h => ?_, fun s p rest => ?_⟩
  · obtain ⟨htest, hle, hlargest⟩ := largestOrder (carveTest_zero (s := s) (cursor := cursor) h)
    exact ⟨⟨hle, carveTest_iff.mp htest⟩, fun k ⟨hk, hfits⟩ => hlargest k hk (carveTest_iff.mpr hfits)⟩
  · obtain ⟨htest, hle, hlargest⟩ := largestOrder (sweepTest_zero (s := s) p rest)
    exact ⟨⟨hle, sweepTest_iff.mp htest⟩, fun k ⟨hk, hfits⟩ => hlargest k hk (sweepTest_iff.mpr hfits)⟩

end Sys2Proof.Proofs

/-! The tests of VALIDATE and the columns of Table 5.6; the statement ValidateTests. -/

namespace Sys2Proof.Machine

section
variable {s : State} {w : Work} {op : RangeOp} {expected : Option (BitVec 8)} {g : Nat} {r : GranuleRecord} {x : Stable}

/-! ## The tests (Table 5.4) -/

/-- A record makes an ASSIGN's range hold both a VACANT record and a HELD one (R100). -/
def Mixed (w : Work) (op : RangeOp) (x : Stable) : Prop :=
  ∃ d rights, op = .assign d rights ∧ ((x = .vacant ∧ w.sawHeld = true) ∨
    ((∃ o held, x = .held o held) ∧ w.sawVacant = true))

theorem mixes_iff : w.mixes op x = true ↔ Mixed w op x := by
  cases op with
  | assign d rights => cases x <;> simp [Work.mixes, Mixed]
  | reclaim _ _ | transfer _ _ _ _ | share _ _ | unshare _ | wipe | releaseFence =>
    exact iff_of_false Bool.false_ne_true fun ⟨_, _, hop, _⟩ => RangeOp.noConfusion hop

theorem stale_iff : expected.any (fun e => e != r.generation) = true ↔ ∃ e, expected = some e ∧ e ≠ r.generation := by
  cases expected <;> simp

theorem holderDown_iff {holders : LinkSet} : s.holderDown holders = true ↔
    ∃ l : LinkId, holders.getLsbD l.val = true ∧ ((s.link l).state = .failed ∨ (s.link l).state = .off) := by
  simp only [State.holderDown, List.any_eq_true, Bool.and_eq_true, Bool.or_eq_true, decide_eq_true_eq, linkIn,
    mem_allLinks, true_and]

/-- A record is accepted, and does not make the range mixed. -/
def Accepted (w : Work) (op : RangeOp) (x : Stable) : Prop := op.accepts x = true ∧ ¬Mixed w op x

theorem refuses_iff : (!op.accepts x || w.mixes op x) = true ↔ ¬Accepted w op x := by
  rw [Bool.or_eq_true, Bool.not_eq_true', mixes_iff, Accepted, Classical.not_and_iff_not_or_not, Classical.not_not, Bool.not_eq_true]

/-- A record needs a wipe and has no home. -/
def Homeless (s : State) (op : RangeOp) (g : Nat) (x : Stable) : Prop :=
  op.needsWipe x = true ∧ op.unchanged x = false ∧ s.homeLink g = none

theorem homeless_iff :
    (op.needsWipe x && !op.unchanged x && (s.homeLink g).isNone) = true ↔ Homeless s op g x := by
  rw [Bool.and_eq_true, Bool.and_eq_true, Bool.not_eq_true', Option.isNone_iff_eq_none, and_assoc, Homeless]

/-- A fence cannot be released, since a holder link is down. -/
def FenceDown (s : State) (op : RangeOp) (r : GranuleRecord) (x : Stable) : Prop :=
  op = .releaseFence ∧ x = .fenced ∧
    ∃ l : LinkId, r.holders.getLsbD l.val = true ∧ ((s.link l).state = .failed ∨ (s.link l).state = .off)

theorem fenceDown_iff :
    (decide (op = .releaseFence) && decide (x = .fenced) && s.holderDown r.holders) = true ↔ FenceDown s op r x := by
  rw [Bool.and_eq_true, Bool.and_eq_true, decide_eq_true_eq, decide_eq_true_eq, holderDown_iff, and_assoc, FenceDown]

theorem validateTest_of_stable (h : r.state = .stable x) : validateTest s w op expected g r =
    if (!op.accepts x || w.mixes op x) = true then some .sourceState
    else if (expected.any fun e => e != r.generation) = true then some .stale
    else if (op.needsWipe x && !op.unchanged x && (s.homeLink g).isNone) = true then some .noHome
    else if (decide (op = .releaseFence) && decide (x = .fenced) && s.holderDown r.holders) = true then some .linkFailed
    else none := by
  simp only [validateTest, h]

theorem validateTest_of_change {c : CtxId} (h : r.state = .moving c x ∨ r.state = .wiping c x) :
    validateTest s w op expected g r = some .sourceState := by
  rcases h with h | h <;> simp only [validateTest, h]

/-! ## The columns of Table 5.6 -/

/-- The columns of an operation, for a content. -/
def Columns (op : RangeOp) (x : Stable) (accepted unchanged recalls wipes : Prop) : Prop :=
  (op.accepts x = true ↔ accepted) ∧ (op.unchanged x = true ↔ unchanged) ∧ (op.needsRecall x = true ↔ recalls) ∧
    (op.needsWipe x = true ↔ wipes)

variable {d taker group : Nat} {rights : Rights} {wiping : Bool}

theorem columns_assign : Columns (.assign d rights) x (x = .vacant ∨ x = .wiped ∨ ∃ old, x = .held d old)
    (x = .held d rights) (∃ old, x = .held d old ∧ old &&& ~~~rights ≠ 0) (x = .vacant) := by
  cases x <;> simp [Columns, RangeOp.accepts, RangeOp.unchanged, RangeOp.needsRecall, RangeOp.needsWipe, lacksRight,
    and_assoc]

theorem columns_reclaim : Columns (.reclaim d wiping) x
    ((∃ old, x = .held d old) ∨ x = .wiped ∨ (wiping = false ∧ x = .vacant))
    (x = .wiped ∨ (wiping = false ∧ x = .vacant)) True (wiping = true) := by
  cases x <;> simp [Columns, RangeOp.accepts, RangeOp.unchanged, RangeOp.needsRecall, RangeOp.needsWipe]

theorem columns_transfer : Columns (.transfer d taker rights wiping) x (∃ old, x = .held d old) False True
    (wiping = true) := by
  cases x <;> simp [Columns, RangeOp.accepts, RangeOp.unchanged, RangeOp.needsRecall, RangeOp.needsWipe]

theorem columns_share : Columns (.share d group) x ((∃ old, x = .held d old) ∨ ∃ old, x = .shared d group old)
    (∃ old, x = .shared d group old) False False := by
  cases x <;> simp [Columns, RangeOp.accepts, RangeOp.unchanged, RangeOp.needsRecall, RangeOp.needsWipe]

theorem columns_unshare : Columns (.unshare group) x (∃ o old, x = .shared o group old) False True False := by
  cases x <;> simp [Columns, RangeOp.accepts, RangeOp.unchanged, RangeOp.needsRecall, RangeOp.needsWipe]

theorem columns_wipe : Columns .wipe x (x = .vacant ∨ x = .wiped) (x = .wiped) False True := by
  cases x <;> simp [Columns, RangeOp.accepts, RangeOp.unchanged, RangeOp.needsRecall, RangeOp.needsWipe]

theorem columns_releaseFence : Columns .releaseFence x (x = .fenced ∨ x = .vacant) (x = .vacant) True False := by
  cases x <;> simp [Columns, RangeOp.accepts, RangeOp.unchanged, RangeOp.needsRecall, RangeOp.needsWipe]

end

end Sys2Proof.Machine

namespace Sys2Proof.Proofs

open Sys2Proof.Machine

/-- Settles O46: the first test that fails gives the reason, and each operation's columns are those of Table 5.6. -/
theorem validateTests : Obligations.ValidateTests := by
  unfold Obligations.ValidateTests
  refine ⟨fun s w op expected g r => ⟨fun c x => validateTest_of_change, fun x h => ?_⟩,
    fun d taker group rights wiping x => ⟨columns_assign, columns_reclaim, columns_transfer, columns_share,
      columns_unshare, columns_wipe, columns_releaseFence⟩⟩
  intro mixed accepted stale homeless down
  have hrefuses : (!op.accepts x || w.mixes op x) = true ↔ ¬accepted := refuses_iff
  have hstale : expected.any (fun e => e != r.generation) = true ↔ stale := stale_iff
  have hhomeless : (op.needsWipe x && !op.unchanged x && (s.homeLink g).isNone) = true ↔ homeless := homeless_iff
  have hdown : (decide (op = .releaseFence) && decide (x = .fenced) && s.holderDown r.holders) = true ↔ down :=
    fenceDown_iff
  rw [validateTest_of_stable h]
  refine ⟨fun ha => if_pos (hrefuses.mpr ha), fun ha hs => ?_, fun ha hs hh => ?_, fun ha hs hh hd => ?_,
    fun ha hs hh hd => ?_⟩
  all_goals rw [if_neg fun hr => hrefuses.mp hr ha]
  · rw [if_pos (hstale.mpr hs)]
  · rw [if_neg (mt hstale.mp hs), if_pos (hhomeless.mpr hh)]
  · rw [if_neg (mt hstale.mp hs), if_neg (mt hhomeless.mp hh), if_pos (hdown.mpr hd)]
  · rw [if_neg (mt hstale.mp hs), if_neg (mt hhomeless.mp hh), if_neg (mt hdown.mp hd)]

end Sys2Proof.Proofs

/-! What a commit writes to a record and to the tables; the statement CommittedRecordAndTables. -/

namespace Sys2Proof.Machine

section
variable {s : State} {op : RangeOp} {run : Run} {asWiped : Bool} {r : GranuleRecord} {old new : Stable}

/-! ## The record that a commit writes (R80, R96, R116) -/

theorem committedContent_of_clean (ho : run.outcome = .clean) (x : Stable) :
    committedContent op run.outcome asWiped x = if asWiped then .wiped else op.result x := by
  rw [ho, committedContent]

theorem committedContent_of_fenced {cause : FenceCause} {link : Option LinkId} (ho : run.outcome = .fenced cause link)
    (x : Stable) : committedContent op run.outcome asWiped x = .fenced := by
  rw [ho, committedContent]

theorem getLsbD_minusLinks (a b : LinkSet) (l : LinkId) :
    (minusLinks a b).getLsbD l.val = (a.getLsbD l.val && !b.getLsbD l.val) := by
  rw [minusLinks, BitVec.getLsbD_and, BitVec.getLsbD_not, decide_eq_true l.isLt, Bool.true_and]

/-! ## The held counts (R9) -/

theorem adjustHeld_of_same {d : Nat} (ho : old.owner = some d) (hn : new.owner = some d) : adjustHeld old new s = s := by
  simp only [adjustHeld, ho, hn, if_true]

theorem adjustHeld_of_none (ho : old.owner = none) (hn : new.owner = none) : adjustHeld old new s = s := by
  simp only [adjustHeld, ho, hn]

theorem adjustHeld_of_lost {d : Nat} (ho : old.owner = some d) (hn : new.owner = none) :
    adjustHeld old new s = modDomain d (fun r => { r with held := r.held - 1 }) s := by
  simp only [adjustHeld, ho, hn]
  rfl

theorem adjustHeld_of_gained {d : Nat} (ho : old.owner = none) (hn : new.owner = some d) :
    adjustHeld old new s = modDomain d (fun r => { r with held := r.held + 1 }) s := by
  simp only [adjustHeld, ho, hn]
  rfl

theorem adjustHeld_of_moved {d d' : Nat} (h : d ≠ d') (ho : old.owner = some d) (hn : new.owner = some d') :
    adjustHeld old new s = modDomain d' (fun r => { r with held := r.held + 1 })
      (modDomain d (fun r => { r with held := r.held - 1 }) s) := by
  simp only [adjustHeld, ho, hn, if_neg h]
  rfl

end

end Sys2Proof.Machine

namespace Sys2Proof.Proofs

open Sys2Proof.Machine

/-- Settles O47: what a commit writes, by its command and by its run's outcome, and the counts that it moves. -/
theorem committedRecordAndTables : Obligations.CommittedRecordAndTables := by
  unfold Obligations.CommittedRecordAndTables
  refine ⟨fun d taker group rights x => ⟨rfl, rfl, rfl, fun wipe => rfl, rfl, rfl, rfl, rfl⟩,
    fun op run asWiped r => ⟨rfl, getLsbD_minusLinks r.holders run.cleared, fun ho ha => ?_, fun ho ha => ?_,
      fun cause link ho => congrArg RecordState.stable (committedContent_of_fenced ho r.content)⟩,
    fun s old new => ⟨fun d => adjustHeld_of_same, adjustHeld_of_none, fun d => adjustHeld_of_lost,
      fun d => adjustHeld_of_gained, fun d d' h ho hn => ?_⟩,
    fun s n base count e => ⟨fun d rights => rfl, fun giver taker rights wipe => rfl, fun owner group => rfl,
      fun d wipe => rfl, fun g => rfl, rfl, rfl, fun g => rfl, fun d => rfl⟩⟩
  · exact congrArg RecordState.stable ((committedContent_of_clean ho r.content).trans (if_neg (by rw [ha]; decide)))
  · exact congrArg RecordState.stable ((committedContent_of_clean ho r.content).trans (if_pos ha))
  · rw [adjustHeld_of_moved h ho hn]
    refine ⟨?_, ?_, fun x hx hx' => ?_⟩
    · rw [domain_modDomain_other _ _ h, domain_modDomain_same]
    · rw [domain_modDomain_same, domain_modDomain_other _ _ h.symm]
    · rw [domain_modDomain_other _ _ hx', domain_modDomain_other _ _ hx]

end Sys2Proof.Proofs

/-! A record read of a context, on a hit and on a miss; the statement RecordReadOnHit. -/

namespace Sys2Proof.Machine

section
variable {s t : State} {c : CtxId} {w : Work} {r : GranuleRecord} {g : Nat}

/-! ## A record read carried out (R73, R84) -/

/-- A context whose request is served waits no more. -/
def Work.taken (w : Work) : Work := { w with waiting := false }

theorem serveContext_of_other (h : ∀ w, s.work c = some w → w.request ≠ .read ∧ w.request ≠ .update) :
    serveContext c r s = s := by
  unfold serveContext
  cases hw : s.work c with
  | none => rfl
  | some w =>
    obtain ⟨hread, hupdate⟩ := h w hw
    cases hr : w.request with
    | read => exact absurd hr hread
    | update => exact absurd hr hupdate
    | noRequest | wipeStart | commit _ | revert => simp only [Option.map_some, hr]

theorem serveRead_of_query (hw : s.work c = some w) (hj : w.job = .query g) :
    serveRead c r s = setWork c (some (w.taken.enterPost .ok none (.image (encodeImage r)))) s := by
  simp only [serveRead, hw, hj, Work.taken]

section
variable {base count : Nat} {expected : Option (BitVec 8)} {op : RangeOp}

theorem serveRead_of_range (hw : s.work c = some w) (hj : w.job = .range base count expected op) :
    serveRead c r s = validateRecord c w.taken base count expected op r s := by
  simp only [serveRead, hw, hj, Work.taken]

theorem validateTest_taken (s : State) (w : Work) (op : RangeOp) (expected : Option (BitVec 8)) (g : Nat)
    (r : GranuleRecord) : validateTest s w.taken op expected g r = validateTest s w op expected g r := rfl

/-- VALIDATE refuses a record. -/
theorem serveRead_of_refused {reason : Reason} (hw : s.work c = some w) (hj : w.job = .range base count expected op)
    (ht : validateTest s w op expected w.next r = some reason) : serveRead c r s = releaseReservation w.job count
      (setWork c (some (w.taken.enterPost .refused (some reason) (.counts 0 0 0))) s) := by
  rw [serveRead_of_range hw hj, validateRecord]
  simp only [show validateTest s w.taken op expected w.taken.next r = some reason from ht]
  rfl

theorem serveRead_of_passed (hw : s.work c = some w) (hj : w.job = .range base count expected op)
    (ht : validateTest s w op expected w.next r = none) :
    serveRead c r s = validateNext c (w.taken.noteMix r) (base + count) s := by
  rw [serveRead_of_range hw hj, validateRecord]
  simp only [show validateTest s w.taken op expected w.taken.next r = none from ht]

/-- VALIDATE goes on to the next granule. -/
theorem serveRead_of_next (hw : s.work c = some w) (hj : w.job = .range base count expected op)
    (ht : validateTest s w op expected w.next r = none) (h : w.next + 1 < base + count) :
    serveRead c r s = setWork c (some { w.taken.noteMix r with next := w.next + 1 }) s := by
  rw [serveRead_of_passed hw hj ht, validateNext]
  exact if_pos h

/-- VALIDATE ends and the first run is carved. -/
theorem serveRead_of_last (hw : s.work c = some w) (hj : w.job = .range base count expected op)
    (ht : validateTest s w op expected w.next r = none) (h : base + count ≤ w.next + 1) :
    serveRead c r s = setWork c (some ((w.taken.noteMix r).startRun w.cursor
      (carveOrder s w.cursor (base + count - w.cursor)))) s := by
  rw [serveRead_of_passed hw hj ht, validateNext]
  refine (if_neg (Nat.not_lt.mpr h)).trans ?_
  rw [carveRun, modWork_of_work _ (work_setWork_same _ _ _), setWork_setWork]
  have hlimit : (w.taken.noteMix r).job.limit = base + count := congrArg Job.limit hj
  rw [hlimit]
  rfl

end

theorem heldBy_isSome_iff {x : RecordState} : x.heldBy.isSome = true ↔ ∃ d rights, x = .stable (.held d rights) := by
  cases x with
  | stable y => cases y <;> simp [RecordState.heldBy]
  | moving _ _ => simp [RecordState.heldBy]
  | wiping _ _ => simp [RecordState.heldBy]

theorem mark_freshRun (base order : Nat) (l : LinkId) : (freshRun base order).mark l = .noMark := by
  simp [freshRun, Run.mark]

/-! ## A context's request that hits -/

/-- The state after a context's request that hits. -/
def hitContext (c : CtxId) (g : Nat) (r : GranuleRecord) (s : State) : State :=
  countEvent (.ofPart .cacheHits) (touchResident g (serveContext c r s))

theorem requestGranule_of_work (hw : s.work c = some w) : s.requestGranule c = w.next := by
  simp only [State.requestGranule, hw]

theorem lookUpContext_of_hit (hw : s.work c = some w) (h : s.resident w.next = some r) :
    lookUpContext c s = hitContext c w.next r s := by
  simp only [lookUpContext, requestGranule_of_work hw, h, hitContext]

/-- The use of a way leaves what is resident. -/
theorem resident_touchResident (g : Nat) (s : State) : (touchResident g s).resident g = s.resident g := by
  cases hf : (s.cacheSet g).find g with
  | none => simp only [touchResident, hf]
  | some n =>
    obtain ⟨w, hway, -⟩ := find_way hf
    rw [touchResident_of_find hf, resident_of_find hf hway]
    refine resident_of_find (n := n) ?_ ?_
    · rw [cacheSet_putCacheSet_same]
      exact hf
    · rw [cacheSet_putCacheSet_same]
      exact hway

theorem hitContext_eq (c : CtxId) (g : Nat) (r : GranuleRecord) (s : State) : hitContext c g r s =
    { serveContext c r s with
      cache := (hitContext c g r s).cache, counters := (hitContext c g r s).counters
      notices := (hitContext c g r s).notices, noticeLost := (hitContext c g r s).noticeLost } := by
  have hcount := countEvent_frame (.ofPart .cacheHits) (touchResident g (serveContext c r s))
  have htouch := touchResident_eq g (serveContext c r s)
  have hhit : hitContext c g r s = countEvent (.ofPart .cacheHits) (touchResident g (serveContext c r s)) := rfl
  rw [← hhit] at hcount
  generalize hitContext c g r s = t at hcount ⊢
  generalize touchResident g (serveContext c r s) = v at hcount htouch
  generalize serveContext c r s = v' at htouch
  rw [hcount, htouch]

theorem resident_hitContext (c : CtxId) (g : Nat) (r : GranuleRecord) (s : State) :
    (hitContext c g r s).resident g = (serveContext c r s).resident g :=
  (resident_of_cache (countEvent_cache _ _) g).trans (resident_touchResident g _)

theorem work_hitContext (c c' : CtxId) (g : Nat) (r : GranuleRecord) (s : State) :
    (hitContext c g r s).work c' = (serveContext c r s).work c' :=
  work_of_ctxs_eq (by rw [hitContext_eq]) c'

theorem counter_hitContext (h : (serveContext c r s).counters = s.counters) :
    ((hitContext c g r s).counter (.ofPart .cacheHits)).value = (s.counter (.ofPart .cacheHits)).value + 1 := by
  have hcounters : (touchResident g (serveContext c r s)).counters = s.counters := by
    rw [touchResident_eq]
    exact h
  rw [hitContext, countEvent_value, counter_of_counters hcounters]

theorem exec_recordRead (h : s.nextGrant = some (.engine c .read)) :
    exec .recordRead s = .next (signalInterrupt s (lookUpContext c (engineGranted c s))) := by
  have hexec : exec .recordRead s = execRecordRead s := rfl
  simp only [hexec, execRecordRead, event, h]

theorem exec_recordUpdate (h : s.nextGrant = some (.engine c .update)) :
    exec .recordUpdate s = .next (signalInterrupt s (lookUpContext c (engineGranted c s))) := by
  have hexec : exec .recordUpdate s = execRecordUpdate s := rfl
  simp only [hexec, execRecordUpdate, event, h]

/-- What the port event of a context leaves of the arbiters and the Control Port side. -/
structure EngineServed (c : CtxId) (s t : State) : Prop where
  portPtr : t.portPtr = 6
  enginePtr : t.enginePtr = c
  portSide : t.portSide = s.portSide

theorem engineServed_of_inner {u : State} (h : Inner (engineGranted c s) u) : EngineServed c s (signalInterrupt s u) :=
  ⟨(signalInterrupt_portPtr _ _).trans h.portPtr_eq, (signalInterrupt_enginePtr _ _).trans h.enginePtr_eq,
    (signalInterrupt_portSide _ _).trans h.portSide_eq⟩

theorem nextGrant_request {request : Request} (h : s.nextGrant = some (.engine c request)) (hw : s.work c = some w) :
    w.request = request := by
  obtain ⟨w', hw', hr⟩ := nextGrant_engine h
  exact Option.some.inj (hw'.symm.trans hw) ▸ hr

/-! ## A context's request that misses -/

/-- A context whose request waits in the Miss Queue. -/
def waitContext (c : CtxId) (s : State) : State := modWork c (fun w => { w with waiting := true }) s

/-- The state after a context's request that misses. -/
def missContext (c : CtxId) (g : Nat) (s : State) : State :=
  ((takeMiss g (.context c) (countEvent (.ofPart .cacheMisses) s)).map (waitContext c)).getD
    (countEvent (.ofPart .cacheMisses) s)

theorem lookUpContext_of_miss (hw : s.work c = some w) (h : s.resident w.next = none) :
    lookUpContext c s = missContext c w.next s := by
  simp only [lookUpContext, requestGranule_of_work hw, h, missContext]
  cases takeMiss w.next (.context c) (countEvent (.ofPart .cacheMisses) s) with
  | none => rfl
  | some t => rfl

/-- What a miss writes, beside the contexts. -/
structure ContextMissed (c : CtxId) (s t : State) : Prop where
  park : t.park = s.park
  cache : t.cache = s.cache
  domains : t.domains = s.domains
  groups : t.groups = s.groups
  store : t.store = s.store
  others : ∀ c', c' ≠ c → t.work c' = s.work c'
  counted : (t.counter (.ofPart .cacheMisses)).value = (s.counter (.ofPart .cacheMisses)).value + 1

theorem Misses.contextMissed (h : Misses s t) (hcount : (t.counter (.ofPart .cacheMisses)).value =
    (s.counter (.ofPart .cacheMisses)).value + 1) (c : CtxId) : ContextMissed c s t := by
  have hwork : ∀ c', t.work c' = s.work c' := fun c' => work_of_ctxs_eq (by rw [h]) c'
  refine ⟨?_, ?_, ?_, ?_, ?_, fun c' _ => hwork c', hcount⟩ <;> rw [h]

theorem waitContext_missed (h : ContextMissed c s t) : ContextMissed c s (waitContext c t) :=
  ⟨h.park, h.cache, h.domains, h.groups, h.store, fun c' hc => (work_modWork_other _ _ hc).trans (h.others c' hc),
    h.counted⟩

theorem missContext_missed (c : CtxId) (g : Nat) (s : State) : ContextMissed c s (missContext c g s) := by
  unfold missContext
  have hcount := countEvent_value (.ofPart .cacheMisses) s
  have hmisses := countEvent_misses (.ofPart .cacheMisses) s
  generalize countEvent (.ofPart .cacheMisses) s = v at hcount hmisses ⊢
  cases ht : takeMiss g (.context c) v with
  | none => exact hmisses.contextMissed hcount c
  | some t =>
    have htaken := takeMiss_taken ht
    refine waitContext_missed ((hmisses.trans htaken.misses).contextMissed ?_ c)
    rw [counter_of_counters htaken.counters, hcount]

/-- The Miss Queue refuses the request, which stays ready. -/
structure RequestRefused (s t : State) : Prop where
  ctxs : t.ctxs = s.ctxs
  miss : t.miss = s.miss
  port : t.port = s.port
  links : t.links = s.links

theorem missContext_refused (h : takeMiss g (.context c) (countEvent (.ofPart .cacheMisses) s) = none) :
    RequestRefused s (missContext c g s) := by
  rw [missContext, h]
  exact ⟨countEvent_ctxs _ _, countEvent_miss _ _, countEvent_port _ _, countEvent_links _ _⟩

theorem missContext_of_taken {v : State} (h : takeMiss g (.context c) (countEvent (.ofPart .cacheMisses) s) = some v) :
    missContext c g s = waitContext c v := by
  rw [missContext, h]
  rfl

theorem work_waitContext (hw : t.work c = some w) : (waitContext c t).work c = some { w with waiting := true } := by
  rw [waitContext, modWork_of_work _ hw, work_setWork_same]

/-- A request that misses on a granule with an entry: it joins the entry where it has room. -/
theorem missContext_of_entry {e : MissEntry} (hw : s.work c = some w) (h : s.missEntry g = some e) :
    (missContext c g s).port = s.port ∧ (missContext c g s).links = s.links ∧
    (e.waiters.length < 8 → (missContext c g s).work c = some { w with waiting := true } ∧
      (missContext c g s).miss = s.miss.map (fun x =>
        if x.granule = g then { x with waiters := x.waiters ++ [.context c] } else x)) ∧
    (8 ≤ e.waiters.length → (missContext c g s).work c = some w ∧ (missContext c g s).miss = s.miss) := by
  have hmiss := countEvent_miss (.ofPart .cacheMisses) s
  have hentry := (missEntry_of_miss hmiss g).trans h
  have hctxs := countEvent_ctxs (.ofPart .cacheMisses) s
  rcases Nat.lt_or_ge e.waiters.length 8 with hlen | hlen
  · have htaken := takeMiss_of_entry (w := .context c) hentry hlen
    rw [missContext_of_taken htaken]
    refine ⟨countEvent_port _ _, countEvent_links _ _, fun _ => ⟨work_waitContext ?_, ?_⟩,
      fun hfull => absurd hlen (Nat.not_lt.mpr hfull)⟩
    · exact (work_of_ctxs_eq hctxs c).trans hw
    · rw [waitContext, modWork_miss, joinEntry, modEntry, hmiss]
  · obtain ⟨hctxs, hmiss, hport, hlinks⟩ :=
      missContext_refused (takeMiss_of_full_entry (w := .context c) hentry hlen)
    exact ⟨hport, hlinks, fun hroom => absurd hroom (Nat.not_lt.mpr hlen),
      fun _ => ⟨(work_of_ctxs_eq hctxs c).trans hw, hmiss⟩⟩

/-- A request that misses on a granule with no entry: it makes one where the queue has room. -/
theorem missContext_of_none (hw : s.work c = some w) (h : s.missEntry g = none) :
    (s.miss.length < 48 → (missContext c g s).work c = some { w with waiting := true } ∧
      (missContext c g s).miss = s.miss ++ [{ granule := g, waiters := [.context c], superseding := none }] ∧
      (missContext c g s).port = s.port ++ [.read g (s.outstandingWrite g)]) ∧
    (48 ≤ s.miss.length → (missContext c g s).work c = some w ∧ (missContext c g s).miss = s.miss ∧
      (missContext c g s).port = s.port ∧ (missContext c g s).links = s.links) := by
  have hmiss := countEvent_miss (.ofPart .cacheMisses) s
  have hport := countEvent_port (.ofPart .cacheMisses) s
  have hctxs := countEvent_ctxs (.ofPart .cacheMisses) s
  have hentry := (missEntry_of_miss hmiss g).trans h
  rcases Nat.lt_or_ge s.miss.length 48 with hlen | hlen
  · have htaken := takeMiss_of_room (w := .context c) hentry (hmiss ▸ hlen)
    rw [missContext_of_taken htaken]
    generalize countEvent (.ofPart .cacheMisses) s = v at hmiss hport hctxs
    refine ⟨fun _ => ⟨work_waitContext ?_, ?_, ?_⟩, fun hfull => absurd hlen (Nat.not_lt.mpr hfull)⟩
    · have hopen : (openEntry g (.context c) v).ctxs = v.ctxs := presentOccupancy_ctxs v _
      exact (work_of_ctxs_eq (hopen.trans hctxs) c).trans hw
    · rw [waitContext, modWork_miss, openEntry, presentOccupancy_miss, issueRead_miss, hmiss]
    · rw [waitContext, modWork_port, openEntry, presentOccupancy_port]
      simp only [issueRead, State.outstandingWrite, hport]
  · obtain ⟨hctxs, hmiss, hport, hlinks⟩ :=
      missContext_refused (takeMiss_of_full (w := .context c) hentry (hmiss ▸ hlen))
    exact ⟨fun hroom => absurd hroom (Nat.not_lt.mpr hlen),
      fun _ => ⟨(work_of_ctxs_eq hctxs c).trans hw, hmiss, hport, hlinks⟩⟩

/-! ## The port event of a record read that hits -/

/-- What a record read leaves of the queues and the links. -/
structure QueuesKept (s t : State) : Prop where
  links : t.links = s.links
  park : t.park = s.park
  miss : t.miss = s.miss
  store : t.store = s.store
  port : t.port = s.port

theorem hitContext_queuesKept (h : WorksOnly s (serveContext c r s)) (g : Nat) :
    QueuesKept s (hitContext c g r s) := by
  have hhit := hitContext_eq c g r s
  unfold WorksOnly at h
  generalize hitContext c g r s = t at hhit ⊢
  generalize serveContext c r s = v at h hhit
  rw [h] at hhit
  refine ⟨?_, ?_, ?_, ?_, ?_⟩ <;> rw [hhit]

theorem hitContext_tables (c : CtxId) (g : Nat) (r : GranuleRecord) (s : State) :
    (hitContext c g r s).domains = (serveContext c r s).domains ∧
    (hitContext c g r s).groups = (serveContext c r s).groups := by
  rw [hitContext_eq]
  exact ⟨rfl, rfl⟩

theorem QueuesKept.signal {a : State} (h : QueuesKept s t) : QueuesKept s (signalInterrupt a t) :=
  ⟨(signalInterrupt_links _ _).trans h.links, (signalInterrupt_park _ _).trans h.park,
    (signalInterrupt_miss _ _).trans h.miss, (signalInterrupt_store _ _).trans h.store,
    (signalInterrupt_port _ _).trans h.port⟩

/-- The state at the end of the port event of a context's request that hits. -/
def hitContextEvent (c : CtxId) (g : Nat) (r : GranuleRecord) (s : State) : State :=
  signalInterrupt s (hitContext c g r (engineGranted c s))

/-- The state at the end of the port event of a context's request that misses. -/
def missContextEvent (c : CtxId) (g : Nat) (s : State) : State :=
  signalInterrupt s (missContext c g (engineGranted c s))

theorem exec_recordRead_of_hit (h : s.nextGrant = some (.engine c .read)) (hw : s.work c = some w)
    (hres : s.resident w.next = some r) : exec .recordRead s = .next (hitContextEvent c w.next r s) := by
  rw [exec_recordRead h, lookUpContext_of_hit (s := engineGranted c s) hw hres, hitContextEvent]

theorem work_hitContextEvent (c c' : CtxId) (g : Nat) (r : GranuleRecord) (s : State) :
    (hitContextEvent c g r s).work c' = (serveContext c r (engineGranted c s)).work c' :=
  (work_of_ctxs_eq (signalInterrupt_ctxs _ _) c').trans (work_hitContext c c' g r _)

theorem engineServed_hitContextEvent (c : CtxId) (r : GranuleRecord) (s : State) (g : Nat) :
    EngineServed c s (hitContextEvent c g r s) :=
  engineServed_of_inner ((((Inner.refl (engineGranted c s)).serveContext c r).touchResident g).countEvent _)

theorem tables_hitContextEvent (c : CtxId) (g : Nat) (r : GranuleRecord) (s : State) :
    (hitContextEvent c g r s).domains = (serveContext c r (engineGranted c s)).domains ∧
    (hitContextEvent c g r s).groups = (serveContext c r (engineGranted c s)).groups := by
  obtain ⟨hdomains, hgroups⟩ := hitContext_tables c g r (engineGranted c s)
  exact ⟨(signalInterrupt_domains _ _).trans hdomains, (signalInterrupt_groups _ _).trans hgroups⟩

theorem counter_hitContextEvent (h : (serveContext c r (engineGranted c s)).counters = s.counters) (g : Nat) :
    ((hitContextEvent c g r s).counter (.ofPart .cacheHits)).value = (s.counter (.ofPart .cacheHits)).value + 1 := by
  rw [hitContextEvent, counter_of_counters (signalInterrupt_counters _ _),
    counter_hitContext (s := engineGranted c s) h]
  rfl

theorem WorksOnly.counters (h : WorksOnly s t) : t.counters = s.counters := by
  rw [h]

/-- What the port event of a record read that hits keeps. -/
theorem readEvent_kept (hw : s.work c = some w) (hr : w.request = .read) (hres : s.resident g = some r) :
    (hitContextEvent c g r s).resident g = some r ∧ QueuesKept s (hitContextEvent c g r s) ∧
    ((hitContextEvent c g r s).counter (.ofPart .cacheHits)).value = (s.counter (.ofPart .cacheHits)).value + 1 := by
  have hworks : WorksOnly (engineGranted c s) (serveContext c r (engineGranted c s)) := by
    rw [serveContext_read (s := engineGranted c s) hw hr]
    exact serveRead_worksOnly c r _
  have hqueues := (hitContext_queuesKept hworks g).signal (a := s)
  refine ⟨?_, ⟨hqueues.links, hqueues.park, hqueues.miss, hqueues.store, hqueues.port⟩,
    counter_hitContextEvent hworks.counters g⟩
  rw [hitContextEvent, resident_of_cache (signalInterrupt_cache _ _), resident_hitContext,
    resident_of_cache hworks.cache]
  exact hres

/-- A QUERY is answered with the image of the record. -/
theorem readEvent_of_query {g' : Nat} (hw : s.work c = some w) (hr : w.request = .read) (hj : w.job = .query g') :
    (hitContextEvent c g r s).domains = s.domains ∧ ∃ w', (hitContextEvent c g r s).work c = some w' ∧
      w'.phase = .post ∧ w'.result = some
        { tag := w.tag, kind := 0x08, status := .ok, reason := none, body := .image (encodeImage r) } := by
  have hserved := (serveContext_read (s := engineGranted c s) hw hr r).trans (serveRead_of_query (s := engineGranted c s) hw hj)
  refine ⟨?_, w.taken.enterPost .ok none (.image (encodeImage r)), ?_, rfl, ?_⟩
  · rw [(tables_hitContextEvent c g r s).1, hserved]
    rfl
  · rw [work_hitContextEvent, hserved, work_setWork_same]
  · simp only [Work.enterPost, Work.taken, hj]
    rfl

section
variable {base count : Nat} {expected : Option (BitVec 8)} {op : RangeOp}

/-- VALIDATE refuses a record and gives the whole reservation back. -/
theorem readEvent_of_refused {reason : Reason} (hw : s.work c = some w) (hr : w.request = .read)
    (hj : w.job = .range base count expected op) (ht : validateTest s w op expected w.next r = some reason) :
    (hitContextEvent c g r s).domains = (releaseReservation w.job count s).domains ∧
    (hitContextEvent c g r s).groups = (releaseReservation w.job count s).groups ∧
    ∃ w', (hitContextEvent c g r s).work c = some w' ∧ w'.phase = .post ∧ w'.result = some
      { tag := w.tag, kind := w.job.kindCode, status := .refused, reason := some reason, body := .counts 0 0 0 } := by
  have hserved := (serveContext_read (s := engineGranted c s) hw hr r).trans
    (serveRead_of_refused (s := engineGranted c s) hw hj ht)
  obtain ⟨hdomains, hgroups⟩ := tables_hitContextEvent c g r s
  obtain ⟨hreleased, hreleased'⟩ := releaseReservation_tables (s := s)
    (u := setWork c (some (w.taken.enterPost .refused (some reason) (.counts 0 0 0))) (engineGranted c s)) rfl rfl
    w.job count
  refine ⟨?_, ?_, w.taken.enterPost .refused (some reason) (.counts 0 0 0), ?_, rfl, rfl⟩
  · rw [hdomains, hserved, hreleased]
  · rw [hgroups, hserved, hreleased']
  · rw [work_hitContextEvent, hserved, work_releaseReservation, work_setWork_same]

/-- VALIDATE goes on after a record that passes. -/
theorem readEvent_of_passed (hw : s.work c = some w) (hr : w.request = .read)
    (hj : w.job = .range base count expected op) (ht : validateTest s w op expected w.next r = none) :
    (hitContextEvent c g r s).domains = s.domains ∧ (hitContextEvent c g r s).groups = s.groups ∧
    (w.next + 1 < base + count →
      (hitContextEvent c g r s).work c = some { w.taken.noteMix r with next := w.next + 1 }) ∧
    (base + count ≤ w.next + 1 → (hitContextEvent c g r s).work c =
      some ((w.taken.noteMix r).startRun w.cursor (carveOrder s w.cursor (base + count - w.cursor)))) := by
  have hread := serveContext_read (s := engineGranted c s) hw hr r
  obtain ⟨hdomains, hgroups⟩ := tables_hitContextEvent c g r s
  rcases Nat.lt_or_ge (w.next + 1) (base + count) with h | h
  · have hserved := hread.trans (serveRead_of_next (s := engineGranted c s) hw hj ht h)
    rw [hserved] at hdomains hgroups
    exact ⟨hdomains, hgroups, fun _ => by rw [work_hitContextEvent, hserved, work_setWork_same],
      fun hlast => absurd h (Nat.not_lt.mpr hlast)⟩
  · have hserved := hread.trans (serveRead_of_last (s := engineGranted c s) hw hj ht h)
    rw [hserved] at hdomains hgroups
    refine ⟨hdomains, hgroups, fun hnext => absurd hnext (Nat.not_lt.mpr h), fun _ => ?_⟩
    rw [work_hitContextEvent, hserved, work_setWork_same]
    rfl

end

theorem sawHeld_noteMix (w : Work) (r : GranuleRecord) : (w.taken.noteMix r).sawHeld = true ↔
    w.sawHeld = true ∨ ∃ d rights, r.state = .stable (.held d rights) := by
  rw [← heldBy_isSome_iff]
  exact Bool.or_eq_true _ _ ▸ Iff.rfl

/-! ## The port event of a record request that misses -/

theorem exec_of_miss {request : Request} {command : Instr}
    (hrow : (request = .read ∧ command = .recordRead) ∨ (request = .update ∧ command = .recordUpdate))
    (h : s.nextGrant = some (.engine c request)) (hw : s.work c = some w) (hres : s.resident w.next = none) :
    exec command s = .next (missContextEvent c w.next s) := by
  have hlook := lookUpContext_of_miss (s := engineGranted c s) hw hres
  rcases hrow with ⟨rfl, rfl⟩ | ⟨rfl, rfl⟩
  · rw [exec_recordRead h, hlook, missContextEvent]
  · rw [exec_recordUpdate h, hlook, missContextEvent]

theorem engineServed_missContextEvent (hw : s.work c = some w) (hres : s.resident w.next = none) :
    EngineServed c s (missContextEvent c w.next s) := by
  have hinner := Inner.lookUpContext (Inner.refl (engineGranted c s)) c
  rw [lookUpContext_of_miss (s := engineGranted c s) hw hres] at hinner
  exact engineServed_of_inner hinner

theorem ContextMissed.signal {a : State} (h : ContextMissed c s t) : ContextMissed c s (signalInterrupt a t) :=
  ⟨(signalInterrupt_park _ _).trans h.park, (signalInterrupt_cache _ _).trans h.cache,
    (signalInterrupt_domains _ _).trans h.domains, (signalInterrupt_groups _ _).trans h.groups,
    (signalInterrupt_store _ _).trans h.store,
    fun c' hc => (work_of_ctxs_eq (signalInterrupt_ctxs _ _) c').trans (h.others c' hc),
    (congrArg Counter.value (counter_of_counters (signalInterrupt_counters _ _))).trans h.counted⟩

theorem missContextEvent_missed (c : CtxId) (g : Nat) (s : State) : ContextMissed c s (missContextEvent c g s) := by
  obtain ⟨hpark, hcache, hdomains, hgroups, hstore, hothers, hcounted⟩ :=
    (missContext_missed c g (engineGranted c s)).signal (a := s)
  exact ⟨hpark, hcache, hdomains, hgroups, hstore, hothers, hcounted⟩

/-- The end of an event leaves the Miss Queue, the Port, the links and the contexts. -/
theorem missContextEvent_eq (c : CtxId) (g : Nat) (s : State) :
    (missContextEvent c g s).miss = (missContext c g (engineGranted c s)).miss ∧
    (missContextEvent c g s).port = (missContext c g (engineGranted c s)).port ∧
    (missContextEvent c g s).links = (missContext c g (engineGranted c s)).links ∧
    (missContextEvent c g s).work c = (missContext c g (engineGranted c s)).work c :=
  ⟨signalInterrupt_miss _ _, signalInterrupt_port _ _, signalInterrupt_links _ _,
    work_of_ctxs_eq (signalInterrupt_ctxs _ _) c⟩

end

end Sys2Proof.Machine

namespace Sys2Proof.Proofs

open Sys2Proof.Machine

/-- Settles O45: a record read that hits is carried out on the resident copy, and a request that misses joins the Miss
Queue and waits, or stays ready. -/
theorem recordReadOnHit : Obligations.RecordReadOnHit := by
  unfold Obligations.RecordReadOnHit
  refine ⟨fun s c w r hgrant hw hres => ?_, fun s c w request command hrow hgrant hw hres => ?_,
    fun s c w r hw hr => ?_⟩
  · have hr := nextGrant_request hgrant hw
    obtain ⟨hportPtr, henginePtr, hportSide⟩ := engineServed_hitContextEvent c r s w.next
    obtain ⟨hresident, ⟨hlinks, hpark, hmiss, hstore, hport⟩, hhits⟩ := readEvent_kept hw hr hres
    refine ⟨_, exec_recordRead_of_hit hgrant hw hres, hportPtr, henginePtr, hportSide, hresident, hlinks, hpark, hmiss,
      hstore, hport, rfl, hhits, fun g hj => readEvent_of_query hw hr hj,
      fun base count expected op reason hj ht => readEvent_of_refused hw hr hj ht,
      fun base count expected op hj ht => ?_⟩
    obtain ⟨hdomains, hgroups, hnext, hlast⟩ := readEvent_of_passed (g := w.next) hw hr hj ht
    exact ⟨hdomains, hgroups, fun h => ⟨_, hnext h, rfl, hr, rfl, rfl, rfl, sawHeld_noteMix w r⟩,
      fun h => ⟨_, _, hlast h, rfl, rfl, rfl, rfl, rfl, rfl, rfl, rfl, rfl, rfl, rfl, rfl,
        mark_freshRun _ _⟩⟩
  · obtain ⟨hportPtr, henginePtr, hportSide⟩ := engineServed_missContextEvent hw hres
    obtain ⟨hpark, hcache, hdomains, hgroups, hstore, hothers, hcounted⟩ := missContextEvent_missed c w.next s
    obtain ⟨hmiss, hport, hlinks, hwork⟩ := missContextEvent_eq c w.next s
    refine ⟨_, exec_of_miss hrow hgrant hw hres, hportPtr, henginePtr, hportSide, hpark, hcache, hdomains, hgroups,
      hstore, hothers, hcounted, fun e he => ?_, fun he => ?_⟩
    · rw [hmiss, hport, hlinks, hwork]
      exact missContext_of_entry (s := engineGranted c s) hw he
    · rw [hmiss, hport, hlinks, hwork]
      obtain ⟨hroom, hfull⟩ := missContext_of_none (s := engineGranted c s) hw he
      exact ⟨hroom, fun h => ⟨⟨(hfull h).1, (hfull h).2.1⟩, (hfull h).2.2.1, (hfull h).2.2.2⟩⟩
  · rw [serveContext_read hw hr]
    exact ⟨fun g hj => serveRead_of_query hw hj, fun base count expected op hj =>
      ⟨fun reason ht => serveRead_of_refused hw hj ht, fun ht h => serveRead_of_next hw hj ht h,
        fun ht h => serveRead_of_last hw hj ht h⟩⟩

end Sys2Proof.Proofs

/-! A record update of MARK and the end of MARK; the statement RecordUpdateMarks. -/

namespace Sys2Proof.Machine

section
variable {s t u v : State} {c : CtxId} {w : Work} {run : Run} {op : RangeOp} {r : GranuleRecord} {x : Stable} {g : Nat}

/-! ## MARK takes a record (R88) -/

theorem content_of_state (h : r.state = .stable x) : markedRecord c r = { r with state := .moving c x } := by
  rw [markedRecord, content_of_stable h]

theorem markRecord_of_unchanged (hx : r.state = .stable x) (h : op.unchanged x = true) :
    markRecord c w op r s = setWork c (some { w with unchanged := w.unchanged + 1 }) s := by
  have haction : markAction op r = .countUnchanged := by simp only [markAction, hx, h, if_true]
  simp only [markRecord, haction]

theorem markRecord_of_fenced (hx : r.state = .stable x) (h : op.unchanged x = false) (hf : x = .fenced)
    (ho : op ≠ .releaseFence) : markRecord c w op r s = setWork c (some { w with fenced := w.fenced + 1 }) s := by
  have hfenced : (decide (x = .fenced) && !decide (op = .releaseFence)) = true := by
    rw [decide_eq_true hf, decide_eq_false ho]
    rfl
  have haction : markAction op r = .countFenced := by
    simp only [markAction, hx, h, Bool.false_eq_true, if_false, hfenced, if_true]
  simp only [markRecord, haction]

theorem markRecord_of_marked (hrun : w.run = some run) (hx : r.state = .stable x) (h : op.unchanged x = false)
    (hm : x ≠ .fenced ∨ op = .releaseFence) : markRecord c w op r s =
      writeResident w.next { r with state := .moving c x } (setWork c (some { w with run := some { run with
        image := run.image ++ [(w.next, { r with state := .moving c x })], union := run.union ||| r.holders } }) s) := by
  have hmarked : (decide (x = .fenced) && !decide (op = .releaseFence)) = false := by
    rcases hm with hm | hm
    · rw [decide_eq_false hm, Bool.false_and]
    · rw [decide_eq_true hm, Bool.not_true, Bool.and_false]
  have haction : markAction op r = .mark := by
    simp only [markAction, hx, h, Bool.false_eq_true, if_false, hmarked]
  simp only [markRecord, haction, content_of_state hx, modRun_of_run _ hrun, Run.addRecord]

/-! ## The end of MARK (R89) -/

/-- The need of a wipe, settled at the end of MARK. -/
def Run.settled (op : RangeOp) (run : Run) : Run :=
  { run with needsWipe := run.image.any (fun e => op.needsWipe e.2.content) }

theorem recalls_iff : (run.image.any (fun e => op.needsRecall e.2.content) && decide (run.union ≠ 0)) = true ↔
    (∃ e ∈ run.image, op.needsRecall e.2.content = true) ∧ run.union ≠ 0 := by
  rw [Bool.and_eq_true, List.any_eq_true, decide_eq_true_eq]

theorem endMark_of_run (hw : s.work c = some w) (hr : w.run = some run) (ho : w.job.op = some op) : endMark c s =
    if run.image.isEmpty then endRun c (releaseReservation w.job (2 ^ run.order) s)
    else if run.image.any (fun e => op.needsRecall e.2.content) && decide (run.union ≠ 0) then
      recallFanOut c run.base run.order run.union (setWork c (some { w with run := some (run.settled op) }) s)
    else if run.image.any (fun e => op.needsWipe e.2.content) then
      setWork c (some { w with run := some (run.settled op), phase := .wipe, request := .wipeStart, waiting := false }) s
    else setWork c (some ({ w with run := some (run.settled op) }.enterCommit false)) s := by
  simp only [endMark, hw, hr, ho, modRun_of_run _ hr, Run.settled]

/-! ## A record update carried out -/

theorem serveContext_update (hw : s.work c = some w) (hr : w.request = .update) :
    serveContext c r s = serveUpdate c r s := by
  simp only [serveContext, hw, Option.map_some, hr]

theorem serveUpdate_of_next (hw : s.work c = some w) (hr : w.run = some run) (ho : w.job.op = some op)
    (h : w.next + 1 < run.base + 2 ^ run.order) : serveUpdate c r s =
      modWork c (fun w => { w with next := w.next + 1 }) (markRecord c w.taken op r s) := by
  simp only [serveUpdate, hw, hr, ho, if_pos h, Work.taken]

theorem serveUpdate_of_last (hw : s.work c = some w) (hr : w.run = some run) (ho : w.job.op = some op)
    (h : run.base + 2 ^ run.order ≤ w.next + 1) : serveUpdate c r s = endMark c (markRecord c w.taken op r s) := by
  simp only [serveUpdate, hw, hr, ho, if_neg (Nat.not_lt.mpr h), Work.taken]

theorem work_writeResident (g : Nat) (r : GranuleRecord) (s : State) (c : CtxId) :
    (writeResident g r s).work c = s.work c := by
  unfold writeResident
  split <;> rfl

/-- What MARK's taking of a record leaves of the context. -/
structure MarkTaken (w w' : Work) : Prop where
  phase : w'.phase = w.phase
  request : w'.request = w.request
  next : w'.next = w.next
  changed : w'.changed = w.changed

theorem work_markRecord (c : CtxId) (w : Work) (op : RangeOp) (r : GranuleRecord) (s : State) :
    ∃ w', (markRecord c w op r s).work c = some w' ∧ MarkTaken w w' := by
  unfold markRecord
  split
  · exact ⟨_, work_setWork_same _ _ _, rfl, rfl, rfl, rfl⟩
  · exact ⟨_, work_setWork_same _ _ _, rfl, rfl, rfl, rfl⟩
  · exact ⟨_, (work_writeResident _ _ _ c).trans (work_setWork_same _ _ _), rfl, rfl, rfl, rfl⟩

theorem work_markRecord_other {c' : CtxId} (h : c' ≠ c) (w : Work) (op : RangeOp) (r : GranuleRecord) (s : State) :
    (markRecord c w op r s).work c' = s.work c' := by
  unfold markRecord
  split
  · exact work_setWork_other _ _ h
  · exact work_setWork_other _ _ h
  · exact (work_writeResident _ _ _ c').trans (work_setWork_other _ _ h)

/-! ## The use of a way, written or not -/

theorem touchResident_cache (h : u.cache = v.cache) (g : Nat) :
    (touchResident g u).cache = (touchResident g v).cache := by
  have hset := cacheSet_of_cache h g
  unfold touchResident
  rw [hset]
  split
  · simp only [putCacheSet, h]
  · exact h

theorem wayIs_touched (h : s.resident g = some r) : WayIs s g r false (touchResident g s) := by
  obtain ⟨n, hfind⟩ := find_of_resident h
  obtain ⟨y, hway, hgranule⟩ := find_way hfind
  have hr : y.record = r := Option.some.inj ((resident_of_find hfind hway).symm.trans h)
  have hset : (touchResident g s).cacheSet g = (s.cacheSet g).takeWay n y := by
    rw [touchResident_of_find hfind, cacheSet_putCacheSet_same, CacheSet.takeWay_self hway]
  refine ⟨(resident_touchResident g s).trans h, n, y, hfind, hway, ?_, ?_, ?_⟩
  · rw [hset, CacheSet.way_takeWay_same, ← hr, Bool.or_false]
  · rw [hset, CacheSet.way_takeWay_other]
  · rw [hset, CacheSet.lru_takeWay]

theorem wayIs_written (h : s.resident g = some r) (after : GranuleRecord) :
    WayIs s g after true (touchResident g (writeResident g after s)) := by
  obtain ⟨n, hfind⟩ := find_of_resident h
  obtain ⟨y, hway, hgranule⟩ := find_way hfind
  have hwritten := writeResident_of_find hfind after
  have hfound : ((writeResident g after s).cacheSet g).find g = some n := by
    rw [hwritten, cacheSet_putCacheSet_same]
    exact CacheSet.find_put_self hfind rfl
  have hset : (touchResident g (writeResident g after s)).cacheSet g =
      (s.cacheSet g).takeWay n { granule := g, record := after, dirty := true } := by
    rw [touchResident_of_find hfound, cacheSet_putCacheSet_same, hwritten, cacheSet_putCacheSet_same]
    rfl
  refine ⟨(resident_touchResident g _).trans (resident_writeResident h after), n, y, hfind, hway, ?_, ?_, ?_⟩
  · rw [hset, CacheSet.way_takeWay_same, Bool.or_true, ← hgranule]
  · rw [hset, CacheSet.way_takeWay_other]
  · rw [hset, CacheSet.lru_takeWay]

theorem WayIs.of_cache {after : GranuleRecord} {written : Bool} (h : WayIs s g after written t) (hs : u.cache = s.cache)
    (ht : v.cache = t.cache) : WayIs u g after written v := by
  obtain ⟨hresident, hway⟩ := h
  refine ⟨(resident_of_cache ht g).trans hresident, ?_⟩
  rw [cacheSet_of_cache hs, cacheSet_of_cache ht]
  exact hway

/-! ## The port event of a record update that hits -/

/-- The cache at the end of the event is that of the use of the way. -/
theorem hitContextEvent_cache (c : CtxId) (g : Nat) (r : GranuleRecord) (s : State) :
    (hitContextEvent c g r s).cache = (touchResident g (serveContext c r (engineGranted c s))).cache :=
  (signalInterrupt_cache _ _).trans (countEvent_cache _ _)

/-- MARK writes the contexts and the cache. -/
def MarksOnly (s t : State) : Prop := t = { s with ctxs := t.ctxs, cache := t.cache }

theorem writeResident_marksOnly (g : Nat) (r : GranuleRecord) (s : State) : MarksOnly s (writeResident g r s) := by
  unfold writeResident MarksOnly
  split <;> rfl

theorem setWork_marksOnly (c : CtxId) (w : Option Work) (s : State) : MarksOnly s (setWork c w s) := rfl

theorem MarksOnly.trans (h : MarksOnly s t) (h' : MarksOnly t u) : MarksOnly s u := by
  unfold MarksOnly at *
  rw [h', h]

theorem markRecord_marksOnly (c : CtxId) (w : Work) (op : RangeOp) (r : GranuleRecord) (s : State) :
    MarksOnly s (markRecord c w op r s) := by
  unfold markRecord
  split
  · exact setWork_marksOnly c _ s
  · exact setWork_marksOnly c _ s
  · exact (setWork_marksOnly c _ s).trans (writeResident_marksOnly _ _ _)

/-- What the port event of a record update short of the last granule keeps. -/
structure MarkKept (s t : State) : Prop where
  domains : t.domains = s.domains
  groups : t.groups = s.groups
  queues : QueuesKept s t
  counted : (t.counter (.ofPart .cacheHits)).value = (s.counter (.ofPart .cacheHits)).value + 1

theorem hitContextEvent_marked (h : MarksOnly (engineGranted c s) (serveContext c r (engineGranted c s))) (g : Nat) :
    MarkKept s (hitContextEvent c g r s) := by
  have hcounters : (serveContext c r (engineGranted c s)).counters = s.counters := by
    rw [h]
    rfl
  have hcounted := counter_hitContextEvent hcounters g
  have hhit := hitContext_eq c g r (engineGranted c s)
  have hsignal := signalInterrupt_frame s (hitContext c g r (engineGranted c s))
  have hevent : hitContextEvent c g r s = signalInterrupt s (hitContext c g r (engineGranted c s)) := rfl
  rw [← hevent] at hsignal
  unfold MarksOnly at h
  generalize hitContextEvent c g r s = t at hsignal hcounted ⊢
  generalize hitContext c g r (engineGranted c s) = v at hhit hsignal
  generalize serveContext c r (engineGranted c s) = v' at h hhit
  rw [hhit, h] at hsignal
  refine ⟨?_, ?_, ⟨?_, ?_, ?_, ?_, ?_⟩, hcounted⟩ <;> rw [hsignal] <;> rfl

theorem exec_recordUpdate_of_hit (h : s.nextGrant = some (.engine c .update)) (hw : s.work c = some w)
    (hres : s.resident w.next = some r) : exec .recordUpdate s = .next (hitContextEvent c w.next r s) := by
  rw [exec_recordUpdate h, lookUpContext_of_hit (s := engineGranted c s) hw hres, hitContextEvent]

theorem serveContext_of_update_next (hw : s.work c = some w) (hu : w.request = .update) (hr : w.run = some run)
    (ho : w.job.op = some op) (h : w.next + 1 < run.base + 2 ^ run.order) : serveContext c r (engineGranted c s) =
      modWork c (fun w => { w with next := w.next + 1 }) (markRecord c w.taken op r (engineGranted c s)) :=
  (serveContext_update (s := engineGranted c s) hw hu).trans (serveUpdate_of_next (s := engineGranted c s) hw hr ho h)

/-- Where MARK goes on, the cache at the end of the event is that of the record taken and its way used. -/
theorem updateEvent_cache (hw : s.work c = some w) (hu : w.request = .update) (hr : w.run = some run)
    (ho : w.job.op = some op) (h : w.next + 1 < run.base + 2 ^ run.order) (g : Nat) : (hitContextEvent c g r s).cache =
      (touchResident g (markRecord c w.taken op r (engineGranted c s))).cache := by
  rw [hitContextEvent_cache, serveContext_of_update_next hw hu hr ho h]
  exact touchResident_cache (modWork_cache _ _ _) g

theorem updateEvent_unwritten {w' : Option Work} (hcache : (hitContextEvent c g r s).cache =
    (touchResident g (setWork c w' (engineGranted c s))).cache) (hres : s.resident g = some r) :
    WayIs s g r false (hitContextEvent c g r s) := by
  refine (wayIs_touched hres).of_cache rfl (hcache.trans (touchResident_cache ?_ g))
  rfl

theorem writeResident_cache (h : u.cache = v.cache) (g : Nat) (r : GranuleRecord) :
    (writeResident g r u).cache = (writeResident g r v).cache := by
  have hset := cacheSet_of_cache h g
  unfold writeResident
  rw [hset]
  split
  · simp only [putCacheSet, h]
  · exact h

theorem updateEvent_written {w' : Option Work} {after : GranuleRecord} (hcache : (hitContextEvent c g r s).cache =
    (touchResident g (writeResident g after (setWork c w' (engineGranted c s)))).cache)
    (hres : s.resident g = some r) : WayIs s g after true (hitContextEvent c g r s) := by
  refine (wayIs_written hres after).of_cache rfl (hcache.trans (touchResident_cache ?_ g))
  exact writeResident_cache (u := setWork c w' (engineGranted c s)) (v := s) rfl g after

theorem cacheSet_touchResident_other {g' : Nat} (h : setOf g' ≠ setOf g) (s : State) :
    (touchResident g s).cacheSet g' = s.cacheSet g' := by
  unfold touchResident
  split
  · exact cacheSet_putCacheSet_other h _ s
  · rfl

theorem cacheSet_writeResident_other {g' : Nat} (h : setOf g' ≠ setOf g) (r : GranuleRecord) (s : State) :
    (writeResident g r s).cacheSet g' = s.cacheSet g' := by
  unfold writeResident
  split
  · exact cacheSet_putCacheSet_other h _ s
  · rfl

theorem cacheSet_markRecord_other {g' : Nat} (h : setOf g' ≠ setOf w.next) (c : CtxId) (op : RangeOp) (r : GranuleRecord)
    (s : State) : (markRecord c w op r s).cacheSet g' = s.cacheSet g' := by
  unfold markRecord
  split
  · rfl
  · rfl
  · rw [cacheSet_writeResident_other h]
    rfl

/-- The contexts after MARK takes a record and goes on. -/
theorem work_updateEvent {w1 : Work} (hw : s.work c = some w) (hu : w.request = .update) (hr : w.run = some run)
    (ho : w.job.op = some op) (h : w.next + 1 < run.base + 2 ^ run.order) (g : Nat)
    (hw1 : (markRecord c w.taken op r (engineGranted c s)).work c = some w1) :
    (hitContextEvent c g r s).work c = some { w1 with next := w1.next + 1 } ∧
    ∀ c', c' ≠ c → (hitContextEvent c g r s).work c' = s.work c' := by
  have hserved := serveContext_of_update_next (r := r) hw hu hr ho h
  refine ⟨?_, fun c' hc => ?_⟩
  · rw [work_hitContextEvent, hserved, modWork_of_work _ hw1, work_setWork_same]
  · rw [work_hitContextEvent, hserved, work_modWork_other _ _ hc, work_markRecord_other hc]
    rfl

end

end Sys2Proof.Machine

namespace Sys2Proof.Proofs

open Sys2Proof.Machine

/-- The end of MARK, by the first case that holds (R89). -/
theorem endMark_cases (s : State) (c : CtxId) (w : Work) (run : Run) (op : RangeOp) (hw : s.work c = some w)
    (hr : w.run = some run) (ho : w.job.op = some op) :
    let recalls := ∃ e ∈ run.image, op.needsRecall e.2.content = true
    let wipes := run.image.any (fun e => op.needsWipe e.2.content)
    let worked : Work := { w with run := some { run with needsWipe := wipes } }
    (run.image = [] → endMark c s = endRun c (releaseReservation w.job (2 ^ run.order) s)) ∧
    (run.image ≠ [] → recalls → run.union ≠ 0 →
      endMark c s = recallFanOut c run.base run.order run.union (setWork c (some worked) s)) ∧
    (run.image ≠ [] → ¬(recalls ∧ run.union ≠ 0) → wipes = true →
      endMark c s = setWork c (some { worked with phase := .wipe, request := .wipeStart, waiting := false }) s) ∧
    (run.image ≠ [] → ¬(recalls ∧ run.union ≠ 0) → wipes = false →
      endMark c s = setWork c (some { worked with phase := .commit, request := .commit false, waiting := false }) s) := by
  intro recalls wipes worked
  have hend := endMark_of_run hw hr ho
  have hsome : run.image ≠ [] → ¬run.image.isEmpty = true := fun h hempty => h (List.isEmpty_iff.mp hempty)
  refine ⟨fun h => ?_, fun h hrecalls hunion => ?_, fun h hno hwipes => ?_, fun h hno hwipes => ?_⟩
  · rw [hend, if_pos (List.isEmpty_iff.mpr h)]
  · rw [hend, if_neg (hsome h), if_pos (recalls_iff.mpr ⟨hrecalls, hunion⟩)]
    rfl
  · rw [hend, if_neg (hsome h), if_neg (mt recalls_iff.mp hno), if_pos hwipes]
    rfl
  · rw [hend, if_neg (hsome h), if_neg (mt recalls_iff.mp hno), if_neg (Bool.eq_false_iff.mp hwipes)]
    rfl

/-- Settles O48: MARK takes a record by its content, uses its way, and ends at the run's last granule. -/
theorem recordUpdateMarks : Obligations.RecordUpdateMarks := by
  unfold Obligations.RecordUpdateMarks
  refine ⟨fun s c w run op r x hgrant hw hr ho hres hx hnext => ?_, fun s c w run op r hgrant hw hr ho hres hlast => ?_,
    fun s c w run op r x hr hx => ⟨markRecord_of_unchanged hx, markRecord_of_fenced hx, markRecord_of_marked hr hx⟩,
    endMark_cases, fun s c w run op r hw hu hr ho => ⟨fun h => ?_, fun h => ?_⟩,
    fun s c r h => serveContext_of_other h⟩
  · have hu := nextGrant_request hgrant hw
    have hserved := serveContext_of_update_next (r := r) hw hu hr ho hnext
    have hcache := updateEvent_cache (r := r) hw hu hr ho hnext w.next
    obtain ⟨w1, hw1, hphase, hrequest, hat, hchanged⟩ := work_markRecord c w.taken op r (engineGranted c s)
    obtain ⟨hwork, hothers⟩ := work_updateEvent hw hu hr ho hnext w.next hw1
    obtain ⟨hportPtr, henginePtr, hportSide⟩ := engineServed_hitContextEvent c r s w.next
    have hmarks : MarksOnly (engineGranted c s) (serveContext c r (engineGranted c s)) := by
      rw [hserved]
      exact (markRecord_marksOnly c w.taken op r _).trans (setWork_marksOnly c _ _)
    obtain ⟨hdomains, hgroups, ⟨hlinks, hpark, hmiss, hstore, hport⟩, hcounted⟩ := hitContextEvent_marked hmarks w.next
    refine ⟨_, _, exec_recordUpdate_of_hit hgrant hw hres, hwork, hothers, hportPtr, henginePtr, hportSide, hdomains,
      hgroups, hlinks, hpark, hmiss, hstore, hport, hcounted, fun g hg => ?_, hphase, hrequest.trans hu,
      congrArg (· + 1) hat, hchanged, fun hun => ?_, fun hun hf hop => ?_, fun hun hm => ?_⟩
    · rw [cacheSet_of_cache hcache, cacheSet_touchResident_other hg, cacheSet_markRecord_other (w := w.taken) hg]
      rfl
    · rw [markRecord_of_unchanged hx hun] at hw1 hcache
      obtain rfl := Option.some.inj (hw1.symm.trans (work_setWork_same _ _ _))
      obtain ⟨hresident, hway⟩ := updateEvent_unwritten hcache hres
      exact ⟨⟨hresident, hway⟩, rfl, rfl, hr⟩
    · rw [markRecord_of_fenced hx hun hf hop] at hw1 hcache
      obtain rfl := Option.some.inj (hw1.symm.trans (work_setWork_same _ _ _))
      obtain ⟨hresident, hway⟩ := updateEvent_unwritten hcache hres
      exact ⟨⟨hresident, hway⟩, rfl, rfl, hr⟩
    · rw [markRecord_of_marked (w := w.taken) hr hx hun hm] at hw1 hcache
      obtain rfl := Option.some.inj (hw1.symm.trans ((work_writeResident _ _ _ c).trans (work_setWork_same _ _ _)))
      obtain ⟨hresident, hway⟩ := updateEvent_written hcache hres
      exact ⟨⟨hresident, hway⟩, rfl, rfl, rfl⟩
  · have hu := nextGrant_request hgrant hw
    rw [exec_recordUpdate_of_hit hgrant hw hres, hitContextEvent, hitContext,
      serveContext_update (s := engineGranted c s) hw hu, serveUpdate_of_last (s := engineGranted c s) hw hr ho hlast]
    rfl
  · obtain ⟨w1, hw1, -, -, hat, -⟩ := work_markRecord c w.taken op r s
    refine ⟨w1, hw1, ?_⟩
    rw [serveContext_update hw hu, serveUpdate_of_next hw hr ho h, modWork_of_work _ hw1, hat]
    rfl
  · exact (serveContext_update hw hu).trans (serveUpdate_of_last hw hr ho h)

end Sys2Proof.Proofs

/-! The recall fan-out; the statement RecallFanOutByLinkState. -/

namespace Sys2Proof.Machine

section
variable {s : State} {c : CtxId} {w : Work} {r : Run} {l : LinkId}

/-! ## The order toward one link (Table 5.5) -/

/-- A context's mark of a link is set. -/
def markLink (c : CtxId) (l : LinkId) (m : RecallMark) (s : State) : State :=
  modWork c (Work.modRun (fun r => r.setMark l m)) s

theorem markLink_of_run (hw : s.work c = some w) (hr : w.run = some r) (l : LinkId) (m : RecallMark) :
    markLink c l m s = setWork c (some { w with run := some (r.setMark l m) }) s := by
  rw [markLink, modWork_of_work _ hw, modRun_of_run _ hr]

theorem recallTo_of_room (hu : (s.link l).state = .up) (hroom : orderCount (s.link l) < 38) (c : CtxId)
    (base order : Nat) : recallTo c base order l s = markLink c l .awaitingAck
      (countEvent (.ofLink l .recallsSent) (placeFrame l (.recall base order c (s.runSeq c)) s)) := by
  simp only [recallTo, hu]
  exact if_pos hroom

theorem recallTo_of_full (hu : (s.link l).state = .up) (hfull : 38 ≤ orderCount (s.link l)) (c : CtxId)
    (base order : Nat) :
    recallTo c base order l s = markLink c l .awaitingRejoin (leaveUpToRejoin l .protocol s) := by
  simp only [recallTo, hu]
  exact if_neg (Nat.not_lt.mpr hfull)

theorem recallTo_of_rejoining (hs : (s.link l).state = .rejoining) (c : CtxId) (base order : Nat) :
    recallTo c base order l s = markLink c l .awaitingRejoin s := by
  simp only [recallTo, hs, markLink]

theorem recallTo_of_failed (hs : (s.link l).state = .failed) (c : CtxId) (base order : Nat) :
    recallTo c base order l s = modWork c (Work.modRun (Run.fence .linkFailed (some l))) s := by
  simp only [recallTo, hs]

theorem recallTo_of_off (hs : (s.link l).state = .off) (c : CtxId) (base order : Nat) :
    recallTo c base order l s = modWork c (Work.modRun (Run.fence .linkOff (some l))) s := by
  simp only [recallTo, hs]

/-- An UP link with a place is sent the order, awaited and counted. -/
theorem recallTo_sent (hu : (s.link l).state = .up) (hroom : orderCount (s.link l) < 38) (hw : s.work c = some w)
    (hr : w.run = some r) (base order : Nat) :
    (recallTo c base order l s).work c = some { w with run := some (r.setMark l .awaitingAck) } ∧
    (recallTo c base order l s).link l =
      { s.link l with tx := (s.link l).tx ++ [.recall base order c (s.runSeq c)] } ∧
    ((recallTo c base order l s).counter (.ofLink l .recallsSent)).value =
      (s.counter (.ofLink l .recallsSent)).value + 1 := by
  have hcounted := countEvent_value (.ofLink l .recallsSent) (placeFrame l (.recall base order c (s.runSeq c)) s)
  have hctxs := countEvent_ctxs (.ofLink l .recallsSent) (placeFrame l (.recall base order c (s.runSeq c)) s)
  have hlinks := countEvent_links (.ofLink l .recallsSent) (placeFrame l (.recall base order c (s.runSeq c)) s)
  rw [recallTo_of_room hu hroom]
  generalize countEvent (.ofLink l .recallsSent) (placeFrame l (.recall base order c (s.runSeq c)) s) = v
    at hcounted hctxs hlinks ⊢
  refine ⟨?_, ?_, hcounted⟩
  · rw [markLink_of_run ((work_of_ctxs_eq (s := s) hctxs c).trans hw) hr, work_setWork_same]
  · have hmarked : (markLink c l .awaitingAck v).link l = v.link l := link_of_links_eq rfl l
    rw [hmarked, link_of_links_eq hlinks, placeFrame, link_modLink_same]

/-! ## The fan-out (R90) -/

theorem leaveUpToRejoin_settings (l : LinkId) (cause : DownCause) (s : State) :
    (leaveUpToRejoin l cause s).settings = s.settings := by
  have h := (leaveUpToRejoin_left l cause s).rest
  simp only [Prod.mk.injEq] at h
  obtain ⟨-, -, -, -, -, -, -, hsettings⟩ := h
  exact hsettings

theorem recallTo_settings (c : CtxId) (base order : Nat) (l : LinkId) (s : State) :
    (recallTo c base order l s).settings = s.settings := by
  cases hs : (s.link l).state with
  | up =>
    rcases Nat.lt_or_ge (orderCount (s.link l)) 38 with h | h
    · rw [recallTo_of_room hs h, markLink, modWork_settings, countEvent_settings, placeFrame_settings]
    · rw [recallTo_of_full hs h, markLink, modWork_settings, leaveUpToRejoin_settings]
  | rejoining => rw [recallTo_of_rejoining hs, markLink, modWork_settings]
  | failed => rw [recallTo_of_failed hs, modWork_settings]
  | off => rw [recallTo_of_off hs, modWork_settings]

/-- The orders to a list of links, in turn. -/
def recallAll (c : CtxId) (base order : Nat) (L : List LinkId) (s : State) : State :=
  L.foldl (fun s l => recallTo c base order l s) s

theorem recallAll_settings (c : CtxId) (base order : Nat) (L : List LinkId) (s : State) :
    (recallAll c base order L s).settings = s.settings := by
  induction L generalizing s with
  | nil => rfl
  | cons l L ih => exact (ih _).trans (recallTo_settings c base order l s)

/-- A context as it enters RECALL. -/
def Work.inRecall (w : Work) : Work := { w with phase := .recall, request := .noRequest, waiting := false }

/-- A context as the fan-out leaves it. -/
def Work.fannedOut (deadline : Nat) (w : Work) : Work :=
  match w.run with
  | none => w
  | some r => if r.allCleared then w.endRecall else { w with run := some { r with deadline := some (.recall deadline) } }

/-- The state after the orders of a fan-out. -/
def askAll (c : CtxId) (base order : Nat) (union : LinkSet) (s : State) : State :=
  recallAll c base order (allLinks.filter (fun l => linkIn l union)) (modWork c Work.inRecall s)

theorem recallFanOut_eq (c : CtxId) (base order : Nat) (union : LinkSet) (s : State) : recallFanOut c base order union s =
    modWork c (Work.fannedOut (askAll c base order union s).settings.recallDeadline) (askAll c base order union s) := rfl

theorem askAll_settings (c : CtxId) (base order : Nat) (union : LinkSet) (s : State) :
    (askAll c base order union s).settings = s.settings :=
  (recallAll_settings c base order _ _).trans (modWork_settings _ _ _)

theorem askAll_of_work (hw : s.work c = some w) (base order : Nat) (union : LinkSet) : askAll c base order union s =
    recallAll c base order (allLinks.filter (fun l => linkIn l union)) (setWork c (some w.inRecall) s) := by
  rw [askAll, modWork_of_work _ hw]

theorem fannedOut_of_cleared (hr : w.run = some r) (h : ∀ l, r.mark l = .noMark) (deadline : Nat) :
    w.fannedOut deadline = w.endRecall := by
  simp only [Work.fannedOut, hr, allCleared_iff.mpr h, if_true]

theorem fannedOut_of_marked (hr : w.run = some r) (h : ∃ l, r.mark l ≠ .noMark) (deadline : Nat) :
    w.fannedOut deadline = { w with run := some { r with deadline := some (.recall deadline) } } := by
  obtain ⟨l, hl⟩ := h
  have hmarked : r.allCleared = false := Bool.eq_false_iff.mpr fun hall => hl (allCleared_iff.mp hall l)
  simp only [Work.fannedOut, hr, hmarked, Bool.false_eq_true, if_false]

theorem recallFanOut_of_asked {base order : Nat} {union : LinkSet}
    (hw : (askAll c base order union s).work c = some w) : recallFanOut c base order union s =
      setWork c (some (w.fannedOut s.settings.recallDeadline)) (askAll c base order union s) := by
  rw [recallFanOut_eq, modWork_of_work _ hw, askAll_settings]

end

end Sys2Proof.Machine

namespace Sys2Proof.Proofs

open Sys2Proof.Machine

/-- Settles O49: each link takes the order by its state, and the fan-out ends with the deadline or with the phase. -/
theorem recallFanOutByLinkState : Obligations.RecallFanOutByLinkState := by
  unfold Obligations.RecallFanOutByLinkState
  refine ⟨fun s c base order l w r hw hr => ⟨fun hu hroom => recallTo_sent hu hroom hw hr base order,
      fun hs => ?_, fun hs => ?_, fun hs => ?_, fun hu hfull => ?_⟩,
    fun s c base order union w hw => ?_,
    fun w r hr => ⟨fun cause link ho => endRecall_of_fenced hr (by rw [ho]; simp), endRecall_of_aborted hr,
      endRecall_of_wipe hr, endRecall_of_clean hr⟩⟩
  · rw [recallTo_of_rejoining hs, markLink_of_run hw hr]
  · rw [recallTo_of_failed hs, modWork_of_work _ hw, modRun_of_run _ hr]
  · rw [recallTo_of_off hs, modWork_of_work _ hw, modRun_of_run _ hr]
  · have hleft := leaveUpToRejoin_left l .protocol s
    have hlink := hleft.link
    refine ⟨recallTo_of_full hu hfull c base order, ?_, ?_, ?_, hleft.work⟩ <;> rw [hlink] <;> rfl
  · intro entered asked w' r hw' hr
    have hasked : askAll c base order union s = asked := askAll_of_work hw base order union
    rw [← hasked] at hw' ⊢
    rw [recallFanOut_of_asked hw']
    exact ⟨fun h => by rw [fannedOut_of_cleared hr h], fun h => by rw [fannedOut_of_marked hr h]⟩

end Sys2Proof.Proofs

/-! Run writes, and the wipe start; the statement WipeStartSendsOrFences. -/

namespace Sys2Proof.Machine

section
variable {s t u v : State} {c : CtxId} {w : Work} {r : Run} {l : LinkId}

/-! ## Run writes (R47) -/

theorem runWrite_cons (e : Nat × GranuleRecord) (rest : List (Nat × GranuleRecord)) (s : State) :
    runWrite (e :: rest) s = runWrite rest (runWriteRecord s e) := rfl

theorem runWrite_frame (records : List (Nat × GranuleRecord)) (s : State) : runWrite records s =
    { s with cache := (runWrite records s).cache, port := (runWrite records s).port
             miss := (runWrite records s).miss } := by
  induction records generalizing s with
  | nil => rfl
  | cons e rest ih =>
    have hrest := ih (runWriteRecord s e)
    have hfirst := runWriteRecord_frame s e.1 e.2
    rw [runWrite_cons]
    dsimp only at hfirst
    generalize runWrite rest (runWriteRecord s e) = t at hrest ⊢
    generalize runWriteRecord s e = v at hrest hfirst
    rw [hrest, hfirst]

/-- What a run write reads and writes: the Record Cache, the Tag Store Port and the Miss Queue. -/
structure SameStores (s t : State) : Prop where
  cache : t.cache = s.cache
  port : t.port = s.port
  miss : t.miss = s.miss

theorem putCacheSet_sameStores (h : SameStores s t) (g : Nat) (x : CacheSet) :
    SameStores (putCacheSet g x s) (putCacheSet g x t) :=
  ⟨congrArg (fun cache => tablePut CacheSet.initial cache (setOf g) x) h.cache, h.port, h.miss⟩

theorem runWriteRecord_sameStores (h : SameStores s t) (g : Nat) (r : GranuleRecord) :
    SameStores (runWriteRecord s (g, r)) (runWriteRecord t (g, r)) := by
  have hset := cacheSet_of_cache h.cache g
  by_cases hres : s.resident g = none
  · have hres' : t.resident g = none := (resident_of_cache h.cache g).trans hres
    rw [runWriteRecord_of_absent hres, runWriteRecord_of_absent hres']
    refine ⟨h.cache, ?_, ?_⟩
    · exact congrArg (· ++ [portWrite g r]) h.port
    · exact congrArg (List.map _) h.miss
  · obtain ⟨n, hfind⟩ := (Serving.resident_iff s g).mp hres
    have hfind' : (t.cacheSet g).find g = some n := by rw [hset, hfind]
    rw [runWriteRecord_of_find hfind, runWriteRecord_of_find hfind', hset]
    exact putCacheSet_sameStores (putCacheSet_sameStores h g _) g _

theorem runWrite_sameStores (h : SameStores s t) (records : List (Nat × GranuleRecord)) :
    SameStores (runWrite records s) (runWrite records t) := by
  induction records generalizing s t with
  | nil => exact h
  | cons e rest ih => exact ih (runWriteRecord_sameStores h e.1 e.2)

theorem runWrite_ctxs (records : List (Nat × GranuleRecord)) (s : State) : (runWrite records s).ctxs = s.ctxs := by
  rw [runWrite_frame]

theorem runWrite_links (records : List (Nat × GranuleRecord)) (s : State) : (runWrite records s).links = s.links := by
  rw [runWrite_frame]

/-! ## The wipe start (R93) -/

/-- The records of a run as its wipe starts. -/
def Run.wiping (c : CtxId) (r : Run) : List (Nat × GranuleRecord) :=
  r.image.map (fun e => (e.1, { e.2 with state := .wiping c e.2.content }))

/-- A run whose wipe is outstanding. -/
def Run.sent (c : CtxId) (l : LinkId) (deadline : Nat) (r : Run) : Run :=
  { r with image := r.wiping c, wipe := .outstanding l, deadline := some (.wipe deadline) }

/-- A context whose wipe is outstanding. -/
def Work.sent (c : CtxId) (l : LinkId) (deadline : Nat) (r : Run) (w : Work) : Work :=
  { w with request := .noRequest, waiting := false, run := some (r.sent c l deadline) }

/-- The state after the records of a wipe are written. -/
def writeWiping (c : CtxId) (w : Work) (r : Run) (l : LinkId) (s : State) : State :=
  runWrite (r.wiping c) (setWork c (some (w.sent c l s.settings.wipeDeadline r)) s)

theorem sendWipe_eq (c : CtxId) (w : Work) (r : Run) (l : LinkId) (s : State) : sendWipe c w r l s =
    placeFrame l (.wipe r.base r.order c (s.runSeq c)) (writeWiping c w r l s) := by
  have hseq : (setWork c (some (w.sent c l s.settings.wipeDeadline r)) s).runSeq c = s.runSeq c := runSeq_setWork _ _ _ _
  rw [← hseq]
  rfl

theorem doWipeStart_of_room (hw : s.work c = some w) (hr : w.run = some r) (hhome : s.homeLink r.base = some l)
    (hu : (s.link l).state = .up) (hroom : orderCount (s.link l) < 38) : doWipeStart c s = sendWipe c w r l s := by
  simp only [doWipeStart, hw, hr, hhome, hu, if_true]
  exact if_pos hroom

theorem doWipeStart_of_full (hw : s.work c = some w) (hr : w.run = some r) (hhome : s.homeLink r.base = some l)
    (hu : (s.link l).state = .up) (hfull : 38 ≤ orderCount (s.link l)) : doWipeStart c s =
      modWork c (Work.failWipe .wipeLinkDown (some l)) (leaveUpToRejoin l .protocol s) := by
  simp only [doWipeStart, hw, hr, hhome, hu, if_true]
  exact if_neg (Nat.not_lt.mpr hfull)

theorem doWipeStart_of_down (hw : s.work c = some w) (hr : w.run = some r) {home : Option LinkId}
    (hhome : s.homeLink r.base = home) (hdown : ∀ l, home = some l → (s.link l).state ≠ .up) :
    doWipeStart c s = modWork c (Work.failWipe .wipeLinkDown home) s := by
  cases home with
  | none => simp only [doWipeStart, hw, hr, hhome]
  | some l => simp only [doWipeStart, hw, hr, hhome, if_neg (hdown l rfl)]

/-- A context as it enters COMMIT since its wipe's home link is down. -/
def Work.unwiped (home : Option LinkId) (r : Run) (w : Work) : Work :=
  { w with
    run := some { r with outcome := .fenced .wipeLinkDown home, wipe := .notSent, deadline := none }
    phase := .commit, request := .commit false, waiting := false }

theorem failWipe_of_clean (hr : w.run = some r) (ho : r.outcome = .clean) (home : Option LinkId) :
    w.failWipe .wipeLinkDown home = w.unwiped home r := by
  rw [failWipe_of_run _ _ hr, fence_of_clean _ _ ho]
  rfl

theorem exec_wipeStart (h : s.nextGrant = some (.engine c .wipeStart)) :
    exec .wipeStart s = .next (signalInterrupt s (doWipeStart c (engineGranted c s))) := by
  have hexec : exec .wipeStart s = execWipeStart s := rfl
  simp only [hexec, execWipeStart, event, h]

/-- The tables and the Tag Store stay. -/
structure StoresKept (s t : State) : Prop where
  domains : t.domains = s.domains
  groups : t.groups = s.groups
  store : t.store = s.store

theorem leaveUpToRejoin_stores (l : LinkId) (cause : DownCause) (s : State) :
    StoresKept s (leaveUpToRejoin l cause s) := by
  have h := (leaveUpToRejoin_left l cause s).rest
  simp only [Prod.mk.injEq] at h
  obtain ⟨hdomains, hgroups, hstore, -⟩ := h
  exact ⟨hdomains, hgroups, hstore⟩

theorem writeWiping_frame (c : CtxId) (w : Work) (r : Run) (l : LinkId) (s : State) : writeWiping c w r l s = { s with
    ctxs := (writeWiping c w r l s).ctxs, cache := (writeWiping c w r l s).cache
    port := (writeWiping c w r l s).port, miss := (writeWiping c w r l s).miss } := by
  have h := runWrite_frame (r.wiping c) (setWork c (some (w.sent c l s.settings.wipeDeadline r)) s)
  have hwrite : writeWiping c w r l s = runWrite (r.wiping c) (setWork c (some (w.sent c l s.settings.wipeDeadline r)) s) :=
    rfl
  rw [← hwrite] at h
  generalize writeWiping c w r l s = t at h ⊢
  rw [h]
  rfl

theorem doWipeStart_stores (c : CtxId) (s : State) : StoresKept s (doWipeStart c s) := by
  unfold doWipeStart
  split
  · exact ⟨rfl, rfl, rfl⟩
  · split
    · exact ⟨rfl, rfl, rfl⟩
    · split
      · exact ⟨rfl, rfl, rfl⟩
      · split
        · split
          · rw [sendWipe_eq]
            refine ⟨?_, ?_, ?_⟩
            · rw [placeFrame_domains, writeWiping_frame]
            · rw [placeFrame_groups, writeWiping_frame]
            · rw [placeFrame_store, writeWiping_frame]
          · next l _ _ _ =>
            obtain ⟨hdomains, hgroups, hstore⟩ := leaveUpToRejoin_stores l .protocol s
            exact ⟨(modWork_domains _ _ _).trans hdomains, (modWork_groups _ _ _).trans hgroups,
              (modWork_store _ _ _).trans hstore⟩
        · exact ⟨rfl, rfl, rfl⟩

/-! ## The three outcomes of the event -/

/-- The event of a wipe start. -/
def wipeEvent (c : CtxId) (s : State) : State := signalInterrupt s (doWipeStart c (engineGranted c s))

theorem wipeEvent_stores (c : CtxId) (s : State) : StoresKept s (wipeEvent c s) := by
  obtain ⟨hdomains, hgroups, hstore⟩ := doWipeStart_stores c (engineGranted c s)
  exact ⟨(signalInterrupt_domains _ _).trans hdomains, (signalInterrupt_groups _ _).trans hgroups,
    (signalInterrupt_store _ _).trans hstore⟩

/-- The wipe is sent to the home link. -/
theorem wipeEvent_of_room (hw : s.work c = some w) (hr : w.run = some r) (hhome : s.homeLink r.base = some l)
    (hu : (s.link l).state = .up) (hroom : orderCount (s.link l) < 38) :
    (wipeEvent c s).work c = some (w.sent c l s.settings.wipeDeadline r) ∧
    (wipeEvent c s).link l = { s.link l with tx := (s.link l).tx ++ [.wipe r.base r.order c (s.runSeq c)] } ∧
    (∀ l', l' ≠ l → (wipeEvent c s).link l' = s.link l') ∧ (∀ c', c' ≠ c → (wipeEvent c s).work c' = s.work c') ∧
    SameStores (runWrite (r.wiping c) s) (wipeEvent c s) := by
  have hstart : doWipeStart c (engineGranted c s) = _ :=
    (doWipeStart_of_room (s := engineGranted c s) hw hr hhome hu hroom).trans (sendWipe_eq c w r l (engineGranted c s))
  have hctxs : (writeWiping c w r l (engineGranted c s)).ctxs =
      (setWork c (some (w.sent c l s.settings.wipeDeadline r)) (engineGranted c s)).ctxs := runWrite_ctxs _ _
  have hlinks : (writeWiping c w r l (engineGranted c s)).links = s.links := runWrite_links _ _
  have hsame : SameStores s (setWork c (some (w.sent c l s.settings.wipeDeadline r)) (engineGranted c s)) :=
    ⟨rfl, rfl, rfl⟩
  have hstores : SameStores (runWrite (r.wiping c) s) (writeWiping c w r l (engineGranted c s)) :=
    runWrite_sameStores hsame (r.wiping c)
  rw [wipeEvent, hstart]
  generalize writeWiping c w r l (engineGranted c s) = v at hctxs hlinks hstores
  refine ⟨?_, ?_, fun l' hl => ?_, fun c' hc => ?_, ⟨?_, ?_, ?_⟩⟩
  · rw [work_of_ctxs_eq (signalInterrupt_ctxs _ _), work_of_ctxs_eq (placeFrame_ctxs _ _ _), work_of_ctxs_eq hctxs,
      work_setWork_same]
  · rw [link_of_links_eq (signalInterrupt_links _ _), placeFrame, link_modLink_same, link_of_links_eq hlinks]
    rfl
  · rw [link_of_links_eq (signalInterrupt_links _ _), placeFrame, link_modLink_other _ _ hl, link_of_links_eq hlinks]
  · rw [work_of_ctxs_eq (signalInterrupt_ctxs _ _), work_of_ctxs_eq (placeFrame_ctxs _ _ _), work_of_ctxs_eq hctxs,
      work_setWork_other _ _ hc]
    rfl
  · rw [signalInterrupt_cache, placeFrame_cache, hstores.cache]
  · rw [signalInterrupt_port, placeFrame_port, hstores.port]
  · rw [signalInterrupt_miss, placeFrame_miss, hstores.miss]

/-- The home link is not UP: the run is fenced. -/
theorem wipeEvent_of_down (hw : s.work c = some w) (hr : w.run = some r) (ho : r.outcome = .clean)
    {home : Option LinkId} (hhome : s.homeLink r.base = home) (hdown : ∀ l, home = some l → (s.link l).state ≠ .up) :
    (wipeEvent c s).work c = some (w.unwiped home r) ∧ (wipeEvent c s).links = s.links ∧
    SameStores s (wipeEvent c s) := by
  have hstart := doWipeStart_of_down (s := engineGranted c s) hw hr hhome hdown
  rw [wipeEvent, hstart, modWork_of_work (s := engineGranted c s) _ hw, failWipe_of_clean hr ho]
  refine ⟨?_, signalInterrupt_links _ _, signalInterrupt_cache _ _, signalInterrupt_port _ _, signalInterrupt_miss _ _⟩
  rw [work_of_ctxs_eq (signalInterrupt_ctxs _ _), work_setWork_same]

/-- The home link has no place for the order: it leaves UP, and the run is fenced. -/
theorem wipeEvent_of_full (hw : s.work c = some w) (hr : w.run = some r) (ho : r.outcome = .clean)
    (hhome : s.homeLink r.base = some l) (hu : (s.link l).state = .up) (hfull : 38 ≤ orderCount (s.link l))
    (hm : r.mark l ≠ .awaitingAck) (hout : r.wipe ≠ .outstanding l) :
    wipeEvent c s = signalInterrupt s (modWork c (Work.failWipe .wipeLinkDown (some l))
      (leaveUpToRejoin l .protocol (engineGranted c s))) ∧
    (wipeEvent c s).work c = some (w.unwiped (some l) r) ∧
    ((wipeEvent c s).link l).state = .rejoining ∧ ((wipeEvent c s).link l).attempt = 1 ∧
    ((wipeEvent c s).link l).rejoinNumber = (s.link l).rejoinNumber + 1 ∧ (wipeEvent c s).cache = s.cache ∧
    (wipeEvent c s).port = s.port := by
  have hstart := doWipeStart_of_full (s := engineGranted c s) hw hr hhome hu hfull
  have hleft := leaveUpToRejoin_left l .protocol (engineGranted c s)
  have hwork : (leaveUpToRejoin l .protocol (engineGranted c s)).work c = some w := by
    rw [hleft.work]
    exact (congrArg (Option.map (Work.linkRejoining l)) hw).trans
      (congrArg some (linkRejoining_of_not_awaiting hr hm hout))
  have hlink := hleft.link
  have hrest := hleft.rest
  simp only [Prod.mk.injEq] at hrest
  obtain ⟨-, -, -, hcache, hport, -⟩ := hrest
  rw [wipeEvent, hstart]
  generalize leaveUpToRejoin l .protocol (engineGranted c s) = v at hwork hlink hcache hport
  rw [modWork_of_work _ hwork, failWipe_of_clean hr ho]
  have hevent : (signalInterrupt s (setWork c (some (w.unwiped (some l) r)) v)).link l = v.link l :=
    link_of_links_eq (signalInterrupt_links _ _) l
  refine ⟨rfl, ?_, ?_, ?_, ?_, (signalInterrupt_cache _ _).trans hcache, (signalInterrupt_port _ _).trans hport⟩
  · rw [work_of_ctxs_eq (signalInterrupt_ctxs _ _), work_setWork_same]
  all_goals
    rw [hevent, hlink]
    rfl

end

end Sys2Proof.Machine

namespace Sys2Proof.Proofs

open Sys2Proof.Machine

/-- Settles O50: the wipe goes to an UP home link with a place for it, and else fences its run. -/
theorem wipeStartSendsOrFences : Obligations.WipeStartSendsOrFences := by
  unfold Obligations.WipeStartSendsOrFences
  intro s c w r hgrant hw hr ho
  obtain ⟨hdomains, hgroups, hstore⟩ := wipeEvent_stores c s
  obtain ⟨hportPtr, henginePtr, hportSide⟩ :=
    engineServed_of_inner (s := s) ((Inner.refl (engineGranted c s)).doWipeStart c)
  refine ⟨wipeEvent c s, exec_wipeStart hgrant, hportPtr, henginePtr, hportSide, hdomains, hgroups, hstore,
    fun l hhome hu hroom => ?_, fun home hhome hdown => ?_,
    fun l hhome hu hfull hm hout => wipeEvent_of_full hw hr ho hhome hu hfull hm hout⟩
  · obtain ⟨hwork, hlink, hlinks, hothers, hcache, hport, hmiss⟩ := wipeEvent_of_room hw hr hhome hu hroom
    refine ⟨hwork, hlink, hlinks, hothers, ?_⟩
    rw [hcache, hport, hmiss]
    rfl
  · obtain ⟨hwork, hlinks, hcache, hport, hmiss⟩ := wipeEvent_of_down hw hr ho hhome hdown
    exact ⟨hwork, hlinks, hcache, hmiss, hport⟩

end Sys2Proof.Proofs

/-! The revert of a run; the statement RevertWritesPriors. -/

namespace Sys2Proof.Machine

section
variable {s t : State} {c : CtxId} {w : Work} {run : Run}

/-! ## A run with no check parked on it -/

/-- No parked check is on a granule of a block. -/
def Unparked (s : State) (base count : Nat) : Prop :=
  ∀ k ∈ s.park, ¬(base ≤ k.granule ∧ k.granule < base + count)

theorem redecideRun_of_unparked {base count : Nat} (h : Unparked s base count) (records : List (Nat × GranuleRecord)) :
    redecideRun base count records s = (s, records) := by
  have hcovered : ∀ k ∈ s.park, (decide (base ≤ k.granule) && decide (k.granule < base + count)) = false :=
    fun k hk => by rw [← Bool.decide_and, decide_eq_false (h k hk)]
  have hnone : s.park.filter (fun k => decide (base ≤ k.granule) && decide (k.granule < base + count)) = [] :=
    List.filter_eq_nil_iff.mpr fun k hk => Bool.eq_false_iff.mp (hcovered k hk)
  have hall : s.park.filter (fun k => !(decide (base ≤ k.granule) && decide (k.granule < base + count))) = s.park :=
    List.filter_eq_self.mpr fun k hk => by rw [hcovered k hk]; rfl
  simp only [redecideRun, hnone, hall, decideParked]
  rw [presentOccupancy_of_same ⟨rfl, rfl⟩]

/-! ## REVERT (R121, R122) -/

/-- The records of a run as a revert writes them. -/
def Run.reverted (run : Run) : List (Nat × GranuleRecord) := run.image.map (fun e => (e.1, revertedRecord run e.2))

theorem exec_revert (h : s.nextGrant = some (.engine c .revert)) :
    exec .revert s = .next (signalInterrupt s (doRevert c (engineGranted c s))) := by
  have hexec : exec .revert s = execRevert s := rfl
  simp only [hexec, execRevert, event, h]

theorem doRevert_of_run (hw : s.work c = some w) (hr : w.run = some run) : doRevert c s =
    stopContext c w (runWrite (redecideRun run.base (2 ^ run.order) run.reverted s).2
      (redecideRun run.base (2 ^ run.order) run.reverted s).1) := by
  simp only [doRevert, hw, hr, Run.reverted]

/-- A context that has stopped. -/
def Work.stopped (w : Work) : Work := w.enterPost .aborted none w.counts

theorem stopContext_of_work (hw : s.work c = some w) : stopContext c w s =
    releaseReservation w.job (w.job.limit - w.cursor) (setWork c (some w.stopped) (advanceSeq c s)) :=
  stopContext_eq hw w

/-- The state at the end of a revert of a run with no check parked on it. -/
def revertEvent (c : CtxId) (w : Work) (run : Run) (s : State) : State :=
  signalInterrupt s (releaseReservation w.job (w.job.limit - w.cursor) (setWork c (some w.stopped)
    (advanceSeq c (runWrite run.reverted (engineGranted c s)))))

theorem doRevert_of_unparked (hw : s.work c = some w) (hr : w.run = some run)
    (hp : Unparked s run.base (2 ^ run.order)) :
    doRevert c s = releaseReservation w.job (w.job.limit - w.cursor)
      (setWork c (some w.stopped) (advanceSeq c (runWrite run.reverted s))) := by
  rw [doRevert_of_run hw hr, redecideRun_of_unparked hp,
    stopContext_of_work ((work_of_ctxs_eq (runWrite_ctxs _ s) c).trans hw)]

theorem exec_revert_of_unparked (h : s.nextGrant = some (.engine c .revert)) (hw : s.work c = some w)
    (hr : w.run = some run) (hp : Unparked s run.base (2 ^ run.order)) :
    exec .revert s = .next (revertEvent c w run s) := by
  rw [exec_revert h, doRevert_of_unparked (s := engineGranted c s) hw hr hp, revertEvent]

/-- What a run write and the end of a context's work leave, beside the contexts and the tables. -/
structure RunWritten (records : List (Nat × GranuleRecord)) (s t : State) : Prop where
  stores : SameStores (runWrite records s) t
  store : t.store = s.store
  park : t.park = s.park
  links : t.links = s.links

theorem RunWritten.signal {records : List (Nat × GranuleRecord)} {a : State} (h : RunWritten records s t) :
    RunWritten records s (signalInterrupt a t) :=
  ⟨⟨(signalInterrupt_cache _ _).trans h.stores.cache, (signalInterrupt_port _ _).trans h.stores.port,
    (signalInterrupt_miss _ _).trans h.stores.miss⟩, (signalInterrupt_store _ _).trans h.store,
    (signalInterrupt_park _ _).trans h.park, (signalInterrupt_links _ _).trans h.links⟩

theorem RunWritten.worksOnly {records : List (Nat × GranuleRecord)} {u : State} (h : RunWritten records s t)
    (h' : WorksOnly t u) : RunWritten records s u := by
  obtain ⟨⟨hcache, hport, hmiss⟩, hstore, hpark, hlinks⟩ := h
  unfold WorksOnly at h'
  rw [h']
  exact ⟨⟨hcache, hport, hmiss⟩, hstore, hpark, hlinks⟩

theorem runWrite_written {v : State} (hv : SameStores s v) (hstore : v.store = s.store) (hpark : v.park = s.park)
    (hlinks : v.links = s.links) (records : List (Nat × GranuleRecord)) :
    RunWritten records s (runWrite records v) := by
  have hstores := runWrite_sameStores hv records
  have hframe := runWrite_frame records v
  refine ⟨hstores, ?_, ?_, ?_⟩
  · rw [hframe, ← hstore]
  · rw [hframe, ← hpark]
  · rw [hframe, ← hlinks]

theorem revertEvent_written (c : CtxId) (w : Work) (run : Run) (s : State) :
    RunWritten run.reverted s (revertEvent c w run s) := by
  have hgranted : SameStores s (engineGranted c s) := ⟨rfl, rfl, rfl⟩
  have hwritten := runWrite_written hgranted rfl rfl rfl run.reverted
  refine (hwritten.worksOnly ?_).signal
  exact ((advanceSeq_worksOnly c _).trans (setWork_worksOnly c _ _)).trans (releaseReservation_worksOnly _ _ _)

theorem revertEvent_work (c : CtxId) (w : Work) (run : Run) (s : State) :
    (revertEvent c w run s).work c = some w.stopped ∧
    ∀ c', c' ≠ c → (revertEvent c w run s).work c' = s.work c' := by
  have hevent : ∀ c', (revertEvent c w run s).work c' =
      (setWork c (some w.stopped) (advanceSeq c (runWrite run.reverted (engineGranted c s)))).work c' := fun c' =>
    (work_of_ctxs_eq (signalInterrupt_ctxs _ _) c').trans (work_releaseReservation _ _ _ c')
  refine ⟨(hevent c).trans (work_setWork_same _ _ _), fun c' hc => ?_⟩
  rw [hevent, work_setWork_other _ _ hc, work_advanceSeq, work_of_ctxs_eq (runWrite_ctxs _ _)]
  rfl

theorem revertEvent_tables (c : CtxId) (w : Work) (run : Run) (s : State) :
    (revertEvent c w run s).domains = (releaseReservation w.job (w.job.limit - w.cursor) s).domains ∧
    (revertEvent c w run s).groups = (releaseReservation w.job (w.job.limit - w.cursor) s).groups := by
  have hframe := runWrite_frame run.reverted (engineGranted c s)
  obtain ⟨hdomains, hgroups⟩ := releaseReservation_tables (s := s)
    (u := setWork c (some w.stopped) (advanceSeq c (runWrite run.reverted (engineGranted c s))))
    (by rw [setWork_domains, advanceSeq_domains, hframe]; rfl) (by rw [setWork_groups, advanceSeq_groups, hframe]; rfl)
    w.job (w.job.limit - w.cursor)
  exact ⟨(signalInterrupt_domains _ _).trans hdomains, (signalInterrupt_groups _ _).trans hgroups⟩

theorem revertEvent_notices (c : CtxId) (w : Work) (run : Run) (s : State) :
    (revertEvent c w run s).notices = s.notices := by
  have hworks := (releaseReservation_worksOnly w.job (w.job.limit - w.cursor)
    (setWork c (some w.stopped) (advanceSeq c (runWrite run.reverted (engineGranted c s)))))
  unfold WorksOnly at hworks
  rw [revertEvent, signalInterrupt_notices, hworks]
  have hframe := runWrite_frame run.reverted (engineGranted c s)
  rw [setWork_notices, advanceSeq_notices, hframe]
  rfl

end

end Sys2Proof.Machine

namespace Sys2Proof.Proofs

open Sys2Proof.Machine

/-- Settles O52: a revert writes the priors and stops the context, its reservation given back. -/
theorem revertWritesPriors : Obligations.RevertWritesPriors := by
  unfold Obligations.RevertWritesPriors
  refine ⟨fun s c w run hgrant hw hr hp => ?_, fun s c w run hgrant hw hr => ?_, fun s c w hw => stopContext_of_work hw⟩
  · have hrevert := doRevert_of_unparked (s := engineGranted c s) hw hr hp
    have hinner := (Inner.refl (engineGranted c s)).doRevert c
    rw [hrevert] at hinner
    obtain ⟨hportPtr, henginePtr, hportSide⟩ := engineServed_of_inner (s := s) hinner
    obtain ⟨⟨hcache, hport, hmiss⟩, hstore, hpark, hlinks⟩ := revertEvent_written c w run s
    obtain ⟨hwork, hothers⟩ := revertEvent_work c w run s
    obtain ⟨hdomains, hgroups⟩ := revertEvent_tables c w run s
    refine ⟨revertEvent c w run s, w.stopped, exec_revert_of_unparked hgrant hw hr hp, hwork, hothers, ?_, hstore,
      hportPtr, henginePtr, hportSide, hpark, hlinks, revertEvent_notices c w run s, hdomains, hgroups, rfl, rfl, rfl⟩
    rw [hcache, hport, hmiss]
    rfl
  · rw [exec_revert hgrant, doRevert_of_run (s := engineGranted c s) hw hr]
    rfl

end Sys2Proof.Proofs

/-! The tables at a commit, the commit of a run and its end; the statement CommitWritesTheRun. -/

namespace Sys2Proof.Machine

section
variable {s t : State} {c : CtxId} {w : Work} {run : Run} {op : RangeOp} {asWiped : Bool} {d : Nat}

/-! ## The held counts at a commit (R9, R97) -/

/-- 1 where a content has an owner, else 0. -/
def ownedBy (d : Nat) (x : Stable) : Nat := if x.owner = some d then 1 else 0

/-- A domain whose held count has lost some granules and gained some. -/
def DomainRecord.moved (lost gained : Nat) (r : DomainRecord) : DomainRecord := { r with held := r.held - lost + gained }

theorem ownedBy_same {x : Stable} (h : x.owner = some d) : ownedBy d x = 1 := if_pos h

theorem ownedBy_other {x : Stable} {a : Nat} (h : x.owner = some a) (hd : d ≠ a) : ownedBy d x = 0 :=
  if_neg fun hx => hd (Option.some.inj (hx.symm.trans h))

theorem ownedBy_none {x : Stable} (h : x.owner = none) : ownedBy d x = 0 :=
  if_neg fun hx => Option.some_ne_none d (hx.symm.trans h)

theorem domain_lose (a : Nat) (s : State) (old : Stable) (ho : old.owner = some a) :
    (modDomain a (fun r => { r with held := r.held - 1 }) s).domain d = (s.domain d).moved (ownedBy d old) 0 := by
  by_cases h : d = a
  · rw [h, domain_modDomain_same, ownedBy_same ho]
    rfl
  · rw [domain_modDomain_other _ _ h, ownedBy_other ho h]
    rfl

theorem domain_gain (a : Nat) (s : State) (new : Stable) (hn : new.owner = some a) :
    (modDomain a (fun r => { r with held := r.held + 1 }) s).domain d = (s.domain d).moved 0 (ownedBy d new) := by
  by_cases h : d = a
  · rw [h, domain_modDomain_same, ownedBy_same hn]
    rfl
  · rw [domain_modDomain_other _ _ h, ownedBy_other hn h]
    rfl

/-- What the commit of one record does to a domain. -/
theorem domain_adjustHeld (old new : Stable) (s : State) (h : ownedBy d old ≤ (s.domain d).held) :
    (adjustHeld old new s).domain d = (s.domain d).moved (ownedBy d old) (ownedBy d new) := by
  cases ho : old.owner with
  | none =>
    cases hn : new.owner with
    | none =>
      rw [adjustHeld_of_none ho hn, ownedBy_none ho, ownedBy_none hn]
      rfl
    | some b => rw [adjustHeld_of_gained ho hn, domain_gain b s new hn, ownedBy_none ho]
  | some a =>
    cases hn : new.owner with
    | none => rw [adjustHeld_of_lost ho hn, domain_lose a s old ho, ownedBy_none hn]
    | some b =>
      by_cases hab : a = b
      · subst hab
        have hsame : ownedBy d new = ownedBy d old := by rw [ownedBy, ownedBy, ho, hn]
        rw [adjustHeld_of_same ho hn, hsame, DomainRecord.moved, Nat.sub_add_cancel h]
      · rw [adjustHeld_of_moved hab ho hn, domain_gain b _ new hn, domain_lose a s old ho]
        rfl

/-- Where the new content has no owner, the held count falls. -/
theorem domain_adjustHeld_lost (old new : Stable) (s : State) (hn : new.owner = none) (d : Nat) :
    (adjustHeld old new s).domain d = (s.domain d).moved (ownedBy d old) 0 := by
  cases ho : old.owner with
  | none =>
    rw [adjustHeld_of_none ho hn, ownedBy_none ho]
    rfl
  | some a => rw [adjustHeld_of_lost ho hn, domain_lose a s old ho]

/-- The held counts at the commit of a list of records. -/
def adjustAll (content : Nat × GranuleRecord → Stable) (L : List (Nat × GranuleRecord)) (s : State) : State :=
  L.foldl (fun s e => adjustHeld e.2.content (content e) s) s

/-- The records of a list that a domain owns, by a content of theirs. -/
def countOwned (d : Nat) (content : Nat × GranuleRecord → Stable) (L : List (Nat × GranuleRecord)) : Nat :=
  (L.filter (fun e => decide ((content e).owner = some d))).length

theorem countOwned_cons (d : Nat) (content : Nat × GranuleRecord → Stable) (e : Nat × GranuleRecord)
    (L : List (Nat × GranuleRecord)) : countOwned d content (e :: L) = ownedBy d (content e) + countOwned d content L := by
  rw [countOwned, List.filter_cons, ownedBy]
  by_cases h : (content e).owner = some d
  · rw [decide_eq_true h, if_pos rfl, if_pos h, List.length_cons, Nat.add_comm]
    rfl
  · rw [decide_eq_false h, if_neg Bool.false_ne_true, if_neg h, Nat.zero_add]
    rfl

/-- The prior content of a record of a run image. -/
def priorOf (e : Nat × GranuleRecord) : Stable := e.2.content

theorem domain_adjustAll (content : Nat × GranuleRecord → Stable) (L : List (Nat × GranuleRecord)) (s : State)
    (h : countOwned d priorOf L ≤ (s.domain d).held) : (adjustAll content L s).domain d =
      (s.domain d).moved (countOwned d priorOf L) (countOwned d content L) := by
  induction L generalizing s with
  | nil => rfl
  | cons e L ih =>
    rw [countOwned_cons] at h
    have hfirst := domain_adjustHeld (d := d) e.2.content (content e) s (Nat.le_trans (Nat.le_add_right _ _) h)
    have hheld : ((adjustHeld e.2.content (content e) s).domain d).held =
        (s.domain d).held - ownedBy d e.2.content + ownedBy d (content e) := by
      rw [hfirst]
      rfl
    have hrest : countOwned d priorOf L ≤ ((adjustHeld e.2.content (content e) s).domain d).held := by
      rw [hheld]
      have hprior : ownedBy d (priorOf e) = ownedBy d e.2.content := rfl
      omega
    have hfold : adjustAll content (e :: L) s = adjustAll content L (adjustHeld e.2.content (content e) s) := rfl
    rw [hfold, ih _ hrest, hfirst, countOwned_cons, countOwned_cons]
    simp only [DomainRecord.moved, priorOf]
    have hprior : ownedBy d (priorOf e) = ownedBy d e.2.content := rfl
    congr 1
    omega

theorem domain_adjustAll_lost (content : Nat × GranuleRecord → Stable) (L : List (Nat × GranuleRecord)) (s : State)
    (h : ∀ e ∈ L, (content e).owner = none) (d : Nat) :
    (adjustAll content L s).domain d = (s.domain d).moved (countOwned d priorOf L) 0 := by
  induction L generalizing s with
  | nil => rfl
  | cons e L ih =>
    have hfirst := domain_adjustHeld_lost e.2.content (content e) s (h e List.mem_cons_self) d
    have hfold : adjustAll content (e :: L) s = adjustAll content L (adjustHeld e.2.content (content e) s) := rfl
    rw [hfold, ih _ fun e' he' => h e' (List.mem_cons_of_mem e he'), hfirst, countOwned_cons]
    simp only [DomainRecord.moved, priorOf]
    congr 1
    omega

theorem adjustHeld_frame (old new : Stable) (s : State) :
    adjustHeld old new s = { s with domains := (adjustHeld old new s).domains } := by
  unfold adjustHeld
  split
  · split <;> rfl
  all_goals rfl

theorem adjustAll_frame (content : Nat × GranuleRecord → Stable) (L : List (Nat × GranuleRecord)) (s : State) :
    adjustAll content L s = { s with domains := (adjustAll content L s).domains } := by
  induction L generalizing s with
  | nil => rfl
  | cons e L ih =>
    have hrest := ih (adjustHeld e.2.content (content e) s)
    have hfirst := adjustHeld_frame e.2.content (content e) s
    have hfold : adjustAll content (e :: L) s = adjustAll content L (adjustHeld e.2.content (content e) s) := rfl
    rw [hfold]
    generalize adjustAll content L (adjustHeld e.2.content (content e) s) = t at hrest ⊢
    generalize adjustHeld e.2.content (content e) s = v at hrest hfirst
    rw [hrest, hfirst]

/-! ## The tables at a commit (R97, R117) -/

/-- The content that a commit writes for a record of its run's image. -/
def committedOf (op : RangeOp) (run : Run) (asWiped : Bool) (e : Nat × GranuleRecord) : Stable :=
  committedContent op run.outcome asWiped e.2.content

/-- The reference counts after a commit, before the run's reservation is given back. -/
def adjustedRefs (op : RangeOp) (run : Run) (asWiped : Bool) (s : State) : State :=
  adjustRefs op (run.image.map (committedOf op run asWiped)) (adjustAll (committedOf op run asWiped) run.image s)

theorem adjustTables_eq (job : Job) (op : RangeOp) (run : Run) (asWiped : Bool) (s : State) :
    adjustTables job op run asWiped s = releaseReservation job (2 ^ run.order) (adjustedRefs op run asWiped s) := rfl

theorem adjustRefs_frame (op : RangeOp) (written : List Stable) (s : State) :
    adjustRefs op written s = { s with groups := (adjustRefs op written s).groups } := by
  unfold adjustRefs
  split <;> rfl

theorem adjustTables_frame (job : Job) (op : RangeOp) (run : Run) (asWiped : Bool) (s : State) :
    adjustTables job op run asWiped s = { s with
      domains := (adjustTables job op run asWiped s).domains, groups := (adjustTables job op run asWiped s).groups } := by
  have hrelease := releaseReservation_frame job (2 ^ run.order) (adjustedRefs op run asWiped s)
  have hrefs := adjustRefs_frame op (run.image.map (committedOf op run asWiped))
    (adjustAll (committedOf op run asWiped) run.image s)
  have hall := adjustAll_frame (committedOf op run asWiped) run.image s
  have hadjusted : adjustedRefs op run asWiped s = adjustRefs op (run.image.map (committedOf op run asWiped))
    (adjustAll (committedOf op run asWiped) run.image s) := rfl
  rw [← adjustTables_eq] at hrelease
  rw [← hadjusted] at hrefs
  generalize adjustTables job op run asWiped s = t at hrelease ⊢
  generalize adjustedRefs op run asWiped s = v at hrelease hrefs
  generalize adjustAll (committedOf op run asWiped) run.image s = v' at hrefs hall
  rw [hrelease, hrefs, hall]

theorem domain_adjustedRefs (op : RangeOp) (run : Run) (asWiped : Bool) (s : State) (d : Nat) :
    (adjustedRefs op run asWiped s).domain d = (adjustAll (committedOf op run asWiped) run.image s).domain d := by
  rw [adjustedRefs, State.domain, adjustRefs_frame, State.domain]

theorem group_adjustAll (content : Nat × GranuleRecord → Stable) (L : List (Nat × GranuleRecord)) (s : State) (g : Nat) :
    (adjustAll content L s).group g = s.group g := by
  rw [State.group, adjustAll_frame, State.group]

section
variable {base count : Nat} {e : Option (BitVec 8)}

/-- A domain after the commit of a range command's run. -/
theorem domain_adjustTables (s : State) (h : countOwned d priorOf run.image ≤ (s.domain d).held) :
    (adjustTables (.range base count e op) op run asWiped s).domain d =
      { s.domain d with
        held := (s.domain d).held - countOwned d priorOf run.image +
          countOwned d (committedOf op run asWiped) run.image
        incoming := (s.domain d).incoming -
          if (Job.range base count e op).receiver = some d then 2 ^ run.order else 0 } := by
  rw [adjustTables_eq, releaseReservation_domain, domain_adjustedRefs, domain_adjustAll _ _ _ h]
  rfl

/-- The granules whose records a commit writes SHARED. -/
theorem length_shared (content : Nat × GranuleRecord → Stable) (L : List (Nat × GranuleRecord)) :
    ((L.map content).filter Stable.isShared).length = (L.filter (fun e => (content e).isShared)).length := by
  rw [List.filter_map, List.length_map]
  rfl

theorem refs_share {owner g : Nat} (s : State) :
    ((adjustTables (.range base count e (.share owner g)) (.share owner g) run asWiped s).group g).refs =
      (s.group g).refs + (run.image.filter (fun e => (committedOf (.share owner g) run asWiped e).isShared)).length -
        2 ^ run.order := by
  have hrelease : adjustTables (.range base count e (.share owner g)) (.share owner g) run asWiped s =
      modGroup g (fun r => { r with refs := r.refs - 2 ^ run.order }) (modGroup g (fun r => { r with refs := r.refs +
        ((run.image.map (committedOf (.share owner g) run asWiped)).filter Stable.isShared).length })
        (adjustAll (committedOf (.share owner g) run asWiped) run.image s)) := rfl
  rw [hrelease, group_modGroup_same, group_modGroup_same, group_adjustAll, length_shared]

theorem refs_unshare {g : Nat} (s : State) :
    ((adjustTables (.range base count e (.unshare g)) (.unshare g) run asWiped s).group g).refs =
      (s.group g).refs - run.image.length := by
  have hrelease : adjustTables (.range base count e (.unshare g)) (.unshare g) run asWiped s =
      modGroup g (fun r => { r with refs := r.refs - (run.image.map (committedOf (.unshare g) run asWiped)).length })
        (adjustAll (committedOf (.unshare g) run asWiped) run.image s) := rfl
  rw [hrelease, group_modGroup_same, group_adjustAll, List.length_map]

theorem group_adjustTables_other {g : Nat} (hs : ∀ owner, op ≠ .share owner g) (hu : op ≠ .unshare g) (s : State) :
    (adjustTables (.range base count e op) op run asWiped s).group g = s.group g := by
  refine Eq.trans ?_ (group_adjustAll (committedOf op run asWiped) run.image s g)
  cases op with
  | share owner g' =>
    have hg : g ≠ g' := fun h => hs owner (by rw [h])
    exact (group_modGroup_other _ _ hg).trans (group_modGroup_other _ _ hg)
  | unshare g' => exact group_modGroup_other _ _ fun h => hu (by rw [h])
  | assign _ _ | reclaim _ _ | transfer _ _ _ _ | wipe | releaseFence => rfl

end

theorem committedOf_reclaim_owner (d : Nat) (run : Run) (asWiped : Bool) (e : Nat × GranuleRecord) :
    (committedOf (.reclaim d true) run asWiped e).owner = none := by
  unfold committedOf committedContent
  split
  · rfl
  · split <;> rfl

theorem adjustTables_sweep (d : Nat) (run : Run) (asWiped : Bool) (s : State) :
    adjustTables (.closeDomain d) (.reclaim d true) run asWiped s =
      adjustAll (committedOf (.reclaim d true) run asWiped) run.image s := rfl

/-! ## Counts and the FENCED notice (R97, R117, R118) -/

theorem countCommit_of_clean (h : run.outcome = .clean) (w : Work) :
    w.countCommit run = { w with changed := w.changed + run.image.length } := by
  simp only [Work.countCommit, h]

theorem countCommit_of_fenced (h : run.outcome ≠ .clean) (w : Work) :
    w.countCommit run = { w with fenced := w.fenced + run.image.length } := by
  cases ho : run.outcome with
  | clean => exact absurd ho h
  | fenced cause link => simp only [Work.countCommit, ho]

theorem offerFenced_of_quiet (h : run.outcome = .clean ∨ run.image = []) (c : CtxId) (w : Work) (s : State) :
    offerFenced c w run s = s := by
  cases ho : run.outcome with
  | clean => simp only [offerFenced, ho]
  | fenced cause link =>
    have hempty := h.resolve_left (by rw [ho]; simp)
    simp only [offerFenced, ho, hempty, List.isEmpty_nil, if_true]

theorem offerFenced_of_fenced {cause : FenceCause} {link : Option LinkId} (ho : run.outcome = .fenced cause link)
    (hi : run.image ≠ []) (c : CtxId) (w : Work) (s : State) : offerFenced c w run s =
      offerNotice (.fenced w.tag w.job.kindCode c run.base run.order run.image.length cause link) s := by
  simp only [offerFenced, ho, List.isEmpty_eq_false_iff.mpr hi, Bool.false_eq_true, if_false]

theorem offerFenced_tells (c : CtxId) (w : Work) (run : Run) (s : State) : Tells s (offerFenced c w run s) := by
  unfold offerFenced
  split
  · exact .refl s
  · split
    · exact .refl s
    · exact offerNotice_tells _ s

theorem offerFenced_domains (c : CtxId) (w : Work) (run : Run) (s : State) :
    (offerFenced c w run s).domains = s.domains := by
  unfold offerFenced
  split
  · rfl
  · split
    · rfl
    · exact offerNotice_domains _ s

/-! ## The end of a range command's run (R98) -/

section
variable {base count : Nat} {e : Option (BitVec 8)}

/-- A context at the end of a run, its cursor moved on. -/
def Work.atEnd (run : Run) (w : Work) : Work := { w with run := none, cursor := run.base + 2 ^ run.order }

theorem endRun_of_range (hw : s.work c = some w) (hr : w.run = some run) (hj : w.job = .range base count e op) :
    endRun c s =
      if w.abortMark then releaseReservation w.job (base + count - (run.base + 2 ^ run.order))
        (setWork c (some ((w.atEnd run).enterPost .aborted none w.counts)) (advanceSeq c s))
      else if run.base + 2 ^ run.order < base + count then
        setWork c (some ((w.atEnd run).startRun (run.base + 2 ^ run.order)
          (carveOrder s (run.base + 2 ^ run.order) (base + count - (run.base + 2 ^ run.order))))) (advanceSeq c s)
      else setWork c (some ((w.atEnd run).enterPost w.finalStatus none w.counts)) (advanceSeq c s) := by
  have hadvanced : (advanceSeq c s).work c = some w := (work_advanceSeq c c s).trans hw
  have hlimit : w.job.limit = base + count := congrArg Job.limit hj
  have hmoved : ∀ f : Work → Work, modWork c f (modWork c (Work.atEnd run) (advanceSeq c s)) =
      setWork c (some (f (w.atEnd run))) (advanceSeq c s) := fun f => by
    rw [modWork_of_work _ hadvanced, modWork_of_work _ (work_setWork_same _ _ _), setWork_setWork]
  have hpost : ∀ (status : Status) (f : Work → Status) (_ : f (w.atEnd run) = status),
      modWork c (fun w => w.enterPost (f w) none w.counts) (modWork c (Work.atEnd run) (advanceSeq c s)) =
        setWork c (some ((w.atEnd run).enterPost status none w.counts)) (advanceSeq c s) := fun status f hf => by
    rw [hmoved, hf]
    rfl
  have hcarve : carveRun c (modWork c (Work.atEnd run) (advanceSeq c s)) =
      setWork c (some ((w.atEnd run).startRun (run.base + 2 ^ run.order)
        (carveOrder s (run.base + 2 ^ run.order) (base + count - (run.base + 2 ^ run.order))))) (advanceSeq c s) := by
    rw [carveRun, hmoved]
    have hat : (w.atEnd run).job.limit = base + count := hlimit
    rw [hat]
    rfl
  unfold endRun
  simp only [hw, hr, hj]
  split
  · exact congrArg (releaseReservation _ _) (hpost .aborted (fun _ => .aborted) rfl)
  · split
    · next h => exact (if_pos h).symm ▸ hcarve
    · next h => exact (if_neg h).symm ▸ hpost w.finalStatus Work.finalStatus rfl

/-- What a context holds after the end of a range command's run. -/
def Work.afterRun (run : Run) (limit order : Nat) (w : Work) : Work :=
  if w.abortMark then (w.atEnd run).enterPost .aborted none w.counts
  else if run.base + 2 ^ run.order < limit then (w.atEnd run).startRun (run.base + 2 ^ run.order) order
  else (w.atEnd run).enterPost w.finalStatus none w.counts

/-- The contexts and the run sequence after the end of a range command's run. -/
theorem endRun_work (hw : s.work c = some w) (hr : w.run = some run) (hj : w.job = .range base count e op) :
    (endRun c s).work c = some (w.afterRun run (base + count)
      (carveOrder s (run.base + 2 ^ run.order) (base + count - (run.base + 2 ^ run.order)))) ∧
    (∀ c', c' ≠ c → (endRun c s).work c' = s.work c') ∧ (endRun c s).runSeq c = s.runSeq c + 1 := by
  have hset : ∀ (w' : Work), (setWork c (some w') (advanceSeq c s)).work c = some w' ∧
      (∀ c', c' ≠ c → (setWork c (some w') (advanceSeq c s)).work c' = s.work c') ∧
      (setWork c (some w') (advanceSeq c s)).runSeq c = s.runSeq c + 1 := fun w' =>
    ⟨work_setWork_same _ _ _, fun c' hc => (work_setWork_other _ _ hc).trans (work_advanceSeq c c' s), by
      rw [runSeq_setWork, runSeq_advanceSeq_same]⟩
  rw [endRun_of_range hw hr hj]
  unfold Work.afterRun
  split
  · obtain ⟨hsame, hothers, hseq⟩ := hset ((w.atEnd run).enterPost .aborted none w.counts)
    exact ⟨(work_releaseReservation _ _ _ c).trans hsame, fun c' hc => (work_releaseReservation _ _ _ c').trans (hothers c' hc),
      (runSeq_of_ctxs_eq (releaseReservation_ctxs _ _ _) c).trans hseq⟩
  · split
    · exact hset _
    · exact hset _

end

/-! ## COMMIT_RUN_WRITE (R96 to R98, R116 to R118) -/

/-- The records of a run as a commit writes them. -/
def Run.committed (op : RangeOp) (asWiped : Bool) (run : Run) : List (Nat × GranuleRecord) :=
  run.image.map (fun e => (e.1, committedRecord op run asWiped e.2))

/-- The state after the tables and the counts of a commit. -/
def tabledCommit (c : CtxId) (w : Work) (op : RangeOp) (run : Run) (asWiped : Bool) (s : State) : State :=
  modWork c (Work.countCommit run) (adjustTables w.job op run asWiped s)

theorem exec_commit (h : s.nextGrant = some (.engine c (.commit asWiped))) :
    exec .commitRunWrite s = .next (signalInterrupt s (doCommit c asWiped (engineGranted c s))) := by
  have hexec : exec .commitRunWrite s = execCommitRunWrite s := rfl
  simp only [hexec, execCommitRunWrite, event, h]

theorem doCommit_of_run (hw : s.work c = some w) (hr : w.run = some run) (ho : w.job.op = some op) :
    doCommit c asWiped s = endRun c (offerFenced c w run
      (runWrite (redecideRun run.base (2 ^ run.order) (run.committed op asWiped) (tabledCommit c w op run asWiped s)).2
        (redecideRun run.base (2 ^ run.order) (run.committed op asWiped) (tabledCommit c w op run asWiped s)).1)) := by
  simp only [doCommit, hw, hr, ho, Run.committed, tabledCommit]

/-- The state of a commit before its run ends, where no check is parked on the run. -/
def writtenCommit (c : CtxId) (w : Work) (op : RangeOp) (run : Run) (asWiped : Bool) (s : State) : State :=
  offerFenced c w run (runWrite (run.committed op asWiped) (tabledCommit c w op run asWiped s))

theorem tabledCommit_worksOnly (c : CtxId) (w : Work) (op : RangeOp) (run : Run) (asWiped : Bool) (s : State) :
    WorksOnly s (tabledCommit c w op run asWiped s) := by
  have hframe := adjustTables_frame w.job op run asWiped s
  have hworks : WorksOnly s (adjustTables w.job op run asWiped s) := by
    unfold WorksOnly
    generalize adjustTables w.job op run asWiped s = t at hframe ⊢
    rw [hframe]
  exact hworks.trans (modWork_worksOnly c _ _)

theorem doCommit_of_unparked (hw : s.work c = some w) (hr : w.run = some run) (ho : w.job.op = some op)
    (hp : Unparked s run.base (2 ^ run.order)) :
    doCommit c asWiped s = endRun c (writtenCommit c w op run asWiped s) := by
  have hpark : (tabledCommit c w op run asWiped s).park = s.park := by
    rw [tabledCommit_worksOnly]
  have hp' : Unparked (tabledCommit c w op run asWiped s) run.base (2 ^ run.order) := by
    unfold Unparked
    rw [hpark]
    exact hp
  rw [doCommit_of_run hw hr ho, redecideRun_of_unparked hp', writtenCommit]

/-- What a commit has written before its run ends. -/
structure CommitWritten (c : CtxId) (w : Work) (records : List (Nat × GranuleRecord)) (s t : State) : Prop where
  written : RunWritten records s t
  work : t.work c = some w
  others : ∀ c', c' ≠ c → t.work c' = s.work c'
  runSeq : t.runSeq c = s.runSeq c
  homes : t.homes = s.homes

theorem Tells.runWritten {u : State} {records : List (Nat × GranuleRecord)} (h : Tells t u)
    (h' : RunWritten records s t) : RunWritten records s u := by
  obtain ⟨⟨hcache, hport, hmiss⟩, hstore, hpark, hlinks⟩ := h'
  unfold Tells at h
  rw [h]
  exact ⟨⟨hcache, hport, hmiss⟩, hstore, hpark, hlinks⟩

theorem WorksOnly.homes (h : WorksOnly s t) : t.homes = s.homes := by
  rw [h]

theorem Tells.homes (h : Tells s t) : t.homes = s.homes := by
  rw [h]

theorem Tells.ctxs (h : Tells s t) : t.ctxs = s.ctxs := by
  rw [h]

theorem tabledCommit_work (hw : s.work c = some w) (op : RangeOp) (run : Run) (asWiped : Bool) :
    (tabledCommit c w op run asWiped s).work c = some (w.countCommit run) ∧
    (∀ c', c' ≠ c → (tabledCommit c w op run asWiped s).work c' = s.work c') ∧
    (tabledCommit c w op run asWiped s).runSeq c = s.runSeq c := by
  have hctxs : (adjustTables w.job op run asWiped s).ctxs = s.ctxs := by rw [adjustTables_frame]
  refine ⟨?_, fun c' hc => ?_, ?_⟩
  · rw [tabledCommit, modWork_of_work _ ((work_of_ctxs_eq hctxs c).trans hw), work_setWork_same]
  · rw [tabledCommit, work_modWork_other _ _ hc, work_of_ctxs_eq hctxs]
  · rw [tabledCommit, runSeq_modWork, runSeq_of_ctxs_eq hctxs]

theorem writtenCommit_written (hw : s.work c = some w) (op : RangeOp) (run : Run) (asWiped : Bool) :
    CommitWritten c (w.countCommit run) (run.committed op asWiped) s (writtenCommit c w op run asWiped s) := by
  have hworks := tabledCommit_worksOnly c w op run asWiped s
  have htells := offerFenced_tells c w run (runWrite (run.committed op asWiped) (tabledCommit c w op run asWiped s))
  obtain ⟨hwork, hothers, hseq⟩ := tabledCommit_work hw op run asWiped
  have hctxs : (writtenCommit c w op run asWiped s).ctxs = (tabledCommit c w op run asWiped s).ctxs :=
    htells.ctxs.trans (runWrite_ctxs _ _)
  have hhomes : (runWrite (run.committed op asWiped) (tabledCommit c w op run asWiped s)).homes =
      (tabledCommit c w op run asWiped s).homes := by rw [runWrite_frame]
  have hwritten : RunWritten (run.committed op asWiped) s
      (runWrite (run.committed op asWiped) (tabledCommit c w op run asWiped s)) := by
    have hsame : SameStores s (tabledCommit c w op run asWiped s) := ⟨by rw [hworks], by rw [hworks], by rw [hworks]⟩
    exact runWrite_written hsame (by rw [hworks]) (by rw [hworks]) (by rw [hworks]) _
  exact ⟨htells.runWritten hwritten, (work_of_ctxs_eq hctxs c).trans hwork,
    fun c' hc => (work_of_ctxs_eq hctxs c').trans (hothers c' hc), (runSeq_of_ctxs_eq hctxs c).trans hseq,
    htells.homes.trans (hhomes.trans hworks.homes)⟩

theorem carveOrder_of_homes (h : t.homes = s.homes) (cursor remaining : Nat) :
    carveOrder t cursor remaining = carveOrder s cursor remaining := by
  simp only [carveOrder, State.boundaryBetween, State.windows, h]

/-- The state at the end of the commit of a run with no check parked on it. -/
def commitEvent (c : CtxId) (w : Work) (op : RangeOp) (run : Run) (asWiped : Bool) (s : State) : State :=
  signalInterrupt s (endRun c (writtenCommit c w op run asWiped (engineGranted c s)))

section
variable {base count : Nat} {e : Option (BitVec 8)}

theorem countCommit_fields (run : Run) (w : Work) :
    (w.countCommit run).run = w.run ∧ (w.countCommit run).job = w.job ∧ (w.countCommit run).tag = w.tag ∧
    (w.countCommit run).abortMark = w.abortMark ∧ (w.countCommit run).unchanged = w.unchanged ∧
    (w.countCommit run).changed = (if run.outcome = .clean then w.changed + run.image.length else w.changed) ∧
    (w.countCommit run).fenced = (if run.outcome = .clean then w.fenced else w.fenced + run.image.length) := by
  by_cases h : run.outcome = .clean
  · rw [countCommit_of_clean h, if_pos h, if_pos h]
    exact ⟨rfl, rfl, rfl, rfl, rfl, rfl, rfl⟩
  · rw [countCommit_of_fenced h, if_neg h, if_neg h]
    exact ⟨rfl, rfl, rfl, rfl, rfl, rfl, rfl⟩

/-- What the commit of a range command's run leaves. -/
theorem commitEvent_result (hw : s.work c = some w) (hr : w.run = some run) (hj : w.job = .range base count e op) :
    (commitEvent c w op run asWiped s).work c = some ((w.countCommit run).afterRun run (base + count)
      (carveOrder s (run.base + 2 ^ run.order) (base + count - (run.base + 2 ^ run.order)))) ∧
    (∀ c', c' ≠ c → (commitEvent c w op run asWiped s).work c' = s.work c') ∧
    (commitEvent c w op run asWiped s).runSeq c = s.runSeq c + 1 ∧
    RunWritten (run.committed op asWiped) s (commitEvent c w op run asWiped s) := by
  obtain ⟨hrun, hjob, -⟩ := countCommit_fields run w
  obtain ⟨hwritten, hwork, hothers, hseq, hhomes⟩ :=
    writtenCommit_written (s := engineGranted c s) hw op run asWiped
  have hctxs := signalInterrupt_ctxs s (endRun c (writtenCommit c w op run asWiped (engineGranted c s)))
  have horder := carveOrder_of_homes (s := s) hhomes (run.base + 2 ^ run.order) (base + count - (run.base + 2 ^ run.order))
  have hworks := endRun_worksOnly c (writtenCommit c w op run asWiped (engineGranted c s))
  rw [commitEvent]
  generalize writtenCommit c w op run asWiped (engineGranted c s) = v at *
  obtain ⟨hended, hendedOthers, hendedSeq⟩ := endRun_work hwork (hrun.trans hr) (hjob.trans hj)
  have hgranted : SameStores s (engineGranted c s) := ⟨rfl, rfl, rfl⟩
  have hsame := runWrite_sameStores hgranted (run.committed op asWiped)
  obtain ⟨⟨hcache, hport, hmiss⟩, hstore, hpark, hlinks⟩ := (hwritten.worksOnly hworks).signal (a := s)
  refine ⟨?_, fun c' hc => ?_, ?_, ⟨⟨hcache.trans hsame.cache, hport.trans hsame.port, hmiss.trans hsame.miss⟩, hstore,
    hpark, hlinks⟩⟩
  · rw [work_of_ctxs_eq hctxs, hended, horder]
  · rw [work_of_ctxs_eq hctxs, hendedOthers c' hc, hothers c' hc]
    rfl
  · rw [runSeq_of_ctxs_eq hctxs, hendedSeq, hseq]
    rfl

/-! ## What a context holds after a run (R98) -/

theorem Work.afterRun_of_aborted (h : w.abortMark = true) (run : Run) (limit order : Nat) :
    w.afterRun run limit order = (w.atEnd run).enterPost .aborted none w.counts := if_pos h

theorem Work.afterRun_of_last {limit : Nat} (h : w.abortMark = false) (hl : limit ≤ run.base + 2 ^ run.order)
    (order : Nat) : w.afterRun run limit order = (w.atEnd run).enterPost w.finalStatus none w.counts :=
  (if_neg (Bool.eq_false_iff.mp h)).trans (if_neg (Nat.not_lt.mpr hl))

theorem Work.afterRun_of_more {limit : Nat} (h : w.abortMark = false) (hl : run.base + 2 ^ run.order < limit)
    (order : Nat) : w.afterRun run limit order = (w.atEnd run).startRun (run.base + 2 ^ run.order) order :=
  (if_neg (Bool.eq_false_iff.mp h)).trans (if_pos hl)

/-- The counts and the cursor after the end of a run. -/
theorem Work.afterRun_fields (run : Run) (limit order : Nat) (w : Work) :
    (w.afterRun run limit order).changed = w.changed ∧ (w.afterRun run limit order).unchanged = w.unchanged ∧
    (w.afterRun run limit order).fenced = w.fenced ∧
    (w.afterRun run limit order).cursor = run.base + 2 ^ run.order := by
  unfold Work.afterRun
  split
  · exact ⟨rfl, rfl, rfl, rfl⟩
  · split <;> exact ⟨rfl, rfl, rfl, rfl⟩

end

end

end Sys2Proof.Machine

namespace Sys2Proof.Proofs

open Sys2Proof.Machine

theorem commit_of_range_unparked {s : State} {c : CtxId} {w : Work} {run : Run} {asWiped : Bool} {base count : Nat}
    {e : Option (BitVec 8)} {op : RangeOp} (hgrant : s.nextGrant = some (.engine c (.commit asWiped)))
    (hw : s.work c = some w) (hr : w.run = some run) (hj : w.job = .range base count e op)
    (hp : Unparked s run.base (2 ^ run.order)) :
    exec .commitRunWrite s = .next (commitEvent c w op run asWiped s) ∧
      EngineServed c s (commitEvent c w op run asWiped s) := by
  have hcommit := doCommit_of_unparked (asWiped := asWiped) (op := op) (s := engineGranted c s) hw hr (by rw [hj]; rfl) hp
  have hinner := (Inner.refl (engineGranted c s)).doCommit c asWiped
  rw [hcommit] at hinner
  refine ⟨?_, engineServed_of_inner (s := s) hinner⟩
  rw [exec_commit hgrant, hcommit, commitEvent]

/-- Settles O51: a commit adjusts the tables, raises the counts, decides the parked checks again, writes the records,
offers FENCED and ends the run. -/
theorem commitWritesTheRun : Obligations.CommitWritesTheRun := by
  unfold Obligations.CommitWritesTheRun
  refine ⟨fun s c w run asWiped base count e op hgrant hw hr hj hp => ?_,
    fun s c w run asWiped op hgrant hw hr ho => ?_,
    fun s base count e op run asWiped => ⟨?_, fun d hd => domain_adjustTables s hd, ?_, ?_, fun g hs hu =>
      group_adjustTables_other hs hu s⟩,
    fun s d run asWiped => ⟨?_, fun d' => ?_⟩,
    fun w run => ⟨fun h => countCommit_of_clean h w, fun h => countCommit_of_fenced h w⟩,
    fun s c w run => ⟨fun h => offerFenced_of_quiet h c w s, fun cause link ho hi => offerFenced_of_fenced ho hi c w s⟩,
    fun s c w run base count e op hw hr hj => ?_⟩
  case refine_1 =>
    obtain ⟨hexec, hportPtr, henginePtr, hportSide⟩ := commit_of_range_unparked hgrant hw hr hj hp
    obtain ⟨hwork, hothers, hseq, ⟨hcache, hport, hmiss⟩, hstore, hpark, hlinks⟩ :=
      commitEvent_result (asWiped := asWiped) hw hr hj
    obtain ⟨-, hjob, htag, habort, hunchanged, hchanged, hfenced⟩ := countCommit_fields run w
    obtain ⟨hchanged', hunchanged', hfenced', hcursor⟩ := Work.afterRun_fields run (base + count)
      (carveOrder s (run.base + 2 ^ run.order) (base + count - (run.base + 2 ^ run.order))) (w.countCommit run)
    dsimp only
    rw [← hchanged, ← hfenced, ← hunchanged, ← hjob, ← htag, ← habort]
    refine ⟨commitEvent c w op run asWiped s, _, hexec, hwork, hothers, ?_, hstore, hportPtr, henginePtr, hportSide,
      hpark, hlinks, hseq, hchanged', hunchanged', hfenced', hcursor, fun ha => ?_, fun ha hl => ?_, fun ha hl => ?_⟩
    · rw [hcache, hport, hmiss]
      rfl
    · rw [Work.afterRun_of_aborted ha]
      exact ⟨rfl, rfl, rfl⟩
    · rw [Work.afterRun_of_last ha hl]
      exact ⟨rfl, rfl, rfl⟩
    · rw [Work.afterRun_of_more ha hl]
      exact ⟨rfl, _, rfl, rfl, rfl, rfl⟩
  case refine_2 =>
    rw [exec_commit hgrant, doCommit_of_run (s := engineGranted c s) hw hr ho]
    rfl
  case refine_3 => exact adjustTables_frame (.range base count e op) op run asWiped s
  case refine_4 =>
    intro owner g h
    subst h
    exact refs_share s
  case refine_5 =>
    intro g h
    subst h
    exact refs_unshare s
  case refine_6 => exact adjustAll_frame (committedOf (.reclaim d true) run asWiped) run.image s
  case refine_7 =>
    exact domain_adjustAll_lost _ run.image s (fun e _ => committedOf_reclaim_owner d run asWiped e) d'
  case refine_8 =>
    have hend := endRun_of_range hw hr hj
    refine ⟨fun ha => ?_, fun ha hl => ?_, fun ha hl => ?_⟩
    · exact hend.trans (if_pos ha)
    · exact hend.trans ((if_neg (Bool.eq_false_iff.mp ha)).trans (if_pos hl))
    · exact hend.trans ((if_neg (Bool.eq_false_iff.mp ha)).trans (if_neg (Nat.not_lt.mpr hl)))

end Sys2Proof.Proofs
